-- ==== Sys2Proof/Word.lean ====
section
/-! DEFINITION. The unit of data: every transfer of the engine moves whole bytes (20_memory.md R68). -/

namespace Sys2Proof

/-- A byte, 8 bits, bit 0 the least significant (00_scope.md R11). -/
abbrev Byte := BitVec 8

/-- A CS address: a 4-bit number (20_memory.md R61). -/
abbrev CsAddr := BitVec 4

end Sys2Proof
end

