-- ==== Sys2Proof/Config.lean ====
section
/-! DEFINITION. What a model parameter fixes (00_scope.md section 4): the constants of R6, the Device
Profile of R7, the engine configuration of R9 and the encoding constants of R10; and the free values,
opaque constants about which nothing can be proved. -/

namespace Sys2Proof

/-- `SYNC` (00_scope.md R6). -/
def SYNC : Byte := 0x55
/-- `BREAK_MIN_BITS` (R6): a break is low for strictly more bit-times than this. -/
def breakMinBits : Nat := 24
/-- `REPEAT_MAX` (R6). -/
def repeatMax : Nat := 256

/-- The Device Profile (00_scope.md R7). `userRow` and `lock` regions are not paged (R8). -/
structure Profile where
  nvmBase : Nat
  flashBase : Nat
  flashSize : Nat
  flashPage : Nat
  eepromBase : Nat
  eepromSize : Nat
  eepromPage : Nat
  fuseBase : Nat
  fuseCount : Nat
  userRowBase : Nat
  userRowSize : Nat
  lockBase : Nat
  lockSize : Nat
  /-- `SIG_EXPECTED`, carried and never used (43_session.md R274; log entry 34). -/
  sigExpected : Nat
  addrBytes : Nat
  keyProg : List Byte
  keyErase : List Byte
deriving DecidableEq, Repr, Inhabited

/-- `KEY_TX_ORDER` (00_scope.md R10). -/
inductive KeyOrder where
  | reversed
  | forward
deriving DecidableEq, Repr, Inhabited

/-- The parity bit of a frame. -/
inductive ParityRule where
  | even
  | odd
  /-- always 0 -/
  | zero
  /-- always 1 -/
  | one
deriving DecidableEq, Repr, Inhabited

/-- `FRAME` (00_scope.md R10): what may vary within the twelve bit-times that 10_state.md R31 and 40_phy.md
R131, R132 fix. Which values besides the default it may take is a DESIGN CHOICE (log entry 17). -/
structure FrameFormat where
  /-- The data bits travel most significant first. -/
  msbFirst : Bool
  parity : ParityRule
deriving DecidableEq, Repr, Inhabited

/-- The default of `FRAME` (00_scope.md R10, 30_encoding.md R91): least significant first, even parity. -/
def frameDefault : FrameFormat where
  msbFirst := false
  parity := .even

/-- The parameters of 00_scope.md R9 and R10. -/
structure Config where
  /-- `BAUD` -/
  baud : Nat
  breakBits : Nat
  breakGuardBits : Nat
  syncAttempts : Nat
  tSync : Nat
  tEcho : Nat
  tByte : Nat
  tNvm : Nat
  nvmPollInterval : Nat
  repeatThreshold : Nat
  openCsWrites : List (CsAddr × Byte)
  cleanupReset : Bool
  opcLds : BitVec 3
  opcLd : BitVec 3
  opcSts : BitVec 3
  opcSt : BitVec 3
  opcLdcs : BitVec 3
  opcRepeat : BitVec 3
  opcStcs : BitVec 3
  opcKey : BitVec 3
  ack : Byte
  /-- `FRAME` -/
  frame : FrameFormat
  /-- `PTR_MODE_IND`: never emitted (30_encoding.md R100). -/
  ptrModeInd : BitVec 2
  ptrModeInc : BitVec 2
  ptrModeReg : BitVec 2
  keyTxOrder : KeyOrder
  keyLen : Nat
  csCtrlAddr : CsAddr
  csCtrlDefault : Byte
  csProgStatusAddr : CsAddr
  progModeMask : Byte
  csResetAddr : CsAddr
  resetAssert : Byte
  resetRelease : Byte
  nvmCtrlaOff : Nat
  nvmStatusOff : Nat
  nvmDataOff : Nat
  nvmAddrOff : Nat
  nvmBusyMask : Byte
  nvmErrMask : Byte
  cmdWritePage : Byte
  cmdErasePage : Byte
  cmdChipErase : Byte
  cmdEepromErase : Byte
  cmdWriteFuse : Byte
deriving DecidableEq, Repr, Inhabited

/-- The configuration of EX1 (95_test_vectors.md section 0.1): the defaults of 00_scope.md R10 and the
example engine configuration. `BAUD` and the five times are symbolic in EX1; the numbers here are a
DESIGN CHOICE (log entry 2). -/
def Config.ex1 : Config where
  baud := 115200
  breakBits := 25
  breakGuardBits := 1
  syncAttempts := 3
  tSync := 100
  tEcho := 100
  tByte := 100
  tNvm := 5
  nvmPollInterval := 2
  repeatThreshold := 1
  openCsWrites := []
  cleanupReset := false
  opcLds := 0b000
  opcLd := 0b001
  opcSts := 0b010
  opcSt := 0b011
  opcLdcs := 0b100
  opcRepeat := 0b101
  opcStcs := 0b110
  opcKey := 0b111
  ack := 0x40
  frame := frameDefault
  ptrModeInd := 0b00
  ptrModeInc := 0b01
  ptrModeReg := 0b10
  keyTxOrder := .reversed
  keyLen := 8
  csCtrlAddr := 0x3
  csCtrlDefault := 0x00
  csProgStatusAddr := 0xB
  progModeMask := 0x08
  csResetAddr := 0x8
  resetAssert := 0x59
  resetRelease := 0x00
  nvmCtrlaOff := 0x00
  nvmStatusOff := 0x02
  nvmDataOff := 0x06
  nvmAddrOff := 0x08
  nvmBusyMask := 0x03
  nvmErrMask := 0x04
  cmdWritePage := 0x01
  cmdErasePage := 0x02
  cmdChipErase := 0x05
  cmdEepromErase := 0x06
  cmdWriteFuse := 0x07

/-- "NVMProg " (00_scope.md R10). -/
def keyNvmProg : List Byte := [0x4E, 0x56, 0x4D, 0x50, 0x72, 0x6F, 0x67, 0x20]
/-- "NVMErase" (00_scope.md R10). -/
def keyNvmErase : List Byte := [0x4E, 0x56, 0x4D, 0x45, 0x72, 0x61, 0x73, 0x65]

/-- The profile of EX1 (95_test_vectors.md section 0.1). -/
def Profile.ex1 : Profile where
  nvmBase := 0x1000
  flashBase := 0x8000
  flashSize := 0x2000
  flashPage := 64
  eepromBase := 0x1400
  eepromSize := 128
  eepromPage := 32
  fuseBase := 0x1280
  fuseCount := 6
  userRowBase := 0x1300
  userRowSize := 32
  lockBase := 0x128A
  lockSize := 1
  sigExpected := 0x1E9320
  addrBytes := 2
  keyProg := keyNvmProg
  keyErase := keyNvmErase

/-- The profile of EX3 (95_test_vectors.md section 0.2). -/
def Profile.ex3 : Profile :=
  { Profile.ex1 with addrBytes := 3, flashBase := 0x800000, flashSize := 0x20000, flashPage := 512 }

/-- The value the register `profile` holds before the first `open`: DESIGN CHOICE (log entry 11). -/
def Profile.blank : Profile where
  nvmBase := 0
  flashBase := 0
  flashSize := 0
  flashPage := 0
  eepromBase := 0
  eepromSize := 0
  eepromPage := 0
  fuseBase := 0
  fuseCount := 0
  userRowBase := 0
  userRowSize := 0
  lockBase := 0
  lockSize := 0
  sigExpected := 0
  addrBytes := 0
  keyProg := []
  keyErase := []

/-- What the environment does during one byte-port primitive or one stretch of idle line
(00_scope.md R15, 60_exceptions.md R300; log entries 12, 13 and 35). -/
structure Draw where
  /-- The primitive answers `ioerror` (R300: a draw of the environment). -/
  ioerror : Bool := false
  /-- The level the target drives in each bit-time, first first; 1 after the list's end. -/
  drive : List Bool := []
  /-- How much `now` grows beyond what the primitive itself takes (log entry 14). -/
  dt : Nat := 0
  /-- A `TrWrite` that answers `ioerror` had sent this many bit-times of its frames (log entry 35). -/
  sent : Nat := 0
  /-- What the engine transmits during this call does not reach its own receive half: the echo is lost
  without a malformed frame (20_memory.md R75; log entry 36). -/
  cut : Bool := false
deriving DecidableEq, Repr, Inhabited

/-- FREE VALUE (log entry 12): what the environment does once its script is used up. -/
opaque Config.freeDraw : Nat → Draw

/-- FREE VALUE (log entry 30): how many status reads of T0 show busy after a command
(20_memory.md R85: "a finite, unknown number of reads"). -/
opaque Config.freeBusyReads : Nat → Nat

/-- FREE VALUE (log entry 38): how long T0 takes to begin an answer, in time and in idle bit-times
(20_memory.md R77: "finite and unknown"). -/
opaque Config.freeDelay : Nat → Nat × Nat

/-- FREE VALUE (log entry 31): what T0's pointer holds, before it is cut to the pointer's width, when a
value that does not fit is put there or when it is incremented past its largest value (00_scope.md R12
(e), 93_implementation_defined.md U7). -/
opaque Config.freePointer : Nat → Nat

/-- FREE VALUE (log entry 31): byte `i` of T0's answer to a pointer read narrower than the pointer's value
(00_scope.md R12 (e)). -/
opaque Config.freePointerByte : Nat → Nat → Byte

end Sys2Proof
end

