-- ==== Sys2Proof/Syntax.lean ====
section
/-! DEFINITION. The instructions: one constructor for each row of spec/opcode_table.json, 18 wire
instructions (30_encoding.md R107) and 26 commands (R115). Also what stands at the engine's inputs. -/

namespace Sys2Proof

/-- The opcode table. Arguments of commands are naturals where a value outside the operation's domain
can be presented and is `REFUSED` (60_exceptions.md R283). -/
inductive Instr where
  -- wire instructions
  | ldcs (a : CsAddr)
  | stcs (a : CsAddr) (v : Byte)
  | lds1 (addr : BitVec 8)
  | lds2 (addr : BitVec 16)
  | lds3 (addr : BitVec 24)
  | sts1 (addr : BitVec 8) (v : Byte)
  | sts2 (addr : BitVec 16) (v : Byte)
  | sts3 (addr : BitVec 24) (v : Byte)
  | stptr1 (p : BitVec 8)
  | stptr2 (p : BitVec 16)
  | stptr3 (p : BitVec 24)
  | ldptr1
  | ldptr2
  | ldptr3
  /-- `more`: the further data bytes under a REPEAT of that many (R104). -/
  | stinc (v : Byte) (more : List Byte)
  /-- `more`: how many answers follow the first under REPEAT (R104). -/
  | ldinc (more : Nat)
  /-- REPEAT n: the operand byte is n - 1 (R102). -/
  | repeatNext (n : Nat)
  /-- The key as the profile spells it; it travels in `KEY_TX_ORDER` (R103). -/
  | key (k : List Byte)
  -- commands
  | getStatus
  | openSession (p : Profile) (port : Nat)
  | enterProgrammingMode
  | closeSession (resetTarget : Bool)
  | initLink
  | sendBytes (bs : List Byte)
  | receiveBytes (n timeout : Nat)
  | csRead (address : Nat)
  | csWrite (address value : Nat)
  | lds (address sizeBytes : Nat)
  | sts (address value sizeBytes : Nat)
  | stPtr (address : Nat)
  | ldPtr
  | stPtrInc (block : List Byte) (rep : Bool)
  | ldPtrInc (n : Nat) (rep : Bool)
  | keyWrite (k : List Byte)
  | unlockChipEraseKey
  | waitNvmReady
  | chipErase
  | writePage (region offset : Nat) (data : List Byte)
  | readBytes (region offset length : Nat)
  | readFuse (index : Nat)
  | writeFuse (index value : Nat)
  | erasePage (region offset : Nat)
  | eepromErase
  | crcCheck
deriving DecidableEq, Repr

/-- The 18 rows of 30_encoding.md R107, without their operands. -/
inductive WireOp where
  | ldcs | stcs | lds1 | lds2 | lds3 | sts1 | sts2 | sts3
  | stptr1 | stptr2 | stptr3 | ldptr1 | ldptr2 | ldptr3
  | stinc | ldinc | repeatNext | key
deriving DecidableEq, Repr

/-- The argument record of the command port (30_encoding.md R115, 60_exceptions.md R301): one field for
each argument any command takes; a command reads its own and ignores the rest. The record has no
layout in bits (log entry 7). -/
structure Args where
  profile : Profile := Profile.blank
  port : Nat := 0
  resetTarget : Bool := false
  /-- `seq`, `data_block`, `data` or `key` -/
  bytes : List Byte := []
  n : Nat := 0
  timeout : Nat := 0
  address : Nat := 0
  /-- `byte`, `data` (of `sts`) or `value` -/
  value : Nat := 0
  sizeBytes : Nat := 0
  rep : Bool := false
  region : Nat := 0
  offset : Nat := 0
  length : Nat := 0
  index : Nat := 0
deriving DecidableEq, Repr

/-- What is presented to the engine as an instruction: a command at the command port, or the bytes of
one wire instruction with the repeat count armed before it (log entries 4 and 5). -/
inductive Request where
  | command (op : Byte) (args : Args)
  | wire (armed : Nat) (bytes : List Byte)
deriving DecidableEq, Repr

/-- What the outside world can do to the engine between two steps: present a request, assert the reset
input (70_reset_and_hazards.md R320), or let the line idle (60_exceptions.md R298). -/
inductive Input where
  | request (r : Request)
  | reset
  | idle
deriving DecidableEq, Repr

end Sys2Proof
end

