-- ==== Sys2Proof/WellFormed.lean ====
section
/-! DEFINITION. When an instruction's operands are in the domain its encoding or operation states
without reference to the machine's state (00_scope.md R12, 30_encoding.md R104, R116, 41_datalink.md
R174, 42_nvm.md R220 (2)); and when a configuration meets the constraints of R9 and R324. -/

namespace Sys2Proof

/-- `A < 2^(8·s)` with `s` in `ADDR_SIZES` (00_scope.md R12 (a), R6). -/
def addrFits (address sizeBytes : Nat) : Bool :=
  (1 ≤ sizeBytes && sizeBytes ≤ 3) && decide (address < 2 ^ (8 * sizeBytes))

/-- The static operand checks. -/
def Instr.wf (c : Config) : Instr → Bool
  | .ldcs _ => true
  | .stcs _ _ => true
  | .lds1 _ => true
  | .lds2 _ => true
  | .lds3 _ => true
  | .sts1 _ _ => true
  | .sts2 _ _ => true
  | .sts3 _ _ => true
  | .stptr1 _ => true
  | .stptr2 _ => true
  | .stptr3 _ => true
  | .ldptr1 => true
  | .ldptr2 => true
  | .ldptr3 => true
  | .stinc _ more => decide (more.length < repeatMax)
  | .ldinc more => decide (more < repeatMax)
  | .repeatNext n => decide (1 ≤ n) && decide (n ≤ repeatMax)
  | .key k => decide (k.length = c.keyLen)
  | .getStatus => true
  | .openSession _ _ => true
  | .enterProgrammingMode => true
  | .closeSession _ => true
  | .initLink => true
  | .sendBytes _ => true
  | .receiveBytes _ _ => true
  | .csRead address => decide (address ≤ 0x0F)
  | .csWrite address value => decide (address ≤ 0x0F) && decide (value ≤ 0xFF)
  | .lds address sizeBytes => addrFits address sizeBytes
  | .sts address value sizeBytes => addrFits address sizeBytes && decide (value ≤ 0xFF)
  | .stPtr address => decide (address < 2 ^ 24)
  | .ldPtr => true
  | .stPtrInc block rep => !rep || decide (block.length ≤ repeatMax)
  | .ldPtrInc n rep => !rep || decide (n ≤ repeatMax)
  | .keyWrite k => decide (k.length = c.keyLen)
  | .unlockChipEraseKey => true
  | .waitNvmReady => true
  | .chipErase => true
  | .writePage region _ _ => decide (region ≤ 1)
  | .readBytes region _ _ => decide (region ≤ 4)
  | .readFuse _ => true
  | .writeFuse _ value => decide (value ≤ 0xFF)
  | .erasePage region _ => decide (region ≤ 1)
  | .eepromErase => true
  | .crcCheck => true

/-- The configuration constraints of 00_scope.md R9 and 70_reset_and_hazards.md R324 (1). -/
def Config.wf (c : Config) : Bool :=
  decide (0 < c.baud) && decide (breakMinBits < c.breakBits) && decide (1 ≤ c.breakGuardBits)
    && decide (1 ≤ c.syncAttempts) && decide (1 ≤ c.repeatThreshold)

/-- The eight class codes are distinct and the two emitted pointer modes differ: what a parser of the
line needs (30_encoding.md R109). The defaults of R98 and R100 meet it;
00_scope.md R10 does not ask for it (log entry 39). -/
def Config.codesDistinct (c : Config) : Bool :=
  decide ([c.opcLds, c.opcLd, c.opcSts, c.opcSt, c.opcLdcs, c.opcRepeat, c.opcStcs, c.opcKey].Nodup)
    && decide (c.ptrModeInc ≠ c.ptrModeReg)

end Sys2Proof
end

