-- ==== Sys2Proof/Decode.lean ====
section
/-! DEFINITION. Encodings (30_encoding.md): byte order, opcode bytes, the parser of wire instructions
(R109), the command table (R115), and after them the encoder. -/

namespace Sys2Proof

/-! ### Byte order and the key's order -/

/-- `le(A, s)` (00_scope.md R12 (e)). -/
def le (a : Nat) : Nat → List Byte
  | 0 => []
  | s + 1 => BitVec.ofNat 8 a :: le (a / 256) s

/-- `unle(bs)` (00_scope.md R12 (e)). -/
def unle : List Byte → Nat
  | [] => 0
  | b :: bs => b.toNat + 256 * unle bs

/-- `ord(key)`: line order of the key bytes, and back (30_encoding.md R105 (c), 41_datalink.md R205). -/
def keyOrd (c : Config) (k : List Byte) : List Byte :=
  match c.keyTxOrder with
  | .reversed => k.reverse
  | .forward => k

/-! ### Opcode bytes -/

/-- class in bits 7..5, bit 4 zero, A in bits 3..2, B in bits 1..0 (30_encoding.md R97). -/
def opcodeByte (cls : BitVec 3) (a b : BitVec 2) : Byte := cls ++ 0#1 ++ a ++ b

/-- class in bits 7..5, bit 4 zero, the CS address in bits 3..0 (R97, R101). -/
def csOpcodeByte (cls : BitVec 3) (a : CsAddr) : Byte := cls ++ 0#1 ++ a

/-- `LDCS(a)` (R101). -/
def opLdcs (c : Config) (a : CsAddr) : Byte := csOpcodeByte c.opcLdcs a
/-- `STCS(a)` (R101). -/
def opStcs (c : Config) (a : CsAddr) : Byte := csOpcodeByte c.opcStcs a
/-- `LDS(s)` (R99). -/
def opLds (c : Config) (s : Nat) : Byte := opcodeByte c.opcLds (BitVec.ofNat 2 (s - 1)) 0
/-- `STS(s)` (R99). -/
def opSts (c : Config) (s : Nat) : Byte := opcodeByte c.opcSts (BitVec.ofNat 2 (s - 1)) 0
/-- `ST_PTR(w)` (R100). -/
def opStPtr (c : Config) (w : Nat) : Byte := opcodeByte c.opcSt c.ptrModeReg (BitVec.ofNat 2 (w - 1))
/-- `LD_PTR(w)` (R100). -/
def opLdPtr (c : Config) (w : Nat) : Byte := opcodeByte c.opcLd c.ptrModeReg (BitVec.ofNat 2 (w - 1))
/-- `ST_INC` (R100). -/
def opStInc (c : Config) : Byte := opcodeByte c.opcSt c.ptrModeInc 0
/-- `LD_INC` (R100). -/
def opLdInc (c : Config) : Byte := opcodeByte c.opcLd c.ptrModeInc 0
/-- `REPEAT` (R102). -/
def opRepeat (c : Config) : Byte := opcodeByte c.opcRepeat 0 0
/-- `KEY` (R103). -/
def opKey (c : Config) : Byte := opcodeByte c.opcKey 0 0

/-- The opcode byte of a row of R107, with CS address 0 for LDCS and STCS. -/
def wireOpcode (c : Config) : WireOp → Byte
  | .ldcs => opLdcs c 0
  | .stcs => opStcs c 0
  | .lds1 => opLds c 1
  | .lds2 => opLds c 2
  | .lds3 => opLds c 3
  | .sts1 => opSts c 1
  | .sts2 => opSts c 2
  | .sts3 => opSts c 3
  | .stptr1 => opStPtr c 1
  | .stptr2 => opStPtr c 2
  | .stptr3 => opStPtr c 3
  | .ldptr1 => opLdPtr c 1
  | .ldptr2 => opLdPtr c 2
  | .ldptr3 => opLdPtr c 3
  | .stinc => opStInc c
  | .ldinc => opLdInc c
  | .repeatNext => opRepeat c
  | .key => opKey c

/-- The bits a row of R107 fixes: 0xF0 for LDCS and STCS, 0xFF otherwise (R109). -/
def wireMask : WireOp → Byte
  | .ldcs => 0xF0
  | .stcs => 0xF0
  | _ => 0xFF

/-- The rows of R107 in its order. -/
def wireOps : List WireOp :=
  [.ldcs, .stcs, .lds1, .lds2, .lds3, .sts1, .sts2, .sts3, .stptr1, .stptr2, .stptr3,
    .ldptr1, .ldptr2, .ldptr3, .stinc, .ldinc, .repeatNext, .key]

/-- The row of an opcode byte, if it is one of R107's (R109). Where encoding parameters coincide and two rows
match, the first in the table's order is taken (DESIGN CHOICE, log entry 39). -/
def lookupWire (c : Config) (opc : Byte) : Option WireOp :=
  wireOps.find? fun o => opc &&& wireMask o == wireOpcode c o

/-! ### Decoding -/

/-- Why a request is no instruction. -/
inductive Reject where
  /-- 30_encoding.md R116: a `cmd_op` not in R115's table. -/
  | unknownCommand (op : Byte)
  /-- R96: a wire instruction begins with SYNC. -/
  | noSync
  /-- R108: an opcode byte the engine never emits. -/
  | unknownOpcode (opc : Byte)
  /-- R104: fewer bytes than the instruction has. -/
  | truncated
deriving DecidableEq, Repr

/-- The first `n` bytes and the rest, if there are that many. -/
def splitBytes (n : Nat) (bs : List Byte) : Option (List Byte × List Byte) :=
  if n ≤ bs.length then some (bs.take n, bs.drop n) else none

/-- An address operand of `s` bytes (30_encoding.md R105 (a)) and what follows it. -/
def splitAddr (s : Nat) (bs : List Byte) : Option (Nat × List Byte) :=
  (splitBytes s bs).map fun x => (unle x.1, x.2)

/-- An address operand and one data byte. -/
def splitAddrByte (s : Nat) (bs : List Byte) : Option (Nat × Byte × List Byte) :=
  match splitAddr s bs with
  | some (a, v :: rest) => some (a, v, rest)
  | _ => none

/-- The operands R104 gives the row, read from the bytes after the opcode byte. `armed` is the count of
the REPEAT before the instruction: it says how many data bytes or answers follow the first. -/
def decodeOperands (c : Config) (armed : Nat) (opc : Byte) (bs : List Byte) :
    WireOp → Option (Instr × List Byte)
  | .ldcs => some (.ldcs (opc.setWidth 4), bs)
  | .stcs => (splitAddr 1 bs).map fun x => (.stcs (opc.setWidth 4) (BitVec.ofNat 8 x.1), x.2)
  | .lds1 => (splitAddr 1 bs).map fun x => (.lds1 (BitVec.ofNat 8 x.1), x.2)
  | .lds2 => (splitAddr 2 bs).map fun x => (.lds2 (BitVec.ofNat 16 x.1), x.2)
  | .lds3 => (splitAddr 3 bs).map fun x => (.lds3 (BitVec.ofNat 24 x.1), x.2)
  | .sts1 => (splitAddrByte 1 bs).map fun x => (.sts1 (BitVec.ofNat 8 x.1) x.2.1, x.2.2)
  | .sts2 => (splitAddrByte 2 bs).map fun x => (.sts2 (BitVec.ofNat 16 x.1) x.2.1, x.2.2)
  | .sts3 => (splitAddrByte 3 bs).map fun x => (.sts3 (BitVec.ofNat 24 x.1) x.2.1, x.2.2)
  | .stptr1 => (splitAddr 1 bs).map fun x => (.stptr1 (BitVec.ofNat 8 x.1), x.2)
  | .stptr2 => (splitAddr 2 bs).map fun x => (.stptr2 (BitVec.ofNat 16 x.1), x.2)
  | .stptr3 => (splitAddr 3 bs).map fun x => (.stptr3 (BitVec.ofNat 24 x.1), x.2)
  | .ldptr1 => some (.ldptr1, bs)
  | .ldptr2 => some (.ldptr2, bs)
  | .ldptr3 => some (.ldptr3, bs)
  | .stinc =>
    match splitBytes (armed + 1) bs with
    | some (v :: more, rest) => some (.stinc v more, rest)
    | _ => none
  | .ldinc => some (.ldinc armed, bs)
  | .repeatNext => (splitAddr 1 bs).map fun x => (.repeatNext (x.1 + 1), x.2)
  | .key => (splitBytes c.keyLen bs).map fun x => (.key (keyOrd c x.1), x.2)

/-- The parser of R109: SYNC, one opcode byte, its operands; the bytes after the instruction are
returned. -/
def decodeWire (c : Config) (armed : Nat) : List Byte → Except Reject (Instr × List Byte)
  | sync :: opc :: rest =>
    if sync = SYNC then
      match lookupWire c opc with
      | some o =>
        match decodeOperands c armed opc rest o with
        | some x => .ok x
        | none => .error .truncated
      | none => .error (.unknownOpcode opc)
    else .error .noSync
  | _ => .error .truncated

/-- The table of 30_encoding.md R115. -/
def decodeCommand (op : Byte) (a : Args) : Option Instr :=
  match op.toNat with
  | 0x00 => some .getStatus
  | 0x01 => some (.openSession a.profile a.port)
  | 0x02 => some .enterProgrammingMode
  | 0x03 => some (.closeSession a.resetTarget)
  | 0x10 => some .initLink
  | 0x11 => some (.sendBytes a.bytes)
  | 0x12 => some (.receiveBytes a.n a.timeout)
  | 0x20 => some (.csRead a.address)
  | 0x21 => some (.csWrite a.address a.value)
  | 0x22 => some (.lds a.address a.sizeBytes)
  | 0x23 => some (.sts a.address a.value a.sizeBytes)
  | 0x24 => some (.stPtr a.address)
  | 0x25 => some .ldPtr
  | 0x26 => some (.stPtrInc a.bytes a.rep)
  | 0x27 => some (.ldPtrInc a.n a.rep)
  | 0x28 => some (.keyWrite a.bytes)
  | 0x30 => some .unlockChipEraseKey
  | 0x31 => some .waitNvmReady
  | 0x32 => some .chipErase
  | 0x33 => some (.writePage a.region a.offset a.bytes)
  | 0x34 => some (.readBytes a.region a.offset a.length)
  | 0x35 => some (.readFuse a.index)
  | 0x36 => some (.writeFuse a.index a.value)
  | 0x37 => some (.erasePage a.region a.offset)
  | 0x38 => some .eepromErase
  | 0x39 => some .crcCheck
  | _ => none

/-- The instruction a request stands for, or why it is none. -/
def decode (c : Config) : Request → Except Reject Instr
  | .command op args =>
    match decodeCommand op args with
    | some i => .ok i
    | none => .error (.unknownCommand op)
  | .wire armed bytes => (decodeWire c armed bytes).map (·.1)

/-! ### The words of spec/opcode_table.json -/

/-- The `n` low bytes of `w`, first byte first. -/
def tableBytes (w : Nat) : Nat → List Byte
  | 0 => []
  | n + 1 => BitVec.ofNat 8 w :: tableBytes (w / 256) n

/-- The request that stands for a word of the opcode table. The table lists two instruction spaces of
one-byte codes; a word of one byte that is a command code is that command with every argument 0 or
empty, any other word is the opcode byte and operands of a wire instruction, followed by zeros (log
entries 6, 7). -/
def tableRequest (nbits w : Nat) : Request :=
  let bytes := tableBytes w (nbits / 8)
  let wire : Request := .wire 0 (SYNC :: bytes ++ List.replicate 16 0)
  if nbits ≤ 8 then
    match decodeCommand (bytes.headD 0) {} with
    | some _ => .command (bytes.headD 0) {}
    | none => wire
  else wire

/-- The decoder's answer for a word of the opcode table, at the default encodings. -/
def decodeTableWord (nbits w : Nat) : Option Instr :=
  match decode Config.ex1 (tableRequest nbits w) with
  | .ok i => some i
  | .error _ => none

/-! ### Encoding -/

/-- How a request spells an instruction: a wire instruction as R104 and R105 give its bytes, a command
as R115's code and arguments. -/
def encode (c : Config) : Instr → Request
  | .ldcs a => .wire 0 [SYNC, opLdcs c a]
  | .stcs a v => .wire 0 [SYNC, opStcs c a, v]
  | .lds1 a => .wire 0 ([SYNC, opLds c 1] ++ le a.toNat 1)
  | .lds2 a => .wire 0 ([SYNC, opLds c 2] ++ le a.toNat 2)
  | .lds3 a => .wire 0 ([SYNC, opLds c 3] ++ le a.toNat 3)
  | .sts1 a v => .wire 0 ([SYNC, opSts c 1] ++ le a.toNat 1 ++ [v])
  | .sts2 a v => .wire 0 ([SYNC, opSts c 2] ++ le a.toNat 2 ++ [v])
  | .sts3 a v => .wire 0 ([SYNC, opSts c 3] ++ le a.toNat 3 ++ [v])
  | .stptr1 p => .wire 0 ([SYNC, opStPtr c 1] ++ le p.toNat 1)
  | .stptr2 p => .wire 0 ([SYNC, opStPtr c 2] ++ le p.toNat 2)
  | .stptr3 p => .wire 0 ([SYNC, opStPtr c 3] ++ le p.toNat 3)
  | .ldptr1 => .wire 0 [SYNC, opLdPtr c 1]
  | .ldptr2 => .wire 0 [SYNC, opLdPtr c 2]
  | .ldptr3 => .wire 0 [SYNC, opLdPtr c 3]
  | .stinc v more => .wire more.length ([SYNC, opStInc c, v] ++ more)
  | .ldinc more => .wire more [SYNC, opLdInc c]
  | .repeatNext n => .wire 0 [SYNC, opRepeat c, BitVec.ofNat 8 (n - 1)]
  | .key k => .wire 0 ([SYNC, opKey c] ++ keyOrd c k)
  | .getStatus => .command 0x00 {}
  | .openSession p port => .command 0x01 { profile := p, port := port }
  | .enterProgrammingMode => .command 0x02 {}
  | .closeSession r => .command 0x03 { resetTarget := r }
  | .initLink => .command 0x10 {}
  | .sendBytes bs => .command 0x11 { bytes := bs }
  | .receiveBytes n t => .command 0x12 { n := n, timeout := t }
  | .csRead a => .command 0x20 { address := a }
  | .csWrite a v => .command 0x21 { address := a, value := v }
  | .lds a s => .command 0x22 { address := a, sizeBytes := s }
  | .sts a v s => .command 0x23 { address := a, value := v, sizeBytes := s }
  | .stPtr a => .command 0x24 { address := a }
  | .ldPtr => .command 0x25 {}
  | .stPtrInc b r => .command 0x26 { bytes := b, rep := r }
  | .ldPtrInc n r => .command 0x27 { n := n, rep := r }
  | .keyWrite k => .command 0x28 { bytes := k }
  | .unlockChipEraseKey => .command 0x30 {}
  | .waitNvmReady => .command 0x31 {}
  | .chipErase => .command 0x32 {}
  | .writePage r o d => .command 0x33 { region := r, offset := o, bytes := d }
  | .readBytes r o n => .command 0x34 { region := r, offset := o, length := n }
  | .readFuse i => .command 0x35 { index := i }
  | .writeFuse i v => .command 0x36 { index := i, value := v }
  | .erasePage r o => .command 0x37 { region := r, offset := o }
  | .eepromErase => .command 0x38 {}
  | .crcCheck => .command 0x39 {}

end Sys2Proof
end

