-- ==== Sys2Proof/Machine/State.lean ====
section
/-! DEFINITION. The state of UPDI-PE as plain data: the registers of 10_state.md R21 to R38, the
parameters, and the environment the engine works against (00_scope.md R15). State.reset is 10_state.md
R41. -/

namespace Sys2Proof.Machine

/-! ### Modes and sequencer states -/

/-- `ses_state` (10_state.md R21). -/
inductive SesState where
  | closed | linkEstablished | unlocked | programming
deriving DecidableEq, Repr, Inhabited

/-- `phy_state` (10_state.md R25). -/
inductive PhyState where
  | idle | setBaud | brk | guard | syncTx | syncEcho | tx | echo | rx
deriving DecidableEq, Repr, Inhabited

/-- `dl_state` (10_state.md R29). -/
inductive DlState where
  | idle | txRepeat | txInstr | rxAckAddr | txData | rxAckData | rxData
deriving DecidableEq, Repr, Inhabited

/-- `nvm_state` (10_state.md R33). -/
inductive NvmState where
  | idle | check | setPtr | load | addr | cmd | pollRead | pollEval | pollWait | read
deriving DecidableEq, Repr, Inhabited

/-! ### Errors and their record -/

/-- The outcomes of 60_exceptions.md R281, in its order. `verification` and `parse` are the host's and
never delivered by the engine (43_session.md R273). -/
inductive Code where
  | ok | transport | linkInit | linkTimeout | protocolAck | nvmBusyTimeout | alignment
  | invalidPageSize | invalidFuseIndex | verification | deviceNotResponding | unlock | parse | refused
deriving DecidableEq, Repr, Inhabited

/-- `layer` of the error record (R282). -/
inductive Layer where
  | phy | dl | nvm | ses
deriving DecidableEq, Repr, Inhabited

/-- An operation name in the error record (R282): the byte-port primitives and the operations of the
four layers. -/
inductive OpName where
  | trOpen | trSetBaud | trBreak | trWrite | trRead | trClose
  | initLink | sendBytes | receiveBytes
  | csRead | csWrite | lds | sts | stPtr | ldPtr | stPtrInc | ldPtrInc | keyWrite | repeatNext
  | unlockChipEraseKey | waitNvmReady | chipErase | writePage | readBytes | readFuse | writeFuse
  | erasePage | eepromErase
  | openSession | enterProgrammingMode
deriving DecidableEq, Repr, Inhabited

/-- `phase` of the error record (R282). -/
inductive Phase where
  | echo | response | address | data
deriving DecidableEq, Repr, Inhabited

/-- `got` of the error record: a byte, or no answer (R282). -/
inductive Got where
  | byte (b : Byte)
  | timeout
deriving DecidableEq, Repr, Inhabited

/-- The error record without its `cause` (60_exceptions.md R282). A field the raising rule does not
supply is absent. `op` lists the innermost operation first (log entry 20). -/
structure ErrBase where
  layer : Option Layer := none
  op : List OpName := []
  addr : Option Nat := none
  /-- the address of the NVM command a DL error ended (42_nvm.md R223; log entry 21) -/
  nvmAddr : Option Nat := none
  phase : Option Phase := none
  wanted : Option Nat := none
  expected : Option Byte := none
  got : Option Got := none
  attempts : Option Nat := none
  status : Option Byte := none
  region : Option Nat := none
  offset : Option Nat := none
  page : Option Nat := none
  length : Option Nat := none
  index : Option Nat := none
  count : Option Nat := none
deriving DecidableEq, Repr, Inhabited

/-- `rsp_info`: the error record of R282. A wrapped error is never itself a wrapper (43_session.md
R260, R263), so one level of `cause` is all there is (log entry 22). -/
structure ErrInfo where
  base : ErrBase := {}
  cause : Option (Code × ErrBase) := none
deriving DecidableEq, Repr, Inhabited

/-! ### Registers, block by block -/

/-- The line halves of PHY: the transmit and receive shift registers (10_state.md R31) and what the
receive half hands on (R28). `rxPrev` is the model's own: the last sampled line level, needed for the
1-to-0 change of 40_phy.md R132 (log entry 15). -/
structure Line where
  /-- `line_tx` -/
  lineTx : Bool
  txShift : BitVec 12
  txCnt : Nat
  rxShift : BitVec 12
  rxCnt : Nat
  rxPrev : Bool
  rxFifo : List Byte
  frameErr : Bool
deriving DecidableEq, Repr, Inhabited

/-- PHY's registers (10_state.md R25 to R28, R31). -/
structure Phy where
  phyState : PhyState
  linkUp : Bool
  syncAttempt : Nat
  baudCur : Nat
  echoPending : Nat
  line : Line
deriving DecidableEq, Repr, Inhabited

/-- DL's registers (10_state.md R29, R30). -/
structure Dl where
  dlState : DlState
  opAddr : BitVec 24
  opSize : BitVec 2
  opLen : Nat
  opIdx : Nat
  dataBuf : List Byte
  respBuf : List Byte
  ackLast : Byte
deriving DecidableEq, Repr, Inhabited

/-- NVM's registers (10_state.md R33 to R35). -/
structure Nvm where
  nvmState : NvmState
  eraseKeySent : Bool
  pollDeadline : Nat
  lastStatus : Byte
  statusValid : Bool
deriving DecidableEq, Repr, Inhabited

/-- The mode register and what a session owns (10_state.md R21 to R23). -/
structure Ses where
  sesState : SesState
  profile : Profile
  trOpen : Bool
deriving DecidableEq, Repr, Inhabited

/-- The command port's registers (10_state.md R36, R37). -/
structure Rsp where
  busy : Bool
  rspStatus : Byte
  rspData : List Byte
  rspInfo : ErrInfo
deriving DecidableEq, Repr, Inhabited

/-! ### The environment -/

/-- Target memory: (address, byte) pairs in the canonical form of Machine/Memory.lean. -/
abbrev Memory := List Host.Cell

/-- Where T0's parser of the line stands (20_memory.md R77, R79, R80, 30_encoding.md R109). -/
inductive TPhase where
  /-- waits for SYNC -/
  | sync
  /-- SYNC heard, waits for the opcode byte -/
  | opcode
  /-- collects operand bytes -/
  | operands (op : WireOp) (opc : Byte) (heard : List Byte)
  /-- STS's address is acknowledged, waits for the data byte -/
  | stsData (address : Nat)
  /-- ST_INC under REPEAT: waits for a further data byte -/
  | stIncMore
deriving DecidableEq, Repr, Inhabited

/-- The ideal target T0 of 20_memory.md R75 to R87 (log entries 27 to 31, 37, 38). It is environment,
not engine. `alwaysBusy` makes it T0busy (R85). -/
structure Target where
  /-- the part's true profile -/
  prof : Profile
  /-- the 16 CS registers (R61, R78) -/
  cs : List Byte
  ptr : Nat
  /-- the repeat counter (R81) -/
  rep : Nat
  phase : TPhase
  tmem : Memory
  /-- the page buffer (R83), oldest entry first -/
  pbuf : List Host.Cell
  progKey : Bool
  eraseKey : Bool
  /-- the processor is held in reset (R86) -/
  held : Bool
  /-- status reads that will still show busy (R85) -/
  busyLeft : Nat
  /-- how long the next commands stay busy; free after the list's end (log entry 30) -/
  busyDraws : List Nat
  /-- how many free values have been used -/
  drawn : Nat
  /-- what a busy status read returns, as far as R85 leaves it open (`Target.busyStatus`) -/
  busyByte : Byte
  alwaysBusy : Bool
  /-- the bits of `PROG_MODE_MASK` that the programming key sets, if any is named (R82; log entry 37) -/
  progBits : Byte
  /-- bytes of an answer not yet on the line -/
  owed : List Byte
  /-- how much time is left until the answer begins, and the idle bit-times before it (R77) -/
  lag : Nat
  lead : Nat
  /-- the delays of the next answers, in time and idle bit-times; free after the list's end (log entry 38) -/
  delays : List (Nat × Nat)
deriving DecidableEq, Repr, Inhabited

/-- The environment: an unconstrained oracle (20_memory.md R75), given as the draws of its next
primitives and then free draws numbered from `drawn`; or the ideal target. -/
inductive Env where
  | oracle (script : List Draw) (drawn : Nat)
  | ideal (t : Target)
deriving DecidableEq, Repr, Inhabited

/-- What the engine does at its byte port (60_exceptions.md R300), and the places where it waits or
changes what the port holds: the guard part of a break, the flush of R139, the wait of R225, and idle
line between commands (R298). -/
inductive PortAct where
  | trOpen (port baud : Nat)
  | trSetBaud (baud : Nat)
  | trBreak (low guardBits : Nat)
  | breakGuard (guardBits : Nat)
  | flush
  | trWrite (bs : List Byte)
  | trRead (n timeout : Nat)
  | trClose
  | wait (d : Nat)
  | idle
deriving DecidableEq, Repr, Inhabited

/-- How it completed. -/
inductive PortAnswer where
  | done
  | bytes (bs : List Byte)
  | timeout
  | ioerror
deriving DecidableEq, Repr, Inhabited

/-- One entry of the trace: the sequencer states at the moment (10_state.md R24: they label the
positions at which the engine waits for the environment), the call, its answer (log entry 32). -/
structure Event where
  phy : PhyState
  dl : DlState
  nvm : NvmState
  act : PortAct
  answer : PortAnswer
deriving DecidableEq, Repr, Inhabited

/-! ### The whole state -/

/-- The state: parameters, the engine's registers, the environment, what the host will present, and
the trace of the byte port. Plain data. -/
structure State where
  cfg : Config
  ses : Ses
  phy : Phy
  dl : Dl
  nvm : Nvm
  rsp : Rsp
  env : Env
  /-- `now` (60_exceptions.md R296) -/
  now : Nat
  /-- what the host will present, first first (log entry 9) -/
  inputs : List Input
  /-- oldest first -/
  trace : List Event
deriving DecidableEq, Repr, Inhabited

/-- No step of this machine stops with a fault: every error is an outcome in the response registers
(60_exceptions.md R284), so the type has no constructor (safe: nothing ends in it). -/
inductive Fault where
deriving DecidableEq, Repr

/-- Why a step has no meaning. -/
inductive Refusal where
  /-- Raised by an arm of exec whose instruction has no meaning yet; safe. No arm raises it now. -/
  | notModelled (mnemonic : String)
  /-- Raised by step when the bytes at the wire slot are no wire instruction of 30_encoding.md R107
  (the engine never emits them, R108; log entry 8); safe. -/
  | noWireInstruction (why : Reject)
deriving DecidableEq, Repr

/-! ### Reset -/

/-- The line halves after reset: line released, no frame in progress (10_state.md R41). The shift
registers and `rxPrev` are a DESIGN CHOICE (log entries 11, 15). -/
def Line.reset : Line where
  lineTx := true
  txShift := 0
  txCnt := 0
  rxShift := 0
  rxCnt := 0
  rxPrev := true
  rxFifo := []
  frameErr := false

/-- The machine right after reset (10_state.md R41, 70_reset_and_hazards.md R320). Registers for which
the spec gives no value hold 0 or are empty: DESIGN CHOICE (log entry 11); the parameters are EX1's
(log entry 2); nothing is presented and every environment answer is free (log entries 9, 12). -/
def State.reset : State where
  cfg := Config.ex1
  ses := { sesState := .closed, profile := Profile.blank, trOpen := false }
  phy :=
    { phyState := .idle, linkUp := false, syncAttempt := 0, baudCur := 0, echoPending := 0,
      line := Line.reset }
  dl :=
    { dlState := .idle, opAddr := 0, opSize := 0, opLen := 0, opIdx := 0, dataBuf := [], respBuf := [],
      ackLast := 0 }
  nvm :=
    { nvmState := .idle, eraseKeySent := false, pollDeadline := 0, lastStatus := 0,
      statusValid := false }
  rsp := { busy := false, rspStatus := 0x00, rspData := [], rspInfo := {} }
  env := .oracle [] 0
  now := 0
  inputs := []
  trace := []

end Sys2Proof.Machine
end

