-- ==== Sys2Proof/Machine/Modes.lean ====
section
/-! DEFINITION. Outcome codes and error classes (60_exceptions.md R281, R286) and the mode admission
table (R292). -/

namespace Sys2Proof.Machine

/-- The 8-bit code delivered in `rsp_status` (60_exceptions.md R281). -/
def codeByte : Code → Byte
  | .ok => 0x00
  | .transport => 0x01
  | .linkInit => 0x02
  | .linkTimeout => 0x03
  | .protocolAck => 0x04
  | .nvmBusyTimeout => 0x05
  | .alignment => 0x06
  | .invalidPageSize => 0x07
  | .invalidFuseIndex => 0x08
  | .verification => 0x09
  | .deviceNotResponding => 0x0A
  | .unlock => 0x0B
  | .parse => 0x0C
  | .refused => 0xFF

/-- Errors of class link or NVM: the ones that force a cleanup (60_exceptions.md R286, R288). -/
def needsCleanup : Code → Bool
  | .transport => true
  | .linkInit => true
  | .linkTimeout => true
  | .protocolAck => true
  | .nvmBusyTimeout => true
  | .ok => false
  | .alignment => false
  | .invalidPageSize => false
  | .invalidFuseIndex => false
  | .verification => false
  | .deviceNotResponding => false
  | .unlock => false
  | .parse => false
  | .refused => false

/-- The rows of the admission table (R292). -/
inductive Admission where
  | any
  | closedOnly
  | linkOnly
  /-- PHY and DL commands -/
  | inSession
  /-- NVM commands -/
  | nvmMode
  | never
deriving DecidableEq, Repr

/-- The admission table (60_exceptions.md R292). -/
def admits : Admission → SesState → Bool
  | .any, _ => true
  | .closedOnly, .closed => true
  | .closedOnly, .linkEstablished => false
  | .closedOnly, .unlocked => false
  | .closedOnly, .programming => false
  | .linkOnly, .closed => false
  | .linkOnly, .linkEstablished => true
  | .linkOnly, .unlocked => false
  | .linkOnly, .programming => false
  | .inSession, .closed => false
  | .inSession, .linkEstablished => true
  | .inSession, .unlocked => true
  | .inSession, .programming => true
  | .nvmMode, .closed => false
  | .nvmMode, .linkEstablished => false
  | .nvmMode, .unlocked => true
  | .nvmMode, .programming => true
  | .never, _ => false

end Sys2Proof.Machine
end

