-- ==== Sys2Proof/Machine/Flags.lean ====
section
/-! DEFINITION. The one-bit results the engine computes: parity (00_scope.md R12 (f)), the status byte
(10_state.md R38), the idle test of the NVM status (42_nvm.md R225), the programming-mode test
(43_session.md R263). The engine has no arithmetic condition codes (10_state.md R39). -/

namespace Sys2Proof.Machine

/-- `parity(b)`: the exclusive-or of the eight bits (00_scope.md R12 (f)). -/
def parity (b : Byte) : Bool :=
  b.getLsbD 0 ^^ b.getLsbD 1 ^^ b.getLsbD 2 ^^ b.getLsbD 3 ^^ b.getLsbD 4 ^^ b.getLsbD 5
    ^^ b.getLsbD 6 ^^ b.getLsbD 7

/-- The encoding of `ses_state` (10_state.md R21). -/
def sesCode : SesState → BitVec 2
  | .closed => 0
  | .linkEstablished => 1
  | .unlocked => 2
  | .programming => 3

/-- The status byte (10_state.md R38), bits 7..6 reserved, then TROPEN, FERR, EKEY, LINK, SES. -/
def statusByte (s : State) : Byte :=
  0#2 ++ BitVec.ofBool s.ses.trOpen ++ BitVec.ofBool s.phy.line.frameErr
    ++ BitVec.ofBool s.nvm.eraseKeySent ++ BitVec.ofBool s.phy.linkUp ++ sesCode s.ses.sesState

/-- Idle: neither busy nor erroring (42_nvm.md R225). -/
def nvmIdle (c : Config) (status : Byte) : Bool :=
  status &&& (c.nvmBusyMask ||| c.nvmErrMask) == 0

/-- The status read shows programming mode (43_session.md R263). -/
def showsProgMode (c : Config) (status : Byte) : Bool :=
  !(status &&& c.progModeMask == 0)

end Sys2Proof.Machine
end

