-- ==== Sys2Proof/Machine/Line.lean ====
section
/-! DEFINITION. The line, one bit-time at a time: frames (30_encoding.md R91 to R93), the serialiser
(40_phy.md R131), the deserialiser (R132, R136), the wired-AND (20_memory.md R76). Of the two levels of
40_phy.md R130 this model takes the line (log entry 36). -/

namespace Sys2Proof.Machine

/-- Eight data bits, bit 0 first, as a byte. -/
def byteOfBits (d0 d1 d2 d3 d4 d5 d6 d7 : Bool) : Byte :=
  BitVec.ofBool d7 ++ BitVec.ofBool d6 ++ BitVec.ofBool d5 ++ BitVec.ofBool d4 ++ BitVec.ofBool d3
    ++ BitVec.ofBool d2 ++ BitVec.ofBool d1 ++ BitVec.ofBool d0

/-- The byte whose bit 0 travels first, and back: the byte itself, or its bits in the other order. -/
def lineOrder (f : FrameFormat) (b : Byte) : Byte :=
  if f.msbFirst then
    byteOfBits (b.getLsbD 7) (b.getLsbD 6) (b.getLsbD 5) (b.getLsbD 4) (b.getLsbD 3) (b.getLsbD 2)
      (b.getLsbD 1) (b.getLsbD 0)
  else b

/-- The parity bit of a byte's frame (30_encoding.md R92: even in the default). -/
def parityBit (f : FrameFormat) (b : Byte) : Bool :=
  match f.parity with
  | .even => parity b
  | .odd => !parity b
  | .zero => false
  | .one => true

/-- `frame(b)`: the twelve line values of a byte, first on the line first (30_encoding.md R92). -/
def frameBits (f : FrameFormat) (b : Byte) : List Bool :=
  let d := lineOrder f b
  [false, d.getLsbD 0, d.getLsbD 1, d.getLsbD 2, d.getLsbD 3, d.getLsbD 4, d.getLsbD 5, d.getLsbD 6,
    d.getLsbD 7, parityBit f b, true, true]

/-- `deframe(w)` (30_encoding.md R93); none is `malformed`. -/
def deframe (f : FrameFormat) : List Bool → Option Byte
  | [st, d0, d1, d2, d3, d4, d5, d6, d7, p, s0, s1] =>
    let b := lineOrder f (byteOfBits d0 d1 d2 d3 d4 d5 d6 d7)
    if !st && p == parityBit f b && s0 && s1 then some b else none
  | _ => none

/-- Twelve line values as a shift register, the first on the line in bit 0 (10_state.md R31). -/
def packFrame : List Bool → BitVec 12
  | [] => 0
  | v :: vs => (packFrame vs <<< 1) ||| BitVec.setWidth 12 (BitVec.ofBool v)

/-- The twelve values a shift register holds, bit 0 first. -/
def unpackFrame (w : BitVec 12) : List Bool := (List.range 12).map w.getLsbD

/-- One bit-time of the transmit half: drive the next value of the frame going out, or 1 when there is
none (40_phy.md R131). The register fills with 1s (log entry 16). -/
def Line.serialise (l : Line) : Line :=
  if l.txCnt = 0 then { l with lineTx := true }
  else
    { l with
      lineTx := l.txShift.getLsbD 0
      txShift := (l.txShift >>> 1) ||| 0x800#12
      txCnt := l.txCnt - 1 }

/-- A complete frame leaves the shift register: a byte goes into `rx_fifo`, a malformed frame sets
`frame_err` (40_phy.md R132, R136). -/
def Line.accept (f : FrameFormat) (l : Line) (w : BitVec 12) : Line :=
  match deframe f (unpackFrame w) with
  | some b => { l with rxFifo := l.rxFifo ++ [b] }
  | none => { l with frameErr := true }

/-- One bit-time of the receive half seeing the line at `v` (40_phy.md R132): between frames a change
from 1 to 0 starts a frame; within a frame the value is shifted in; `rx_cnt` is what is left. -/
def Line.sample (f : FrameFormat) (l : Line) (v : Bool) : Line :=
  let w := (l.rxShift >>> 1) ||| (if v then 0x800#12 else 0#12)
  if l.rxCnt = 0 then
    if l.rxPrev && !v then { l with rxPrev := v, rxShift := w, rxCnt := 11 }
    else { l with rxPrev := v }
  else if l.rxCnt = 1 then
    Line.accept f { l with rxPrev := v, rxShift := w, rxCnt := 0 } w
  else { l with rxPrev := v, rxShift := w, rxCnt := l.rxCnt - 1 }

/-- One bit-time: the engine drives, the target drives `target`, the receive half sees the AND
(20_memory.md R76, 40_phy.md R133). An echo lost without a malformed frame is `Line.sendUnheard` (log
entry 36). -/
def Line.tick (f : FrameFormat) (l : Line) (target : Bool) : Line :=
  l.serialise.sample f (l.serialise.lineTx && target)

/-- `n` bit-times; the target drives 1 after the end of `drive`. Returns what is left of `drive`. -/
def Line.ticks (f : FrameFormat) (l : Line) : Nat → List Bool → Line × List Bool
  | 0, drive => (l, drive)
  | n + 1, [] => Line.ticks f (l.tick f true) n []
  | n + 1, t :: drive => Line.ticks f (l.tick f t) n drive

/-- Load a byte's frame into the transmit half. -/
def Line.load (f : FrameFormat) (l : Line) (b : Byte) : Line :=
  { l with txShift := packFrame (frameBits f b), txCnt := 12 }

/-- Send bytes frame after frame with no idle bit-time between them (40_phy.md R131). -/
def Line.send (f : FrameFormat) (l : Line) : List Byte → List Bool → Line
  | [], _ => l
  | b :: bs, drive =>
    let r := (l.load f b).ticks f 12 drive
    Line.send f r.1 bs r.2

/-- Listen while the target drives the given values and the engine drives 1. -/
def Line.listen (f : FrameFormat) (l : Line) (drive : List Bool) : Line :=
  drive.foldl (Line.tick f) l

/-- Listen until `n` bytes stand in `rx_fifo` or the given values are used up: a read completes as soon
as it can (40_phy.md R134). -/
def Line.listenFor (f : FrameFormat) (n : Nat) (l : Line) : List Bool → Line
  | [] => l
  | t :: drive =>
    if n ≤ l.rxFifo.length then l else Line.listenFor f n (l.tick f t) drive

/-- The first `n` levels, 1 where there are none. -/
def levelsFor (n : Nat) (drive : List Bool) : List Bool := (List.range n).map fun i => drive.getD i true

/-- Send bytes whose frames do not come back: the receive half sees the target alone (log entry 36). -/
def Line.sendUnheard (f : FrameFormat) (l : Line) (bs : List Byte) (drive : List Bool) : Line :=
  { l.listen f (levelsFor (12 * bs.length) drive) with txShift := (l.send f bs []).txShift }

/-- The wired-AND of two stretches of levels, either at 1 after its end (20_memory.md R76). -/
def wiredAnd : List Bool → List Bool → List Bool
  | [], ys => ys
  | x :: xs, [] => x :: xs
  | x :: xs, y :: ys => (x && y) :: wiredAnd xs ys

end Sys2Proof.Machine
end

