-- ==== Sys2Proof/Machine/Memory.lean ====
section
/-! DEFINITION. Target memory in one canonical form: addresses strictly rising, no entry equal to what an
unlisted address reads as. Used only by the ideal target (20_memory.md R74, R83). -/

namespace Sys2Proof.Machine

/-- What an address that nothing has written reads as: DESIGN CHOICE (log entry 28), the erased value of
20_memory.md R84. -/
def blankByte : Byte := 0xFF

/-- The canonical form. -/
abbrev Memory.wf (m : Memory) : Prop :=
  m.Pairwise (fun x y => x.1 < y.1) ∧ ∀ c ∈ m, c.2 ≠ blankByte

/-- The byte at an address. -/
def memRead : Memory → Nat → Byte
  | [], _ => blankByte
  | (a, v) :: m, x => if a = x then v else memRead m x

/-- Put one byte, keeping the canonical form. -/
def memWrite : Memory → Nat → Byte → Memory
  | [], x, v => if v = blankByte then [] else [(x, v)]
  | (a, w) :: m, x, v =>
    if x < a then (if v = blankByte then (a, w) :: m else (x, v) :: (a, w) :: m)
    else if x = a then (if v = blankByte then m else (x, v) :: m)
    else (a, w) :: memWrite m x v

/-- Set `size` bytes from `base` to 0xFF (20_memory.md R84: what an erase does), which for this value is
to unlist them. -/
def memErase (m : Memory) (base size : Nat) : Memory :=
  m.filter fun c => !(decide (base ≤ c.1) && decide (c.1 < base + size))

/-- Put a list of (address, byte) pairs, first first (R84, `CMD_WRITE_PAGE`). -/
def memWriteAll (m : Memory) (cells : List Host.Cell) : Memory :=
  cells.foldl (fun m c => memWrite m c.1 c.2) m

end Sys2Proof.Machine
end

