-- ==== Sys2Proof/Machine/Operands.lean ====
section
/-! DEFINITION. Operand forms and argument checks: regions (00_scope.md R8, 30_encoding.md R116), region
addresses (20_memory.md R63), the NVM controller's register addresses (42_nvm.md introduction), profile
validity (43_session.md R262), chunks (42_nvm.md R234). -/

namespace Sys2Proof.Machine

/-- The five regions (00_scope.md R8). -/
inductive Region where
  | flash | eeprom | fuse | lock | userRow
deriving DecidableEq, Repr

/-- Region codes (30_encoding.md R116); any other value is refused. -/
def regionOfCode : Nat → Option Region
  | 0 => some .flash
  | 1 => some .eeprom
  | 2 => some .fuse
  | 3 => some .lock
  | 4 => some .userRow
  | _ => none

/-- `base(r)` (R8). -/
def regionBase (p : Profile) : Region → Nat
  | .flash => p.flashBase
  | .eeprom => p.eepromBase
  | .fuse => p.fuseBase
  | .lock => p.lockBase
  | .userRow => p.userRowBase

/-- `size(r)` (R8); the fuse region has one byte for each fuse (R7). -/
def regionSize (p : Profile) : Region → Nat
  | .flash => p.flashSize
  | .eeprom => p.eepromSize
  | .fuse => p.fuseCount
  | .lock => p.lockSize
  | .userRow => p.userRowSize

/-- `page(r)`: flash and EEPROM are paged, the rest is not (R8). -/
def regionPage (p : Profile) : Region → Option Nat
  | .flash => some p.flashPage
  | .eeprom => some p.eepromPage
  | .fuse => none
  | .lock => none
  | .userRow => none

/-- `size_bytes` is one of `ADDR_SIZES` (00_scope.md R6). -/
def sizeOk (s : Nat) : Bool := decide (1 ≤ s) && decide (s ≤ 3)

/-- `A < 2^(8·s)` (00_scope.md R12 (a)). -/
def fits (a s : Nat) : Bool := decide (a < 2 ^ (8 * s))

/-- `A` and `s` of `lds` and `sts` (41_datalink.md R180). -/
def addrOk (a s : Nat) : Bool := sizeOk s && fits a s

/-- `ctrl` of 42_nvm.md. -/
def ctrlAddr (c : Config) (p : Profile) : Nat := p.nvmBase + c.nvmCtrlaOff
/-- `stat` of 42_nvm.md. -/
def statAddr (c : Config) (p : Profile) : Nat := p.nvmBase + c.nvmStatusOff
/-- `dreg` of 42_nvm.md. -/
def dregAddr (c : Config) (p : Profile) : Nat := p.nvmBase + c.nvmDataOff
/-- `areg` of 42_nvm.md. -/
def aregAddr (c : Config) (p : Profile) : Nat := p.nvmBase + c.nvmAddrOff

/-- The NVM controller's registers a ready check reads (42_nvm.md R225). -/
def pollRegs (c : Config) (p : Profile) : List Nat := [statAddr c p]

/-- The registers that a command code and the ready check after it use (42_nvm.md R226, R228). -/
def codeRegs (c : Config) (p : Profile) : List Nat := [ctrlAddr c p, statAddr c p]

/-- The registers `write_fuse` uses (42_nvm.md R242). -/
def fuseRegs (c : Config) (p : Profile) : List Nat :=
  [aregAddr c p, aregAddr c p + 1, dregAddr c p, ctrlAddr c p, statAddr c p]

/-- These addresses fit in `ADDR_BYTES` bytes (42_nvm.md R220 (4), "address fit"; log entry 23). -/
def allFit (p : Profile) (addrs : List Nat) : Bool := addrs.all fun a => addrOk a p.addrBytes

/-- `ProfileValid(p)` (43_session.md R262). -/
def profileValid (c : Config) (p : Profile) : Bool :=
  sizeOk p.addrBytes && decide (0 < p.flashPage) && decide (0 < p.eepromPage)
    && decide (p.flashSize % p.flashPage = 0) && decide (p.eepromSize % p.eepromPage = 0)
    && decide (p.keyProg.length = c.keyLen) && decide (p.keyErase.length = c.keyLen)
    && fits (p.nvmBase + c.nvmAddrOff + 1) p.addrBytes

/-- The chunk lengths of a block of `n` bytes: all 256 except possibly the last (42_nvm.md R234). -/
def chunkLens (n : Nat) : List Nat :=
  List.replicate (n / repeatMax) repeatMax ++ (if n % repeatMax = 0 then [] else [n % repeatMax])

/-- A block cut into pieces of the given lengths, lowest address first (R234). -/
def cutBlock : List Nat → List Byte → List (List Byte)
  | [], _ => []
  | k :: ks, bs => bs.take k :: cutBlock ks (bs.drop k)

/-- The chunks of a block (R234). -/
def chunks (bs : List Byte) : List (List Byte) := cutBlock (chunkLens bs.length) bs

end Sys2Proof.Machine
end

