-- ==== Sys2Proof/Machine/Target.lean ====
section
/-! DEFINITION. The ideal target T0 of 20_memory.md R75 to R87: an assumption about the environment, one
way the engine's calls can be answered. Nothing here is part of UPDI-PE (log entries 27 to 31, 37, 38). -/

namespace Sys2Proof.Machine

/-- The paged region an address lies in: its base and page size (20_memory.md R83, R84). Flash is looked
up first where a profile overlaps them (log entry 29). -/
def Target.pagedAt (t : Target) (a : Nat) : Option (Nat × Nat) :=
  if t.prof.flashBase ≤ a ∧ a < t.prof.flashBase + t.prof.flashSize then
    some (t.prof.flashBase, t.prof.flashPage)
  else if t.prof.eepromBase ≤ a ∧ a < t.prof.eepromBase + t.prof.eepromSize then
    some (t.prof.eepromBase, t.prof.eepromPage)
  else none

/-- The NVM status after a command: how many reads will show busy is a draw (R85; log entry 30). -/
def Target.startBusy (t : Target) : Target :=
  match t.busyDraws with
  | n :: ns => { t with busyLeft := n, busyDraws := ns }
  | [] => { t with busyLeft := Config.freeBusyReads t.drawn, drawn := t.drawn + 1 }

/-- Blank the page of the last entry of the page buffer (R84, `CMD_ERASE_PAGE`). -/
def Target.eraseBufferedPage (t : Target) : Memory :=
  match t.pbuf.getLast? with
  | some (a, _) =>
    match t.pagedAt a with
    | some (base, page) => memErase t.tmem (a - (a - base) % page) page
    | none => t.tmem
  | none => t.tmem

/-- The fuse write of R84: the address and data registers name the byte and its value. -/
def Target.writeFuse (c : Config) (t : Target) : Memory :=
  memWrite t.tmem
    (unle [memRead t.tmem (aregAddr c t.prof), memRead t.tmem (aregAddr c t.prof + 1)])
    (memRead t.tmem (dregAddr c t.prof))

/-- A write of `v` to the command register (20_memory.md R84). Every command empties the page buffer
(93_implementation_defined.md U13). Where two command codes coincide the first tested here is taken
(DESIGN CHOICE, log entry 39). -/
def Target.command (c : Config) (t : Target) (v : Byte) : Target :=
  if v = c.cmdWritePage then ({ t with tmem := memWriteAll t.tmem t.pbuf, pbuf := [] }).startBusy
  else if v = c.cmdErasePage then ({ t with tmem := t.eraseBufferedPage, pbuf := [] }).startBusy
  else if v = c.cmdChipErase then
    ({ t with
      tmem := memErase (memErase t.tmem t.prof.flashBase t.prof.flashSize) t.prof.eepromBase
        t.prof.eepromSize
      pbuf := [] }).startBusy
  else if v = c.cmdEepromErase then
    ({ t with tmem := memErase t.tmem t.prof.eepromBase t.prof.eepromSize, pbuf := [] }).startBusy
  else if v = c.cmdWriteFuse then ({ t with tmem := t.writeFuse c, pbuf := [] }).startBusy
  else t

/-- `MemWrite(a, 1, v)` (20_memory.md R83). -/
def Target.memWrite (c : Config) (t : Target) (a : Nat) (v : Byte) : Target :=
  match t.pagedAt a with
  | some _ => { t with pbuf := t.pbuf ++ [(a, v)] }
  | none =>
    if a = ctrlAddr c t.prof then t.command c v
    else { t with tmem := Machine.memWrite t.tmem a v }

/-- What a busy status read returns (20_memory.md R85): no bit of `NVM_ERR_MASK`, and a bit of
`NVM_BUSY_MASK`; which one, and the rest, is the draw `busyByte` (log entry 30). -/
def Target.busyStatus (c : Config) (t : Target) : Byte :=
  let b := t.busyByte &&& ~~~c.nvmErrMask
  if b &&& c.nvmBusyMask = 0 then b ||| (c.nvmBusyMask &&& ~~~c.nvmErrMask) else b

/-- A read of the status register (20_memory.md R85). -/
def Target.readStatus (c : Config) (t : Target) : Byte × Target :=
  if t.alwaysBusy then (t.busyStatus c, t)
  else
    match t.busyLeft with
    | 0 => (0, t)
    | n + 1 => (t.busyStatus c, { t with busyLeft := n })

/-- `MemRead(a, 1)` (20_memory.md R83, R85). -/
def Target.memRead (c : Config) (t : Target) (a : Nat) : Byte × Target :=
  if a = statAddr c t.prof then t.readStatus c else (Machine.memRead t.tmem a, t)

/-- What the pointer, `8·ADDR_BYTES` bits wide (20_memory.md R60), holds when `p` is put there: `p`, or a
free value where `p` does not fit (log entry 31). -/
def Target.pointerOf (t : Target) (p : Nat) : Nat :=
  if p < 2 ^ (8 * t.prof.addrBytes) then p else Config.freePointer p % 2 ^ (8 * t.prof.addrBytes)

/-- The pointer after one access (20_memory.md R80). -/
def Target.bump (t : Target) : Target := { t with ptr := t.pointerOf (t.ptr + 1) }

/-- One byte stored through the pointer and acknowledged (R80). -/
def Target.storeInc (c : Config) (t : Target) (v : Byte) : Target :=
  let u := (t.memWrite c t.ptr v).bump
  { u with owed := u.owed ++ [c.ack] }

/-- `n` bytes loaded through the pointer (R80). -/
def Target.loadInc (c : Config) (t : Target) : Nat → Target
  | 0 => t
  | n + 1 =>
    let r := t.memRead c t.ptr
    Target.loadInc c ({ r.2 with owed := r.2.owed ++ [r.1] }).bump n

/-- One byte loaded from an address (R79). -/
def Target.loadDirect (c : Config) (t : Target) (a : Nat) : Target :=
  let r := t.memRead c a
  { r.2 with owed := r.2.owed ++ [r.1], rep := 0, phase := .sync }

/-- A CS register read (R78). -/
def Target.csGet (t : Target) (a : CsAddr) : Byte := t.cs.getD a.toNat 0

/-- A CS register write: every bit is taken as writable (R78; log entry 29), the bits a key
has shown too; the reset request changes `held` alone (R86), no key state and no other register (DESIGN
CHOICE, log entry 40). Of coinciding reset values the first tested is taken (log entry 39). -/
def Target.csPut (c : Config) (t : Target) (a : CsAddr) (v : Byte) : Target :=
  { t with
    cs := t.cs.set a.toNat v
    held :=
      if a = c.csResetAddr ∧ v = c.resetAssert then true
      else if a = c.csResetAddr ∧ v = c.resetRelease then false
      else t.held }

/-- The bits of `PROG_MODE_MASK` that the programming key shows in the status register: any but none of
them (20_memory.md R82; log entry 37). -/
def Target.shownBits (c : Config) (t : Target) : Byte :=
  if t.progBits &&& c.progModeMask = 0 then c.progModeMask else t.progBits &&& c.progModeMask

/-- A key that arrived in line order (R82): the programming key shows in the status register at once, and
what is written there later stays as written (DESIGN CHOICE, log entry 40). Where
the two keys of the profile are equal it is taken as both (log entry 39). -/
def Target.takeKey (c : Config) (t : Target) (k : List Byte) : Target :=
  let t :=
    if keyOrd c k = t.prof.keyProg then
      { t with
        progKey := true
        cs := t.cs.set c.csProgStatusAddr.toNat (t.csGet c.csProgStatusAddr ||| t.shownBits c) }
    else t
  if keyOrd c k = t.prof.keyErase then { t with eraseKey := true } else t

/-- How many operand bytes T0 collects before it acts on the row (30_encoding.md R104). -/
def operandCount (c : Config) : WireOp → Nat
  | .ldcs => 0
  | .stcs => 1
  | .lds1 => 1
  | .lds2 => 2
  | .lds3 => 3
  | .sts1 => 1
  | .sts2 => 2
  | .sts3 => 3
  | .stptr1 => 1
  | .stptr2 => 2
  | .stptr3 => 3
  | .ldptr1 => 0
  | .ldptr2 => 0
  | .ldptr3 => 0
  | .stinc => 1
  | .ldinc => 0
  | .repeatNext => 1
  | .key => c.keyLen

/-- STS's address phase: acknowledge, then wait for the data byte (R79). -/
def Target.stsAddress (c : Config) (t : Target) (a : Nat) : Target :=
  { t with owed := t.owed ++ [c.ack], rep := 0, phase := .stsData a }

/-- The pointer set (R80), at any of the three widths (log entry 31). -/
def Target.setPointer (c : Config) (t : Target) (p : Nat) : Target :=
  { t with ptr := t.pointerOf p, owed := t.owed ++ [c.ack], rep := 0, phase := .sync }

/-- The `w` bytes of a pointer read: `le(ptr, w)`, free bytes where the pointer's value does not fit in
them (00_scope.md R12 (e), 30_encoding.md R106; log entry 31). -/
def Target.pointerBytes (t : Target) (w : Nat) : List Byte :=
  if t.ptr < 2 ^ (8 * w) then le t.ptr w else (List.range w).map (Config.freePointerByte t.ptr)

/-- The pointer read (R80), at any of the three widths (log entry 31). -/
def Target.getPointer (t : Target) (w : Nat) : Target :=
  { t with owed := t.owed ++ t.pointerBytes w, rep := 0, phase := .sync }

/-- What T0 does once an instruction's operands are complete (20_memory.md R78 to R82). -/
def Target.act (c : Config) (t : Target) (opc : Byte) (xs : List Byte) : WireOp → Target
  | .ldcs => { t with owed := t.owed ++ [t.csGet (opc.setWidth 4)], rep := 0, phase := .sync }
  | .stcs => { t.csPut c (opc.setWidth 4) (xs.headD 0) with rep := 0, phase := .sync }
  | .lds1 => t.loadDirect c (unle xs)
  | .lds2 => t.loadDirect c (unle xs)
  | .lds3 => t.loadDirect c (unle xs)
  | .sts1 => t.stsAddress c (unle xs)
  | .sts2 => t.stsAddress c (unle xs)
  | .sts3 => t.stsAddress c (unle xs)
  | .stptr1 => t.setPointer c (unle xs)
  | .stptr2 => t.setPointer c (unle xs)
  | .stptr3 => t.setPointer c (unle xs)
  | .ldptr1 => t.getPointer 1
  | .ldptr2 => t.getPointer 2
  | .ldptr3 => t.getPointer 3
  | .stinc => { t.storeInc c (xs.headD 0) with phase := if t.rep = 0 then .sync else .stIncMore }
  | .ldinc => { t.loadInc c (t.rep + 1) with rep := 0, phase := .sync }
  | .repeatNext => { t with rep := (xs.headD 0).toNat, phase := .sync }
  | .key => { t.takeKey c xs with rep := 0, phase := .sync }

/-- T0 hears one byte (30_encoding.md R109, 20_memory.md R77). A SYNC where an opcode byte could stand
begins anew; an opcode byte outside R107 is ignored (log entry 29). -/
def Target.hear (c : Config) (t : Target) (b : Byte) : Target :=
  match t.phase with
  | .sync => if b = SYNC then { t with phase := .opcode } else t
  | .opcode =>
    match lookupWire c b with
    | some o =>
      if operandCount c o = 0 then t.act c b [] o else { t with phase := .operands o b [] }
    | none => if b = SYNC then t else { t with phase := .sync }
  | .operands o opc heard =>
    if heard.length + 1 < operandCount c o then { t with phase := .operands o opc (heard ++ [b]) }
    else t.act c opc (heard ++ [b]) o
  | .stsData a =>
    let u := t.memWrite c a b
    { u with owed := u.owed ++ [c.ack], phase := .sync }
  | .stIncMore =>
    { t.storeInc c b with
      rep := t.rep - 1
      phase := if t.rep - 1 = 0 then .sync else .stIncMore }

/-- A break long enough makes T0 abandon the instruction in progress (20_memory.md R77). Of a lone SYNC
there is no instruction in progress: an armed repeat count stays for the next one (R81). -/
def Target.onBreak (t : Target) (low : Nat) : Target :=
  if breakMinBits < low then
    { t with
      phase := .sync
      rep := if t.phase = .sync ∨ t.phase = .opcode then t.rep else 0
      owed := []
      lag := 0
      lead := 0 }
  else t

/-- The delay of an answer that has become due is drawn; in time it is always shorter than `T_BYTE`
(20_memory.md R77; log entry 38). -/
def Target.drawDelay (c : Config) (t : Target) : Target :=
  match t.delays with
  | d :: ds => { t with lag := min d.1 (c.tByte - 1), lead := d.2, delays := ds }
  | [] =>
    { t with
      lag := min (Config.freeDelay t.drawn).1 (c.tByte - 1)
      lead := (Config.freeDelay t.drawn).2
      drawn := t.drawn + 1 }

/-- T0 hears a transmission. A delay is drawn when it leaves T0 owing an answer and nothing was owed before;
an answer that falls due behind one still owed, or behind another in the same transmission, follows it
with no delay of its own (DESIGN CHOICE, log entry 38). -/
def Target.hearAll (c : Config) (t : Target) (bs : List Byte) : Target :=
  let u := bs.foldl (Target.hear c) t
  if t.owed = [] ∧ u.owed ≠ [] then u.drawDelay c else u

/-- T0 has up to `time` in which to send the first `n` bytes it owes: once its delay is over it sends
them, with the idle bit-times before the first. -/
def Target.speak (c : Config) (t : Target) (n time : Nat) : Draw × Target :=
  if n = 0 ∨ t.owed = [] then ({}, t)
  else if t.lag < time then
    ({ drive := List.replicate t.lead true ++ (t.owed.take n).flatMap (frameBits c.frame), dt := t.lag },
      { t with owed := t.owed.drop n, lag := 0, lead := 0 })
  else ({}, { t with lag := t.lag - time })

/-- How T0 answers a byte-port call: it hears what is written, and sends what it owes while the engine
reads, waits or idles, so that it never collides (20_memory.md R76); no primitive fails against it
(60_exceptions.md R300). -/
def Target.react (c : Config) (t : Target) : PortAct → Draw × Target
  | .trWrite bs => ({}, t.hearAll c bs)
  | .trRead n timeout => t.speak c n timeout
  | .trBreak low _ => ({}, t.onBreak low)
  | .trOpen _ _ => ({}, t)
  | .trSetBaud _ => ({}, t)
  | .breakGuard _ => ({}, t)
  | .flush => ({}, t)
  | .trClose => ({}, t)
  | .wait d => ({ (t.speak c t.owed.length d).1 with dt := 0 }, (t.speak c t.owed.length d).2)
  | .idle => t.speak c t.owed.length (t.lag + 1)

/-- The environment's answer to a byte-port call (00_scope.md R15). -/
def Env.answer (c : Config) : Env → PortAct → Draw × Env
  | .oracle (d :: ds) k, _ => (d, .oracle ds k)
  | .oracle [] k, _ => (Config.freeDraw k, .oracle [] (k + 1))
  | .ideal t, act => ((t.react c act).1, .ideal (t.react c act).2)

end Sys2Proof.Machine
end

