-- ==== Sys2Proof/Machine/Port.lean ====
section
/-! DEFINITION. The byte port (60_exceptions.md R300, 40_phy.md R130 to R137): the primitives through
which the engine meets the environment, and the small register updates every operation uses. -/

namespace Sys2Proof.Machine

/-! ### Named updates of the state's blocks -/

/-- Replace the block `ses`. -/
def State.setSes (s : State) (x : Ses) : State := { s with ses := x }
/-- Replace the block `phy`. -/
def State.setPhy (s : State) (x : Phy) : State := { s with phy := x }
/-- Replace the block `dl`. -/
def State.setDl (s : State) (x : Dl) : State := { s with dl := x }
/-- Replace the block `nvm`. -/
def State.setNvm (s : State) (x : Nvm) : State := { s with nvm := x }
/-- Replace the block `rsp`. -/
def State.setRsp (s : State) (x : Rsp) : State := { s with rsp := x }
/-- Replace the environment. -/
def State.setEnv (s : State) (x : Env) : State := { s with env := x }
/-- Set the clock. -/
def State.setNow (s : State) (x : Nat) : State := { s with now := x }
/-- Replace what the host will present. -/
def State.setInputs (s : State) (x : List Input) : State := { s with inputs := x }
/-- Replace the trace. -/
def State.setTrace (s : State) (x : List Event) : State := { s with trace := x }
/-- Replace the line halves. -/
def State.setLine (s : State) (x : Line) : State := s.setPhy { s.phy with line := x }

/-- One byte-port call and its answer, with the sequencer states at that moment, at the end of the trace
(10_state.md R24). -/
def State.logged (s : State) (act : PortAct) (answer : PortAnswer) : State :=
  s.setTrace (s.trace ++
    [{ phy := s.phy.phyState, dl := s.dl.dlState, nvm := s.nvm.nvmState, act := act, answer := answer }])

/-! ### Steps that can raise an error -/

/-- A raised error and its record (60_exceptions.md R281, R282). -/
structure Err where
  code : Code
  info : ErrInfo
deriving DecidableEq, Repr

/-- A piece of a running command: it reads and writes the state and may raise an error. Nothing done
before the error is undone (60_exceptions.md R284). -/
abbrev Act := EStateM Err State

/-- What a piece of a command did: its value and the state, or its error and the state. -/
abbrev Act.Result := EStateM.Result Err State

/-- `raise` (00_scope.md R13). -/
def raise {α : Type} (code : Code) (base : ErrBase) : Act α := throw { code := code, info := { base := base } }

/-- `require c else REFUSED` (00_scope.md R12, 60_exceptions.md R283). -/
def demand (c : Bool) : Act Unit := if c then pure () else raise .refused {}

/-- An enclosing operation adds its name to the record (60_exceptions.md R284 (3); log entry 20). -/
def Err.named (e : Err) (name : OpName) : Err :=
  { e with info := { e.info with base := { e.info.base with op := e.info.base.op ++ [name] } } }

/-- A DL operation adds its address (41_datalink.md R171). -/
def Err.placed (e : Err) (addr : Option Nat) : Err :=
  { e with info := { e.info with base := { e.info.base with addr := addr } } }

/-- An NVM command adds its address and region (42_nvm.md R223); the DL operation's own address stays
beside it (60_exceptions.md R282; log entry 21). -/
def Err.located (e : Err) (addr region : Nat) : Err :=
  { e with
    info := { e.info with base := { e.info.base with nvmAddr := some addr, region := some region } } }

/-- `pc <- S` for PHY. -/
def setPhyState (p : PhyState) : Act Unit :=
  modify fun s => s.setPhy { s.phy with phyState := p }
/-- `pc <- S` for DL. -/
def setDlState (d : DlState) : Act Unit :=
  modify fun s => s.setDl { s.dl with dlState := d }
/-- `pc <- S` for NVM. -/
def setNvmState (n : NvmState) : Act Unit :=
  modify fun s => s.setNvm { s.nvm with nvmState := n }
/-- `ses_state <- S`. -/
def setSesState (m : SesState) : Act Unit :=
  modify fun s => s.setSes { s.ses with sesState := m }

/-! ### What every primitive shares -/

/-- The receive half watches the line while `tr_open = 1` (40_phy.md R132). -/
def State.listen (s : State) (drive : List Bool) : State :=
  if s.ses.trOpen then s.setLine (s.phy.line.listen s.cfg.frame drive) else s

/-- As `listen`, until `n` bytes stand in `rx_fifo` (40_phy.md R134). -/
def State.listenFor (s : State) (n : Nat) (drive : List Bool) : State :=
  if s.ses.trOpen then s.setLine (s.phy.line.listenFor s.cfg.frame n drive) else s

/-- The environment's draw for a call. -/
def drawFor (act : PortAct) : Act Draw :=
  modifyGet fun s => ((s.env.answer s.cfg act).1, s.setEnv (s.env.answer s.cfg act).2)

/-- A primitive answered `ioerror`: the PHY operation stops at once (40_phy.md R148). What the primitive had
already done the spec does not say: time passes and the receive half watches the line as the draw has it,
and no register is written otherwise (DESIGN CHOICE, log entry 35). -/
def ioFailure {α : Type} (act : PortAct) (op : OpName) (dt : Nat) (heard : List Bool) : Act α := do
  modify fun s => s.listen heard
  modify fun s => s.setNow (s.now + dt)
  modify fun s => s.logged act .ioerror
  modify fun s => s.setPhy { s.phy with phyState := .idle, echoPending := 0 }
  raise .transport { layer := some .phy, op := [op] }

/-- What the receive half sees of a `TrWrite` that fails: the bit-times of its frames that had gone out,
wired with what the target drives (log entry 35). -/
def cutShort (f : FrameFormat) (d : Draw) (bs : List Byte) : List Bool :=
  if d.cut then d.drive else wiredAnd ((bs.flatMap (frameBits f)).take d.sent) d.drive

/-! ### The primitives (60_exceptions.md R300) -/

/-- `TrOpen(port, baud)` (40_phy.md R135). The receive half starts between frames, the line high: what a
session that ended in a failed `TrClose` left half received is dropped (log entry 15). -/
def trOpen (port baud : Nat) : Act Unit := do
  let d ← drawFor (.trOpen port baud)
  if d.ioerror then ioFailure (.trOpen port baud) .trOpen d.dt d.drive
  else
    modify fun s => s.setSes { s.ses with trOpen := true }
    modify fun s =>
      s.setPhy
        { s.phy with
          baudCur := baud
          line := { s.phy.line with
            frameErr := false, rxFifo := [], lineTx := true, rxCnt := 0, rxPrev := true } }
    modify fun s => s.setNow (s.now + d.dt)
    modify fun s => s.logged (.trOpen port baud) .done

/-- `TrSetBaud(b)` (40_phy.md R135). -/
def trSetBaud (b : Nat) : Act Unit := do
  let d ← drawFor (.trSetBaud b)
  if d.ioerror then ioFailure (.trSetBaud b) .trSetBaud d.dt d.drive
  else
    modify fun s => s.listen d.drive
    modify fun s => s.setPhy { s.phy with baudCur := b }
    modify fun s => s.setNow (s.now + d.dt)
    modify fun s => s.logged (.trSetBaud b) .done

/-- `TrBreak(d, g)` (40_phy.md R137, 10_state.md R25): low for `d` bit-times in `P_BREAK`, then high for
`g` bit-times in `P_GUARD`; the receive half samples nothing, and after the guard the next start bit is a
falling edge (30_encoding.md R94; log entry 15). -/
def trBreak (low guardBits : Nat) : Act Unit := do
  let d ← drawFor (.trBreak low guardBits)
  if d.ioerror then ioFailure (.trBreak low guardBits) .trBreak d.dt []
  else
    modify fun s => s.setLine { s.phy.line with lineTx := false }
    modify fun s => s.logged (.trBreak low guardBits) .done
    setPhyState .guard
    modify fun s => s.setLine { s.phy.line with lineTx := true, rxPrev := true }
    modify fun s => s.setNow (s.now + d.dt)
    modify fun s => s.logged (.breakGuard guardBits) .done

/-- The line halves after a transmission (40_phy.md R131), heard or not (log entry 36). -/
def Line.transmit (f : FrameFormat) (d : Draw) (l : Line) (bs : List Byte) : Line :=
  if d.cut then l.sendUnheard f bs d.drive else l.send f bs d.drive

/-- `TrWrite(bs)` (40_phy.md R131): the frames go out while the receive half listens. Every transmission
takes time (92_eei_decisions.md D23; log entry 14). Whether they come back is the draw's (log entry 36). -/
def trWrite (bs : List Byte) : Act Unit := do
  let d ← drawFor (.trWrite bs)
  if d.ioerror then
    ioFailure (.trWrite bs) .trWrite d.dt (cutShort (← get).cfg.frame d bs)
  else
    modify fun s => s.setLine (s.phy.line.transmit s.cfg.frame d bs)
    modify fun s => s.setNow (s.now + 1 + d.dt)
    modify fun s => s.logged (.trWrite bs) .done

/-- `TrRead(n, T)` (40_phy.md R134): the first `n` bytes of `rx_fifo` as soon as they stand there, at once
if they do already; or none for `timeout`, after which the bytes that had arrived are lost. The
environment is told how many bytes are still to come. A read that waits and completes does so before
`T` has passed (log entry 14). -/
def trRead (n timeout : Nat) : Act (Option (List Byte)) := do
  let had := (← get).phy.line.rxFifo.length
  let d ← drawFor (.trRead (n - had) timeout)
  if d.ioerror then ioFailure (.trRead n timeout) .trRead d.dt d.drive
  else
    modify fun s => s.listenFor n (if timeout = 0 then [] else d.drive)
    let fifo := (← get).phy.line.rxFifo
    if n ≤ fifo.length then
      modify fun s => s.setLine { s.phy.line with rxFifo := fifo.drop n }
      modify fun s => s.setNow (s.now + if n ≤ had then 0 else min d.dt (timeout - 1))
      modify fun s => s.logged (.trRead n timeout) (.bytes (fifo.take n))
      pure (some (fifo.take n))
    else
      modify fun s => s.setLine { s.phy.line with rxFifo := [] }
      modify fun s => s.setNow (s.now + if timeout = 0 then 0 else timeout + d.dt)
      modify fun s => s.logged (.trRead n timeout) .timeout
      pure none

/-- `TrClose()` (40_phy.md R135): the line is released and the receive half stops, dropping a frame in
progress (log entry 15). -/
def trClose : Act Unit := do
  let d ← drawFor .trClose
  if d.ioerror then ioFailure .trClose .trClose d.dt d.drive
  else
    modify fun s => s.listen d.drive
    modify fun s => s.setSes { s.ses with trOpen := false }
    modify fun s =>
      s.setPhy
        { s.phy with
          linkUp := false
          line := { s.phy.line with lineTx := true, rxCnt := 0, rxPrev := true } }
    modify fun s => s.setNow (s.now + d.dt)
    modify fun s => s.logged .trClose .done

/-- `Wait(d)` (00_scope.md R13): `now` grows by at least `d`; the receive half keeps listening. -/
def waitFor (d : Nat) : Act Unit := do
  let w ← drawFor (.wait d)
  modify fun s => s.listen w.drive
  modify fun s => s.setNow (s.now + d + w.dt)
  modify fun s => s.logged (.wait d) .done

/-- The line idles between commands (60_exceptions.md R298): the target may still drive it. -/
def idleLine : Act Unit := do
  let w ← drawFor .idle
  modify fun s => s.listen w.drive
  modify fun s => s.setNow (s.now + w.dt)
  modify fun s => s.logged .idle .done

end Sys2Proof.Machine
end

