-- ==== Sys2Proof/Machine/Phy.lean ====
section
/-! DEFINITION. PHY's three operations (40_phy.md): initialize, send, receive. -/

namespace Sys2Proof.Machine

/-- Run a piece of a PHY operation: when it ends, PHY is idle (40_phy.md R143, R146, R148); an error gets
the operation's name. -/
def inPhy {α : Type} (name : OpName) (x : Act α) : Act α := fun s =>
  match x s with
  | .ok a s' => .ok a (s'.setPhy { s'.phy with phyState := .idle })
  | .error e s' =>
    .error (e.named name) (s'.setPhy { s'.phy with phyState := .idle, echoPending := 0 })

/-- The read of SYNC's echo as the error record shows it (60_exceptions.md R282). -/
def gotOf : Option (List Byte) → Got
  | some (b :: _) => .byte b
  | _ => .timeout

/-- One attempt of `PhyInit` (40_phy.md R138, R139): what the echo read returned. -/
def syncAttempt : Act (Option (List Byte)) := do
  modify fun s => s.setPhy { s.phy with syncAttempt := s.phy.syncAttempt + 1 }
  let c := (← get).cfg
  setPhyState .setBaud
  trSetBaud c.baud
  setPhyState .brk
  trBreak c.breakBits c.breakGuardBits
  modify fun s => s.setLine { s.phy.line with rxFifo := [] }
  modify fun s => s.logged .flush .done
  setPhyState .syncTx
  trWrite [SYNC]
  setPhyState .syncEcho
  trRead 1 c.tSync

/-- SYNC came back: `link_up <- 1` (40_phy.md R138). -/
def linkSynced : Act Unit := modify fun s => s.setPhy { s.phy with linkUp := true }

/-- The last attempt failed (40_phy.md R138). -/
def linkFailed (r : Option (List Byte)) : Act Unit := do
  modify fun s => s.setPhy { s.phy with linkUp := false }
  let n := (← get).phy.syncAttempt
  raise .linkInit { layer := some .phy, attempts := some n, got := some (gotOf r) }

/-- The retry loop of `PhyInit` (40_phy.md R138): that many further attempts may follow the first. -/
def syncLoop : Nat → Act Unit
  | 0 => do
    let r ← syncAttempt
    if r = some [SYNC] then linkSynced else linkFailed r
  | left + 1 => do
    let r ← syncAttempt
    if r = some [SYNC] then linkSynced else syncLoop left

/-- `PhyInit()` (40_phy.md R138). -/
def phyInit : Act Unit := inPhy .initLink do
  modify fun s => s.setPhy { s.phy with syncAttempt := 0 }
  syncLoop ((← get).cfg.syncAttempts - 1)

/-- `PhySend(bs)` (40_phy.md R143): send, read back as many bytes as were sent, discard them without
comparing them (R144). -/
def phySend (bs : List Byte) : Act Unit :=
  if bs = [] then pure ()
  else inPhy .sendBytes do
    modify fun s => s.setPhy { s.phy with phyState := .tx, echoPending := bs.length }
    trWrite bs
    setPhyState .echo
    let r ← trRead bs.length (← get).cfg.tEcho
    modify fun s => s.setPhy { s.phy with echoPending := 0 }
    match r with
    | some _ => pure ()
    | none =>
      raise .linkTimeout { layer := some .phy, phase := some .echo, wanted := some bs.length }

/-- `PhyRecv(n, T)` (40_phy.md R146). -/
def phyRecv (n timeout : Nat) : Act (List Byte) :=
  if n = 0 then pure []
  else inPhy .receiveBytes do
    setPhyState .rx
    match ← trRead n timeout with
    | some bs => pure bs
    | none => raise .linkTimeout { layer := some .phy, phase := some .response, wanted := some n }

end Sys2Proof.Machine
end

