-- ==== Sys2Proof/Machine/Datalink.lean ====
section
/-! DEFINITION. DL's operations (41_datalink.md), each over PHY's send and receive. -/

namespace Sys2Proof.Machine

/-- Run a DL operation: when it ends, DL is idle; an error gets the operation's name and address
(41_datalink.md R171). `addr` may depend on the state at the error: the byte index of `*_ptr_inc`
(60_exceptions.md R282). -/
def inDl {α : Type} (name : OpName) (addr : State → Option Nat) (x : Act α) : Act α := fun s =>
  match x s with
  | .ok a s' => .ok a (s'.setDl { s'.dl with dlState := .idle })
  | .error e s' =>
    .error ((e.named name).placed (addr s')) (s'.setDl { s'.dl with dlState := .idle })

/-- The answer read of DL, always with `T_BYTE` (41_datalink.md R171). -/
def recvByte : Act Byte := do
  let r ← phyRecv 1 (← get).cfg.tByte
  pure (r.headD 0)

/-- `ExpectAck(op, addr, phase)` (41_datalink.md R173); `op` and `addr` are added by `inDl`. -/
def expectAck (phase : Phase) : Act Unit := do
  let b ← recvByte
  modify fun s => s.setDl { s.dl with ackLast := b }
  let ack := (← get).cfg.ack
  if b = ack then pure ()
  else
    raise .protocolAck
      { layer := some .dl, phase := some phase, expected := some ack, got := some (.byte b) }

/-- `op_addr <- a`. -/
def setOpAddr (a : Nat) : Act Unit :=
  modify fun s => s.setDl { s.dl with opAddr := BitVec.ofNat 24 a }
/-- `op_size <- n`. -/
def setOpSize (n : Nat) : Act Unit :=
  modify fun s => s.setDl { s.dl with opSize := BitVec.ofNat 2 n }
/-- `op_len <- n`. -/
def setOpLen (n : Nat) : Act Unit :=
  modify fun s => s.setDl { s.dl with opLen := n }
/-- `op_idx <- n`. -/
def setOpIdx (n : Nat) : Act Unit :=
  modify fun s => s.setDl { s.dl with opIdx := n }
/-- `op_idx <- op_idx + 1`. -/
def incOpIdx : Act Unit :=
  modify fun s => s.setDl { s.dl with opIdx := s.dl.opIdx + 1 }
/-- `data_buf <- bs`. -/
def setDataBuf (bs : List Byte) : Act Unit :=
  modify fun s => s.setDl { s.dl with dataBuf := bs }
/-- `resp_buf <- bs`. -/
def setRespBuf (bs : List Byte) : Act Unit :=
  modify fun s => s.setDl { s.dl with respBuf := bs }

/-! ### CS registers -/

/-- `cs_read(a)` (41_datalink.md R176). -/
def csRead (a : Nat) : Act Byte := do
  demand (decide (a ≤ 0x0F))
  inDl .csRead (fun _ => some a) do
    let c := (← get).cfg
    setOpAddr a
    setDlState .txInstr
    phySend [SYNC, opLdcs c (BitVec.ofNat 4 a)]
    setDlState .rxData
    recvByte

/-- `cs_write(a, v)` (41_datalink.md R178). -/
def csWrite (a v : Nat) : Act Unit := do
  demand (decide (a ≤ 0x0F) && decide (v ≤ 0xFF))
  inDl .csWrite (fun _ => some a) do
    let c := (← get).cfg
    setOpAddr a
    setDlState .txInstr
    phySend [SYNC, opStcs c (BitVec.ofNat 4 a), BitVec.ofNat 8 v]

/-! ### Direct load and store -/

/-- `lds(A, s)` (41_datalink.md R180). -/
def ldsOp (a s : Nat) : Act (List Byte) := do
  demand (addrOk a s)
  inDl .lds (fun _ => some a) do
    let c := (← get).cfg
    setOpAddr a
    setOpSize s
    setOpLen 1
    setDlState .txInstr
    phySend ([SYNC, opLds c s] ++ le a s)
    setDlState .rxData
    let r ← phyRecv 1 c.tByte
    setRespBuf r
    pure r

/-- `sts(A, v, s)` (41_datalink.md R183). -/
def stsOp (a v s : Nat) : Act Unit := do
  demand (addrOk a s && decide (v ≤ 0xFF))
  inDl .sts (fun _ => some a) do
    let c := (← get).cfg
    setOpAddr a
    setOpSize s
    setOpLen 1
    setDataBuf [BitVec.ofNat 8 v]
    setDlState .txInstr
    phySend ([SYNC, opSts c s] ++ le a s)
    setDlState .rxAckAddr
    expectAck .address
    setDlState .txData
    phySend [BitVec.ofNat 8 v]
    setDlState .rxAckData
    expectAck .data

/-! ### The pointer -/

/-- `st_ptr(P)` at a pointer width (41_datalink.md R187). -/
def stPtrOp (w p : Nat) : Act Unit := do
  demand (addrOk p w)
  inDl .stPtr (fun _ => some p) do
    let c := (← get).cfg
    setOpAddr p
    setOpSize w
    setDlState .txInstr
    phySend ([SYNC, opStPtr c w] ++ le p w)
    setDlState .rxAckAddr
    expectAck .address

/-- `ld_ptr()` at a pointer width (41_datalink.md R189). -/
def ldPtrOp (w : Nat) : Act (List Byte) := inDl .ldPtr (fun _ => none) do
  let c := (← get).cfg
  setOpSize w
  setDlState .txInstr
  phySend [SYNC, opLdPtr c w]
  setDlState .rxData
  let r ← phyRecv w c.tByte
  setRespBuf r
  pure r

/-- The address field of the errors of `*_ptr_inc`: the byte index (41_datalink.md R192). -/
def byteIndex (s : State) : Option Nat := some s.dl.opIdx

/-- The REPEAT instruction (41_datalink.md R200). -/
def sendRepeat (n : Nat) : Act Unit := do
  let c := (← get).cfg
  setDlState .txRepeat
  phySend [SYNC, opRepeat c, BitVec.ofNat 8 (n - 1)]

/-- The REPEAT before a block of `n` bytes, omitted for one byte (41_datalink.md R192, R196, R200). -/
def repeatFor (n : Nat) : Act Unit := if 2 ≤ n then sendRepeat n else pure ()

/-- One `STINC v` and its ACK. -/
def stIncFirst (v : Byte) : Act Unit := do
  let c := (← get).cfg
  setDlState .txInstr
  phySend [SYNC, opStInc c, v]
  setDlState .rxAckData
  expectAck .data
  incOpIdx

/-- The further data bytes of a repeated STINC, each with its ACK. -/
def stIncRest : List Byte → Act Unit
  | [] => pure ()
  | v :: vs => do
    setDlState .txData
    phySend [v]
    setDlState .rxAckData
    expectAck .data
    incOpIdx
    stIncRest vs

/-- Single STINCs, one for each byte. -/
def stIncSingles : List Byte → Act Unit
  | [] => pure ()
  | v :: vs => do
    stIncFirst v
    stIncSingles vs

/-- `st_ptr_inc(block, repeat)` (41_datalink.md R192). -/
def stPtrIncOp (block : List Byte) (rep : Bool) : Act Unit := do
  demand (!rep || decide (block.length ≤ repeatMax))
  setOpLen block.length
  setDataBuf block
  setOpIdx 0
  match block with
  | [] => pure ()
  | v :: vs =>
    inDl .stPtrInc byteIndex do
      if rep then
        repeatFor block.length
        stIncFirst v
        stIncRest vs
      else stIncSingles block

/-- One `LDINC` and `n` answer bytes. -/
def ldIncAnswers (n : Nat) : Act Unit := do
  let c := (← get).cfg
  setDlState .txInstr
  phySend [SYNC, opLdInc c]
  setDlState .rxData
  let r ← phyRecv n c.tByte
  modify fun s => s.setDl { s.dl with respBuf := s.dl.respBuf ++ r, opIdx := s.dl.opIdx + n }

/-- `n` single LDINCs. -/
def ldIncSingles : Nat → Act Unit
  | 0 => pure ()
  | n + 1 => do
    ldIncAnswers 1
    ldIncSingles n

/-- `ld_ptr_inc(n, repeat)` (41_datalink.md R196). -/
def ldPtrIncOp (n : Nat) (rep : Bool) : Act (List Byte) := do
  demand (!rep || decide (n ≤ repeatMax))
  setOpLen n
  setRespBuf []
  setOpIdx 0
  if n = 0 then pure []
  else
    inDl .ldPtrInc byteIndex do
      if rep then
        repeatFor n
        ldIncAnswers n
      else ldIncSingles n
      pure (← get).dl.respBuf

/-! ### Single wire instructions of the pointer and repeat forms (30_encoding.md R104) -/

/-- STINC with the data bytes a REPEAT before it asks for (30_encoding.md R104, R107). -/
def stIncWire (v : Byte) (more : List Byte) : Act Unit := do
  demand (decide (more.length < repeatMax))
  setOpLen (more.length + 1)
  setDataBuf (v :: more)
  setOpIdx 0
  inDl .stPtrInc byteIndex do
    stIncFirst v
    stIncRest more

/-- LDINC with the answers a REPEAT before it asks for (30_encoding.md R104, R107). -/
def ldIncWire (more : Nat) : Act (List Byte) := do
  demand (decide (more < repeatMax))
  setOpLen (more + 1)
  setRespBuf []
  setOpIdx 0
  inDl .ldPtrInc byteIndex do
    ldIncAnswers (more + 1)
    pure (← get).dl.respBuf

/-- REPEAT alone (30_encoding.md R102, 41_datalink.md R200): for one repetition it is omitted. -/
def repeatWire (n : Nat) : Act Unit := do
  demand (decide (1 ≤ n) && decide (n ≤ repeatMax))
  inDl .repeatNext (fun _ => none) (repeatFor n)

/-! ### The key -/

/-- `key_write(key)` (41_datalink.md R205). -/
def keyWriteOp (k : List Byte) : Act Unit := do
  let c := (← get).cfg
  demand (decide (k.length = c.keyLen))
  inDl .keyWrite (fun _ => none) do
    setDataBuf (keyOrd c k)
    setOpLen c.keyLen
    setDlState .txInstr
    phySend [SYNC, opKey c]
    setDlState .txData
    phySend (keyOrd c k)

end Sys2Proof.Machine
end

