-- ==== Sys2Proof/Machine/Ops.lean ====
section
/-! DEFINITION. What every command shares: the body of close (43_session.md R266), delivery of an error
with the forced cleanup (60_exceptions.md R284, R288), the response registers (10_state.md R37), mode
admission (R292) and the handshake (30_encoding.md R117). -/

namespace Sys2Proof.Machine

/-- `try x catch any => skip` (00_scope.md R13). -/
def attempt {α : Type} (x : Act α) : Act Unit := fun s =>
  match x s with
  | .ok _ s' => .ok () s'
  | .error _ s' => .ok () s'

/-- The state a piece of a command leaves, however it ends. -/
def effect {α : Type} (x : Act α) (s : State) : State :=
  match x s with
  | .ok _ s' => s'
  | .error _ s' => s'

/-- The sequencers of all sub-blocks go to idle, `echo_pending <- 0` (60_exceptions.md R284 (2)). -/
def State.sequencersIdle (s : State) : State :=
  ((s.setPhy { s.phy with phyState := .idle, echoPending := 0 }).setDl
    { s.dl with dlState := .idle }).setNvm { s.nvm with nvmState := .idle }

/-! ### The body of close -/

/-- The line steps of `close` (43_session.md R266), each attempted whatever the others did. -/
def closeLine (resetTarget : Bool) : Act Unit := do
  let c := (← get).cfg
  attempt (csWrite c.csCtrlAddr.toNat c.csCtrlDefault.toNat)
  if resetTarget then
    attempt (csWrite c.csResetAddr.toNat c.resetAssert.toNat)
    attempt (csWrite c.csResetAddr.toNat c.resetRelease.toNat)
  else pure ()

/-- The register writes that end `close` (43_session.md R266). Where `TrClose` failed, what the receive half
holds of a frame in progress stays until the next `TrOpen` drops it (log entry 15). -/
def State.released (s : State) : State :=
  let s := s.sequencersIdle
  let s := s.setSes { s.ses with trOpen := false, sesState := .closed }
  let s := s.setPhy { s.phy with linkUp := false, line := { s.phy.line with rxFifo := [] } }
  s.setNvm { s.nvm with eraseKeySent := false }

/-- The body of `close(reset_target)` (43_session.md R266). It raises nothing. -/
def closeBody (resetTarget : Bool) : Act Unit := do
  let s ← get
  if s.ses.trOpen then
    if s.phy.linkUp then closeLine resetTarget else pure ()
    attempt trClose
  else pure ()
  modify State.released

/-! ### Ending a command -/

/-- The response of a command that ended `OK` (10_state.md R37). No rule supplies a field of the record,
so the record is empty (log entry 18). -/
def State.respondOk (s : State) (data : List Byte) : State :=
  s.setRsp { busy := false, rspStatus := codeByte .ok, rspData := data, rspInfo := {} }

/-- The response of a refused command: `rsp_status`, `rsp_data` and `busy` only (60_exceptions.md R283). -/
def State.respondRefused (s : State) : State :=
  s.setRsp { s.rsp with busy := false, rspStatus := codeByte .refused, rspData := [] }

/-- The response of a command that ended in an error (60_exceptions.md R284 (5)). -/
def State.respondError (s : State) (e : Err) : State :=
  s.setRsp { busy := false, rspStatus := codeByte e.code, rspData := [], rspInfo := e.info }

/-- Forced cleanup (60_exceptions.md R288): the body of `close(CLEANUP_RESET)`. DL's registers are found
as the failed command left them (R290; log entry 19). `frame_err` is not put back: a malformed frame heard
during the cleanup sets it (DESIGN CHOICE, log entry 41). -/
def State.forcedCleanup (s : State) : State :=
  (effect (closeBody s.cfg.cleanupReset) s).setDl { s.dl with dlState := .idle }

/-- Taking an error (60_exceptions.md R284): sequencers idle, forced cleanup where the class asks for it
and the command is not `open` or `close` (R288), then the response registers. There is no return from
it (R290). -/
def State.deliver (s : State) (cleans : Bool) (e : Err) : State :=
  if e.code = .refused then s.sequencersIdle.respondRefused
  else if cleans && needsCleanup e.code then s.sequencersIdle.forcedCleanup.respondError e
  else s.sequencersIdle.respondError e

/-- A command from its acceptance to its response (30_encoding.md R117, 60_exceptions.md R289): not
accepted while `busy`; refused in a mode that does not admit it; otherwise its body runs to its end.
`cleans` is false for `open` and `close`. -/
def runCommand (adm : Admission) (cleans : Bool) (body : Act (List Byte)) (s : State) :
    Host.Outcome State Fault Refusal :=
  if s.rsp.busy then .next s
  else if admits adm s.ses.sesState then
    match body (s.setRsp { s.rsp with busy := true }) with
    | .ok data s' => .next (s'.respondOk data)
    | .error e s' => .next (s'.deliver cleans e)
  else .next s.respondRefused

/-- A command body without result bytes. -/
def noData (x : Act Unit) : Act (List Byte) := do
  x
  pure []

/-- A command body with one result byte. -/
def oneByte (x : Act Byte) : Act (List Byte) := do
  let b ← x
  pure [b]

/-! ### The reset input -/

/-- The reset input (70_reset_and_hazards.md R320, R321): every register at its reset value; the
parameters, the environment, the clock and the trace are not engine registers and stay; nothing is
sent (log entry 10). -/
def State.resetEngine (s : State) : State :=
  { State.reset with
    cfg := s.cfg
    env := s.env
    now := s.now
    inputs := s.inputs
    trace := s.trace }

end Sys2Proof.Machine
end

