-- ==== Sys2Proof/Machine/DlCommands.lean ====
section
/-! DEFINITION. The commands of DL (41_datalink.md). -/

namespace Sys2Proof.Machine

/-- `cs_read` (41_datalink.md R176). -/
def execCsRead (address : Nat) (s : State) : Host.Outcome State Fault Refusal :=
  runCommand .inSession true (oneByte (csRead address)) s

/-- `cs_write` (41_datalink.md R178). -/
def execCsWrite (address value : Nat) (s : State) : Host.Outcome State Fault Refusal :=
  runCommand .inSession true (noData (csWrite address value)) s

/-- `lds` (41_datalink.md R180). -/
def execLds (address sizeBytes : Nat) (s : State) : Host.Outcome State Fault Refusal :=
  runCommand .inSession true (ldsOp address sizeBytes) s

/-- `sts` (41_datalink.md R183). -/
def execSts (address value sizeBytes : Nat) (s : State) : Host.Outcome State Fault Refusal :=
  runCommand .inSession true (noData (stsOp address value sizeBytes)) s

/-- `st_ptr` (41_datalink.md R187), at the profile's pointer width. -/
def execStPtr (address : Nat) (s : State) : Host.Outcome State Fault Refusal :=
  runCommand .inSession true (do noData (stPtrOp (← get).ses.profile.addrBytes address)) s

/-- `ld_ptr` (41_datalink.md R189), at the profile's pointer width. -/
def execLdPtr (s : State) : Host.Outcome State Fault Refusal :=
  runCommand .inSession true (do ldPtrOp (← get).ses.profile.addrBytes) s

/-- `st_ptr_inc` (41_datalink.md R192). -/
def execStPtrInc (block : List Byte) (rep : Bool) (s : State) : Host.Outcome State Fault Refusal :=
  runCommand .inSession true (noData (stPtrIncOp block rep)) s

/-- `ld_ptr_inc` (41_datalink.md R196). -/
def execLdPtrInc (n : Nat) (rep : Bool) (s : State) : Host.Outcome State Fault Refusal :=
  runCommand .inSession true (ldPtrIncOp n rep) s

/-- `key_write` (41_datalink.md R205). -/
def execKeyWrite (k : List Byte) (s : State) : Host.Outcome State Fault Refusal :=
  runCommand .inSession true (noData (keyWriteOp k)) s

end Sys2Proof.Machine
end

