-- ==== Sys2Proof/Machine/Nvm.lean ====
section
/-! DEFINITION. The operations of the NVM command engine (42_nvm.md), each over DL operations. -/

namespace Sys2Proof.Machine

/-- Run an NVM operation: when it ends, NVM is idle; an error gets the operation's name
(42_nvm.md R223). -/
def inNvm {α : Type} (name : OpName) (x : Act α) : Act α := fun s =>
  match x s with
  | .ok a s' => .ok a (s'.setNvm { s'.nvm with nvmState := .idle })
  | .error e s' => .error (e.named name) (s'.setNvm { s'.nvm with nvmState := .idle })

/-- An NVM command adds its address and region to the errors of its DL operations, and to no other
(42_nvm.md R223; log entry 21). -/
def atPlace {α : Type} (addr region : Nat) (x : Act α) : Act α := fun s =>
  match x s with
  | .ok a s' => .ok a s'
  | .error e s' => .error (if e.code = .nvmBusyTimeout then e else e.located addr region) s'

/-- The key precondition of the mutating commands (42_nvm.md R222). -/
def demandKey : Act Unit := do
  demand (← get).nvm.eraseKeySent

/-- The controller registers the command will address are addressable (42_nvm.md R220 (4); log entry
23). -/
def demandRegs (regs : Config → Profile → List Nat) : Act Unit := do
  let s ← get
  demand (allFit s.ses.profile (regs s.cfg s.ses.profile))

/-- `NoteNvmOp()` (43_session.md R265). -/
def noteNvmOp : Act Unit :=
  modify fun s =>
    if s.ses.sesState = .unlocked then s.setSes { s.ses with sesState := .programming } else s

/-- `nvm_exec(c)` (42_nvm.md R228). -/
def nvmExec (code : Config → Byte) : Act Unit := do
  let s ← get
  setNvmState .cmd
  stsOp (ctrlAddr s.cfg s.ses.profile) (code s.cfg).toNat s.ses.profile.addrBytes

/-- One status read of the polling loop (42_nvm.md R225). -/
def pollOnce : Act Byte := do
  let s ← get
  setNvmState .pollRead
  let r ← ldsOp (statAddr s.cfg s.ses.profile) s.ses.profile.addrBytes
  modify fun s => s.setNvm { s.nvm with lastStatus := r.headD 0, statusValid := true, nvmState := .pollEval }
  pure (r.headD 0)

/-- `NvmBusyTimeoutError` (42_nvm.md R225). -/
def nvmBusy (status : Byte) : Act Unit := do
  let s ← get
  raise .nvmBusyTimeout
    { layer := some .nvm, addr := some (statAddr s.cfg s.ses.profile), status := some status }

/-- The polling loop of 42_nvm.md R225. The argument bounds the iterations: every status read takes time
(60_exceptions.md R296), so a bound above the time left to the deadline is never reached, and running
out of it means that the deadline has passed (log entry 25). -/
def pollLoop : Nat → Act Unit
  | 0 => do
    let status ← pollOnce
    if nvmIdle (← get).cfg status then pure () else nvmBusy status
  | fuel + 1 => do
    let status ← pollOnce
    let s ← get
    if nvmIdle s.cfg status then pure ()
    else if s.nvm.pollDeadline ≤ s.now then nvmBusy status
    else
      setNvmState .pollWait
      waitFor s.cfg.nvmPollInterval
      pollLoop fuel

/-- `WaitReady(T)` (42_nvm.md R225). -/
def waitReady (timeout : Nat) : Act Unit := inNvm .waitNvmReady do
  modify fun s => s.setNvm { s.nvm with statusValid := false, pollDeadline := s.now + timeout }
  pollLoop timeout

/-- `WaitReady(T_NVM)`, the end of every mutating command (42_nvm.md R226). -/
def waitReadyNvm : Act Unit := do
  waitReady (← get).cfg.tNvm

/-- `unlock_chip_erase_key()` (42_nvm.md R221). -/
def unlockEraseKey : Act Unit := inNvm .unlockChipEraseKey do
  setNvmState .check
  let s ← get
  if s.nvm.eraseKeySent then pure ()
  else
    noteNvmOp
    keyWriteOp s.ses.profile.keyErase
    modify fun s => s.setNvm { s.nvm with eraseKeySent := true }

/-- `wait_nvm_ready()` as a command (42_nvm.md R225). -/
def waitCommand : Act Unit := do
  setNvmState .check
  demandRegs pollRegs
  noteNvmOp
  waitReadyNvm

/-- A command that is one command code and the ready check: `chip_erase`, `eeprom_erase`
(42_nvm.md R229, R247). -/
def eraseWhole (name : OpName) (code : Config → Byte) : Act Unit := inNvm name do
  setNvmState .check
  demandRegs codeRegs
  demandKey
  noteNvmOp
  nvmExec code
  waitReadyNvm

/-- The region of a page command: paged, else refused (42_nvm.md R220 (2)); with its page size. -/
def pagedRegion (region : Nat) : Act (Region × Nat) := do
  let p := (← get).ses.profile
  match regionOfCode region with
  | none => raise .refused {}
  | some r =>
    match regionPage p r with
    | none => raise .refused {}
    | some page => pure (r, page)

/-- `AlignmentError` unless the offset is a multiple of the page size (42_nvm.md R232, R245). -/
def checkAligned (region offset page : Nat) : Act Unit :=
  if offset % page = 0 then pure ()
  else
    raise .alignment
      { layer := some .nvm, region := some region, offset := some offset, page := some page }

/-- `InvalidPageSizeError` unless the data is one page long (42_nvm.md R232). -/
def checkPageSize (region length page : Nat) : Act Unit :=
  if length = page then pure ()
  else
    raise .invalidPageSize
      { layer := some .nvm, region := some region, length := some length, page := some page }

/-- `InvalidFuseIndexError` unless the index is in range (42_nvm.md R240, R242). -/
def checkFuseIndex (i : Nat) : Act Unit := do
  let n := (← get).ses.profile.fuseCount
  if i < n then pure ()
  else raise .invalidFuseIndex { layer := some .nvm, index := some i, count := some n }

/-- The chunk loop of `write_page` (42_nvm.md R232, R234). -/
def storeChunks : List (List Byte) → Act Unit
  | [] => pure ()
  | b :: bs => do
    stPtrIncOp b (decide ((← get).cfg.repeatThreshold < b.length))
    storeChunks bs

/-- `write_page(r, o, data)` (42_nvm.md R232). -/
def writePageOp (region offset : Nat) (data : List Byte) : Act Unit := inNvm .writePage do
  setNvmState .check
  let (r, page) ← pagedRegion region
  let p := (← get).ses.profile
  checkAligned region offset page
  checkPageSize region data.length page
  demand (decide (offset + page ≤ regionSize p r)
    && addrOk (regionBase p r + offset + page - 1) p.addrBytes)
  demandRegs codeRegs
  demandKey
  noteNvmOp
  atPlace (regionBase p r + offset) region do
    setNvmState .setPtr
    stPtrOp p.addrBytes (regionBase p r + offset)
    setNvmState .load
    storeChunks (chunks data)
    nvmExec (·.cmdWritePage)
    waitReadyNvm

/-- `erase_page(r, o)` (42_nvm.md R245). -/
def erasePageOp (region offset : Nat) : Act Unit := inNvm .erasePage do
  setNvmState .check
  let (r, page) ← pagedRegion region
  let p := (← get).ses.profile
  checkAligned region offset page
  demand (decide (offset + page ≤ regionSize p r) && addrOk (regionBase p r + offset) p.addrBytes)
  demandRegs codeRegs
  demandKey
  noteNvmOp
  atPlace (regionBase p r + offset) region do
    setNvmState .addr
    stsOp (regionBase p r + offset) 0xFF p.addrBytes
    nvmExec (·.cmdErasePage)
    waitReadyNvm

/-- The chunk loop of `read_bytes` (42_nvm.md R237, R234). -/
def loadChunks : List Nat → Act (List Byte)
  | [] => pure []
  | k :: ks => do
    let a ← ldPtrIncOp k (decide ((← get).cfg.repeatThreshold < k))
    let b ← loadChunks ks
    pure (a ++ b)

/-- `read_bytes(r, o, n)` (42_nvm.md R237). -/
def readBytesOp (region offset n : Nat) : Act (List Byte) := inNvm .readBytes do
  setNvmState .check
  let p := (← get).ses.profile
  match regionOfCode region with
  | none => raise .refused {}
  | some r =>
    demand (decide (offset + n ≤ regionSize p r)
      && (decide (n = 0) || addrOk (regionBase p r + offset + n - 1) p.addrBytes))
    if n = 0 then pure []
    else
      noteNvmOp
      atPlace (regionBase p r + offset) region do
        setNvmState .setPtr
        stPtrOp p.addrBytes (regionBase p r + offset)
        setNvmState .read
        loadChunks (chunkLens n)

/-- The code of the fuse region (30_encoding.md R116). -/
def fuseRegion : Nat := 2

/-- `read_fuse(i)` (42_nvm.md R240). -/
def readFuseOp (i : Nat) : Act (List Byte) := inNvm .readFuse do
  setNvmState .check
  checkFuseIndex i
  let p := (← get).ses.profile
  demand (addrOk (p.fuseBase + i) p.addrBytes)
  noteNvmOp
  atPlace (p.fuseBase + i) fuseRegion do
    setNvmState .read
    ldsOp (p.fuseBase + i) p.addrBytes

/-- `write_fuse(i, v)` (42_nvm.md R242). -/
def writeFuseOp (i v : Nat) : Act Unit := inNvm .writeFuse do
  setNvmState .check
  demand (decide (v ≤ 0xFF))
  checkFuseIndex i
  let s ← get
  let c := s.cfg
  let p := s.ses.profile
  demand (decide (p.fuseBase + i < 2 ^ 16))
  demandRegs fuseRegs
  demandKey
  noteNvmOp
  atPlace (p.fuseBase + i) fuseRegion do
    setNvmState .addr
    stsOp (aregAddr c p) ((p.fuseBase + i) % 256) p.addrBytes
    stsOp (aregAddr c p + 1) ((p.fuseBase + i) / 256) p.addrBytes
    stsOp (dregAddr c p) v p.addrBytes
    nvmExec (·.cmdWriteFuse)
    waitReadyNvm

end Sys2Proof.Machine
end

