-- ==== Sys2Proof/Machine/NvmCommands.lean ====
section
/-! DEFINITION. The commands of NVM (42_nvm.md). -/

namespace Sys2Proof.Machine

/-- `unlock_chip_erase_key` (42_nvm.md R221). -/
def execUnlockChipEraseKey (s : State) : Host.Outcome State Fault Refusal :=
  runCommand .nvmMode true (noData unlockEraseKey) s

/-- `wait_nvm_ready` (42_nvm.md R225). -/
def execWaitNvmReady (s : State) : Host.Outcome State Fault Refusal :=
  runCommand .nvmMode true (noData waitCommand) s

/-- `chip_erase` (42_nvm.md R229). -/
def execChipErase (s : State) : Host.Outcome State Fault Refusal :=
  runCommand .nvmMode true (noData (eraseWhole .chipErase (·.cmdChipErase))) s

/-- `write_page` (42_nvm.md R232). -/
def execWritePage (region offset : Nat) (data : List Byte) (s : State) : Host.Outcome State Fault Refusal :=
  runCommand .nvmMode true (noData (writePageOp region offset data)) s

/-- `read_bytes` (42_nvm.md R237). -/
def execReadBytes (region offset length : Nat) (s : State) : Host.Outcome State Fault Refusal :=
  runCommand .nvmMode true (readBytesOp region offset length) s

/-- `read_fuse` (42_nvm.md R240). -/
def execReadFuse (index : Nat) (s : State) : Host.Outcome State Fault Refusal :=
  runCommand .nvmMode true (readFuseOp index) s

/-- `write_fuse` (42_nvm.md R242). -/
def execWriteFuse (index value : Nat) (s : State) : Host.Outcome State Fault Refusal :=
  runCommand .nvmMode true (noData (writeFuseOp index value)) s

/-- `erase_page` (42_nvm.md R245). -/
def execErasePage (region offset : Nat) (s : State) : Host.Outcome State Fault Refusal :=
  runCommand .nvmMode true (noData (erasePageOp region offset)) s

/-- `eeprom_erase` (42_nvm.md R247). -/
def execEepromErase (s : State) : Host.Outcome State Fault Refusal :=
  runCommand .nvmMode true (noData (eraseWhole .eepromErase (·.cmdEepromErase))) s

/-- `crc_check`: refused in every mode (42_nvm.md R248). -/
def execCrcCheck (s : State) : Host.Outcome State Fault Refusal :=
  runCommand .never true (pure []) s

end Sys2Proof.Machine
end

