-- ==== Sys2Proof/Machine/PhyCommands.lean ====
section
/-! DEFINITION. The commands of PHY (40_phy.md). -/

namespace Sys2Proof.Machine

/-- `initialize` (40_phy.md R138). -/
def execInitLink (s : State) : Host.Outcome State Fault Refusal :=
  runCommand .inSession true (noData phyInit) s

/-- `send_bytes` (40_phy.md R143). -/
def execSendBytes (bs : List Byte) (s : State) : Host.Outcome State Fault Refusal :=
  runCommand .inSession true (noData (phySend bs)) s

/-- `receive_bytes` (40_phy.md R146). -/
def execReceiveBytes (n timeout : Nat) (s : State) : Host.Outcome State Fault Refusal :=
  runCommand .inSession true (phyRecv n timeout) s

end Sys2Proof.Machine
end

