-- ==== Sys2Proof/Machine/Session.lean ====
section
/-! DEFINITION. SES's operations (43_session.md): open, enter_programming_mode. -/

namespace Sys2Proof.Machine

/-- A wrapper error of SES with the error it wraps (43_session.md R260, R263). -/
def Err.wrapped (e : Err) (code : Code) (name : OpName) : Err where
  code := code
  info :=
    { base := { layer := some .ses, op := [name] }
      cause := some (e.code, e.info.base) }

/-- `TrOpen` as `open` calls it: a failure is SES's own `TransportError` (43_session.md R260). -/
def acquire (port baud : Nat) : Act Unit := fun s =>
  match trOpen port baud s with
  | .ok _ s' => .ok () s'
  | .error _ s' =>
    .error { code := .transport, info := { base := { layer := some .ses, op := [.openSession] } } } s'

/-- The CS writes of `open` after link initialisation (43_session.md R260, `OPEN_CS_WRITES`). -/
def openWrites : List (CsAddr × Byte) → Act Unit
  | [] => pure ()
  | (a, v) :: rest => do
    csWrite a.toNat v.toNat
    openWrites rest

/-- Link initialisation inside `open` (43_session.md R260): a failure releases the transport,
whether or not `TrClose` succeeds (log entries 15, 35). -/
def establish (x : Act Unit) : Act Unit := fun s =>
  match x s with
  | .ok _ s' => .ok () s'
  | .error e s' =>
    let s'' := effect trClose s'
    let t := (s''.setSes { s''.ses with trOpen := false }).setPhy { s''.phy with linkUp := false }
    if e.code = .transport then .error (e.named .openSession) t
    else .error (e.wrapped .deviceNotResponding .openSession) t

/-- `open(p, port)` (43_session.md R260). -/
def openOp (p : Profile) (port : Nat) : Act Unit := do
  let c := (← get).cfg
  demand (profileValid c p)
  acquire port c.baud
  modify fun s => s.setSes { s.ses with profile := p }
  establish do
    phyInit
    openWrites c.openCsWrites
  modify fun s => s.setNvm { s.nvm with eraseKeySent := false }
  setSesState .linkEstablished

/-- The exchange of `enter_programming_mode` (43_session.md R263): any error but `TransportError` becomes
`UnlockError`. -/
def unlockExchange (x : Act Byte) : Act Byte := fun s =>
  match x s with
  | .ok v s' => .ok v s'
  | .error e s' =>
    if e.code = .transport then .error (e.named .enterProgrammingMode) s'
    else .error (e.wrapped .unlock .enterProgrammingMode) s'

/-- `enter_programming_mode()` (43_session.md R263). -/
def enterOp : Act Unit := do
  let s ← get
  let v ← unlockExchange do
    keyWriteOp s.ses.profile.keyProg
    csRead s.cfg.csProgStatusAddr.toNat
  if showsProgMode s.cfg v then setSesState .unlocked
  else
    raise .unlock { layer := some .ses, op := [.enterProgrammingMode], status := some v }

end Sys2Proof.Machine
end

