-- ==== Sys2Proof/Machine/SesCommands.lean ====
section
/-! DEFINITION. The commands of SES (43_session.md) and get_status (10_state.md R38). -/

namespace Sys2Proof.Machine

/-- `get_status` (10_state.md R38, 60_exceptions.md R293). -/
def execGetStatus (s : State) : Host.Outcome State Fault Refusal :=
  runCommand .any true (do pure [statusByte (← get)]) s

/-- `open` (43_session.md R260). -/
def execOpenSession (p : Profile) (port : Nat) (s : State) : Host.Outcome State Fault Refusal :=
  runCommand .closedOnly false (noData (openOp p port)) s

/-- `enter_programming_mode` (43_session.md R263). -/
def execEnterProgrammingMode (s : State) : Host.Outcome State Fault Refusal :=
  runCommand .linkOnly true (noData enterOp) s

/-- `close` (43_session.md R266). -/
def execCloseSession (resetTarget : Bool) (s : State) : Host.Outcome State Fault Refusal :=
  runCommand .any false (noData (closeBody resetTarget)) s

end Sys2Proof.Machine
end

