-- ==== Sys2Proof/Machine/Wire.lean ====
section
/-! DEFINITION. The wire instructions (30_encoding.md R107): each is the exchange R104 gives it, run by DL, admitted,
answered and failing as a DL command is (log entry 4). -/

namespace Sys2Proof.Machine

/-- LDCS a (41_datalink.md R176). -/
def execLdcs (a : CsAddr) (s : State) : Host.Outcome State Fault Refusal :=
  runCommand .inSession true (oneByte (csRead a.toNat)) s

/-- STCS a, v (41_datalink.md R178). -/
def execStcs (a : CsAddr) (v : Byte) (s : State) : Host.Outcome State Fault Refusal :=
  runCommand .inSession true (noData (csWrite a.toNat v.toNat)) s

/-- LDS1 A (41_datalink.md R180). -/
def execLds1 (addr : BitVec 8) (s : State) : Host.Outcome State Fault Refusal :=
  runCommand .inSession true (ldsOp addr.toNat 1) s

/-- LDS2 A (41_datalink.md R180). -/
def execLds2 (addr : BitVec 16) (s : State) : Host.Outcome State Fault Refusal :=
  runCommand .inSession true (ldsOp addr.toNat 2) s

/-- LDS3 A (41_datalink.md R180). -/
def execLds3 (addr : BitVec 24) (s : State) : Host.Outcome State Fault Refusal :=
  runCommand .inSession true (ldsOp addr.toNat 3) s

/-- STS1 A, v (41_datalink.md R183). -/
def execSts1 (addr : BitVec 8) (v : Byte) (s : State) : Host.Outcome State Fault Refusal :=
  runCommand .inSession true (noData (stsOp addr.toNat v.toNat 1)) s

/-- STS2 A, v (41_datalink.md R183). -/
def execSts2 (addr : BitVec 16) (v : Byte) (s : State) : Host.Outcome State Fault Refusal :=
  runCommand .inSession true (noData (stsOp addr.toNat v.toNat 2)) s

/-- STS3 A, v (41_datalink.md R183). -/
def execSts3 (addr : BitVec 24) (v : Byte) (s : State) : Host.Outcome State Fault Refusal :=
  runCommand .inSession true (noData (stsOp addr.toNat v.toNat 3)) s

/-- STPTR1 P (41_datalink.md R187). -/
def execStptr1 (p : BitVec 8) (s : State) : Host.Outcome State Fault Refusal :=
  runCommand .inSession true (noData (stPtrOp 1 p.toNat)) s

/-- STPTR2 P (41_datalink.md R187). -/
def execStptr2 (p : BitVec 16) (s : State) : Host.Outcome State Fault Refusal :=
  runCommand .inSession true (noData (stPtrOp 2 p.toNat)) s

/-- STPTR3 P (41_datalink.md R187). -/
def execStptr3 (p : BitVec 24) (s : State) : Host.Outcome State Fault Refusal :=
  runCommand .inSession true (noData (stPtrOp 3 p.toNat)) s

/-- LDPTR1 (41_datalink.md R189). -/
def execLdptr1 (s : State) : Host.Outcome State Fault Refusal :=
  runCommand .inSession true (ldPtrOp 1) s

/-- LDPTR2 (41_datalink.md R189). -/
def execLdptr2 (s : State) : Host.Outcome State Fault Refusal :=
  runCommand .inSession true (ldPtrOp 2) s

/-- LDPTR3 (41_datalink.md R189). -/
def execLdptr3 (s : State) : Host.Outcome State Fault Refusal :=
  runCommand .inSession true (ldPtrOp 3) s

/-- STINC v, with further data bytes under REPEAT (41_datalink.md R192). -/
def execStinc (v : Byte) (more : List Byte) (s : State) : Host.Outcome State Fault Refusal :=
  runCommand .inSession true (noData (stIncWire v more)) s

/-- LDINC, with further answers under REPEAT (41_datalink.md R196). -/
def execLdinc (more : Nat) (s : State) : Host.Outcome State Fault Refusal :=
  runCommand .inSession true (ldIncWire more) s

/-- REPEAT n (41_datalink.md R200), omitted for n = 1. -/
def execRepeatNext (n : Nat) (s : State) : Host.Outcome State Fault Refusal :=
  runCommand .inSession true (noData (repeatWire n)) s

/-- KEY k (41_datalink.md R205). -/
def execKey (k : List Byte) (s : State) : Host.Outcome State Fault Refusal :=
  runCommand .inSession true (noData (keyWriteOp k)) s

end Sys2Proof.Machine
end

