-- ==== Sys2Proof/Machine/Dispatch.lean ====
section
/-! DEFINITION. One arm for each row of spec/opcode_table.json. -/

namespace Sys2Proof.Machine

def exec (i : Instr) (s : State) : Host.Outcome State Fault Refusal :=
  match i with
  | .ldcs a => Sys2Proof.Machine.execLdcs a s
  | .stcs a v => Sys2Proof.Machine.execStcs a v s
  | .lds1 addr => Sys2Proof.Machine.execLds1 addr s
  | .lds2 addr => Sys2Proof.Machine.execLds2 addr s
  | .lds3 addr => Sys2Proof.Machine.execLds3 addr s
  | .sts1 addr v => Sys2Proof.Machine.execSts1 addr v s
  | .sts2 addr v => Sys2Proof.Machine.execSts2 addr v s
  | .sts3 addr v => Sys2Proof.Machine.execSts3 addr v s
  | .stptr1 p => Sys2Proof.Machine.execStptr1 p s
  | .stptr2 p => Sys2Proof.Machine.execStptr2 p s
  | .stptr3 p => Sys2Proof.Machine.execStptr3 p s
  | .ldptr1 => Sys2Proof.Machine.execLdptr1 s
  | .ldptr2 => Sys2Proof.Machine.execLdptr2 s
  | .ldptr3 => Sys2Proof.Machine.execLdptr3 s
  | .stinc v more => Sys2Proof.Machine.execStinc v more s
  | .ldinc more => Sys2Proof.Machine.execLdinc more s
  | .repeatNext n => Sys2Proof.Machine.execRepeatNext n s
  | .key k => Sys2Proof.Machine.execKey k s
  | .getStatus => Sys2Proof.Machine.execGetStatus s
  | .openSession p port => Sys2Proof.Machine.execOpenSession p port s
  | .enterProgrammingMode => Sys2Proof.Machine.execEnterProgrammingMode s
  | .closeSession resetTarget => Sys2Proof.Machine.execCloseSession resetTarget s
  | .initLink => Sys2Proof.Machine.execInitLink s
  | .sendBytes bs => Sys2Proof.Machine.execSendBytes bs s
  | .receiveBytes n timeout => Sys2Proof.Machine.execReceiveBytes n timeout s
  | .csRead address => Sys2Proof.Machine.execCsRead address s
  | .csWrite address value => Sys2Proof.Machine.execCsWrite address value s
  | .lds address sizeBytes => Sys2Proof.Machine.execLds address sizeBytes s
  | .sts address value sizeBytes => Sys2Proof.Machine.execSts address value sizeBytes s
  | .stPtr address => Sys2Proof.Machine.execStPtr address s
  | .ldPtr => Sys2Proof.Machine.execLdPtr s
  | .stPtrInc block rep => Sys2Proof.Machine.execStPtrInc block rep s
  | .ldPtrInc n rep => Sys2Proof.Machine.execLdPtrInc n rep s
  | .keyWrite k => Sys2Proof.Machine.execKeyWrite k s
  | .unlockChipEraseKey => Sys2Proof.Machine.execUnlockChipEraseKey s
  | .waitNvmReady => Sys2Proof.Machine.execWaitNvmReady s
  | .chipErase => Sys2Proof.Machine.execChipErase s
  | .writePage region offset data => Sys2Proof.Machine.execWritePage region offset data s
  | .readBytes region offset length => Sys2Proof.Machine.execReadBytes region offset length s
  | .readFuse index => Sys2Proof.Machine.execReadFuse index s
  | .writeFuse index value => Sys2Proof.Machine.execWriteFuse index value s
  | .erasePage region offset => Sys2Proof.Machine.execErasePage region offset s
  | .eepromErase => Sys2Proof.Machine.execEepromErase s
  | .crcCheck => Sys2Proof.Machine.execCrcCheck s

end Sys2Proof.Machine
end

