-- ==== Sys2Proof/Machine/Requests.lean ====
section
/-! DEFINITION. How the engine takes the next thing the outside world does to it (30_encoding.md R117,
60_exceptions.md R298, R301). -/

namespace Sys2Proof.Machine

/-- The state after the next input has been taken. -/
def State.popInput (s : State) : State := s.setInputs s.inputs.tail

/-- The state with a request presented before everything else. -/
def State.present (s : State) (r : Request) : State := s.setInputs (.request r :: s.inputs)

/-- A request: the instruction it decodes to is run; an unknown `cmd_op` is `REFUSED`, or not accepted
while `busy` (30_encoding.md R116, R117, 60_exceptions.md R289); bytes that are no wire instruction have
no meaning (R108; log entry 8). -/
def runRequest (r : Request) (s : State) : Host.Outcome State Fault Refusal :=
  match decode s.cfg r with
  | .ok i => exec i s
  | .error (.unknownCommand _) => .next (if s.rsp.busy then s else s.respondRefused)
  | .error why => .refused (.noWireInstruction why)

/-- The next input, run to its end. Nothing presented is idle line, as is the input that says so (log
entry 9). -/
def runInput (s : State) : Host.Outcome State Fault Refusal :=
  match s.inputs with
  | [] => .next (effect idleLine s)
  | .idle :: _ => .next (effect idleLine s.popInput)
  | .reset :: _ => .next s.popInput.resetEngine
  | .request r :: _ => runRequest r s.popInput

end Sys2Proof.Machine
end

