-- ==== Sys2Proof/Machine/Step.lean ====
section
/-! DEFINITION. One step of the machine, and how an opcode-table word is presented to it. -/

namespace Sys2Proof.Machine

/-- One step: the next input, run to its end (log entry 1). -/
def step (s : State) : Host.Outcome State Fault Refusal := runInput s

/-- The instruction of an opcode-table word presented as the engine's next input (log entries 6, 9). -/
def State.withFetchWord (s : State) (nbits w : Nat) : State := s.present (tableRequest nbits w)

end Sys2Proof.Machine
end

