-- ==== Sys2Proof/Laws/Encoding.lean ====
section
/-! SUPPORT. Byte order, the key's order, and that an emitted opcode byte is found in the opcode table as
the row it was made from. -/

namespace Sys2Proof

theorem le_length (a s : Nat) : (le a s).length = s := by
  induction s generalizing a with
  | zero => rfl
  | succ s ih => simp [le, ih]

theorem unle_le (a s : Nat) : unle (le a s) = a % 2 ^ (8 * s) := by
  induction s generalizing a with
  | zero => simp [le, unle, Nat.mod_one]
  | succ s ih =>
    simp only [le, unle, ih, BitVec.toNat_ofNat]
    have e : 2 ^ (8 * (s + 1)) = 256 * 2 ^ (8 * s) := by
      rw [Nat.mul_add, Nat.pow_add]; norm_num [Nat.mul_comm]
    rw [e, Nat.mod_mul]

theorem unle_le_of_lt {a s : Nat} (h : a < 2 ^ (8 * s)) : unle (le a s) = a := by
  rw [unle_le, Nat.mod_eq_of_lt h]

theorem le_unle (bs : List Byte) : le (unle bs) bs.length = bs := by
  induction bs with
  | nil => rfl
  | cons b bs ih =>
    simp only [unle, List.length_cons, le]
    have hb := b.isLt
    have h1 : (b.toNat + 256 * unle bs) / 256 = unle bs := by omega
    have h2 : BitVec.ofNat 8 (b.toNat + 256 * unle bs) = b := by
      apply BitVec.eq_of_toNat_eq
      simp only [BitVec.toNat_ofNat]
      omega
    rw [h1, h2, ih]

theorem keyOrd_keyOrd (c : Config) (k : List Byte) : keyOrd c (keyOrd c k) = k := by
  unfold keyOrd; cases c.keyTxOrder <;> simp

theorem splitBytes_append (bs rest : List Byte) :
    splitBytes bs.length (bs ++ rest) = some (bs, rest) := by
  simp [splitBytes]

theorem splitAddr_le {a s : Nat} (h : a < 2 ^ (8 * s)) (rest : List Byte) :
    splitAddr s (le a s ++ rest) = some (a, rest) := by
  have := splitBytes_append (le a s) rest
  rw [le_length] at this
  simp [splitAddr, this, unle_le_of_lt h]

theorem splitAddrByte_le {a s : Nat} (h : a < 2 ^ (8 * s)) (v : Byte) (rest : List Byte) :
    splitAddrByte s (le a s ++ v :: rest) = some (a, v, rest) := by
  simp [splitAddrByte, splitAddr_le h]

theorem splitAddr_byte (v : Byte) (rest : List Byte) : splitAddr 1 (v :: rest) = some (v.toNat, rest) := by
  simp [splitAddr, splitBytes, unle]

/-! ### Opcode bytes -/

theorem opcodeByte_inj (x y : BitVec 3) (a b a' b' : BitVec 2) :
    opcodeByte x a b = opcodeByte y a' b' ↔ x = y ∧ a = a' ∧ b = b' := by
  constructor
  · intro h
    have h1 := congrArg (fun z : BitVec 8 => z.extractLsb' 5 3) h
    have h2 := congrArg (fun z : BitVec 8 => z.extractLsb' 2 2) h
    have h3 := congrArg (fun z : BitVec 8 => z.extractLsb' 0 2) h
    have e1 : ∀ (x : BitVec 3) (a b : BitVec 2), (opcodeByte x a b).extractLsb' 5 3 = x := by decide
    have e2 : ∀ (x : BitVec 3) (a b : BitVec 2), (opcodeByte x a b).extractLsb' 2 2 = a := by decide
    have e3 : ∀ (x : BitVec 3) (a b : BitVec 2), (opcodeByte x a b).extractLsb' 0 2 = b := by decide
    simp only [e1, e2, e3] at h1 h2 h3
    exact ⟨h1, h2, h3⟩
  · rintro ⟨rfl, rfl, rfl⟩; rfl

theorem and_ff (x : Byte) : x &&& 255#8 = x := by revert x; decide

theorem opcodeByte_high (x : BitVec 3) (a b : BitVec 2) :
    opcodeByte x a b &&& 240#8 = opcodeByte x 0#2 0#2 := by revert x a b; decide

theorem csOpcodeByte_zero (x : BitVec 3) : csOpcodeByte x 0#4 = opcodeByte x 0#2 0#2 := by
  revert x; decide

theorem csOpcodeByte_high (x : BitVec 3) (a : CsAddr) :
    csOpcodeByte x a &&& 240#8 = opcodeByte x 0#2 0#2 := by revert x a; decide

theorem csOpcodeByte_low (x : BitVec 3) (a : CsAddr) : (csOpcodeByte x a).setWidth 4 = a := by
  revert x a; decide

/-- Bits 3..2 and 1..0 of a CS address. -/
theorem csOpcodeByte_split (x : BitVec 3) (a : CsAddr) :
    csOpcodeByte x a = opcodeByte x (a.extractLsb' 2 2) (a.extractLsb' 0 2) := by
  revert x a; decide

/-- The row an opcode byte shows: LDCS and STCS with any address, the others as they are. -/
def shows (c : Config) (o : WireOp) (opc : Byte) : Prop :=
  match o with
  | .ldcs => ∃ a, opc = opLdcs c a
  | .stcs => ∃ a, opc = opStcs c a
  | o => opc = wireOpcode c o

theorem matches_iff {c : Config} (hc : c.codesDistinct = true) {o : WireOp} {opc : Byte}
    (h : shows c o opc) (o' : WireOp) :
    (opc &&& wireMask o' == wireOpcode c o') = decide (o' = o) := by
  simp only [Config.codesDistinct, Bool.and_eq_true, decide_eq_true_eq, List.nodup_cons,
    List.mem_cons, List.not_mem_nil, or_false, not_or, List.nodup_nil, and_true,
    not_false_eq_true] at hc
  obtain ⟨⟨⟨h1, h2, h3, h4, h5, h6, h7⟩, ⟨h8, h9, h10, h11, h12, h13⟩, ⟨h14, h15, h16, h17, h18⟩,
    ⟨h19, h20, h21, h22⟩, ⟨h23, h24, h25⟩, ⟨h26, h27⟩, h28⟩, hp⟩ := hc
  have k1 := Ne.symm h1
  have k2 := Ne.symm h2
  have k3 := Ne.symm h3
  have k4 := Ne.symm h4
  have k5 := Ne.symm h5
  have k6 := Ne.symm h6
  have k7 := Ne.symm h7
  have k8 := Ne.symm h8
  have k9 := Ne.symm h9
  have k10 := Ne.symm h10
  have k11 := Ne.symm h11
  have k12 := Ne.symm h12
  have k13 := Ne.symm h13
  have k14 := Ne.symm h14
  have k15 := Ne.symm h15
  have k16 := Ne.symm h16
  have k17 := Ne.symm h17
  have k18 := Ne.symm h18
  have k19 := Ne.symm h19
  have k20 := Ne.symm h20
  have k21 := Ne.symm h21
  have k22 := Ne.symm h22
  have k23 := Ne.symm h23
  have k24 := Ne.symm h24
  have k25 := Ne.symm h25
  have k26 := Ne.symm h26
  have k27 := Ne.symm h27
  have k28 := Ne.symm h28
  have kp := Ne.symm hp
  cases o <;> simp only [shows] at h <;> obtain ⟨a, rfl⟩ := h <;> cases o' <;>
    simp [wireMask, wireOpcode, opLdcs, opStcs, opLds, opSts, opStPtr, opLdPtr, opStInc, opLdInc,
      opRepeat, opKey, and_ff, csOpcodeByte_split, opcodeByte_high, opcodeByte_inj, *]

theorem lookupWire_shows {c : Config} (hc : c.codesDistinct = true) {o : WireOp} {opc : Byte}
    (h : shows c o opc) : lookupWire c opc = some o := by
  have e : (fun o' => opc &&& wireMask o' == wireOpcode c o') = fun o' => decide (o' = o) :=
    funext (matches_iff hc h)
  rw [lookupWire, e]
  cases o <;> decide

end Sys2Proof
end

