-- ==== Sys2Proof/Laws/PerInstr.lean ====
section
/-! SUPPORT. The family EncodeRoundTrip: what the encoder writes for a well-formed instruction, the
decoder reads as that instruction. One lemma for each instruction. -/

namespace Sys2Proof.Laws

/-- Decoding the encoding gives the instruction back, at every encoding of the classes and pointer modes
that tells them apart (30_encoding.md R98, R100, R109). -/
def EncodeRoundTrip.Statement (i : Instr) : Prop :=
  ∀ c : Config, c.codesDistinct = true → i.wf c = true → decode c (encode c i) = .ok i

/-- A wire instruction's bytes, parsed from the front of a longer sequence. -/
theorem decodeWire_row {c : Config} (hc : c.codesDistinct = true) {o : WireOp} {opc : Byte}
    (h : shows c o opc) (armed : Nat) (bs : List Byte) {x : Instr × List Byte}
    (hx : decodeOperands c armed opc bs o = some x) :
    decodeWire c armed (SYNC :: opc :: bs) = .ok x := by
  simp [decodeWire, lookupWire_shows hc h, hx]

/-- As `decode` sees it. -/
theorem decode_row {c : Config} (hc : c.codesDistinct = true) {o : WireOp} {opc : Byte}
    (h : shows c o opc) (armed : Nat) (bs : List Byte) {i : Instr} {rest : List Byte}
    (hx : decodeOperands c armed opc bs o = some (i, rest)) :
    decode c (.wire armed (SYNC :: opc :: bs)) = .ok i := by
  simp [decode, decodeWire_row hc h armed bs hx, Except.map]

theorem splitAddr_toNat {n : Nat} (a : BitVec (8 * n)) :
    splitAddr n (le a.toNat n) = some (a.toNat, []) := by
  have := splitAddr_le a.isLt []
  simpa using this

theorem splitAddrByte_toNat {n : Nat} (a : BitVec (8 * n)) (v : Byte) :
    splitAddrByte n (le a.toNat n ++ [v]) = some (a.toNat, v, []) :=
  splitAddrByte_le a.isLt v []

namespace EncodeRoundTrip

theorem ldcs (a : CsAddr) : Statement (.ldcs a) := fun c hc _ =>
  decode_row hc (o := .ldcs) ⟨a, rfl⟩ 0 [] (rest := []) (by
    simp [decodeOperands, opLdcs, csOpcodeByte_low])

theorem stcs (a : CsAddr) (v : Byte) : Statement (.stcs a v) := fun c hc _ =>
  decode_row hc (o := .stcs) ⟨a, rfl⟩ 0 [v] (rest := []) (by
    simp [decodeOperands, opStcs, csOpcodeByte_low, splitAddr_byte])

theorem lds1 (addr : BitVec 8) : Statement (.lds1 addr) := fun c hc _ =>
  decode_row hc (o := .lds1) rfl 0 (le addr.toNat 1) (rest := []) (by
    simp [decodeOperands, splitAddr_toNat (n := 1) addr])

theorem lds2 (addr : BitVec 16) : Statement (.lds2 addr) := fun c hc _ =>
  decode_row hc (o := .lds2) rfl 0 (le addr.toNat 2) (rest := []) (by
    simp [decodeOperands, splitAddr_toNat (n := 2) addr])

theorem lds3 (addr : BitVec 24) : Statement (.lds3 addr) := fun c hc _ =>
  decode_row hc (o := .lds3) rfl 0 (le addr.toNat 3) (rest := []) (by
    simp [decodeOperands, splitAddr_toNat (n := 3) addr])

theorem sts1 (addr : BitVec 8) (v : Byte) : Statement (.sts1 addr v) := fun c hc _ =>
  decode_row hc (o := .sts1) rfl 0 (le addr.toNat 1 ++ [v]) (rest := []) (by
    simp [decodeOperands, splitAddrByte_toNat (n := 1) addr])

theorem sts2 (addr : BitVec 16) (v : Byte) : Statement (.sts2 addr v) := fun c hc _ =>
  decode_row hc (o := .sts2) rfl 0 (le addr.toNat 2 ++ [v]) (rest := []) (by
    simp [decodeOperands, splitAddrByte_toNat (n := 2) addr])

theorem sts3 (addr : BitVec 24) (v : Byte) : Statement (.sts3 addr v) := fun c hc _ =>
  decode_row hc (o := .sts3) rfl 0 (le addr.toNat 3 ++ [v]) (rest := []) (by
    simp [decodeOperands, splitAddrByte_toNat (n := 3) addr])

theorem stptr1 (p : BitVec 8) : Statement (.stptr1 p) := fun c hc _ =>
  decode_row hc (o := .stptr1) rfl 0 (le p.toNat 1) (rest := []) (by
    simp [decodeOperands, splitAddr_toNat (n := 1) p])

theorem stptr2 (p : BitVec 16) : Statement (.stptr2 p) := fun c hc _ =>
  decode_row hc (o := .stptr2) rfl 0 (le p.toNat 2) (rest := []) (by
    simp [decodeOperands, splitAddr_toNat (n := 2) p])

theorem stptr3 (p : BitVec 24) : Statement (.stptr3 p) := fun c hc _ =>
  decode_row hc (o := .stptr3) rfl 0 (le p.toNat 3) (rest := []) (by
    simp [decodeOperands, splitAddr_toNat (n := 3) p])

theorem ldptr1 : Statement .ldptr1 := fun _ hc _ =>
  decode_row hc (o := .ldptr1) rfl 0 [] (rest := []) rfl

theorem ldptr2 : Statement .ldptr2 := fun _ hc _ =>
  decode_row hc (o := .ldptr2) rfl 0 [] (rest := []) rfl

theorem ldptr3 : Statement .ldptr3 := fun _ hc _ =>
  decode_row hc (o := .ldptr3) rfl 0 [] (rest := []) rfl

theorem stinc (v : Byte) (more : List Byte) : Statement (.stinc v more) := fun c hc _ =>
  decode_row hc (o := .stinc) rfl more.length (v :: more) (rest := []) (by
    simp [decodeOperands, splitBytes])

theorem ldinc (more : Nat) : Statement (.ldinc more) := fun _ hc _ =>
  decode_row hc (o := .ldinc) rfl more [] (rest := []) rfl

theorem repeatNext (n : Nat) : Statement (.repeatNext n) := fun c hc hw =>
  decode_row hc (o := .repeatNext) rfl 0 [BitVec.ofNat 8 (n - 1)] (rest := []) (by
    simp only [Instr.wf, Bool.and_eq_true, decide_eq_true_eq] at hw
    obtain ⟨h1, h2⟩ : 1 ≤ n ∧ n ≤ 256 := hw
    have : (n - 1) % 256 + 1 = n := by omega
    simp [decodeOperands, splitAddr_byte, this])

theorem key (k : List Byte) : Statement (.key k) := fun c hc hw =>
  decode_row hc (o := .key) rfl 0 (keyOrd c k) (rest := []) (by
    simp only [Instr.wf, decide_eq_true_eq] at hw
    have hl : (keyOrd c k).length = c.keyLen := by
      unfold keyOrd; cases c.keyTxOrder <;> simp [hw]
    have := splitBytes_append (keyOrd c k) []
    rw [hl, List.append_nil] at this
    simp [decodeOperands, this, keyOrd_keyOrd])

theorem getStatus : Statement .getStatus := fun _ _ _ => rfl
theorem openSession (p : Profile) (port : Nat) : Statement (.openSession p port) := fun _ _ _ => rfl
theorem enterProgrammingMode : Statement .enterProgrammingMode := fun _ _ _ => rfl
theorem closeSession (resetTarget : Bool) : Statement (.closeSession resetTarget) := fun _ _ _ => rfl
theorem initLink : Statement .initLink := fun _ _ _ => rfl
theorem sendBytes (bs : List Byte) : Statement (.sendBytes bs) := fun _ _ _ => rfl
theorem receiveBytes (n timeout : Nat) : Statement (.receiveBytes n timeout) := fun _ _ _ => rfl
theorem csRead (address : Nat) : Statement (.csRead address) := fun _ _ _ => rfl
theorem csWrite (address value : Nat) : Statement (.csWrite address value) := fun _ _ _ => rfl
theorem lds (address sizeBytes : Nat) : Statement (.lds address sizeBytes) := fun _ _ _ => rfl
theorem sts (address value sizeBytes : Nat) : Statement (.sts address value sizeBytes) :=
  fun _ _ _ => rfl
theorem stPtr (address : Nat) : Statement (.stPtr address) := fun _ _ _ => rfl
theorem ldPtr : Statement .ldPtr := fun _ _ _ => rfl
theorem stPtrInc (block : List Byte) (rep : Bool) : Statement (.stPtrInc block rep) :=
  fun _ _ _ => rfl
theorem ldPtrInc (n : Nat) (rep : Bool) : Statement (.ldPtrInc n rep) := fun _ _ _ => rfl
theorem keyWrite (k : List Byte) : Statement (.keyWrite k) := fun _ _ _ => rfl
theorem unlockChipEraseKey : Statement .unlockChipEraseKey := fun _ _ _ => rfl
theorem waitNvmReady : Statement .waitNvmReady := fun _ _ _ => rfl
theorem chipErase : Statement .chipErase := fun _ _ _ => rfl
theorem writePage (region offset : Nat) (data : List Byte) :
    Statement (.writePage region offset data) := fun _ _ _ => rfl
theorem readBytes (region offset length : Nat) : Statement (.readBytes region offset length) :=
  fun _ _ _ => rfl
theorem readFuse (index : Nat) : Statement (.readFuse index) := fun _ _ _ => rfl
theorem writeFuse (index value : Nat) : Statement (.writeFuse index value) := fun _ _ _ => rfl
theorem erasePage (region offset : Nat) : Statement (.erasePage region offset) := fun _ _ _ => rfl
theorem eepromErase : Statement .eepromErase := fun _ _ _ => rfl
theorem crcCheck : Statement .crcCheck := fun _ _ _ => rfl

end EncodeRoundTrip

end Sys2Proof.Laws
end

