-- ==== Sys2Proof/Safety.lean ====
section
/-! DEFINITION. The terms in which claims are stated: what a run of the engine keeps between commands,
what an exchange on the line is, which world answers it, and which registers a command leaves alone. -/

namespace Sys2Proof.Machine

/-! ### Between commands -/

/-- PHY, DL and NVM are idle and owe no echo (43_session.md R270, 40_phy.md R151). -/
structure SequencersIdle (s : State) : Prop where
  phyIdle : s.phy.phyState = .idle
  dlIdle : s.dl.dlState = .idle
  nvmIdle : s.nvm.nvmState = .idle
  noEcho : s.phy.echoPending = 0

/-- What holds between commands: 43_session.md R270, 40_phy.md R151, 10_state.md R34 (the key is only
sent in `Programming`), and that a session's profile is valid (R262). -/
structure Inv (s : State) : Prop where
  notBusy : s.rsp.busy = false
  idle : SequencersIdle s
  lineHigh : s.phy.line.lineTx = true
  noFrameOut : s.phy.line.txCnt = 0
  closedIff : s.ses.sesState = .closed ↔ s.ses.trOpen = false
  linkIff : s.phy.linkUp = s.ses.trOpen
  baudSet : s.ses.trOpen = true → s.phy.baudCur = s.cfg.baud
  keyInProgramming : s.nvm.eraseKeySent = true → s.ses.sesState = .programming
  profileOk : s.ses.trOpen = true → profileValid s.cfg s.ses.profile = true

/-- Target memory, where the environment has one, is in canonical form. -/
def Env.wf : Env → Prop
  | .oracle _ _ => True
  | .ideal t => Memory.wf t.tmem

/-! ### Responses -/

/-- The command ended `OK` with this result (10_state.md R37). What `rsp_info` holds is not said (log
entry 18). -/
def Answered (t : State) (data : List Byte) : Prop :=
  t.rsp.busy = false ∧ t.rsp.rspStatus = 0x00 ∧ t.rsp.rspData = data

/-- The state a refused command leaves (60_exceptions.md R283). -/
def State.refusal (s : State) : State :=
  s.setRsp { s.rsp with busy := false, rspStatus := 0xFF, rspData := [] }

/-- The command ended in this error (60_exceptions.md R284 (5)). -/
def Failed (t : State) (status : Byte) (info : ErrInfo) : Prop :=
  t.rsp = { busy := false, rspStatus := status, rspData := [], rspInfo := info }

/-- No session: what a forced cleanup, a `close` or a failed `open` leaves (43_session.md R260, R266,
60_exceptions.md R288). -/
structure SessionClosed (t : State) : Prop where
  mode : t.ses.sesState = .closed
  transport : t.ses.trOpen = false
  link : t.phy.linkUp = false
  key : t.nvm.eraseKeySent = false

/-! ### Which command is admitted in which mode -/

/-- The admission table of 60_exceptions.md R292, row by row; a wire instruction is admitted where DL's
commands are (log entry 4). -/
def allowed : Instr → SesState → Bool
  | .getStatus, _ => true
  | .closeSession _, _ => true
  | .crcCheck, _ => false
  | .openSession _ _, m => m == .closed
  | .enterProgrammingMode, m => m == .linkEstablished
  | .unlockChipEraseKey, m => m == .unlocked || m == .programming
  | .waitNvmReady, m => m == .unlocked || m == .programming
  | .chipErase, m => m == .unlocked || m == .programming
  | .writePage _ _ _, m => m == .unlocked || m == .programming
  | .readBytes _ _ _, m => m == .unlocked || m == .programming
  | .readFuse _, m => m == .unlocked || m == .programming
  | .writeFuse _ _, m => m == .unlocked || m == .programming
  | .erasePage _ _, m => m == .unlocked || m == .programming
  | .eepromErase, m => m == .unlocked || m == .programming
  | _, m => m != .closed

/-- The commands of NVM (30_encoding.md R115). -/
def isNvmCommand : Instr → Bool
  | .unlockChipEraseKey | .waitNvmReady | .chipErase | .writePage _ _ _ | .readBytes _ _ _
  | .readFuse _ | .writeFuse _ _ | .erasePage _ _ | .eepromErase | .crcCheck => true
  | _ => false

/-- The commands that end with the ready check (42_nvm.md R226), and the check itself. -/
def endsReady : Instr → Bool
  | .waitNvmReady | .chipErase | .writePage _ _ _ | .writeFuse _ _ | .erasePage _ _
  | .eepromErase => true
  | _ => false

/-- `open`. -/
def isOpen : Instr → Bool
  | .openSession _ _ => true
  | _ => false

/-- `close`. -/
def isClose : Instr → Bool
  | .closeSession _ => true
  | _ => false

/-! ### What goes over the line -/

/-- One transfer as the traces of 95_test_vectors.md section 0.4 write it: the bytes of one `PhySend`,
whose echo is not written, or the bytes a `PhyRecv` returns. -/
inductive Xfer where
  | tx (bs : List Byte)
  | rx (bs : List Byte)
deriving DecidableEq, Repr

/-- The transfer an entry of the trace shows. -/
def Event.xfer (e : Event) : Option Xfer :=
  match e.act, e.answer with
  | .trWrite bs, .done => some (.tx bs)
  | .trRead _ _, .bytes bs => if e.phy = .rx then some (.rx bs) else none
  | _, _ => none

/-- The transfers made so far, oldest first. -/
def State.traffic (s : State) : List Xfer := s.trace.filterMap Event.xfer

/-- The entry shows a break on the line. -/
def Event.isBreak (e : Event) : Bool :=
  match e.act, e.answer with
  | .trBreak _ _, .done => true
  | _, _ => false

/-- Breaks on the line so far. -/
def State.breaks (s : State) : Nat := s.trace.countP Event.isBreak

/-- What an attempt of link initialisation read as SYNC's echo (40_phy.md R138). -/
def Event.syncEcho (e : Event) : Option PortAnswer :=
  match e.act with
  | .trRead _ _ => if e.phy = .syncEcho then some e.answer else none
  | _ => none

/-- An echo read as `got` of the error record shows it (60_exceptions.md R282). -/
def PortAnswer.got : PortAnswer → Got
  | .bytes (b :: _) => .byte b
  | _ => .timeout

/-- Line values that carry exactly these bytes in well-formed frames, with any idle bit-times before,
between and after them (30_encoding.md R95). -/
def carries (f : FrameFormat) : List Byte → List Bool → Bool
  | [], drive => drive.all id
  | b :: bs, drive =>
    (drive.dropWhile id).take 12 == frameBits f b && carries f bs ((drive.dropWhile id).drop 12)

/-- Line values that begin so. -/
def begins (f : FrameFormat) : List Byte → List Bool → Bool
  | [], _ => true
  | b :: bs, drive =>
    (drive.dropWhile id).take 12 == frameBits f b && begins f bs ((drive.dropWhile id).drop 12)

/-- During this call the target sends exactly these bytes and the port does not fail. -/
def brings (f : FrameFormat) (d : Draw) (bs : List Byte) : Prop :=
  d.ioerror = false ∧ carries f bs d.drive = true

/-- During this call the target sends these bytes first and the port does not fail. -/
def answers (f : FrameFormat) (d : Draw) (bs : List Byte) : Prop :=
  d.ioerror = false ∧ begins f bs d.drive = true

/-- During this call the target is silent, what the engine sends comes back to it and the port does not
fail. -/
structure Echoes (d : Draw) : Prop where
  noError : d.ioerror = false
  heard : d.cut = false
  silent : d.drive.all id = true

/-- What the engine meets at its byte port: the environment, the bytes received and not yet read, and
the time. -/
structure World where
  env : Env
  fifo : List Byte
  now : Nat
deriving DecidableEq, Repr

/-- The world of a state. -/
def State.world (s : State) : World where
  env := s.env
  fifo := s.phy.line.rxFifo
  now := s.now

/-- The world answers these transfers as the engine needs it: nothing unread stands before a transfer, the
echo comes back unchanged, every answer byte arrives in time and no primitive fails. The echo is read
at once; an answer is read once it has begun, as far as it is asked for (40_phy.md R134). -/
def Plays (c : Config) : List Xfer → World → World → Prop
  | [], w, w' => w' = w
  | .tx bs :: xs, w, w' =>
    let a := w.env.answer c (.trWrite bs)
    let b := a.2.answer c (.trRead 0 c.tEcho)
    w.fifo = [] ∧ Echoes a.1 ∧ b.1.ioerror = false ∧
      Plays c xs ⟨b.2, [], w.now + 1 + a.1.dt⟩ w'
  | .rx bs :: xs, w, w' =>
    let a := w.env.answer c (.trRead bs.length c.tByte)
    w.fifo = [] ∧ 0 < c.tByte ∧ answers c.frame a.1 bs ∧
      Plays c xs ⟨a.2, [], w.now + min a.1.dt (c.tByte - 1)⟩ w'

/-- The line is at rest: no frame is going out or coming in, and it is high. -/
structure LineQuiet (l : Line) : Prop where
  txIdle : l.txCnt = 0
  rxIdle : l.rxCnt = 0
  high : l.rxPrev = true
  driverHigh : l.lineTx = true

/-- A session is open, no command is running and the line is at rest. -/
structure Ready (s : State) : Prop where
  notBusy : s.rsp.busy = false
  admitted : s.ses.sesState ≠ .closed
  transport : s.ses.trOpen = true
  idle : SequencersIdle s
  quiet : LineQuiet s.phy.line

/-- As `Ready`, in a mode that admits NVM commands, with a valid profile. -/
structure NvmReady (s : State) : Prop where
  ready : Ready s
  nvmMode : s.ses.sesState = .unlocked ∨ s.ses.sesState = .programming
  profileOk : profileValid s.cfg s.ses.profile = true

/-- What every completed exchange leaves alone: parameters, the host's inputs, PHY's link registers and
`frame_err`; PHY is idle, the line is at rest and high, and the transfers are the ones named. The shift
registers' leftover contents are not said. -/
structure Exchanged (s t : State) (xs : List Xfer) (w : World) : Prop where
  cfg : t.cfg = s.cfg
  inputs : t.inputs = s.inputs
  linkUp : t.phy.linkUp = s.phy.linkUp
  syncAttempt : t.phy.syncAttempt = s.phy.syncAttempt
  baudCur : t.phy.baudCur = s.phy.baudCur
  frameErr : t.phy.line.frameErr = s.phy.line.frameErr
  phyIdle : t.phy.phyState = .idle
  noEcho : t.phy.echoPending = 0
  quiet : LineQuiet t.phy.line
  traffic : t.traffic = s.traffic ++ xs
  world : t.world = w

/-! ### The exchanges of the datalink rules (30_encoding.md R104) -/

/-- A transmission of bytes; nothing is sent for none (40_phy.md R143). -/
def sends (bs : List Byte) : List Xfer := if bs = [] then [] else [.tx bs]

/-- 41_datalink.md R180 -/
def ldsXfers (c : Config) (address size : Nat) (b : Byte) : List Xfer :=
  [.tx ([SYNC, opLds c size] ++ le address size), .rx [b]]

/-- 41_datalink.md R183 -/
def stsXfers (c : Config) (address : Nat) (v : Byte) (size : Nat) : List Xfer :=
  [.tx ([SYNC, opSts c size] ++ le address size), .rx [c.ack], .tx [v], .rx [c.ack]]

/-- 41_datalink.md R187 -/
def stPtrXfers (c : Config) (width p : Nat) : List Xfer :=
  [.tx ([SYNC, opStPtr c width] ++ le p width), .rx [c.ack]]

/-- 41_datalink.md R189 -/
def ldPtrXfers (c : Config) (width : Nat) (answer : List Byte) : List Xfer :=
  [.tx [SYNC, opLdPtr c width], .rx answer]

/-- 41_datalink.md R200; omitted for one repetition -/
def repeatXfers (c : Config) (n : Nat) : List Xfer :=
  if n = 1 then [] else [.tx [SYNC, opRepeat c, BitVec.ofNat 8 (n - 1)]]

/-- One STINC and its acknowledge, then each further byte alone with its own. -/
def stIncXfers (c : Config) (v : Byte) (more : List Byte) : List Xfer :=
  [.tx [SYNC, opStInc c, v], .rx [c.ack]] ++ more.flatMap fun x => [.tx [x], .rx [c.ack]]

/-- 41_datalink.md R192 -/
def stPtrIncXfers (c : Config) (rep : Bool) : List Byte → List Xfer
  | [] => []
  | v :: vs =>
    if rep then repeatXfers c (vs.length + 1) ++ stIncXfers c v vs
    else (v :: vs).flatMap fun x => stIncXfers c x []

/-- 41_datalink.md R196; without repeat one LDINC for each byte -/
def ldPtrIncXfers (c : Config) (rep : Bool) (answer : List Byte) : List Xfer :=
  if answer = [] then []
  else if rep then repeatXfers c answer.length ++ [.tx [SYNC, opLdInc c], .rx answer]
  else answer.flatMap fun b => [.tx [SYNC, opLdInc c], .rx [b]]

/-- 41_datalink.md R205 -/
def keyXfers (c : Config) (k : List Byte) : List Xfer := .tx [SYNC, opKey c] :: sends (keyOrd c k)

/-! ### The exchanges of the NVM rules -/

/-- `nvm_exec(code)` (42_nvm.md R228) -/
def execXfers (c : Config) (p : Profile) (code : Byte) : List Xfer :=
  stsXfers c (ctrlAddr c p) code p.addrBytes

/-- One status read (42_nvm.md R225) -/
def statusXfers (c : Config) (p : Profile) (status : Byte) : List Xfer :=
  ldsXfers c (statAddr c p) p.addrBytes status

/-- The world during a `Wait` in which the target is silent. -/
def World.pause (c : Config) (w : World) : World where
  env := (w.env.answer c (.wait c.nvmPollInterval)).2
  fifo := w.fifo
  now := w.now + c.nvmPollInterval + (w.env.answer c (.wait c.nvmPollInterval)).1.dt

/-- The world answers a polling loop (42_nvm.md R225): the status reads listed, none of them idle and
each answered before the deadline, then an idle one. -/
def PollsIdle (c : Config) (p : Profile) (deadline : Nat) (last : Byte) :
    List Byte → World → World → Prop
  | [], w, w' => nvmIdle c last = true ∧ Plays c (statusXfers c p last) w w'
  | b :: bs, w, w' =>
    ∃ m, nvmIdle c b = false ∧ Plays c (statusXfers c p b) w m ∧ m.now < deadline
      ∧ (m.env.answer c (.wait c.nvmPollInterval)).1.drive.all id = true
      ∧ PollsIdle c p deadline last bs (m.pause c) w'

/-- The transfers of such a loop. -/
def pollXfers (c : Config) (p : Profile) (busy : List Byte) (last : Byte) : List Xfer :=
  (busy ++ [last]).flatMap (statusXfers c p)

/-- What `WaitReady(T_NVM)` begun at `t0` leaves in NVM's registers when `last` ended it. -/
def Nvm.afterReady (n : Nvm) (c : Config) (t0 : Nat) (last : Byte) : Nvm :=
  { n with nvmState := .idle, pollDeadline := t0 + c.tNvm, lastStatus := last, statusValid := true }

/-- `NoteNvmOp()` on the mode register (43_session.md R265), in a mode that admits NVM commands. -/
def Ses.noted (x : Ses) : Ses := { x with sesState := .programming }

/-- `page(r)` chunks of `write_page` and their transfers (42_nvm.md R232, R234). -/
def pageXfers (c : Config) (data : List Byte) : List Xfer :=
  (chunks data).flatMap fun b => stPtrIncXfers c (decide (c.repeatThreshold < b.length)) b

/-- The chunks of `read_bytes` and their transfers (42_nvm.md R237, R234). -/
def loadXfers (c : Config) (answer : List Byte) : List Xfer :=
  (chunks answer).flatMap fun b => ldPtrIncXfers c (decide (c.repeatThreshold < b.length)) b

/-- What storing these chunks leaves in DL's registers (41_datalink.md R192): the last chunk's. -/
def Dl.afterStores (d : Dl) (ack : Byte) (bs : List (List Byte)) : Dl :=
  match bs.getLast? with
  | none => d
  | some b => { d with opLen := b.length, opIdx := b.length, dataBuf := b, ackLast := ack }

/-- What loading these chunks leaves in DL's registers (41_datalink.md R196): the last chunk's. -/
def Dl.afterLoads (d : Dl) (bs : List (List Byte)) : Dl :=
  match bs.getLast? with
  | none => d
  | some b => { d with opLen := b.length, opIdx := b.length, respBuf := b }

/-! ### Link initialisation (40_phy.md R138) -/

/-- The world lets the first attempt of link initialisation succeed: no primitive fails and the target is
silent until SYNC has come back. -/
def Synchronises (c : Config) (w w' : World) : Prop :=
  let a := w.env.answer c (.trSetBaud c.baud)
  let b := a.2.answer c (.trBreak c.breakBits c.breakGuardBits)
  let d := b.2.answer c (.trWrite [SYNC])
  let e := d.2.answer c (.trRead 0 c.tSync)
  brings c.frame a.1 [] ∧ b.1.ioerror = false ∧ Echoes d.1 ∧ e.1.ioerror = false ∧
    w' = ⟨e.2, [], w.now + a.1.dt + b.1.dt + (1 + d.1.dt)⟩

/-- `t` is `s` after link initialisation succeeded at its first attempt and these further transfers. -/
structure Linked (s t : State) (xs : List Xfer) (w : World) : Prop where
  cfg : t.cfg = s.cfg
  inputs : t.inputs = s.inputs
  linkUp : t.phy.linkUp = true
  syncAttempt : t.phy.syncAttempt = 1
  baudCur : t.phy.baudCur = s.cfg.baud
  phyIdle : t.phy.phyState = .idle
  noEcho : t.phy.echoPending = 0
  quiet : LineQuiet t.phy.line
  traffic : t.traffic = s.traffic ++ .tx [SYNC] :: xs
  breaks : t.breaks = s.breaks + 1
  world : t.world = w

/-! ### The ideal target -/

/-- T0 waits for an instruction: nothing is half heard, repeated or owed (20_memory.md R77, R81). -/
structure Target.Listening (t : Target) : Prop where
  sync : t.phase = .sync
  noRepeat : t.rep = 0
  silent : t.owed = []
  noDelay : t.lag = 0 ∧ t.lead = 0

/-- T0 after some of its delays have been drawn (20_memory.md R77): no register, no memory and no answer of
its own has changed. -/
def Target.waited (t : Target) (delays : List (Nat × Nat)) (drawn : Nat) : Target :=
  { t with delays := delays, drawn := drawn }

/-- The data byte T0 would answer a load with (20_memory.md R83, R85), for an address other than the
status register. -/
def Target.byteAt (t : Target) (a : Nat) : Byte := Machine.memRead t.tmem a

/-! ### What the engine may put on the line -/

/-- Operand bytes that travel with the opcode byte (30_encoding.md R104, "first transmission"). -/
def headOperands : WireOp → Nat
  | .ldcs => 0
  | .stcs => 1
  | .lds1 => 1
  | .lds2 => 2
  | .lds3 => 3
  | .sts1 => 1
  | .sts2 => 2
  | .sts3 => 3
  | .stptr1 => 1
  | .stptr2 => 2
  | .stptr3 => 3
  | .ldptr1 => 0
  | .ldptr2 => 0
  | .ldptr3 => 0
  | .stinc => 1
  | .ldinc => 0
  | .repeatNext => 1
  | .key => 0

/-- A transmission while running `i` has one of these forms: SYNC, an opcode byte of 30_encoding.md R107
and the operand bytes of its first transmission; a REPEAT with its count; a lone data byte or the key
bytes; the SYNC of link initialisation; or what `send_bytes` was given. -/
def Emits (c : Config) (i : Instr) (e : Event) : Prop :=
  match e.act, e.dl with
  | .trWrite bs, .txInstr =>
    ∃ o opc ops, bs = SYNC :: opc :: ops ∧ lookupWire c opc = some o ∧ ops.length = headOperands o
  | .trWrite bs, .txRepeat => ∃ n, bs = [SYNC, opRepeat c, n]
  | .trWrite bs, .txData => bs.length = 1 ∨ bs.length = c.keyLen
  | .trWrite bs, .idle => (e.phy = .syncTx ∧ bs = [SYNC]) ∨ (e.phy = .tx ∧ i = .sendBytes bs)
  | .trWrite _, _ => False
  | _, _ => True

/-- The transfers of `close` (43_session.md R266). -/
def closeXfers (c : Config) (resetTarget : Bool) : List Xfer :=
  .tx [SYNC, opStcs c c.csCtrlAddr, c.csCtrlDefault] ::
    if resetTarget then
      [.tx [SYNC, opStcs c c.csResetAddr, c.resetAssert],
        .tx [SYNC, opStcs c c.csResetAddr, c.resetRelease]]
    else []

/-- The transfers of `OPEN_CS_WRITES` (43_session.md R260). -/
def openXfers (c : Config) : List Xfer :=
  c.openCsWrites.map fun x => .tx [SYNC, opStcs c x.1, x.2]

/-- DL's address register after the CS writes of `open`. -/
def Dl.afterOpen (d : Dl) (c : Config) : Dl :=
  match c.openCsWrites.getLast? with
  | none => d
  | some x => { d with opAddr := BitVec.ofNat 24 x.1.toNat }

/-- `t` is `s` after a command that ended `OK` with this result: these transfers were made, in this
world, and the three blocks are as given. With `Exchanged` this names every register. -/
structure Finished (s t : State) (data : List Byte) (xs : List Xfer) (w : World) (ses : Ses) (dl : Dl)
    (nvm : Nvm) : Prop where
  answered : Answered t data
  exchanged : Exchanged s t xs w
  ses : t.ses = ses
  dl : t.dl = dl
  nvm : t.nvm = nvm

/-- The session's environment is the ideal target `d`, at rest, holding the session's own profile, with its
memory in canonical form; `T_BYTE` leaves it time to answer (20_memory.md R77). -/
structure Faces (s : State) (d : Target) : Prop where
  env : s.env = .ideal d
  listening : d.Listening
  nothingUnread : s.phy.line.rxFifo = []
  profile : s.ses.profile = d.prof
  codes : s.cfg.codesDistinct = true
  csSpace : d.cs.length = 16
  memory : Memory.wf d.tmem
  time : 0 < s.cfg.tByte

end Sys2Proof.Machine
end

