-- ==== Sys2Proof/Certificates/Slice0/Obligations.lean ====
section
/-! DEFINITION. The statements for the provers. `Ready`, `Plays`, `Finished` and the names of transfers are
Safety.lean's. -/

section

open Sys2Proof Sys2Proof.Machine

/-! ### Frames and encodings -/

/-- 30_encoding.md R92, R93: exactly the frames are deframed, each to its own byte, whatever `FRAME` is (log
entry 17). -/
def Obligations.DeframeOnlyFrames : Prop :=
  ∀ (f : FrameFormat) (w : List Bool) (b : Byte), deframe f w = some b ↔ w = frameBits f b

/-- 30_encoding.md R97 to R105: the decoder reads what the encoder writes, for every instruction and at
every encoding that keeps the classes and pointer modes apart. -/
def Obligations.DecodeEncode : Prop := ∀ i : Instr, Laws.EncodeRoundTrip.Statement i

/-- 30_encoding.md R104, R109: the parser takes exactly an instruction's own bytes from the line. -/
def Obligations.ParserTakesOneInstruction : Prop :=
  ∀ (c : Config) (i : Instr) (armed : Nat) (bytes rest : List Byte), c.codesDistinct = true →
    i.wf c = true → encode c i = .wire armed bytes → decodeWire c armed (bytes ++ rest) = .ok (i, rest)

/-- Words of spec/opcode_table.json, one or more of each family, written out from 30_encoding.md R97 to R107
and R115 at the default encodings (log entry 3). That a command word is its code with all arguments at
their defaults is log entry 7; that a bare byte which is both a command code and an opcode byte (0x00,
0x24, 0x28) is the command, and a longer word wire bytes, is log entry 6. -/
def Obligations.WordsDecode : Prop :=
  decodeTableWord 8 0x8B = some (.ldcs 0xB) ∧
  decodeTableWord 16 0x59C8 = some (.stcs 0x8 0x59) ∧
  decodeTableWord 24 0x100204 = some (.lds2 0x1002) ∧
  decodeTableWord 32 0x80123408 = some (.lds3 0x801234) ∧
  decodeTableWord 32 0x05100044 = some (.sts2 0x1000 0x05) ∧
  decodeTableWord 24 0x800069 = some (.stptr2 0x8000) ∧
  decodeTableWord 8 0x2A = some .ldptr3 ∧
  decodeTableWord 16 0xAA64 = some (.stinc 0xAA []) ∧
  decodeTableWord 16 0x0024 = some (.ldinc 0) ∧
  decodeTableWord 16 0x3FA0 = some (.repeatNext 64) ∧
  decodeTableWord 72 0x4E564D50726F6720E0 = some (.key keyNvmProg) ∧
  decodeTableWord 8 0x02 = some .enterProgrammingMode ∧
  decodeTableWord 8 0x32 = some .chipErase ∧
  decodeTableWord 8 0x39 = some .crcCheck ∧
  decodeTableWord 8 0x10 = some .initLink ∧
  decodeTableWord 8 0x25 = some .ldPtr ∧
  decodeTableWord 8 0x00 = some .getStatus ∧
  decodeTableWord 8 0x24 = some (.stPtr 0) ∧
  decodeTableWord 8 0x28 = some (.keyWrite [])

/-- 30_encoding.md R104, R107, R108, 41_datalink.md R172: whatever is transmitted while an instruction
runs, its errors and the forced cleanup included, is in the form the encoding rules give. -/
def Obligations.OnlyEncodedBytesAreSent : Prop :=
  ∀ (i : Instr) (s t : State), Inv s → s.cfg.codesDistinct = true → exec i s = .next t →
    ∃ ev, t.trace = s.trace ++ ev ∧ ∀ e ∈ ev, Emits s.cfg i e

/-! ### The host's side -/

/-- A step takes the next request and runs the instruction it decodes to; a word of the opcode table is
presented as the next request (log entries 1, 9). -/
def Obligations.StepRunsTheDecodedInstruction : Prop :=
  ∀ (s : State) (i : Instr),
    (∀ r rest, s.inputs = .request r :: rest → decode s.cfg r = .ok i →
      step s = exec i (s.setInputs rest)) ∧
    (∀ nbits w, decode s.cfg (tableRequest nbits w) = .ok i →
      step (s.withFetchWord nbits w) = exec i s)

/-- 30_encoding.md R116. The commands with a region argument are those of 42_nvm.md. -/
def Obligations.UnknownCodesAreRefused : Prop :=
  (∀ n, regionOfCode n =
    match n with
    | 0 => some .flash
    | 1 => some .eeprom
    | 2 => some .fuse
    | 3 => some .lock
    | 4 => some .userRow
    | _ => none) ∧
  ∀ s : State, s.rsp.busy = false → SequencersIdle s →
    (∀ (r o n : Nat) (d : List Byte), 4 < r →
      exec (.writePage r o d) s = .next s.refusal ∧ exec (.readBytes r o n) s = .next s.refusal ∧
      exec (.erasePage r o) s = .next s.refusal) ∧
    ∀ (op : Byte) (a : Args),
      op ∉ ([0x00, 0x01, 0x02, 0x03, 0x10, 0x11, 0x12, 0x20, 0x21, 0x22, 0x23, 0x24, 0x25, 0x26,
        0x27, 0x28, 0x30, 0x31, 0x32, 0x33, 0x34, 0x35, 0x36, 0x37, 0x38, 0x39] : List Byte) →
      step (s.present (.command op a)) = .next s.refusal

/-- 30_encoding.md R117, 60_exceptions.md R289 (1): while `busy = 1` a command has no effect; a command
that is accepted ends with `busy = 0`. -/
def Obligations.HandshakeOfTheCommandPort : Prop :=
  ∀ s : State,
    (s.rsp.busy = true → ∀ (op : Byte) (a : Args), step (s.present (.command op a)) = .next s) ∧
    (s.rsp.busy = false → ∀ (i : Instr) (t : State), exec i s = .next t → t.rsp.busy = false)

/-- 10_state.md R41, 70_reset_and_hazards.md R320, R321: what reset leaves in the registers for which the
table of R41 gives a value, and that the reset input puts every register at its reset value, sends
nothing, and keeps what is not the engine's (log entry 10). The values it gives the registers for which
R41 has none are the model's choice (log entries 11, 15). -/
def Obligations.ResetInput : Prop :=
  (State.reset.ses.sesState = .closed ∧ State.reset.ses.trOpen = false ∧
    State.reset.phy.linkUp = false ∧ State.reset.nvm.eraseKeySent = false ∧
    State.reset.phy.line.frameErr = false ∧ State.reset.nvm.statusValid = false ∧
    State.reset.rsp.busy = false ∧ State.reset.phy.phyState = .idle ∧
    State.reset.dl.dlState = .idle ∧ State.reset.nvm.nvmState = .idle ∧
    State.reset.phy.syncAttempt = 0 ∧ State.reset.dl.opIdx = 0 ∧ State.reset.phy.echoPending = 0 ∧
    State.reset.phy.line.txCnt = 0 ∧ State.reset.phy.line.rxCnt = 0 ∧
    State.reset.phy.line.rxFifo = [] ∧ State.reset.rsp.rspData = [] ∧
    State.reset.rsp.rspStatus = 0x00 ∧ State.reset.phy.line.lineTx = true) ∧
  ∀ (s : State) (rest : List Input), s.inputs = .reset :: rest →
    ∃ t, step s = .next t ∧ t.ses = State.reset.ses ∧ t.phy = State.reset.phy ∧
      t.dl = State.reset.dl ∧ t.nvm = State.reset.nvm ∧ t.rsp = State.reset.rsp ∧ t.cfg = s.cfg ∧
      t.env = s.env ∧ t.now = s.now ∧ t.inputs = rest ∧ t.trace = s.trace

/-- 60_exceptions.md R298: while nothing is presented the engine is idle: only the receive half, the
clock and the environment move. -/
def Obligations.IdleLine : Prop :=
  ∀ s : State, Inv s → (s.inputs = [] ∨ ∃ rest, s.inputs = .idle :: rest) →
    ∃ t, step s = .next t ∧ t.cfg = s.cfg ∧ t.ses = s.ses ∧ t.dl = s.dl ∧ t.nvm = s.nvm ∧
      t.rsp = s.rsp ∧ t.inputs = s.inputs.tail ∧ t.traffic = s.traffic ∧ t.breaks = s.breaks ∧
      s.now ≤ t.now ∧ t.phy.phyState = s.phy.phyState ∧ t.phy.linkUp = s.phy.linkUp ∧
      t.phy.syncAttempt = s.phy.syncAttempt ∧ t.phy.baudCur = s.phy.baudCur ∧
      t.phy.echoPending = s.phy.echoPending ∧ t.phy.line.lineTx = true ∧ t.phy.line.txCnt = 0 ∧
      (∃ more, t.phy.line.rxFifo = s.phy.line.rxFifo ++ more) ∧
      (s.ses.trOpen = false → t.phy = s.phy)

/-! ### Outcomes -/

/-- 00_scope.md R14. -/
def Obligations.EveryCommandEnds : Prop :=
  ∀ (s : State) (i : Instr), Inv s →
    ∃ t, exec i s = .next t ∧ t.rsp.busy = false ∧
      (t.rsp.rspStatus = 0x00 ∨
        t.rsp.rspStatus ∈ ([0x01, 0x02, 0x03, 0x04, 0x05, 0x06, 0x07, 0x08, 0x0A, 0x0B] : List Byte) ∨
        (t.rsp.rspStatus = 0xFF ∧ t = s.refusal))

/-- 60_exceptions.md R292, R283: a command its mode does not admit does nothing. -/
def Obligations.RefusedInOtherModes : Prop :=
  ∀ (s : State) (i : Instr), s.rsp.busy = false → allowed i s.ses.sesState = false →
    exec i s = .next s.refusal

/-- 41_datalink.md R174, with the bounds of 00_scope.md R12 (a), (c), 41_datalink.md R175 and R205. That
wire instructions are checked as the operations they belong to is the model's choice (log entry 4), as
are the counts that STINC and LDINC carry (log entry 5). -/
def Obligations.DatalinkArgumentsChecked : Prop :=
  ∀ s : State, s.rsp.busy = false → SequencersIdle s →
    (∀ a, 0x0F < a → exec (.csRead a) s = .next s.refusal) ∧
    (∀ a v, 0x0F < a ∨ 0xFF < v → exec (.csWrite a v) s = .next s.refusal) ∧
    (∀ a n, ¬(1 ≤ n ∧ n ≤ 3 ∧ a < 2 ^ (8 * n)) → exec (.lds a n) s = .next s.refusal) ∧
    (∀ a v n, ¬(1 ≤ n ∧ n ≤ 3 ∧ a < 2 ^ (8 * n) ∧ v ≤ 0xFF) →
      exec (.sts a v n) s = .next s.refusal) ∧
    (∀ a, ¬(1 ≤ s.ses.profile.addrBytes ∧ s.ses.profile.addrBytes ≤ 3 ∧
        a < 2 ^ (8 * s.ses.profile.addrBytes)) → exec (.stPtr a) s = .next s.refusal) ∧
    (∀ b : List Byte, 256 < b.length → exec (.stPtrInc b true) s = .next s.refusal) ∧
    (∀ n, 256 < n → exec (.ldPtrInc n true) s = .next s.refusal) ∧
    (∀ k : List Byte, k.length ≠ s.cfg.keyLen →
      exec (.keyWrite k) s = .next s.refusal ∧ exec (.key k) s = .next s.refusal) ∧
    (∀ (v : Byte) (more : List Byte), 256 ≤ more.length →
      exec (.stinc v more) s = .next s.refusal) ∧
    (∀ more, 256 ≤ more → exec (.ldinc more) s = .next s.refusal) ∧
    ∀ n, n = 0 ∨ 256 < n → exec (.repeatNext n) s = .next s.refusal

/-- 42_nvm.md R220 (2), (4), R237, R242, R243, R245, 20_memory.md R63, 43_session.md R262: the argument
refusals of NVM and of `open`, in every mode: a profile that is not valid, a page command on a region that
is not paged, a page, a block or a fuse outside its region or its address space, a fuse value that is no
byte. The caller errors that come first (R220 (3)) are `CallerErrors`. That a command also checks the
controller registers it will address, and which they are, is log entry 23. -/
def Obligations.NvmAndOpenArgumentsChecked : Prop :=
  ∀ s : State, s.rsp.busy = false → SequencersIdle s →
    let p := s.ses.profile
    let refused (i : Instr) : Prop := exec i s = .next s.refusal
    let noFit (a : Nat) : Prop := 2 ^ (8 * p.addrBytes) ≤ a
    let noRegs (regs : Config → Profile → List Nat) : Prop := ∃ a ∈ regs s.cfg p, noFit a
    (∀ (q : Profile) (port : Nat),
      ¬(1 ≤ q.addrBytes ∧ q.addrBytes ≤ 3 ∧ 0 < q.flashPage ∧ 0 < q.eepromPage ∧
        q.flashSize % q.flashPage = 0 ∧ q.eepromSize % q.eepromPage = 0 ∧
        q.keyProg.length = s.cfg.keyLen ∧ q.keyErase.length = s.cfg.keyLen ∧
        q.nvmBase + s.cfg.nvmAddrOff + 1 < 2 ^ (8 * q.addrBytes)) →
      refused (.openSession q port)) ∧
    (∀ (r : Region) (region offset : Nat) (d : List Byte), regionOfCode region = some r →
      r = .fuse ∨ r = .lock ∨ r = .userRow →
      refused (.writePage region offset d) ∧ refused (.erasePage region offset)) ∧
    (∀ (r : Region) (region offset page : Nat), regionOfCode region = some r →
      regionPage p r = some page → offset % page = 0 →
      (∀ d : List Byte, d.length = page →
        (regionSize p r < offset + page ∨ noFit (regionBase p r + offset + page - 1) ∨
          noRegs codeRegs) → refused (.writePage region offset d)) ∧
      ((regionSize p r < offset + page ∨ noFit (regionBase p r + offset) ∨ noRegs codeRegs) →
        refused (.erasePage region offset))) ∧
    (∀ (r : Region) (region offset n : Nat), regionOfCode region = some r →
      (regionSize p r < offset + n ∨ (0 < n ∧ noFit (regionBase p r + offset + n - 1))) →
      refused (.readBytes region offset n)) ∧
    (∀ i, i < p.fuseCount → noFit (p.fuseBase + i) → refused (.readFuse i)) ∧
    (∀ i v, 0xFF < v → refused (.writeFuse i v)) ∧
    (∀ i v, i < p.fuseCount → (2 ^ 16 ≤ p.fuseBase + i ∨ noRegs fuseRegs) →
      refused (.writeFuse i v)) ∧
    (noRegs pollRegs → refused .waitNvmReady) ∧
    (noRegs codeRegs → refused .chipErase ∧ refused .eepromErase)

/-- 41_datalink.md R175: in a session, exactly the stated CS addresses and values are refused. -/
def Obligations.CsAddressChecked : Prop :=
  ∀ s : State, Inv s → s.ses.sesState ≠ .closed →
    (∀ a, ∃ t, exec (.csRead a) s = .next t ∧ (t.rsp.rspStatus = 0xFF ↔ 0x0F < a)) ∧
    ∀ a v, ∃ t, exec (.csWrite a v) s = .next t ∧ (t.rsp.rspStatus = 0xFF ↔ 0x0F < a ∨ 0xFF < v)

/-- 42_nvm.md R248. -/
def Obligations.CrcCheckRefused : Prop :=
  (∀ a, decodeCommand 0x39 a = some .crcCheck) ∧
    ∀ s : State, s.rsp.busy = false → exec .crcCheck s = .next s.refusal

/-- 10_state.md R38: the fields of the status byte, their values at reset, and that reading it changes
nothing but the response. -/
def Obligations.StatusByteFields : Prop :=
  ∀ s : State, s.rsp.busy = false →
    ∃ t b, exec .getStatus s = .next t ∧ Answered t [b] ∧ t = s.setRsp t.rsp ∧
      b.extractLsb' 0 2 =
        (match s.ses.sesState with
          | .closed => 0#2
          | .linkEstablished => 1#2
          | .unlocked => 2#2
          | .programming => 3#2) ∧
      b.getLsbD 2 = s.phy.linkUp ∧ b.getLsbD 3 = s.nvm.eraseKeySent ∧
      b.getLsbD 4 = s.phy.line.frameErr ∧ b.getLsbD 5 = s.ses.trOpen ∧
      b.getLsbD 6 = false ∧ b.getLsbD 7 = false ∧ (s = State.reset → b = 0)

/-- 42_nvm.md R232, R240, R242, R245: the caller errors, their records, and that nothing else happens;
alignment is checked before the page size (60_exceptions.md R289 (5)). -/
def Obligations.CallerErrors : Prop :=
  ∀ (s : State) (r : Region) (region page offset : Nat), s.rsp.busy = false → SequencersIdle s →
    (s.ses.sesState = .unlocked ∨ s.ses.sesState = .programming) →
    regionOfCode region = some r → regionPage s.ses.profile r = some page →
    let ends (i : Instr) (code : Byte) (b : ErrBase) : Prop :=
      exec i s = .next (s.setRsp
        { busy := false, rspStatus := code, rspData := [], rspInfo := { base := b } })
    (∀ d : List Byte, offset % page ≠ 0 →
      ends (.writePage region offset d) 0x06
        { layer := some .nvm, op := [.writePage], region := some region, offset := some offset
          page := some page }) ∧
    (offset % page ≠ 0 →
      ends (.erasePage region offset) 0x06
        { layer := some .nvm, op := [.erasePage], region := some region, offset := some offset
          page := some page }) ∧
    (∀ d : List Byte, offset % page = 0 → d.length ≠ page →
      ends (.writePage region offset d) 0x07
        { layer := some .nvm, op := [.writePage], region := some region, length := some d.length
          page := some page }) ∧
    ∀ n, s.ses.profile.fuseCount ≤ n →
      ends (.readFuse n) 0x08
        { layer := some .nvm, op := [.readFuse], index := some n
          count := some s.ses.profile.fuseCount } ∧
      ∀ v, v ≤ 0xFF → ends (.writeFuse n v) 0x08
        { layer := some .nvm, op := [.writeFuse], index := some n
          count := some s.ses.profile.fuseCount }

/-- 42_nvm.md R222, 60_exceptions.md R289: without the key a mutating command does nothing. It is refused
unless a caller error comes first. -/
def Obligations.MutatingCommandsNeedTheKey : Prop :=
  ∀ s : State, s.rsp.busy = false → SequencersIdle s → s.nvm.eraseKeySent = false →
    exec .chipErase s = .next s.refusal ∧ exec .eepromErase s = .next s.refusal ∧
    ∀ i, (∃ r o d, i = .writePage r o d) ∨ (∃ r o, i = .erasePage r o) ∨ (∃ n v, i = .writeFuse n v) →
      ∃ t, exec i s = .next t ∧ t = s.setRsp t.rsp ∧
        (t.rsp.rspStatus = 0xFF ∨ t.rsp.rspStatus = 0x06 ∨ t.rsp.rspStatus = 0x07 ∨
          t.rsp.rspStatus = 0x08)

/-! ### Errors -/

/-- 60_exceptions.md R286, class by class. -/
def Obligations.ErrorClasses : Prop :=
  ∀ (s t : State) (i : Instr), Inv s → exec i s = .next t →
    (t.rsp.rspStatus ∈ ([0x01, 0x02, 0x03, 0x04, 0x05] : List Byte) → SessionClosed t) ∧
    (t.rsp.rspStatus ∈ ([0x06, 0x07, 0x08] : List Byte) → t = s.setRsp t.rsp) ∧
    (t.rsp.rspStatus = 0x0A → isOpen i = true ∧ s.ses.sesState = .closed ∧ SessionClosed t) ∧
    (t.rsp.rspStatus = 0x0B → s.ses.sesState = .linkEstablished ∧ t.ses = s.ses)

/-- 60_exceptions.md R284 (2), (5), R282: what any error leaves: idle sequencers, no partial result, and
a record that names the layer and the operation, with the fields of its code; the two errors of SES with
the error they wrap (43_session.md R260, R263). -/
def Obligations.ErrorRecord : Prop :=
  ∀ (s t : State) (i : Instr), Inv s → exec i s = .next t → t.rsp.rspStatus ≠ 0x00 →
    t.rsp.rspStatus ≠ 0xFF →
    let b := t.rsp.rspInfo.base
    SequencersIdle t ∧ t.rsp.rspData = [] ∧ b.layer ≠ none ∧ b.op ≠ [] ∧
    (t.rsp.rspStatus = 0x02 → b.attempts = some t.phy.syncAttempt ∧ b.got ≠ none) ∧
    (t.rsp.rspStatus = 0x03 → (b.phase = some .echo ∨ b.phase = some .response) ∧ b.wanted ≠ none) ∧
    (t.rsp.rspStatus = 0x04 → (b.phase = some .address ∨ b.phase = some .data) ∧
      b.expected = some s.cfg.ack ∧ b.got = some (.byte t.dl.ackLast) ∧ t.dl.ackLast ≠ s.cfg.ack) ∧
    (t.rsp.rspStatus = 0x05 → b.addr = some (statAddr s.cfg s.ses.profile) ∧
      b.status = some t.nvm.lastStatus) ∧
    (t.rsp.rspStatus = 0x0A → b.layer = some .ses ∧ b.op = [.openSession] ∧
      ∃ code cause, t.rsp.rspInfo.cause = some (code, cause) ∧
        (code = .linkInit ∨ code = .linkTimeout) ∧ cause.layer ≠ none ∧ cause.op ≠ []) ∧
    (t.rsp.rspStatus = 0x0B → b.layer = some .ses ∧ b.op = [.enterProgrammingMode] ∧
      ((t.rsp.rspInfo.cause = none ∧
          ∃ v, b.status = some v ∧ v &&& s.cfg.progModeMask = 0) ∨
        (b.status = none ∧ ∃ cause, t.rsp.rspInfo.cause = some (.linkTimeout, cause) ∧
          cause.layer ≠ none ∧ cause.op ≠ []))) ∧
    (t.rsp.rspStatus ≠ 0x0A → t.rsp.rspStatus ≠ 0x0B → t.rsp.rspInfo.cause = none)

/-- 41_datalink.md R173, R183: a wrong byte in place of the address acknowledge ends `sts`, with the data
byte not sent; only the cleanup's CS writes may follow (60_exceptions.md R288), and DL's registers are
as the failed `sts` left them (R290). -/
def Obligations.WrongAcknowledgeStopsTheStore : Prop :=
  ∀ (s : State) (a v n : Nat) (b : Byte) (w : World), Ready s → addrOk a n = true → v ≤ 0xFF →
    b ≠ s.cfg.ack →
    Plays s.cfg [.tx ([SYNC, opSts s.cfg n] ++ le a n), .rx [b]] s.world w →
    ∃ t zs, exec (.sts a v n) s = .next t ∧
      Failed t 0x04 { base :=
        { layer := some .dl, op := [.sts], addr := some a, phase := some .address
          expected := some s.cfg.ack, got := some (.byte b) } } ∧
      t.dl = { s.dl with
        opAddr := BitVec.ofNat 24 a, opSize := BitVec.ofNat 2 n, opLen := 1
        dataBuf := [BitVec.ofNat 8 v], ackLast := b } ∧
      SessionClosed t ∧ SequencersIdle t ∧ zs.Sublist (closeXfers s.cfg s.cfg.cleanupReset) ∧
      t.traffic = s.traffic ++ [.tx ([SYNC, opSts s.cfg n] ++ le a n), .rx [b]] ++ zs

/-! ### The whole machine -/

/-- 43_session.md R269. `NoteNvmOp` is seen in what an NVM command sends (R265). -/
def Obligations.ModeTransitions : Prop :=
  ∀ (s t : State) (i : Instr), Inv s → exec i s = .next t →
    (isOpen i = true → t.rsp.rspStatus = 0x00 →
      s.ses.sesState = .closed ∧ t.ses.sesState = .linkEstablished) ∧
    (isOpen i = true → t.rsp.rspStatus ≠ 0x00 → t.ses.sesState = s.ses.sesState) ∧
    (isClose i = true → t.ses.sesState = .closed) ∧
    (i = .enterProgrammingMode → t.rsp.rspStatus = 0x00 →
      s.ses.sesState = .linkEstablished ∧ t.ses.sesState = .unlocked) ∧
    (isOpen i = false → t.rsp.rspStatus ∈ ([0x01, 0x02, 0x03, 0x04, 0x05] : List Byte) →
      s.ses.sesState ≠ .closed ∧ t.ses.sesState = .closed) ∧
    (isNvmCommand i = true → t.rsp.rspStatus = 0x00 →
      (s.ses.sesState = .unlocked ∨ s.ses.sesState = .programming) ∧
      (t.traffic = s.traffic → t.ses.sesState = s.ses.sesState) ∧
      (t.traffic ≠ s.traffic → t.ses.sesState = .programming)) ∧
    (isOpen i = false → isClose i = false → i ≠ .enterProgrammingMode → isNvmCommand i = false →
      t.rsp.rspStatus = 0x00 → t.ses.sesState = s.ses.sesState) ∧
    (t.rsp.rspStatus ∈ ([0x06, 0x07, 0x08, 0x0B, 0xFF] : List Byte) → isClose i = false →
      t.ses.sesState = s.ses.sesState)

/-- 43_session.md R265: a command of NVM that ends `OK` has noted itself exactly if it sent anything. -/
def Obligations.NoteNvmOpWhenSending : Prop :=
  ∀ (s t : State) (i : Instr), Inv s → isNvmCommand i = true → exec i s = .next t →
    t.rsp.rspStatus = 0x00 →
    (t.traffic = s.traffic → t.ses.sesState = s.ses.sesState) ∧
      (t.traffic ≠ s.traffic → t.ses.sesState = .programming)

/-- 10_state.md R34: when the key flag is set and when it is cleared. -/
def Obligations.KeyFlag : Prop :=
  ∀ (s t : State) (i : Instr), Inv s → exec i s = .next t →
    (i = .unlockChipEraseKey → t.rsp.rspStatus = 0x00 → t.nvm.eraseKeySent = true) ∧
    (¬(i = .unlockChipEraseKey ∧ t.rsp.rspStatus = 0x00) → t.nvm.eraseKeySent = true →
      s.nvm.eraseKeySent = true) ∧
    (isOpen i = true → t.rsp.rspStatus = 0x00 → t.nvm.eraseKeySent = false) ∧
    (isClose i = true → t.nvm.eraseKeySent = false) ∧
    (s.nvm.eraseKeySent = true → t.nvm.eraseKeySent = false → t.ses.sesState = .closed)

/-- 40_phy.md R142: `PhyInit` runs in `open` and `initialize` only; an opened session has sent a break. -/
def Obligations.BreaksOnlyInPhyInit : Prop :=
  ∀ (s t : State) (i : Instr), Inv s → exec i s = .next t →
    (t.breaks ≠ s.breaks → isOpen i = true ∨ i = .initLink) ∧
    (isOpen i = true → t.rsp.rspStatus = 0x00 → s.breaks < t.breaks) ∧
    ∀ ev, t.trace = s.trace ++ ev → ∀ e ∈ ev, e.isBreak = true → e.phy = .brk

/-- 40_phy.md R138, R140, R142, 10_state.md R26: the retry loop of link initialisation, alone or in `open`.
Each attempt makes one break and reads SYNC's echo once. The loop ends with the first read that gives
SYNC, and then `link_up` is 1; when every one of the `SYNC_ATTEMPTS` reads gives something else or
nothing it is `LinkInitError`, and the link is down. A `SYNC_ATTEMPTS` of 0, which 00_scope.md R9
excludes, acts as 1 (log entry 26). -/
def Obligations.LinkInitRetries : Prop :=
  ∀ (s t : State) (i : Instr) (ev : List Event), Inv s → (i = .initLink ∨ isOpen i = true) →
    exec i s = .next t → t.trace = s.trace ++ ev →
    let reads := ev.filterMap Event.syncEcho
    let tries := max 1 s.cfg.syncAttempts
    let exhausted (code : Code) (b : ErrBase) : Prop :=
      code = .linkInit → t.phy.syncAttempt = tries ∧ reads.length = tries ∧
        (∀ r ∈ reads, r ≠ .bytes [SYNC]) ∧ t.breaks = s.breaks + tries ∧ t.phy.linkUp = false ∧
        b.layer = some .phy ∧ b.attempts = some tries ∧ b.got = reads.getLast?.map PortAnswer.got
    (t.rsp.rspStatus = 0x00 →
      (∃ failed, reads = failed ++ [.bytes [SYNC]] ∧ failed.length + 1 = t.phy.syncAttempt ∧
        ∀ r ∈ failed, r ≠ .bytes [SYNC]) ∧
      t.phy.syncAttempt ≤ tries ∧ t.breaks = s.breaks + t.phy.syncAttempt ∧
      t.phy.linkUp = true) ∧
    (t.rsp.rspStatus = 0x02 → exhausted .linkInit t.rsp.rspInfo.base) ∧
    (t.rsp.rspStatus = 0x0A → ∃ code b, t.rsp.rspInfo.cause = some (code, b) ∧ exhausted code b) ∧
    t.breaks ≤ s.breaks + tries ∧
    (∀ r ∈ reads.dropLast, r ≠ .bytes [SYNC])

/-- 10_state.md R20, R22, 60_exceptions.md R296, 10_state.md R28: no command writes a parameter; only
`open` writes the profile; time and trace only grow; `frame_err` stays set until the next `open`. -/
def Obligations.WhatNoCommandChanges : Prop :=
  ∀ (s t : State) (i : Instr), Inv s → exec i s = .next t →
    t.cfg = s.cfg ∧ t.inputs = s.inputs ∧ s.now ≤ t.now ∧ (∃ ev, t.trace = s.trace ++ ev) ∧
    (isOpen i = false → t.ses.profile = s.ses.profile ∧ t.phy.baudCur = s.phy.baudCur ∧
      (s.phy.line.frameErr = true → t.phy.line.frameErr = true)) ∧
    ∀ p port, i = .openSession p port → t.rsp.rspStatus = 0x00 → t.ses.profile = p

/-- The invariant holds after reset. -/
def Obligations.ResetHasInvariant : Prop := Inv State.reset ∧ State.reset.env.wf

/-- 43_session.md R270, 40_phy.md R151, 10_state.md R34: every step keeps what holds between commands, and
target memory keeps its canonical form. -/
def Obligations.StepKeepsInvariant : Prop :=
  ∀ s t : State, Inv s → step s = .next t → Inv t ∧ (s.env.wf → t.env.wf)

/-- 42_nvm.md R225, R226: success only after an idle read; `NvmBusyTimeoutError` only after a read that
was not idle, at or past the deadline. -/
def Obligations.ReadyMeansAnIdleRead : Prop :=
  ∀ (s t : State) (i : Instr), Inv s → exec i s = .next t →
    (endsReady i = true → t.rsp.rspStatus = 0x00 →
      nvmIdle s.cfg t.nvm.lastStatus = true ∧ t.nvm.statusValid = true ∧ t.traffic ≠ s.traffic) ∧
    (t.rsp.rspStatus = 0x05 → endsReady i = true ∧ nvmIdle s.cfg t.nvm.lastStatus = false ∧
      t.nvm.statusValid = true ∧ s.now + s.cfg.tNvm ≤ t.nvm.pollDeadline ∧
      t.nvm.pollDeadline ≤ t.now)

/-! ### The line -/

/-- 40_phy.md R131: from a loaded frame on, the bit-times drive the twelve values of the frame and
then 1. -/
def Obligations.SerialiserDrivesTheFrame : Prop :=
  ∀ (f : FrameFormat) (l : Line) (b : Byte) (k : Nat),
    (Line.serialise^[k + 1] (l.load f b)).lineTx = (frameBits f b).getD k true

/-- 40_phy.md R131 to R133, 20_memory.md R76: on a line where the target is silent, everything sent comes
back. -/
def Obligations.SelfEcho : Prop :=
  ∀ (f : FrameFormat) (l : Line) (bs : List Byte) (drive : List Bool), LineQuiet l →
    drive.all id = true →
    let t := l.send f bs drive
    t.rxFifo = l.rxFifo ++ bs ∧ t.frameErr = l.frameErr ∧ LineQuiet t

/-- 40_phy.md R132, R136: twelve values from a start bit on are one byte or a malformed frame. -/
def Obligations.FrameReceived : Prop :=
  ∀ (f : FrameFormat) (l : Line) (w : List Bool), LineQuiet l → w.length = 12 →
    w.head? = some false →
    let t := l.listen f w
    (∀ b, deframe f w = some b → t.rxFifo = l.rxFifo ++ [b] ∧ t.frameErr = l.frameErr) ∧
    (deframe f w = none → t.rxFifo = l.rxFifo ∧ t.frameErr = true) ∧ t.rxCnt = 0

/-! ### What each instruction does when its exchange is answered -/

/-- 41_datalink.md R176, R178: LDCS, STCS and the commands for them. That a wire instruction runs alone, as
its operation does, and its answer is the response, is the model's choice (log entry 4). -/
def Obligations.CsExchanges : Prop :=
  ∀ (s : State) (a : CsAddr) (v : Byte) (w : World), Ready s →
    let done (i : Instr) (data : List Byte) (xs : List Xfer) : Prop :=
      Plays s.cfg xs s.world w →
      ∃ t, exec i s = .next t ∧
        Finished s t data xs w s.ses { s.dl with opAddr := BitVec.ofNat 24 a.toNat } s.nvm
    done (.ldcs a) [v] [.tx [SYNC, opLdcs s.cfg a], .rx [v]] ∧
    done (.csRead a.toNat) [v] [.tx [SYNC, opLdcs s.cfg a], .rx [v]] ∧
    done (.stcs a v) [] [.tx [SYNC, opStcs s.cfg a, v]] ∧
    done (.csWrite a.toNat v.toNat) [] [.tx [SYNC, opStcs s.cfg a, v]]

/-- 41_datalink.md R180: LDS with each address size, and the command. Wire instructions alone: log entry 4. -/
def Obligations.DirectLoads : Prop :=
  ∀ (s : State) (b : Byte) (w : World), Ready s →
    let done (i : Instr) (a n : Nat) : Prop :=
      Plays s.cfg (ldsXfers s.cfg a n b) s.world w →
      ∃ t, exec i s = .next t ∧
        Finished s t [b] (ldsXfers s.cfg a n b) w s.ses
          { s.dl with
            opAddr := BitVec.ofNat 24 a, opSize := BitVec.ofNat 2 n, opLen := 1, respBuf := [b] } s.nvm
    (∀ a, done (.lds1 a) a.toNat 1) ∧ (∀ a, done (.lds2 a) a.toNat 2) ∧
    (∀ a, done (.lds3 a) a.toNat 3) ∧ ∀ a n, addrOk a n = true → done (.lds a n) a n

/-- 41_datalink.md R183: STS with each address size, and the command. Wire instructions alone: log entry 4. -/
def Obligations.DirectStores : Prop :=
  ∀ (s : State) (v : Byte) (w : World), Ready s →
    let done (i : Instr) (a n : Nat) : Prop :=
      Plays s.cfg (stsXfers s.cfg a v n) s.world w →
      ∃ t, exec i s = .next t ∧
        Finished s t [] (stsXfers s.cfg a v n) w s.ses
          { s.dl with
            opAddr := BitVec.ofNat 24 a, opSize := BitVec.ofNat 2 n, opLen := 1, dataBuf := [v]
            ackLast := s.cfg.ack } s.nvm
    (∀ a, done (.sts1 a v) a.toNat 1) ∧ (∀ a, done (.sts2 a v) a.toNat 2) ∧
    (∀ a, done (.sts3 a v) a.toNat 3) ∧ ∀ a n, addrOk a n = true → done (.sts a v.toNat n) a n

/-- 41_datalink.md R187: the pointer set at each width; the command uses the profile's. Wire instructions
alone: log entry 4. -/
def Obligations.PointerStores : Prop :=
  ∀ (s : State) (w : World), Ready s →
    let done (i : Instr) (p n : Nat) : Prop :=
      Plays s.cfg (stPtrXfers s.cfg n p) s.world w →
      ∃ t, exec i s = .next t ∧
        Finished s t [] (stPtrXfers s.cfg n p) w s.ses
          { s.dl with
            opAddr := BitVec.ofNat 24 p, opSize := BitVec.ofNat 2 n, ackLast := s.cfg.ack } s.nvm
    (∀ p, done (.stptr1 p) p.toNat 1) ∧ (∀ p, done (.stptr2 p) p.toNat 2) ∧
    (∀ p, done (.stptr3 p) p.toNat 3) ∧
    ∀ p, addrOk p s.ses.profile.addrBytes = true → done (.stPtr p) p s.ses.profile.addrBytes

/-- 41_datalink.md R189: the pointer read at each width; the command uses the profile's. Wire instructions
alone: log entry 4. -/
def Obligations.PointerLoads : Prop :=
  ∀ (s : State) (w : World) (answer : List Byte), Ready s →
    let done (i : Instr) (n : Nat) : Prop :=
      answer.length = n → Plays s.cfg (ldPtrXfers s.cfg n answer) s.world w →
      ∃ t, exec i s = .next t ∧
        Finished s t answer (ldPtrXfers s.cfg n answer) w s.ses
          { s.dl with opSize := BitVec.ofNat 2 n, respBuf := answer } s.nvm
    done .ldptr1 1 ∧ done .ldptr2 2 ∧ done .ldptr3 3 ∧
    (sizeOk s.ses.profile.addrBytes = true → done .ldPtr s.ses.profile.addrBytes)

/-- 41_datalink.md R192: stores through the pointer, alone, under REPEAT, and as a block. An empty block
sends nothing. That STINC is run alone, with its further bytes, is the model's choice (log entries 4,
5). -/
def Obligations.PointerBlockStores : Prop :=
  ∀ (s : State) (w : World), Ready s →
    (∀ v more, more.length < 256 → Plays s.cfg (stIncXfers s.cfg v more) s.world w →
      ∃ t, exec (.stinc v more) s = .next t ∧
        Finished s t [] (stIncXfers s.cfg v more) w s.ses
          { s.dl with
            opLen := more.length + 1, opIdx := more.length + 1, dataBuf := v :: more
            ackLast := s.cfg.ack } s.nvm) ∧
    ∀ block rep, (rep = true → block.length ≤ 256) →
      Plays s.cfg (stPtrIncXfers s.cfg rep block) s.world w →
      ∃ t, exec (.stPtrInc block rep) s = .next t ∧
        Finished s t [] (stPtrIncXfers s.cfg rep block) w s.ses
          { s.dl with
            opLen := block.length, opIdx := block.length, dataBuf := block
            ackLast := if block = [] then s.dl.ackLast else s.cfg.ack } s.nvm

/-- 41_datalink.md R196: loads through the pointer, alone, under REPEAT, and as a block. That LDINC is run
alone, with its further answers, is the model's choice (log entries 4, 5). -/
def Obligations.PointerBlockLoads : Prop :=
  ∀ (s : State) (w : World) (answer : List Byte), Ready s →
    let done (i : Instr) (xs : List Xfer) : Prop :=
      Plays s.cfg xs s.world w →
      ∃ t, exec i s = .next t ∧
        Finished s t answer xs w s.ses
          { s.dl with opLen := answer.length, opIdx := answer.length, respBuf := answer } s.nvm
    (∀ more, answer.length = more + 1 → more < 256 →
      done (.ldinc more) [.tx [SYNC, opLdInc s.cfg], .rx answer]) ∧
    ∀ rep, (rep = true → answer.length ≤ 256) →
      done (.ldPtrInc answer.length rep) (ldPtrIncXfers s.cfg rep answer)

/-- 41_datalink.md R205: a key in its line order, by the command and by KEY alone (log entry 4). REPEAT alone,
which sends what 41_datalink.md R200 says, nothing for one repetition, and changes no register, is the
model's choice (log entries 4, 5). -/
def Obligations.RepeatAndKey : Prop :=
  ∀ (s : State) (w : World), Ready s →
    (∀ n, 1 ≤ n → n ≤ 256 →
      Plays s.cfg (repeatXfers s.cfg n) s.world w →
      ∃ t, exec (.repeatNext n) s = .next t ∧
        Finished s t [] (repeatXfers s.cfg n) w s.ses s.dl s.nvm) ∧
    ∀ k i, (i = .key k ∨ i = .keyWrite k) → k.length = s.cfg.keyLen →
      Plays s.cfg (keyXfers s.cfg k) s.world w →
      ∃ t, exec i s = .next t ∧
        Finished s t [] (keyXfers s.cfg k) w s.ses
          { s.dl with dataBuf := keyOrd s.cfg k, opLen := s.cfg.keyLen } s.nvm

/-- 40_phy.md R143, R144 (c): `send_bytes` sends, and removes as many bytes as it sent from the front of
what was received, whatever they are. -/
def Obligations.SendBytes : Prop :=
  ∀ (s : State) (bs : List Byte), Ready s →
    (∀ w, Plays s.cfg (sends bs) s.world w →
      ∃ t, exec (.sendBytes bs) s = .next t ∧ Finished s t [] (sends bs) w s.ses s.dl s.nvm) ∧
    (bs ≠ [] → Echoes (s.env.answer s.cfg (.trWrite bs)).1 →
      ((s.env.answer s.cfg (.trWrite bs)).2.answer s.cfg (.trRead 0 s.cfg.tEcho)).1.ioerror = false →
      ∃ t, exec (.sendBytes bs) s = .next t ∧ Answered t [] ∧ t.ses = s.ses ∧ t.nvm = s.nvm ∧
        t.dl = s.dl ∧ t.traffic = s.traffic ++ [.tx bs] ∧
        t.phy.line.rxFifo = (s.phy.line.rxFifo ++ bs).drop bs.length)

/-- 40_phy.md R134, R146: exactly `n` bytes, oldest first, what was unread before the new ones: at once where
they stand there already, as soon as the last has arrived where not. Too few within the timeout is
`LinkTimeoutError`, at once for a timeout of 0, and the bytes that had arrived are lost. -/
def Obligations.ReceiveBytes : Prop :=
  ∀ (s : State) (timeout : Nat), Ready s →
    (∃ t, exec (.receiveBytes 0 timeout) s = .next t ∧
      Finished s t [] [] s.world s.ses s.dl s.nvm) ∧
    (∀ bs left, bs ≠ [] → s.phy.line.rxFifo = bs ++ left →
      (s.env.answer s.cfg (.trRead 0 timeout)).1.ioerror = false →
      ∃ t, exec (.receiveBytes bs.length timeout) s = .next t ∧
        Finished s t bs [.rx bs] ⟨(s.env.answer s.cfg (.trRead 0 timeout)).2, left, s.now⟩
          s.ses s.dl s.nvm) ∧
    (∀ more, more ≠ [] → 0 < timeout →
      answers s.cfg.frame (s.env.answer s.cfg (.trRead more.length timeout)).1 more →
      ∃ t, exec (.receiveBytes (s.phy.line.rxFifo ++ more).length timeout) s = .next t ∧
        Finished s t (s.phy.line.rxFifo ++ more) [.rx (s.phy.line.rxFifo ++ more)]
          ⟨(s.env.answer s.cfg (.trRead more.length timeout)).2, [],
            s.now + min (s.env.answer s.cfg (.trRead more.length timeout)).1.dt (timeout - 1)⟩
          s.ses s.dl s.nvm) ∧
    ∀ n, s.phy.line.rxFifo.length < n →
      let d := (s.env.answer s.cfg (.trRead (n - s.phy.line.rxFifo.length) timeout)).1
      d.ioerror = false →
      (timeout = 0 ∨ ∃ more, carries s.cfg.frame more d.drive = true ∧
        s.phy.line.rxFifo.length + more.length < n) →
      ∃ t, exec (.receiveBytes n timeout) s = .next t ∧
        Failed t 0x03 { base :=
          { layer := some .phy, op := [.receiveBytes], phase := some .response, wanted := some n } } ∧
        SessionClosed t ∧ t.phy.line.rxFifo = [] ∧ s.now + timeout ≤ t.now

/-- 40_phy.md R138: link initialisation whose first SYNC comes back: one break, one SYNC. -/
def Obligations.InitializeLink : Prop :=
  ∀ (s : State) (w : World), Ready s → Synchronises s.cfg s.world w →
    ∃ t, exec .initLink s = .next t ∧ Answered t [] ∧ Linked s t [] w ∧ t.ses = s.ses ∧
      t.nvm = s.nvm ∧ t.dl = s.dl

/-- 43_session.md R260: `open` of a valid profile on a line that answers. -/
def Obligations.OpenSession : Prop :=
  ∀ (s : State) (p : Profile) (port : Nat) (m w : World), Inv s → s.ses.sesState = .closed →
    profileValid s.cfg p = true →
    let d := s.env.answer s.cfg (.trOpen port s.cfg.baud)
    d.1.ioerror = false → Synchronises s.cfg ⟨d.2, [], s.now + d.1.dt⟩ m →
    Plays s.cfg (openXfers s.cfg) m w →
    ∃ t, exec (.openSession p port) s = .next t ∧ Answered t [] ∧
      Linked s t (openXfers s.cfg) w ∧ t.phy.line.frameErr = false ∧
      t.ses = { sesState := .linkEstablished, profile := p, trOpen := true } ∧
      t.nvm = { s.nvm with eraseKeySent := false } ∧ t.dl = s.dl.afterOpen s.cfg

/-- 43_session.md R263: the key, the status read, and the test of its programming-mode bit. -/
def Obligations.EnterProgrammingMode : Prop :=
  ∀ (s : State) (v : Byte) (w : World), Ready s → s.ses.sesState = .linkEstablished →
    s.ses.profile.keyProg.length = s.cfg.keyLen →
    let xs := keyXfers s.cfg s.ses.profile.keyProg ++
      [.tx [SYNC, opLdcs s.cfg s.cfg.csProgStatusAddr], .rx [v]]
    Plays s.cfg xs s.world w →
    (v &&& s.cfg.progModeMask ≠ 0 →
      ∃ t, exec .enterProgrammingMode s = .next t ∧
        Finished s t [] xs w { s.ses with sesState := .unlocked }
          { s.dl with
            dataBuf := keyOrd s.cfg s.ses.profile.keyProg, opLen := s.cfg.keyLen
            opAddr := BitVec.ofNat 24 s.cfg.csProgStatusAddr.toNat } s.nvm) ∧
    (v &&& s.cfg.progModeMask = 0 →
      ∃ t, exec .enterProgrammingMode s = .next t ∧
        Failed t 0x0B { base :=
          { layer := some .ses, op := [.enterProgrammingMode], status := some v } } ∧
        t.ses = s.ses ∧ t.nvm = s.nvm ∧ Exchanged s t xs w)

/-- 43_session.md R266: `close` ends `OK` whatever the line does, and a second `close` changes nothing. -/
def Obligations.CloseNeverFails : Prop :=
  ∀ (s : State) (r : Bool), s.rsp.busy = false →
    ∃ t zs, exec (.closeSession r) s = .next t ∧ Answered t [] ∧ SessionClosed t ∧
      SequencersIdle t ∧ t.phy.line.rxFifo = [] ∧ zs.Sublist (closeXfers s.cfg r) ∧
      t.traffic = s.traffic ++ zs ∧ t.breaks = s.breaks ∧ ∀ r', exec (.closeSession r') t = .next t

/-- 43_session.md R266: what `close` sends on a line that answers, in order. -/
def Obligations.CloseReturnsTheControlRegister : Prop :=
  ∀ (s : State) (r : Bool) (m : World), Ready s → s.phy.linkUp = true →
    Plays s.cfg (closeXfers s.cfg r) s.world m →
    brings s.cfg.frame (m.env.answer s.cfg .trClose).1 [] →
    ∃ t, exec (.closeSession r) s = .next t ∧ Answered t [] ∧
      t.traffic = s.traffic ++ closeXfers s.cfg r ∧ t.env = (m.env.answer s.cfg .trClose).2 ∧
      t.cfg = s.cfg ∧ t.inputs = s.inputs ∧
      t.ses = { s.ses with sesState := .closed, trOpen := false } ∧
      t.nvm = { s.nvm with eraseKeySent := false } ∧
      t.dl = { s.dl with
        opAddr := BitVec.ofNat 24 (if r then s.cfg.csResetAddr else s.cfg.csCtrlAddr).toNat } ∧
      t.phy.linkUp = false ∧ t.phy.baudCur = s.phy.baudCur ∧
      t.phy.syncAttempt = s.phy.syncAttempt ∧ t.phy.line.frameErr = s.phy.line.frameErr ∧
      t.phy.line.lineTx = true ∧ t.phy.line.rxFifo = []

/-- 42_nvm.md R221: the key is sent once; a second call sends nothing. -/
def Obligations.UnlockChipEraseKey : Prop :=
  ∀ s : State, NvmReady s →
    (s.nvm.eraseKeySent = true →
      ∃ t, exec .unlockChipEraseKey s = .next t ∧ Finished s t [] [] s.world s.ses s.dl s.nvm) ∧
    (s.nvm.eraseKeySent = false → ∀ w, Plays s.cfg (keyXfers s.cfg s.ses.profile.keyErase) s.world w →
      ∃ t, exec .unlockChipEraseKey s = .next t ∧
        Finished s t [] (keyXfers s.cfg s.ses.profile.keyErase) w s.ses.noted
          { s.dl with
            dataBuf := keyOrd s.cfg s.ses.profile.keyErase, opLen := s.cfg.keyLen }
          { s.nvm with eraseKeySent := true })

/-- 42_nvm.md R225, R229, R247: the ready check alone, and after one command code. -/
def Obligations.WaitAndWholeErases : Prop :=
  ∀ (s : State) (m w : World) (last : Byte) (busy : List Byte), NvmReady s →
    let c := s.cfg
    let p := s.ses.profile
    let polled (d : Dl) : Dl :=
      { d with
        opAddr := BitVec.ofNat 24 (statAddr c p), opSize := BitVec.ofNat 2 p.addrBytes, opLen := 1
        respBuf := [last] }
    (allFit p (pollRegs c p) = true → PollsIdle c p (s.now + c.tNvm) last busy s.world w →
      ∃ t, exec .waitNvmReady s = .next t ∧
        Finished s t [] (pollXfers c p busy last) w s.ses.noted (polled s.dl)
          (s.nvm.afterReady c s.now last)) ∧
    ∀ i code, (i = .chipErase ∧ code = c.cmdChipErase) ∨ (i = .eepromErase ∧ code = c.cmdEepromErase) →
      s.nvm.eraseKeySent = true → allFit p (codeRegs c p) = true →
      Plays c (execXfers c p code) s.world m →
      PollsIdle c p (m.now + c.tNvm) last busy m w →
      ∃ t, exec i s = .next t ∧
        Finished s t [] (execXfers c p code ++ pollXfers c p busy last) w s.ses.noted
          (polled { s.dl with dataBuf := [code], ackLast := c.ack }) (s.nvm.afterReady c m.now last)

/-- 42_nvm.md R232: pointer, chunks, command code, ready check. -/
def Obligations.WritePage : Prop :=
  ∀ (s : State) (m w : World) (last : Byte) (busy data : List Byte) (region page offset : Nat)
      (r : Region), NvmReady s → s.nvm.eraseKeySent = true →
    regionOfCode region = some r → regionPage s.ses.profile r = some page → offset % page = 0 →
    data.length = page → offset + page ≤ regionSize s.ses.profile r →
    addrOk (regionBase s.ses.profile r + offset + page - 1) s.ses.profile.addrBytes = true →
    allFit s.ses.profile (codeRegs s.cfg s.ses.profile) = true →
    let c := s.cfg
    let p := s.ses.profile
    let xs := stPtrXfers c p.addrBytes (regionBase p r + offset) ++ pageXfers c data ++
      execXfers c p c.cmdWritePage
    Plays c xs s.world m → PollsIdle c p (m.now + c.tNvm) last busy m w →
    ∃ t, exec (.writePage region offset data) s = .next t ∧
      Finished s t [] (xs ++ pollXfers c p busy last) w s.ses.noted
        { s.dl.afterStores c.ack (chunks data) with
          opAddr := BitVec.ofNat 24 (statAddr c p), opSize := BitVec.ofNat 2 p.addrBytes, opLen := 1
          dataBuf := [c.cmdWritePage], respBuf := [last], ackLast := c.ack }
        (s.nvm.afterReady c m.now last)

/-- 42_nvm.md R245: one byte 0xFF stored at the page, command code, ready check. -/
def Obligations.ErasePage : Prop :=
  ∀ (s : State) (m w : World) (last : Byte) (busy : List Byte) (region page offset : Nat) (r : Region),
    NvmReady s → s.nvm.eraseKeySent = true →
    regionOfCode region = some r → regionPage s.ses.profile r = some page → offset % page = 0 →
    offset + page ≤ regionSize s.ses.profile r →
    addrOk (regionBase s.ses.profile r + offset) s.ses.profile.addrBytes = true →
    allFit s.ses.profile (codeRegs s.cfg s.ses.profile) = true →
    let c := s.cfg
    let p := s.ses.profile
    let xs := stsXfers c (regionBase p r + offset) 0xFF p.addrBytes ++ execXfers c p c.cmdErasePage
    Plays c xs s.world m → PollsIdle c p (m.now + c.tNvm) last busy m w →
    ∃ t, exec (.erasePage region offset) s = .next t ∧
      Finished s t [] (xs ++ pollXfers c p busy last) w s.ses.noted
        { s.dl with
          opAddr := BitVec.ofNat 24 (statAddr c p), opSize := BitVec.ofNat 2 p.addrBytes, opLen := 1
          dataBuf := [c.cmdErasePage], respBuf := [last], ackLast := c.ack }
        (s.nvm.afterReady c m.now last)

/-- 42_nvm.md R237, R240: `read_bytes` of any length from any region, and `read_fuse`. Reads need no
key. That after a read of several chunks `resp_buf` and `op_len` are the last chunk's, while the result is
all of them, is log entry 24. -/
def Obligations.NvmReads : Prop :=
  ∀ (s : State) (w : World), NvmReady s →
    let c := s.cfg
    let p := s.ses.profile
    (∀ region r offset, regionOfCode region = some r → offset ≤ regionSize p r →
      ∃ t, exec (.readBytes region offset 0) s = .next t ∧
        Finished s t [] [] s.world s.ses s.dl s.nvm) ∧
    (∀ region r offset answer, regionOfCode region = some r → answer ≠ [] →
      offset + answer.length ≤ regionSize p r →
      addrOk (regionBase p r + offset + answer.length - 1) p.addrBytes = true →
      Plays c (stPtrXfers c p.addrBytes (regionBase p r + offset) ++ loadXfers c answer) s.world w →
      ∃ t, exec (.readBytes region offset answer.length) s = .next t ∧
        Finished s t answer
          (stPtrXfers c p.addrBytes (regionBase p r + offset) ++ loadXfers c answer) w s.ses.noted
          { s.dl.afterLoads (chunks answer) with
            opAddr := BitVec.ofNat 24 (regionBase p r + offset), opSize := BitVec.ofNat 2 p.addrBytes
            ackLast := c.ack } s.nvm) ∧
    ∀ i b, i < p.fuseCount → addrOk (p.fuseBase + i) p.addrBytes = true →
      Plays c (ldsXfers c (p.fuseBase + i) p.addrBytes b) s.world w →
      ∃ t, exec (.readFuse i) s = .next t ∧
        Finished s t [b] (ldsXfers c (p.fuseBase + i) p.addrBytes b) w s.ses.noted
          { s.dl with
            opAddr := BitVec.ofNat 24 (p.fuseBase + i), opSize := BitVec.ofNat 2 p.addrBytes
            opLen := 1, respBuf := [b] } s.nvm

/-- 42_nvm.md R242: the fuse's address low byte then high byte, the value, command code, ready check. -/
def Obligations.WriteFuse : Prop :=
  ∀ (s : State) (m w : World) (last : Byte) (busy : List Byte) (i : Nat) (v : Byte), NvmReady s →
    s.nvm.eraseKeySent = true → i < s.ses.profile.fuseCount → s.ses.profile.fuseBase + i < 2 ^ 16 →
    allFit s.ses.profile (fuseRegs s.cfg s.ses.profile) = true →
    let c := s.cfg
    let p := s.ses.profile
    let n := p.addrBytes
    let xs := stsXfers c (aregAddr c p) (BitVec.ofNat 8 ((p.fuseBase + i) % 256)) n ++
      stsXfers c (aregAddr c p + 1) (BitVec.ofNat 8 ((p.fuseBase + i) / 256)) n ++
      stsXfers c (dregAddr c p) v n ++ execXfers c p c.cmdWriteFuse
    Plays c xs s.world m → PollsIdle c p (m.now + c.tNvm) last busy m w →
    ∃ t, exec (.writeFuse i v.toNat) s = .next t ∧
      Finished s t [] (xs ++ pollXfers c p busy last) w s.ses.noted
        { s.dl with
          opAddr := BitVec.ofNat 24 (statAddr c p), opSize := BitVec.ofNat 2 n, opLen := 1
          dataBuf := [c.cmdWriteFuse], respBuf := [last], ackLast := c.ack }
        (s.nvm.afterReady c m.now last)

/-! ### Against the ideal target (20_memory.md R75 to R87) -/

/-- 20_memory.md R79, R83, R87: a load answers the byte at its address and leaves the target as it was, but
for the delay of its answer, which is drawn (R77). -/
def Obligations.LoadReadsTheTarget : Prop :=
  ∀ (s : State) (d : Target) (a n : Nat), Ready s → Faces s d → addrOk a n = true →
    a ≠ statAddr s.cfg d.prof →
    ∃ t ds k, exec (.lds a n) s = .next t ∧ Answered t [d.byteAt a] ∧ Faces t (d.waited ds k) ∧ Ready t

/-- 20_memory.md R79, R83: a store writes the byte at its address and no other; in a paged region it only
fills the page buffer. -/
def Obligations.StoreWritesTheTarget : Prop :=
  ∀ (s : State) (d : Target) (a n : Nat) (v : Byte), Ready s → Faces s d → addrOk a n = true →
    (d.pagedAt a = none → a ≠ ctrlAddr s.cfg d.prof) →
    ∃ t d', exec (.sts a v.toNat n) s = .next t ∧ Answered t [] ∧ Faces t d' ∧ Ready t ∧
      (d.pagedAt a = none → d'.byteAt a = v ∧ ∀ x, x ≠ a → d'.byteAt x = d.byteAt x) ∧
      (d.pagedAt a ≠ none → d'.pbuf = d.pbuf ++ [(a, v)] ∧ ∀ x, d'.byteAt x = d.byteAt x)

/-- 20_memory.md R78, R80: what is put into the pointer or a CS register is read back. That every bit of a CS
register is writable is log entry 29, that a key or a reset request holds none of them is log entry 40; STCS and LDCS
as instructions of their own are log entry 4. -/
def Obligations.PointerAndCsReadBack : Prop :=
  ∀ (s : State) (d : Target), Ready s → Faces s d →
    (∀ p, addrOk p s.ses.profile.addrBytes = true →
      ∃ t u, exec (.stPtr p) s = .next t ∧ exec .ldPtr t = .next u ∧
        Answered u (le p s.ses.profile.addrBytes) ∧ unle u.rsp.rspData = p) ∧
    ∀ (a : CsAddr) (v : Byte), ∃ t u, exec (.stcs a v) s = .next t ∧ exec (.ldcs a) t = .next u ∧
      Answered u [v]

/-- 20_memory.md R85, 42_nvm.md R225: a controller that stays busy always ends in
`NvmBusyTimeoutError`. -/
def Obligations.StuckBusyTimesOut : Prop :=
  ∀ (s : State) (d : Target), NvmReady s → Faces s d → d.alwaysBusy = true →
    s.cfg.nvmBusyMask &&& ~~~s.cfg.nvmErrMask ≠ 0 →
    allFit s.ses.profile (pollRegs s.cfg s.ses.profile) = true →
    ∃ t, exec .waitNvmReady s = .next t ∧ SessionClosed t ∧
      Failed t 0x05 { base :=
        { layer := some .nvm, op := [.waitNvmReady], addr := some (statAddr s.cfg d.prof)
          status := some (d.busyStatus s.cfg) } }

/-- 42_nvm.md R252: a page written is read back, for a part whose controller registers lie outside the
written region. Where `CMD_WRITE_PAGE` is equal to another command code it leans on T0's testing it first
(log entry 39). -/
def Obligations.PageRoundTrip : Prop :=
  ∀ (s t u : State) (d : Target) (r : Region) (region offset : Nat) (data : List Byte),
    NvmReady s → Faces s d → regionOfCode region = some r →
    d.pagedAt (ctrlAddr s.cfg d.prof) = none →
    (∀ k, k < data.length → regionBase d.prof r + offset + k ≠ statAddr s.cfg d.prof) →
    exec (.writePage region offset data) s = .next t → t.rsp.rspStatus = 0x00 →
    exec (.readBytes region offset data.length) t = .next u → u.rsp.rspStatus = 0x00 →
    u.rsp.rspData = data

end
end

