-- ==== Sys2Proof/Laws/State.lean ====
section
/-! SUPPORT. What each named update of the state does to each field: one lemma per field per update. -/

namespace Sys2Proof.Machine


/-! ### setSes -/

@[simp] theorem State.setSes_cfg (s : State) (x : Ses) : (s.setSes x).cfg = s.cfg := rfl
@[simp] theorem State.setSes_ses (s : State) (x : Ses) : (s.setSes x).ses = x := rfl
@[simp] theorem State.setSes_phy (s : State) (x : Ses) : (s.setSes x).phy = s.phy := rfl
@[simp] theorem State.setSes_dl (s : State) (x : Ses) : (s.setSes x).dl = s.dl := rfl
@[simp] theorem State.setSes_nvm (s : State) (x : Ses) : (s.setSes x).nvm = s.nvm := rfl
@[simp] theorem State.setSes_rsp (s : State) (x : Ses) : (s.setSes x).rsp = s.rsp := rfl
@[simp] theorem State.setSes_env (s : State) (x : Ses) : (s.setSes x).env = s.env := rfl
@[simp] theorem State.setSes_now (s : State) (x : Ses) : (s.setSes x).now = s.now := rfl
@[simp] theorem State.setSes_inputs (s : State) (x : Ses) : (s.setSes x).inputs = s.inputs := rfl
@[simp] theorem State.setSes_trace (s : State) (x : Ses) : (s.setSes x).trace = s.trace := rfl
@[simp] theorem State.setSes_self (s : State) : s.setSes s.ses = s := rfl
@[simp] theorem State.setSes_setSes (s : State) (x y : Ses) : (s.setSes x).setSes y = s.setSes y := rfl

/-! ### setPhy -/

@[simp] theorem State.setPhy_cfg (s : State) (x : Phy) : (s.setPhy x).cfg = s.cfg := rfl
@[simp] theorem State.setPhy_ses (s : State) (x : Phy) : (s.setPhy x).ses = s.ses := rfl
@[simp] theorem State.setPhy_phy (s : State) (x : Phy) : (s.setPhy x).phy = x := rfl
@[simp] theorem State.setPhy_dl (s : State) (x : Phy) : (s.setPhy x).dl = s.dl := rfl
@[simp] theorem State.setPhy_nvm (s : State) (x : Phy) : (s.setPhy x).nvm = s.nvm := rfl
@[simp] theorem State.setPhy_rsp (s : State) (x : Phy) : (s.setPhy x).rsp = s.rsp := rfl
@[simp] theorem State.setPhy_env (s : State) (x : Phy) : (s.setPhy x).env = s.env := rfl
@[simp] theorem State.setPhy_now (s : State) (x : Phy) : (s.setPhy x).now = s.now := rfl
@[simp] theorem State.setPhy_inputs (s : State) (x : Phy) : (s.setPhy x).inputs = s.inputs := rfl
@[simp] theorem State.setPhy_trace (s : State) (x : Phy) : (s.setPhy x).trace = s.trace := rfl
@[simp] theorem State.setPhy_self (s : State) : s.setPhy s.phy = s := rfl
@[simp] theorem State.setPhy_setPhy (s : State) (x y : Phy) : (s.setPhy x).setPhy y = s.setPhy y := rfl

/-! ### setDl -/

@[simp] theorem State.setDl_cfg (s : State) (x : Dl) : (s.setDl x).cfg = s.cfg := rfl
@[simp] theorem State.setDl_ses (s : State) (x : Dl) : (s.setDl x).ses = s.ses := rfl
@[simp] theorem State.setDl_phy (s : State) (x : Dl) : (s.setDl x).phy = s.phy := rfl
@[simp] theorem State.setDl_dl (s : State) (x : Dl) : (s.setDl x).dl = x := rfl
@[simp] theorem State.setDl_nvm (s : State) (x : Dl) : (s.setDl x).nvm = s.nvm := rfl
@[simp] theorem State.setDl_rsp (s : State) (x : Dl) : (s.setDl x).rsp = s.rsp := rfl
@[simp] theorem State.setDl_env (s : State) (x : Dl) : (s.setDl x).env = s.env := rfl
@[simp] theorem State.setDl_now (s : State) (x : Dl) : (s.setDl x).now = s.now := rfl
@[simp] theorem State.setDl_inputs (s : State) (x : Dl) : (s.setDl x).inputs = s.inputs := rfl
@[simp] theorem State.setDl_trace (s : State) (x : Dl) : (s.setDl x).trace = s.trace := rfl
@[simp] theorem State.setDl_self (s : State) : s.setDl s.dl = s := rfl
@[simp] theorem State.setDl_setDl (s : State) (x y : Dl) : (s.setDl x).setDl y = s.setDl y := rfl

/-! ### setNvm -/

@[simp] theorem State.setNvm_cfg (s : State) (x : Nvm) : (s.setNvm x).cfg = s.cfg := rfl
@[simp] theorem State.setNvm_ses (s : State) (x : Nvm) : (s.setNvm x).ses = s.ses := rfl
@[simp] theorem State.setNvm_phy (s : State) (x : Nvm) : (s.setNvm x).phy = s.phy := rfl
@[simp] theorem State.setNvm_dl (s : State) (x : Nvm) : (s.setNvm x).dl = s.dl := rfl
@[simp] theorem State.setNvm_nvm (s : State) (x : Nvm) : (s.setNvm x).nvm = x := rfl
@[simp] theorem State.setNvm_rsp (s : State) (x : Nvm) : (s.setNvm x).rsp = s.rsp := rfl
@[simp] theorem State.setNvm_env (s : State) (x : Nvm) : (s.setNvm x).env = s.env := rfl
@[simp] theorem State.setNvm_now (s : State) (x : Nvm) : (s.setNvm x).now = s.now := rfl
@[simp] theorem State.setNvm_inputs (s : State) (x : Nvm) : (s.setNvm x).inputs = s.inputs := rfl
@[simp] theorem State.setNvm_trace (s : State) (x : Nvm) : (s.setNvm x).trace = s.trace := rfl
@[simp] theorem State.setNvm_self (s : State) : s.setNvm s.nvm = s := rfl
@[simp] theorem State.setNvm_setNvm (s : State) (x y : Nvm) : (s.setNvm x).setNvm y = s.setNvm y := rfl

/-! ### setRsp -/

@[simp] theorem State.setRsp_cfg (s : State) (x : Rsp) : (s.setRsp x).cfg = s.cfg := rfl
@[simp] theorem State.setRsp_ses (s : State) (x : Rsp) : (s.setRsp x).ses = s.ses := rfl
@[simp] theorem State.setRsp_phy (s : State) (x : Rsp) : (s.setRsp x).phy = s.phy := rfl
@[simp] theorem State.setRsp_dl (s : State) (x : Rsp) : (s.setRsp x).dl = s.dl := rfl
@[simp] theorem State.setRsp_nvm (s : State) (x : Rsp) : (s.setRsp x).nvm = s.nvm := rfl
@[simp] theorem State.setRsp_rsp (s : State) (x : Rsp) : (s.setRsp x).rsp = x := rfl
@[simp] theorem State.setRsp_env (s : State) (x : Rsp) : (s.setRsp x).env = s.env := rfl
@[simp] theorem State.setRsp_now (s : State) (x : Rsp) : (s.setRsp x).now = s.now := rfl
@[simp] theorem State.setRsp_inputs (s : State) (x : Rsp) : (s.setRsp x).inputs = s.inputs := rfl
@[simp] theorem State.setRsp_trace (s : State) (x : Rsp) : (s.setRsp x).trace = s.trace := rfl
@[simp] theorem State.setRsp_self (s : State) : s.setRsp s.rsp = s := rfl
@[simp] theorem State.setRsp_setRsp (s : State) (x y : Rsp) : (s.setRsp x).setRsp y = s.setRsp y := rfl

/-! ### setEnv -/

@[simp] theorem State.setEnv_cfg (s : State) (x : Env) : (s.setEnv x).cfg = s.cfg := rfl
@[simp] theorem State.setEnv_ses (s : State) (x : Env) : (s.setEnv x).ses = s.ses := rfl
@[simp] theorem State.setEnv_phy (s : State) (x : Env) : (s.setEnv x).phy = s.phy := rfl
@[simp] theorem State.setEnv_dl (s : State) (x : Env) : (s.setEnv x).dl = s.dl := rfl
@[simp] theorem State.setEnv_nvm (s : State) (x : Env) : (s.setEnv x).nvm = s.nvm := rfl
@[simp] theorem State.setEnv_rsp (s : State) (x : Env) : (s.setEnv x).rsp = s.rsp := rfl
@[simp] theorem State.setEnv_env (s : State) (x : Env) : (s.setEnv x).env = x := rfl
@[simp] theorem State.setEnv_now (s : State) (x : Env) : (s.setEnv x).now = s.now := rfl
@[simp] theorem State.setEnv_inputs (s : State) (x : Env) : (s.setEnv x).inputs = s.inputs := rfl
@[simp] theorem State.setEnv_trace (s : State) (x : Env) : (s.setEnv x).trace = s.trace := rfl
@[simp] theorem State.setEnv_self (s : State) : s.setEnv s.env = s := rfl
@[simp] theorem State.setEnv_setEnv (s : State) (x y : Env) : (s.setEnv x).setEnv y = s.setEnv y := rfl

/-! ### setNow -/

@[simp] theorem State.setNow_cfg (s : State) (x : Nat) : (s.setNow x).cfg = s.cfg := rfl
@[simp] theorem State.setNow_ses (s : State) (x : Nat) : (s.setNow x).ses = s.ses := rfl
@[simp] theorem State.setNow_phy (s : State) (x : Nat) : (s.setNow x).phy = s.phy := rfl
@[simp] theorem State.setNow_dl (s : State) (x : Nat) : (s.setNow x).dl = s.dl := rfl
@[simp] theorem State.setNow_nvm (s : State) (x : Nat) : (s.setNow x).nvm = s.nvm := rfl
@[simp] theorem State.setNow_rsp (s : State) (x : Nat) : (s.setNow x).rsp = s.rsp := rfl
@[simp] theorem State.setNow_env (s : State) (x : Nat) : (s.setNow x).env = s.env := rfl
@[simp] theorem State.setNow_now (s : State) (x : Nat) : (s.setNow x).now = x := rfl
@[simp] theorem State.setNow_inputs (s : State) (x : Nat) : (s.setNow x).inputs = s.inputs := rfl
@[simp] theorem State.setNow_trace (s : State) (x : Nat) : (s.setNow x).trace = s.trace := rfl
@[simp] theorem State.setNow_self (s : State) : s.setNow s.now = s := rfl
@[simp] theorem State.setNow_setNow (s : State) (x y : Nat) : (s.setNow x).setNow y = s.setNow y := rfl

/-! ### setInputs -/

@[simp] theorem State.setInputs_cfg (s : State) (x : List Input) : (s.setInputs x).cfg = s.cfg := rfl
@[simp] theorem State.setInputs_ses (s : State) (x : List Input) : (s.setInputs x).ses = s.ses := rfl
@[simp] theorem State.setInputs_phy (s : State) (x : List Input) : (s.setInputs x).phy = s.phy := rfl
@[simp] theorem State.setInputs_dl (s : State) (x : List Input) : (s.setInputs x).dl = s.dl := rfl
@[simp] theorem State.setInputs_nvm (s : State) (x : List Input) : (s.setInputs x).nvm = s.nvm := rfl
@[simp] theorem State.setInputs_rsp (s : State) (x : List Input) : (s.setInputs x).rsp = s.rsp := rfl
@[simp] theorem State.setInputs_env (s : State) (x : List Input) : (s.setInputs x).env = s.env := rfl
@[simp] theorem State.setInputs_now (s : State) (x : List Input) : (s.setInputs x).now = s.now := rfl
@[simp] theorem State.setInputs_inputs (s : State) (x : List Input) : (s.setInputs x).inputs = x := rfl
@[simp] theorem State.setInputs_trace (s : State) (x : List Input) : (s.setInputs x).trace = s.trace := rfl
@[simp] theorem State.setInputs_self (s : State) : s.setInputs s.inputs = s := rfl
@[simp] theorem State.setInputs_setInputs (s : State) (x y : List Input) : (s.setInputs x).setInputs y = s.setInputs y := rfl

/-! ### setTrace -/

@[simp] theorem State.setTrace_cfg (s : State) (x : List Event) : (s.setTrace x).cfg = s.cfg := rfl
@[simp] theorem State.setTrace_ses (s : State) (x : List Event) : (s.setTrace x).ses = s.ses := rfl
@[simp] theorem State.setTrace_phy (s : State) (x : List Event) : (s.setTrace x).phy = s.phy := rfl
@[simp] theorem State.setTrace_dl (s : State) (x : List Event) : (s.setTrace x).dl = s.dl := rfl
@[simp] theorem State.setTrace_nvm (s : State) (x : List Event) : (s.setTrace x).nvm = s.nvm := rfl
@[simp] theorem State.setTrace_rsp (s : State) (x : List Event) : (s.setTrace x).rsp = s.rsp := rfl
@[simp] theorem State.setTrace_env (s : State) (x : List Event) : (s.setTrace x).env = s.env := rfl
@[simp] theorem State.setTrace_now (s : State) (x : List Event) : (s.setTrace x).now = s.now := rfl
@[simp] theorem State.setTrace_inputs (s : State) (x : List Event) : (s.setTrace x).inputs = s.inputs := rfl
@[simp] theorem State.setTrace_trace (s : State) (x : List Event) : (s.setTrace x).trace = x := rfl
@[simp] theorem State.setTrace_self (s : State) : s.setTrace s.trace = s := rfl
@[simp] theorem State.setTrace_setTrace (s : State) (x y : List Event) : (s.setTrace x).setTrace y = s.setTrace y := rfl

/-! ### One order of updates -/

@[simp] theorem State.setPhy_setSes (s : State) (x : Phy) (y : Ses) :
    (s.setPhy x).setSes y = (s.setSes y).setPhy x := rfl
@[simp] theorem State.setDl_setSes (s : State) (x : Dl) (y : Ses) :
    (s.setDl x).setSes y = (s.setSes y).setDl x := rfl
@[simp] theorem State.setNvm_setSes (s : State) (x : Nvm) (y : Ses) :
    (s.setNvm x).setSes y = (s.setSes y).setNvm x := rfl
@[simp] theorem State.setRsp_setSes (s : State) (x : Rsp) (y : Ses) :
    (s.setRsp x).setSes y = (s.setSes y).setRsp x := rfl
@[simp] theorem State.setEnv_setSes (s : State) (x : Env) (y : Ses) :
    (s.setEnv x).setSes y = (s.setSes y).setEnv x := rfl
@[simp] theorem State.setNow_setSes (s : State) (x : Nat) (y : Ses) :
    (s.setNow x).setSes y = (s.setSes y).setNow x := rfl
@[simp] theorem State.setInputs_setSes (s : State) (x : List Input) (y : Ses) :
    (s.setInputs x).setSes y = (s.setSes y).setInputs x := rfl
@[simp] theorem State.setTrace_setSes (s : State) (x : List Event) (y : Ses) :
    (s.setTrace x).setSes y = (s.setSes y).setTrace x := rfl
@[simp] theorem State.setDl_setPhy (s : State) (x : Dl) (y : Phy) :
    (s.setDl x).setPhy y = (s.setPhy y).setDl x := rfl
@[simp] theorem State.setNvm_setPhy (s : State) (x : Nvm) (y : Phy) :
    (s.setNvm x).setPhy y = (s.setPhy y).setNvm x := rfl
@[simp] theorem State.setRsp_setPhy (s : State) (x : Rsp) (y : Phy) :
    (s.setRsp x).setPhy y = (s.setPhy y).setRsp x := rfl
@[simp] theorem State.setEnv_setPhy (s : State) (x : Env) (y : Phy) :
    (s.setEnv x).setPhy y = (s.setPhy y).setEnv x := rfl
@[simp] theorem State.setNow_setPhy (s : State) (x : Nat) (y : Phy) :
    (s.setNow x).setPhy y = (s.setPhy y).setNow x := rfl
@[simp] theorem State.setInputs_setPhy (s : State) (x : List Input) (y : Phy) :
    (s.setInputs x).setPhy y = (s.setPhy y).setInputs x := rfl
@[simp] theorem State.setTrace_setPhy (s : State) (x : List Event) (y : Phy) :
    (s.setTrace x).setPhy y = (s.setPhy y).setTrace x := rfl
@[simp] theorem State.setNvm_setDl (s : State) (x : Nvm) (y : Dl) :
    (s.setNvm x).setDl y = (s.setDl y).setNvm x := rfl
@[simp] theorem State.setRsp_setDl (s : State) (x : Rsp) (y : Dl) :
    (s.setRsp x).setDl y = (s.setDl y).setRsp x := rfl
@[simp] theorem State.setEnv_setDl (s : State) (x : Env) (y : Dl) :
    (s.setEnv x).setDl y = (s.setDl y).setEnv x := rfl
@[simp] theorem State.setNow_setDl (s : State) (x : Nat) (y : Dl) :
    (s.setNow x).setDl y = (s.setDl y).setNow x := rfl
@[simp] theorem State.setInputs_setDl (s : State) (x : List Input) (y : Dl) :
    (s.setInputs x).setDl y = (s.setDl y).setInputs x := rfl
@[simp] theorem State.setTrace_setDl (s : State) (x : List Event) (y : Dl) :
    (s.setTrace x).setDl y = (s.setDl y).setTrace x := rfl
@[simp] theorem State.setRsp_setNvm (s : State) (x : Rsp) (y : Nvm) :
    (s.setRsp x).setNvm y = (s.setNvm y).setRsp x := rfl
@[simp] theorem State.setEnv_setNvm (s : State) (x : Env) (y : Nvm) :
    (s.setEnv x).setNvm y = (s.setNvm y).setEnv x := rfl
@[simp] theorem State.setNow_setNvm (s : State) (x : Nat) (y : Nvm) :
    (s.setNow x).setNvm y = (s.setNvm y).setNow x := rfl
@[simp] theorem State.setInputs_setNvm (s : State) (x : List Input) (y : Nvm) :
    (s.setInputs x).setNvm y = (s.setNvm y).setInputs x := rfl
@[simp] theorem State.setTrace_setNvm (s : State) (x : List Event) (y : Nvm) :
    (s.setTrace x).setNvm y = (s.setNvm y).setTrace x := rfl
@[simp] theorem State.setEnv_setRsp (s : State) (x : Env) (y : Rsp) :
    (s.setEnv x).setRsp y = (s.setRsp y).setEnv x := rfl
@[simp] theorem State.setNow_setRsp (s : State) (x : Nat) (y : Rsp) :
    (s.setNow x).setRsp y = (s.setRsp y).setNow x := rfl
@[simp] theorem State.setInputs_setRsp (s : State) (x : List Input) (y : Rsp) :
    (s.setInputs x).setRsp y = (s.setRsp y).setInputs x := rfl
@[simp] theorem State.setTrace_setRsp (s : State) (x : List Event) (y : Rsp) :
    (s.setTrace x).setRsp y = (s.setRsp y).setTrace x := rfl
@[simp] theorem State.setNow_setEnv (s : State) (x : Nat) (y : Env) :
    (s.setNow x).setEnv y = (s.setEnv y).setNow x := rfl
@[simp] theorem State.setInputs_setEnv (s : State) (x : List Input) (y : Env) :
    (s.setInputs x).setEnv y = (s.setEnv y).setInputs x := rfl
@[simp] theorem State.setTrace_setEnv (s : State) (x : List Event) (y : Env) :
    (s.setTrace x).setEnv y = (s.setEnv y).setTrace x := rfl
@[simp] theorem State.setInputs_setNow (s : State) (x : List Input) (y : Nat) :
    (s.setInputs x).setNow y = (s.setNow y).setInputs x := rfl
@[simp] theorem State.setTrace_setNow (s : State) (x : List Event) (y : Nat) :
    (s.setTrace x).setNow y = (s.setNow y).setTrace x := rfl
@[simp] theorem State.setTrace_setInputs (s : State) (x : List Event) (y : List Input) :
    (s.setTrace x).setInputs y = (s.setInputs y).setTrace x := rfl

/-! ### setLine -/

@[simp] theorem State.setLine_cfg (s : State) (x : Line) : (s.setLine x).cfg = s.cfg := rfl
@[simp] theorem State.setLine_ses (s : State) (x : Line) : (s.setLine x).ses = s.ses := rfl
@[simp] theorem State.setLine_phy (s : State) (x : Line) : (s.setLine x).phy = { s.phy with line := x } := rfl
@[simp] theorem State.setLine_dl (s : State) (x : Line) : (s.setLine x).dl = s.dl := rfl
@[simp] theorem State.setLine_nvm (s : State) (x : Line) : (s.setLine x).nvm = s.nvm := rfl
@[simp] theorem State.setLine_rsp (s : State) (x : Line) : (s.setLine x).rsp = s.rsp := rfl
@[simp] theorem State.setLine_env (s : State) (x : Line) : (s.setLine x).env = s.env := rfl
@[simp] theorem State.setLine_now (s : State) (x : Line) : (s.setLine x).now = s.now := rfl
@[simp] theorem State.setLine_inputs (s : State) (x : Line) : (s.setLine x).inputs = s.inputs := rfl
@[simp] theorem State.setLine_trace (s : State) (x : Line) : (s.setLine x).trace = s.trace := rfl

/-! ### logged -/

@[simp] theorem State.logged_cfg (s : State) (a : PortAct) (b : PortAnswer) : (s.logged a b).cfg = s.cfg := rfl
@[simp] theorem State.logged_ses (s : State) (a : PortAct) (b : PortAnswer) : (s.logged a b).ses = s.ses := rfl
@[simp] theorem State.logged_phy (s : State) (a : PortAct) (b : PortAnswer) : (s.logged a b).phy = s.phy := rfl
@[simp] theorem State.logged_dl (s : State) (a : PortAct) (b : PortAnswer) : (s.logged a b).dl = s.dl := rfl
@[simp] theorem State.logged_nvm (s : State) (a : PortAct) (b : PortAnswer) : (s.logged a b).nvm = s.nvm := rfl
@[simp] theorem State.logged_rsp (s : State) (a : PortAct) (b : PortAnswer) : (s.logged a b).rsp = s.rsp := rfl
@[simp] theorem State.logged_env (s : State) (a : PortAct) (b : PortAnswer) : (s.logged a b).env = s.env := rfl
@[simp] theorem State.logged_now (s : State) (a : PortAct) (b : PortAnswer) : (s.logged a b).now = s.now := rfl
@[simp] theorem State.logged_inputs (s : State) (a : PortAct) (b : PortAnswer) : (s.logged a b).inputs = s.inputs := rfl
@[simp] theorem State.logged_trace (s : State) (a : PortAct) (b : PortAnswer) :
    (s.logged a b).trace = s.trace ++
      [{ phy := s.phy.phyState, dl := s.dl.dlState, nvm := s.nvm.nvmState, act := a, answer := b }] := rfl

/-! ### listen -/

@[simp] theorem State.listen_cfg (s : State) (d : List Bool) : (s.listen d).cfg = s.cfg := by
  unfold State.listen; split <;> rfl
@[simp] theorem State.listen_ses (s : State) (d : List Bool) : (s.listen d).ses = s.ses := by
  unfold State.listen; split <;> rfl
@[simp] theorem State.listen_dl (s : State) (d : List Bool) : (s.listen d).dl = s.dl := by
  unfold State.listen; split <;> rfl
@[simp] theorem State.listen_nvm (s : State) (d : List Bool) : (s.listen d).nvm = s.nvm := by
  unfold State.listen; split <;> rfl
@[simp] theorem State.listen_rsp (s : State) (d : List Bool) : (s.listen d).rsp = s.rsp := by
  unfold State.listen; split <;> rfl
@[simp] theorem State.listen_env (s : State) (d : List Bool) : (s.listen d).env = s.env := by
  unfold State.listen; split <;> rfl
@[simp] theorem State.listen_now (s : State) (d : List Bool) : (s.listen d).now = s.now := by
  unfold State.listen; split <;> rfl
@[simp] theorem State.listen_inputs (s : State) (d : List Bool) : (s.listen d).inputs = s.inputs := by
  unfold State.listen; split <;> rfl
@[simp] theorem State.listen_trace (s : State) (d : List Bool) : (s.listen d).trace = s.trace := by
  unfold State.listen; split <;> rfl
@[simp] theorem State.world_env (s : State) : s.world.env = s.env := rfl
@[simp] theorem State.world_fifo (s : State) : s.world.fifo = s.phy.line.rxFifo := rfl
@[simp] theorem State.world_now (s : State) : s.world.now = s.now := rfl

theorem State.listen_open (s : State) (d : List Bool) (h : s.ses.trOpen = true) :
    s.listen d = s.setLine (s.phy.line.listen s.cfg.frame d) := by
  simp [State.listen, h]

/-! ### listenFor -/

@[simp] theorem State.listenFor_cfg (s : State) (n : Nat) (d : List Bool) :
    (s.listenFor n d).cfg = s.cfg := by
  unfold State.listenFor; split <;> rfl
@[simp] theorem State.listenFor_ses (s : State) (n : Nat) (d : List Bool) :
    (s.listenFor n d).ses = s.ses := by
  unfold State.listenFor; split <;> rfl
@[simp] theorem State.listenFor_dl (s : State) (n : Nat) (d : List Bool) :
    (s.listenFor n d).dl = s.dl := by
  unfold State.listenFor; split <;> rfl
@[simp] theorem State.listenFor_nvm (s : State) (n : Nat) (d : List Bool) :
    (s.listenFor n d).nvm = s.nvm := by
  unfold State.listenFor; split <;> rfl
@[simp] theorem State.listenFor_rsp (s : State) (n : Nat) (d : List Bool) :
    (s.listenFor n d).rsp = s.rsp := by
  unfold State.listenFor; split <;> rfl
@[simp] theorem State.listenFor_env (s : State) (n : Nat) (d : List Bool) :
    (s.listenFor n d).env = s.env := by
  unfold State.listenFor; split <;> rfl
@[simp] theorem State.listenFor_now (s : State) (n : Nat) (d : List Bool) :
    (s.listenFor n d).now = s.now := by
  unfold State.listenFor; split <;> rfl
@[simp] theorem State.listenFor_inputs (s : State) (n : Nat) (d : List Bool) :
    (s.listenFor n d).inputs = s.inputs := by
  unfold State.listenFor; split <;> rfl
@[simp] theorem State.listenFor_trace (s : State) (n : Nat) (d : List Bool) :
    (s.listenFor n d).trace = s.trace := by
  unfold State.listenFor; split <;> rfl

theorem State.listenFor_open (s : State) (n : Nat) (d : List Bool) (h : s.ses.trOpen = true) :
    s.listenFor n d = s.setLine (s.phy.line.listenFor s.cfg.frame n d) := by
  simp [State.listenFor, h]

end Sys2Proof.Machine
end

