-- ==== Sys2Proof/Laws/Act.lean ====
section
/-! SUPPORT. Running pieces of a command: what `do` blocks over `Act` compute, and one lemma for each of
the small shared operations. -/

namespace Sys2Proof.Machine

variable {α β : Type}

/-- A block runs its first piece, then the rest on what it left; an error ends it. -/
theorem Act.bind_run (x : Act α) (k : α → Act β) (s : State) :
    (x >>= k) s = match x s with
      | .ok a s' => k a s'
      | .error e s' => .error e s' := by
  cases h : x s <;> simp [bind, EStateM.bind, h]

theorem Act.bind_ok {x : Act α} {k : α → Act β} {s s' : State} {a : α} (h : x s = .ok a s') :
    (x >>= k) s = k a s' := by
  simp [Act.bind_run, h]

theorem Act.bind_error {x : Act α} {k : α → Act β} {s s' : State} {e : Err}
    (h : x s = .error e s') : (x >>= k) s = .error e s' := by
  simp [Act.bind_run, h]

@[simp] theorem Act.pure_run (a : α) (s : State) : (pure a : Act α) s = .ok a s := rfl

@[simp] theorem Act.get_run (s : State) : (get : Act State) s = .ok s s := rfl

@[simp] theorem Act.modify_run (f : State → State) (s : State) :
    (modify f : Act Unit) s = .ok () (f s) := rfl

@[simp] theorem Act.throw_run (e : Err) (s : State) : (throw e : Act α) s = .error e s := rfl

@[simp] theorem raise_run (code : Code) (b : ErrBase) (s : State) :
    (raise code b : Act α) s = .error { code := code, info := { base := b } } s := rfl

@[simp] theorem Act.pure_bind_run (a : α) (k : α → Act β) (s : State) : (pure a >>= k) s = k a s := rfl

@[simp] theorem Act.get_bind_run (k : State → Act β) (s : State) : (get >>= k) s = k s s := rfl

@[simp] theorem Act.modify_bind_run (f : State → State) (k : Unit → Act β) (s : State) :
    ((modify f : Act Unit) >>= k) s = k () (f s) := rfl

@[simp] theorem Act.modify_map_run (g : Unit → β) (f : State → State) (s : State) :
    (g <$> (modify f : Act Unit)) s = .ok (g ()) (f s) := rfl

theorem Act.map_ok {x : Act α} {g : α → β} {s s' : State} {a : α} (h : x s = .ok a s') :
    (g <$> x) s = .ok (g a) s' := by
  rw [map_eq_pure_bind, Act.bind_ok h]; rfl

theorem Act.map_error {x : Act α} {g : α → β} {s s' : State} {e : Err} (h : x s = .error e s') :
    (g <$> x) s = .error e s' := by
  rw [map_eq_pure_bind, Act.bind_error h]

@[simp] theorem Act.ite_run (p : Prop) [Decidable p] (x y : Act α) (s : State) :
    (if p then x else y) s = if p then x s else y s := by
  split <;> rfl

@[simp] theorem raise_bind_run (code : Code) (b : ErrBase) (k : α → Act β) (s : State) :
    ((raise code b : Act α) >>= k) s = .error { code := code, info := { base := b } } s := rfl

@[simp] theorem demand_true_run (s : State) : demand true s = .ok () s := rfl

@[simp] theorem demand_false_run (s : State) :
    demand false s = .error { code := .refused, info := {} } s := rfl

theorem demand_run (b : Bool) (s : State) :
    demand b s = if b then .ok () s else .error { code := .refused, info := {} } s := by
  cases b <;> rfl

/-- A demand at the head of a block decides whether the rest runs. -/
theorem demand_bind_run (b : Bool) (k : Unit → Act β) (s : State) :
    (demand b >>= k) s = if b then k () s else .error { code := .refused, info := {} } s := by
  cases b <;> rfl

@[simp] theorem demand_true_bind_run (k : Unit → Act β) (s : State) :
    (demand true >>= k) s = k () s := rfl

@[simp] theorem demand_false_bind_run (k : Unit → Act β) (s : State) :
    (demand false >>= k) s = .error { code := .refused, info := {} } s := rfl

/-! ### Register updates -/

@[simp] theorem setPhyState_run (p : PhyState) (s : State) :
    setPhyState p s = .ok () (s.setPhy { s.phy with phyState := p }) := rfl
@[simp] theorem setPhyState_bind_run (p : PhyState) (k : Unit → Act β) (s : State) :
    (setPhyState p >>= k) s = k () (s.setPhy { s.phy with phyState := p }) := rfl
@[simp] theorem setDlState_run (p : DlState) (s : State) :
    setDlState p s = .ok () (s.setDl { s.dl with dlState := p }) := rfl
@[simp] theorem setDlState_bind_run (p : DlState) (k : Unit → Act β) (s : State) :
    (setDlState p >>= k) s = k () (s.setDl { s.dl with dlState := p }) := rfl
@[simp] theorem setNvmState_run (p : NvmState) (s : State) :
    setNvmState p s = .ok () (s.setNvm { s.nvm with nvmState := p }) := rfl
@[simp] theorem setNvmState_bind_run (p : NvmState) (k : Unit → Act β) (s : State) :
    (setNvmState p >>= k) s = k () (s.setNvm { s.nvm with nvmState := p }) := rfl
@[simp] theorem setSesState_run (p : SesState) (s : State) :
    setSesState p s = .ok () (s.setSes { s.ses with sesState := p }) := rfl
@[simp] theorem setSesState_bind_run (p : SesState) (k : Unit → Act β) (s : State) :
    (setSesState p >>= k) s = k () (s.setSes { s.ses with sesState := p }) := rfl

@[simp] theorem setOpAddr_bind_run (a : Nat) (k : Unit → Act β) (s : State) :
    (setOpAddr a >>= k) s = k () (s.setDl { s.dl with opAddr := BitVec.ofNat 24 a }) := rfl
@[simp] theorem setOpSize_bind_run (a : Nat) (k : Unit → Act β) (s : State) :
    (setOpSize a >>= k) s = k () (s.setDl { s.dl with opSize := BitVec.ofNat 2 a }) := rfl
@[simp] theorem setOpLen_bind_run (a : Nat) (k : Unit → Act β) (s : State) :
    (setOpLen a >>= k) s = k () (s.setDl { s.dl with opLen := a }) := rfl
@[simp] theorem setOpIdx_bind_run (a : Nat) (k : Unit → Act β) (s : State) :
    (setOpIdx a >>= k) s = k () (s.setDl { s.dl with opIdx := a }) := rfl
@[simp] theorem setDataBuf_bind_run (bs : List Byte) (k : Unit → Act β) (s : State) :
    (setDataBuf bs >>= k) s = k () (s.setDl { s.dl with dataBuf := bs }) := rfl
@[simp] theorem setRespBuf_bind_run (bs : List Byte) (k : Unit → Act β) (s : State) :
    (setRespBuf bs >>= k) s = k () (s.setDl { s.dl with respBuf := bs }) := rfl
@[simp] theorem incOpIdx_run (s : State) :
    incOpIdx s = .ok () (s.setDl { s.dl with opIdx := s.dl.opIdx + 1 }) := rfl
@[simp] theorem incOpIdx_bind_run (k : Unit → Act β) (s : State) :
    (incOpIdx >>= k) s = k () (s.setDl { s.dl with opIdx := s.dl.opIdx + 1 }) := rfl

/-! ### Operations around an operation -/

theorem inPhy_ok {name : OpName} {x : Act α} {s s' : State} {a : α} (h : x s = .ok a s') :
    inPhy name x s = .ok a (s'.setPhy { s'.phy with phyState := .idle }) := by
  simp [inPhy, h]

theorem inPhy_error {name : OpName} {x : Act α} {s s' : State} {e : Err} (h : x s = .error e s') :
    inPhy name x s =
      .error (e.named name) (s'.setPhy { s'.phy with phyState := .idle, echoPending := 0 }) := by
  simp [inPhy, h]

theorem inDl_ok {name : OpName} {addr : State → Option Nat} {x : Act α} {s s' : State} {a : α}
    (h : x s = .ok a s') : inDl name addr x s = .ok a (s'.setDl { s'.dl with dlState := .idle }) := by
  simp [inDl, h]

theorem inDl_error {name : OpName} {addr : State → Option Nat} {x : Act α} {s s' : State} {e : Err}
    (h : x s = .error e s') :
    inDl name addr x s =
      .error ((e.named name).placed (addr s')) (s'.setDl { s'.dl with dlState := .idle }) := by
  simp [inDl, h]

theorem inNvm_ok {name : OpName} {x : Act α} {s s' : State} {a : α} (h : x s = .ok a s') :
    inNvm name x s = .ok a (s'.setNvm { s'.nvm with nvmState := .idle }) := by
  simp [inNvm, h]

theorem inNvm_error {name : OpName} {x : Act α} {s s' : State} {e : Err} (h : x s = .error e s') :
    inNvm name x s = .error (e.named name) (s'.setNvm { s'.nvm with nvmState := .idle }) := by
  simp [inNvm, h]

theorem atPlace_ok {addr region : Nat} {x : Act α} {s s' : State} {a : α}
    (h : x s = .ok a s') : atPlace addr region x s = .ok a s' := by
  simp [atPlace, h]

theorem atPlace_error {addr region : Nat} {x : Act α} {s s' : State} {e : Err}
    (h : x s = .error e s') : 
    atPlace addr region x s =
      .error (if e.code = .nvmBusyTimeout then e else e.located addr region) s' := by
  simp [atPlace, h]

theorem noData_ok {x : Act Unit} {s s' : State} (h : x s = .ok () s') : noData x s = .ok [] s' := by
  simp [noData, Act.bind_ok h]

theorem noData_error {x : Act Unit} {s s' : State} {e : Err} (h : x s = .error e s') :
    noData x s = .error e s' := by
  simp [noData, Act.bind_error h]

theorem oneByte_ok {x : Act Byte} {s s' : State} {b : Byte} (h : x s = .ok b s') :
    oneByte x s = .ok [b] s' := by
  simp [oneByte, Act.bind_ok h]

theorem oneByte_error {x : Act Byte} {s s' : State} {e : Err} (h : x s = .error e s') :
    oneByte x s = .error e s' := by
  simp [oneByte, Act.bind_error h]

/-! ### A command from acceptance to response -/

theorem runCommand_busy {adm : Admission} {cleans : Bool} {body : Act (List Byte)} {s : State}
    (h : s.rsp.busy = true) : runCommand adm cleans body s = .next s := by
  simp [runCommand, h]

theorem runCommand_ok {adm : Admission} {cleans : Bool} {body : Act (List Byte)} {s t : State}
    {data : List Byte} (hb : s.rsp.busy = false) (ha : admits adm s.ses.sesState = true)
    (h : body (s.setRsp { s.rsp with busy := true }) = .ok data t) :
    runCommand adm cleans body s = .next (t.respondOk data) := by
  simp [runCommand, hb, ha, h]

theorem runCommand_error {adm : Admission} {cleans : Bool} {body : Act (List Byte)} {s t : State}
    {e : Err} (hb : s.rsp.busy = false) (ha : admits adm s.ses.sesState = true)
    (h : body (s.setRsp { s.rsp with busy := true }) = .error e t) :
    runCommand adm cleans body s = .next (t.deliver cleans e) := by
  simp [runCommand, hb, ha, h]

theorem runCommand_refused {adm : Admission} {cleans : Bool} {body : Act (List Byte)} {s : State}
    (hb : s.rsp.busy = false) (ha : admits adm s.ses.sesState = false) :
    runCommand adm cleans body s = .next s.refusal := by
  simp [runCommand, hb, ha, State.refusal, State.respondRefused, codeByte]

theorem effect_ok {x : Act α} {s t : State} {a : α} (h : x s = .ok a t) : effect x s = t := by
  simp [effect, h]

theorem effect_error {x : Act α} {s t : State} {e : Err} (h : x s = .error e t) : effect x s = t := by
  simp [effect, h]

/-- Everything a command can do. -/
theorem runCommand_cases (adm : Admission) (cleans : Bool) (body : Act (List Byte)) (s : State) :
    (s.rsp.busy = true ∧ runCommand adm cleans body s = .next s) ∨
    (s.rsp.busy = false ∧ admits adm s.ses.sesState = false ∧
      runCommand adm cleans body s = .next s.refusal) ∨
    (s.rsp.busy = false ∧ admits adm s.ses.sesState = true ∧
      ((∃ data t, body (s.setRsp { s.rsp with busy := true }) = .ok data t ∧
          runCommand adm cleans body s = .next (t.respondOk data)) ∨
        ∃ e t, body (s.setRsp { s.rsp with busy := true }) = .error e t ∧
          runCommand adm cleans body s = .next (t.deliver cleans e))) := by
  cases hb : s.rsp.busy with
  | true => exact .inl ⟨rfl, runCommand_busy hb⟩
  | false =>
    cases ha : admits adm s.ses.sesState with
    | false => exact .inr (.inl ⟨rfl, rfl, runCommand_refused hb ha⟩)
    | true =>
      refine .inr (.inr ⟨rfl, rfl, ?_⟩)
      cases h : body (s.setRsp { s.rsp with busy := true }) with
      | ok data t => exact .inl ⟨data, t, rfl, runCommand_ok hb ha h⟩
      | error e t => exact .inr ⟨e, t, rfl, runCommand_error hb ha h⟩

end Sys2Proof.Machine
end

