-- ==== Sys2Proof/Laws/Memory.lean ====
section
/-! SUPPORT. Target memory: reading after writing, and that every operation keeps the canonical form. -/

namespace Sys2Proof.Machine

theorem memRead_absent {m : Memory} {x : Nat} (h : ∀ c ∈ m, c.1 ≠ x) : memRead m x = blankByte := by
  induction m with
  | nil => rfl
  | cons c m ih =>
    simp only [memRead]
    rw [if_neg (h c (by simp)), ih fun d hd => h d (by simp [hd])]

theorem Memory.wf_cons {c : Host.Cell} {m : Memory} :
    Memory.wf (c :: m) ↔ (∀ d ∈ m, c.1 < d.1) ∧ c.2 ≠ blankByte ∧ Memory.wf m := by
  simp only [Memory.wf, List.pairwise_cons, List.mem_cons, forall_eq_or_imp]
  tauto

theorem memRead_memWrite_same {m : Memory} (h : Memory.wf m) (x : Nat) (v : Byte) :
    memRead (memWrite m x v) x = v := by
  induction m with
  | nil => by_cases hv : v = blankByte <;> simp [memWrite, memRead, hv]
  | cons c m ih =>
    obtain ⟨a, w⟩ := c
    obtain ⟨hlt, hw, hm⟩ := Memory.wf_cons.mp h
    simp only [memWrite]
    split
    · rename_i hxa
      by_cases hv : v = blankByte
      · subst hv
        simp only [if_true]
        apply memRead_absent
        intro d hd
        rcases List.mem_cons.mp hd with rfl | hd
        · simp only; omega
        · have := hlt d hd; simp only at this; omega
      · simp [hv, memRead]
    · split
      · rename_i hxa hxe
        subst hxe
        by_cases hv : v = blankByte
        · subst hv
          simp only [if_true]
          exact memRead_absent fun d hd => by have := hlt d hd; simp only at this; omega
        · simp [hv, memRead]
      · rename_i hxa hxe
        simp [memRead, Ne.symm hxe, ih hm]

theorem memRead_memWrite_other {m : Memory} {x y : Nat} (hxy : y ≠ x) (v : Byte) :
    memRead (memWrite m x v) y = memRead m y := by
  induction m with
  | nil =>
    by_cases hv : v = blankByte
    · simp [memWrite, hv]
    · simp [memWrite, memRead, hv, Ne.symm hxy]
  | cons c m ih =>
    obtain ⟨a, w⟩ := c
    simp only [memWrite]
    split
    · by_cases hv : v = blankByte
      · simp [hv]
      · simp [hv, memRead, Ne.symm hxy]
    · split
      · rename_i hxe
        subst hxe
        by_cases hv : v = blankByte
        · simp [hv, memRead, Ne.symm hxy]
        · simp [hv, memRead, Ne.symm hxy]
      · simp only [memRead, ih]

theorem mem_memWrite {m : Memory} {x : Nat} {v : Byte} {d : Host.Cell} (h : d ∈ memWrite m x v) :
    (d = (x, v) ∧ v ≠ blankByte) ∨ d ∈ m := by
  induction m with
  | nil =>
    by_cases hv : v = blankByte
    · simp [memWrite, hv] at h
    · simp [memWrite, hv] at h; exact .inl ⟨h, hv⟩
  | cons c m ih =>
    obtain ⟨a, w⟩ := c
    simp only [memWrite] at h
    split at h
    · by_cases hv : v = blankByte
      · simp only [hv, if_true] at h; exact .inr h
      · simp only [hv, if_false, List.mem_cons] at h
        rcases h with h | h
        · exact .inl ⟨h, hv⟩
        · exact .inr (List.mem_cons.mpr h)
    · split at h
      · by_cases hv : v = blankByte
        · simp only [hv, if_true] at h; exact .inr (List.mem_cons_of_mem _ h)
        · simp only [hv, if_false, List.mem_cons] at h
          rcases h with h | h
          · exact .inl ⟨h, hv⟩
          · exact .inr (List.mem_cons_of_mem _ h)
      · rcases List.mem_cons.mp h with h | h
        · exact .inr (List.mem_cons.mpr (.inl h))
        · rcases ih h with h | h
          · exact .inl h
          · exact .inr (List.mem_cons_of_mem _ h)

theorem memWrite_wf {m : Memory} (h : Memory.wf m) (x : Nat) (v : Byte) :
    Memory.wf (memWrite m x v) := by
  induction m with
  | nil =>
    by_cases hv : v = blankByte
    · simpa [memWrite, hv] using h
    · simp [memWrite, hv, Memory.wf]
  | cons c m ih =>
    obtain ⟨a, w⟩ := c
    obtain ⟨hlt, hw, hm⟩ := Memory.wf_cons.mp h
    simp only [memWrite]
    split
    · rename_i hxa
      by_cases hv : v = blankByte
      · simpa [hv] using h
      · simp only [hv, if_false]
        refine Memory.wf_cons.mpr ⟨fun d hd => ?_, hv, h⟩
        rcases List.mem_cons.mp hd with rfl | hd
        · exact hxa
        · have := hlt d hd; simp only at this ⊢; omega
    · split
      · rename_i hxe
        subst hxe
        by_cases hv : v = blankByte
        · simpa [hv] using hm
        · simp only [hv, if_false]
          exact Memory.wf_cons.mpr ⟨hlt, hv, hm⟩
      · rename_i hxa hxe
        refine Memory.wf_cons.mpr ⟨fun d hd => ?_, hw, ih hm⟩
        rcases mem_memWrite hd with ⟨rfl, _⟩ | hd
        · simp only; omega
        · exact hlt d hd

theorem memErase_wf {m : Memory} (h : Memory.wf m) (base size : Nat) :
    Memory.wf (memErase m base size) :=
  ⟨h.1.filter _, fun c hc => h.2 c (List.mem_of_mem_filter hc)⟩

theorem memRead_memErase (m : Memory) (base size x : Nat) :
    memRead (memErase m base size) x =
      if base ≤ x ∧ x < base + size then blankByte else memRead m x := by
  induction m with
  | nil => simp [memErase, memRead]
  | cons c m ih =>
    obtain ⟨a, w⟩ := c
    simp only [memErase, List.filter_cons] at ih ⊢
    by_cases ha : base ≤ a ∧ a < base + size
    · have : (!(decide (base ≤ a) && decide (a < base + size))) = false := by simp [ha]
      simp only [this, Bool.false_eq_true, if_false, ih, memRead]
      by_cases hx : base ≤ x ∧ x < base + size
      · simp [hx]
      · have : a ≠ x := by rintro rfl; exact hx ha
        simp [hx, this]
    · have : (!(decide (base ≤ a) && decide (a < base + size))) = true := by
        simp; omega
      simp only [this, if_true, memRead]
      by_cases hax : a = x
      · subst hax; simp [ha]
      · simp only [hax, if_false]; exact ih

theorem memWriteAll_wf {m : Memory} (h : Memory.wf m) (cells : List Host.Cell) :
    Memory.wf (memWriteAll m cells) := by
  induction cells generalizing m with
  | nil => exact h
  | cons c cs ih => exact ih (memWrite_wf h c.1 c.2)

theorem memRead_memWriteAll_other {m : Memory} {cells : List Host.Cell} {x : Nat}
    (h : ∀ c ∈ cells, c.1 ≠ x) : memRead (memWriteAll m cells) x = memRead m x := by
  induction cells generalizing m with
  | nil => rfl
  | cons c cs ih =>
    have := ih (m := memWrite m c.1 c.2) fun d hd => h d (by simp [hd])
    exact this.trans (memRead_memWrite_other (Ne.symm (h c (by simp))) c.2)

/-- Memories in canonical form that read alike are the same data. -/
theorem Memory.wf_ext {m n : Memory} (hm : Memory.wf m) (hn : Memory.wf n)
    (h : ∀ x, memRead m x = memRead n x) : m = n := by
  induction m generalizing n with
  | nil =>
    cases n with
    | nil => rfl
    | cons d n =>
      have := h d.1
      simp only [memRead, if_true] at this
      exact absurd this.symm (Memory.wf_cons.mp hn).2.1
  | cons c m ih =>
    obtain ⟨hlt, hw, hm'⟩ := Memory.wf_cons.mp hm
    cases n with
    | nil =>
      have := h c.1
      simp only [memRead, if_true] at this
      exact absurd this hw
    | cons d n =>
      obtain ⟨hlt', hw', hn'⟩ := Memory.wf_cons.mp hn
      obtain ⟨a, v⟩ := c
      obtain ⟨b, w⟩ := d
      simp only at hlt hw hlt' hw'
      have hab : a = b := by
        by_contra hne
        rcases Nat.lt_or_gt_of_ne hne with hlt2 | hlt2
        · have e := h a
          simp only [memRead, if_true, Ne.symm hne, if_false] at e
          rw [memRead_absent fun d hd => by have := hlt' d hd; omega] at e
          exact hw e
        · have e := h b
          simp only [memRead, if_true, hne, if_false] at e
          rw [memRead_absent fun d hd => by have := hlt d hd; omega] at e
          exact hw' e.symm
      subst hab
      have hv : v = w := by simpa [memRead] using h a
      subst hv
      congr 1
      refine ih hm' hn' fun x => ?_
      by_cases hx : a = x
      · subst hx
        rw [memRead_absent fun d hd => by have := hlt d hd; omega,
          memRead_absent fun d hd => by have := hlt' d hd; omega]
      · simpa [memRead, hx] using h x

end Sys2Proof.Machine
end

