-- ==== Sys2Proof/Laws/Frame.lean ====
section
/-! SUPPORT. Frames and the line: framing and unframing are inverse, a sent byte comes back, a received
frame is taken or dropped. -/

namespace Sys2Proof.Machine

variable {f : FrameFormat}

/-! ### Frames -/

theorem byteOfBits_getLsbD (b : Byte) :
    byteOfBits (b.getLsbD 0) (b.getLsbD 1) (b.getLsbD 2) (b.getLsbD 3) (b.getLsbD 4) (b.getLsbD 5)
      (b.getLsbD 6) (b.getLsbD 7) = b := by
  revert b; decide

theorem getLsbD_byteOfBits (d0 d1 d2 d3 d4 d5 d6 d7 : Bool) :
    let b := byteOfBits d0 d1 d2 d3 d4 d5 d6 d7
    [b.getLsbD 0, b.getLsbD 1, b.getLsbD 2, b.getLsbD 3, b.getLsbD 4, b.getLsbD 5, b.getLsbD 6,
      b.getLsbD 7] = [d0, d1, d2, d3, d4, d5, d6, d7] := by
  revert d0 d1 d2 d3 d4 d5 d6 d7; decide

/-- Either order of the bits is undone by itself. -/
theorem lineOrder_lineOrder (b : Byte) : lineOrder f (lineOrder f b) = b := by
  unfold lineOrder
  cases f.msbFirst
  · rfl
  · revert b; decide

theorem frameBits_length (b : Byte) : (frameBits f b).length = 12 := rfl

theorem deframe_frameBits (b : Byte) : deframe f (frameBits f b) = some b := by
  simp [-BitVec.getLsbD_eq_getElem, deframe, frameBits, byteOfBits_getLsbD, lineOrder_lineOrder]

/-- Only a byte's own frame reads as that byte. -/
theorem deframe_some {w : List Bool} {b : Byte} (h : deframe f w = some b) : w = frameBits f b := by
  unfold deframe at h
  split at h
  · rename_i st d0 d1 d2 d3 d4 d5 d6 d7 p s0 s1
    simp only [Option.ite_none_right_eq_some, Bool.and_eq_true, Bool.not_eq_true', beq_iff_eq,
      Option.some.injEq] at h
    obtain ⟨⟨⟨⟨rfl, rfl⟩, rfl⟩, rfl⟩, rfl⟩ := h
    have := getLsbD_byteOfBits d0 d1 d2 d3 d4 d5 d6 d7
    simp only [List.cons.injEq, and_true] at this
    obtain ⟨h0, h1, h2, h3, h4, h5, h6, h7⟩ := this
    simp only [frameBits, lineOrder_lineOrder, h0, h1, h2, h3, h4, h5, h6, h7]
  · cases h

/-! ### Shift registers -/

theorem unpackFrame_length (w : BitVec 12) : (unpackFrame w).length = 12 := by simp [unpackFrame]

theorem packFrame_getLsbD (vs : List Bool) (i : Nat) (h : i < 12) :
    (packFrame vs).getLsbD i = vs.getD i false := by
  induction vs generalizing i with
  | nil => simp [packFrame]
  | cons v vs ih =>
    cases i with
    | zero => cases v <;> simp [packFrame]
    | succ i =>
      have := ih i (by omega)
      cases v <;> simp_all [packFrame]

theorem unpackFrame_packFrame {w : List Bool} (h : w.length = 12) : unpackFrame (packFrame w) = w := by
  apply List.ext_getElem
  · simp [unpackFrame, h]
  · intro i h1 h2
    simp only [unpackFrame, List.getElem_map, List.getElem_range]
    rw [packFrame_getLsbD _ _ (by omega)]
    simp [h2]

/-- One value shifted in from the top (40_phy.md R132). -/
def shiftIn (r : BitVec 12) (v : Bool) : BitVec 12 := (r >>> 1) ||| (if v then 0x800#12 else 0#12)

theorem shiftIn_getLsbD (r : BitVec 12) (v : Bool) (i : Nat) (h : i < 12) :
    (shiftIn r v).getLsbD i = if i = 11 then v else r.getLsbD (i + 1) := by
  have : i = 0 ∨ i = 1 ∨ i = 2 ∨ i = 3 ∨ i = 4 ∨ i = 5 ∨ i = 6 ∨ i = 7 ∨ i = 8 ∨ i = 9 ∨ i = 10 ∨
    i = 11 := by omega
  rcases this with rfl | rfl | rfl | rfl | rfl | rfl | rfl | rfl | rfl | rfl | rfl | rfl <;>
    cases v <;> simp [shiftIn]

theorem unpackFrame_shifted (r : BitVec 12) (w0 w1 w2 w3 w4 w5 w6 w7 w8 w9 w10 w11 : Bool) :
    unpackFrame ([w0, w1, w2, w3, w4, w5, w6, w7, w8, w9, w10, w11].foldl shiftIn r) =
      [w0, w1, w2, w3, w4, w5, w6, w7, w8, w9, w10, w11] := by
  simp [-BitVec.getLsbD_eq_getElem, unpackFrame, List.range, List.range.loop, shiftIn_getLsbD]

/-! ### Receiving -/

theorem LineQuiet.sample_idle {l : Line} (h : LineQuiet l) : l.sample f true = l := by
  obtain ⟨_, h2, h3, _⟩ := h
  cases l; simp_all [Line.sample]

/-- The receive half after a frame it saw from its start bit. -/
def Line.received (f : FrameFormat) (l : Line) (w : List Bool) : Line :=
  { l with
    rxPrev := w.getLastD true
    rxShift := w.foldl shiftIn l.rxShift
    rxCnt := 0
    rxFifo := l.rxFifo ++ (deframe f w).toList
    frameErr := l.frameErr || (deframe f w).isNone }

theorem sample_mid (l : Line) (v : Bool) (n : Nat) (h : l.rxCnt = n + 2) :
    l.sample f v = { l with rxPrev := v, rxShift := shiftIn l.rxShift v, rxCnt := n + 1 } := by
  simp [Line.sample, h, shiftIn]

theorem sample_start (l : Line) (h : l.rxCnt = 0) (hp : l.rxPrev = true) :
    l.sample f false =
      { l with rxPrev := false, rxShift := shiftIn l.rxShift false, rxCnt := 11 } := by
  simp [Line.sample, h, hp, shiftIn]

theorem sample_last (l : Line) (v : Bool) (h : l.rxCnt = 1) :
    l.sample f v =
      Line.accept f { l with rxPrev := v, rxShift := shiftIn l.rxShift v, rxCnt := 0 }
        (shiftIn l.rxShift v) := by
  simp [Line.sample, h, shiftIn]

theorem foldl_sample_mid (vs : List Bool) (l : Line) (h : l.rxCnt = vs.length + 1) :
    vs.foldl (Line.sample f) l =
      { l with
        rxPrev := vs.getLastD l.rxPrev
        rxShift := vs.foldl shiftIn l.rxShift
        rxCnt := 1 } := by
  induction vs generalizing l with
  | nil => cases l; simp_all
  | cons v vs ih =>
    rw [List.foldl_cons, sample_mid l v vs.length (by simpa using h), ih _ rfl]
    cases vs <;> simp [List.getLast?_cons]

theorem foldl_sample_frame (l : Line) (h : LineQuiet l) (vs : List Bool) (v : Bool)
    (hl : vs.length = 10) :
    (false :: (vs ++ [v])).foldl (Line.sample f) l = l.received f (false :: (vs ++ [v])) := by
  rw [List.foldl_cons, sample_start l h.rxIdle h.high, List.foldl_append,
    foldl_sample_mid vs _ (by simp [hl]), List.foldl_cons, List.foldl_nil, sample_last _ _ rfl]
  have hu : unpackFrame (shiftIn (vs.foldl shiftIn (shiftIn l.rxShift false)) v) =
      false :: (vs ++ [v]) := by
    match vs, hl with
    | [w1, w2, w3, w4, w5, w6, w7, w8, w9, w10], _ =>
      exact unpackFrame_shifted l.rxShift false w1 w2 w3 w4 w5 w6 w7 w8 w9 w10 v
  simp only [Line.accept, hu]
  have hlast : (false :: (vs ++ [v])).getLastD true = v := by
    rw [← List.cons_append, List.getLastD_concat]
  cases hd : deframe f (false :: (vs ++ [v])) <;>
    simp [Line.received, hd, List.foldl_append, List.getLastD]

/-- Twelve values that begin with a start bit are taken as one frame (40_phy.md R132, R136). -/
theorem sample_frame (l : Line) (h : LineQuiet l) {w : List Bool} (hl : w.length = 12)
    (h0 : w.head? = some false) : w.foldl (Line.sample f) l = l.received f w := by
  cases w with
  | nil => simp at hl
  | cons w0 w =>
    obtain rfl : w0 = false := by simpa using h0
    have hl' : w.length = 11 := by simpa using hl
    have hne : w ≠ [] := by rintro rfl; simp at hl'
    obtain ⟨vs, v, rfl⟩ : ∃ vs v, w = vs ++ [v] := 
      ⟨w.dropLast, w.getLast hne, (List.dropLast_append_getLast hne).symm⟩
    exact foldl_sample_frame l h vs v (by simpa using hl')

theorem Line.received_frameBits (l : Line) (b : Byte) (h : LineQuiet l) :
    l.received f (frameBits f b) =
      { l with
        rxShift := (frameBits f b).foldl shiftIn l.rxShift
        rxFifo := l.rxFifo ++ [b] } := by
  obtain ⟨_, h2, h3, _⟩ := h
  cases l
  simp only [Line.received, deframe_frameBits]
  simp_all [frameBits]

theorem LineQuiet.received {l : Line} (h : LineQuiet l) {w : List Bool}
    (hw : w.getLastD true = true) : LineQuiet (l.received f w) := ⟨h.txIdle, rfl, hw, h.driverHigh⟩

/-- The receive half does not look at the transmit half. -/
theorem sample_tx (l : Line) (v : Bool) (a : Bool) (b : BitVec 12) (c : Nat) :
    ({ l with lineTx := a, txShift := b, txCnt := c } : Line).sample f v =
      { l.sample f v with lineTx := a, txShift := b, txCnt := c } := by
  simp only [Line.sample]
  repeat' split
  all_goals first
    | rfl
    | (simp only [Line.accept]; split <;> rfl)

theorem sample_tx_fields (l : Line) (v : Bool) :
    (l.sample f v).lineTx = l.lineTx ∧ (l.sample f v).txShift = l.txShift ∧
      (l.sample f v).txCnt = l.txCnt := by
  simp only [Line.sample]
  repeat' split
  all_goals first
    | exact ⟨rfl, rfl, rfl⟩
    | (simp only [Line.accept]; split <;> exact ⟨rfl, rfl, rfl⟩)

@[simp] theorem sample_lineTx (l : Line) (v : Bool) : (l.sample f v).lineTx = l.lineTx :=
  (sample_tx_fields l v).1
@[simp] theorem sample_txShift (l : Line) (v : Bool) : (l.sample f v).txShift = l.txShift :=
  (sample_tx_fields l v).2.1
@[simp] theorem sample_txCnt (l : Line) (v : Bool) : (l.sample f v).txCnt = l.txCnt :=
  (sample_tx_fields l v).2.2

/-! ### Listening while nothing is sent -/

theorem tick_quiet (l : Line) (h : l.txCnt = 0) (v : Bool) :
    l.tick f v = ({ l with lineTx := true } : Line).sample f v := by
  simp [Line.tick, Line.serialise, h]

/-- Listening never starts a transmission and leaves the engine's driver high. -/
theorem listen_tx (l : Line) (h : l.txCnt = 0) (hl : l.lineTx = true) (d : List Bool) :
    (l.listen f d).lineTx = true ∧ (l.listen f d).txCnt = 0 ∧ (l.listen f d).txShift = l.txShift := by
  induction d generalizing l with
  | nil => exact ⟨hl, h, rfl⟩
  | cons v d ih =>
    have := ih (l.tick f v) (by simp [tick_quiet l h, h]) (by simp [tick_quiet l h])
    simpa [Line.listen, tick_quiet l h] using this

theorem listen_eq_samples (l : Line) (h : l.txCnt = 0) (hl : l.lineTx = true) (d : List Bool) :
    l.listen f d = d.foldl (Line.sample f) l := by
  induction d generalizing l with
  | nil => rfl
  | cons v d ih =>
    have e : l.tick f v = l.sample f v := by
      rw [tick_quiet l h]
      obtain ⟨a, b, c, d, e, f, g, i⟩ := l
      simp_all
    have := ih (l.sample f v) (by simp [h]) (by simp [hl])
    simpa [Line.listen, e] using this

theorem samples_idle {l : Line} (h : LineQuiet l) (d : List Bool) :
    d.foldl (Line.sample f) l = (d.dropWhile id).foldl (Line.sample f) l := by
  induction d with
  | nil => rfl
  | cons v d ih =>
    cases v with
    | true => simpa [h.sample_idle] using ih
    | false => rfl

/-- What the receive half has after line values that carry well-formed frames. -/
theorem samples_carries {bs : List Byte} {d : List Bool} {l : Line} (h : LineQuiet l)
    (hc : carries f bs d = true) :
    ∃ r, d.foldl (Line.sample f) l = { l with rxShift := r, rxFifo := l.rxFifo ++ bs } := by
  induction bs generalizing d l with
  | nil =>
    refine ⟨l.rxShift, ?_⟩
    have hd : d.dropWhile id = [] := by
      simp only [carries, List.all_eq_true] at hc
      simpa [List.dropWhile_eq_nil_iff] using hc
    rw [samples_idle h, hd]
    simp
  | cons b bs ih =>
    simp only [carries, Bool.and_eq_true, beq_iff_eq] at hc
    obtain ⟨hf, hc⟩ := hc
    rw [samples_idle h, ← List.take_append_drop 12 (d.dropWhile id), List.foldl_append, hf,
      sample_frame l h (frameBits_length b) rfl, Line.received_frameBits l b h]
    have hq : LineQuiet
        { l with rxShift := (frameBits f b).foldl shiftIn l.rxShift, rxFifo := l.rxFifo ++ [b] } :=
      ⟨h.txIdle, h.rxIdle, h.high, h.driverHigh⟩
    obtain ⟨r, hr⟩ := ih hq hc
    exact ⟨r, by simp [hr]⟩

/-! ### Listening for a number of bytes -/

/-- Listening for a number of bytes is listening to a first part of the levels. -/
theorem listenFor_eq_listen (l : Line) (n : Nat) (d : List Bool) :
    ∃ k, l.listenFor f n d = l.listen f (d.take k) := by
  induction d generalizing l with
  | nil => exact ⟨0, rfl⟩
  | cons v d ih =>
    by_cases h : n ≤ l.rxFifo.length
    · exact ⟨0, by simp [Line.listenFor, h, Line.listen]⟩
    · obtain ⟨k, e⟩ := ih (l.tick f v)
      exact ⟨k + 1, by simp [Line.listenFor, h, e, Line.listen]⟩

theorem listenFor_enough (l : Line) (n : Nat) (h : n ≤ l.rxFifo.length) (d : List Bool) :
    l.listenFor f n d = l := by
  cases d <;> simp [Line.listenFor, h]

/-- The transmit half is at rest, its driver high. -/
def Line.Still (l : Line) : Prop := l.txCnt = 0 ∧ l.lineTx = true

theorem Line.Still.tick {l : Line} (h : l.Still) (v : Bool) : l.tick f v = l.sample f v := by
  rw [tick_quiet l h.1]
  have := h.2
  cases l; simp_all

theorem Line.Still.sample {l : Line} (h : l.Still) (v : Bool) : (l.sample f v).Still :=
  ⟨by rw [sample_txCnt]; exact h.1, by rw [sample_lineTx]; exact h.2⟩

/-- Within a frame no byte arrives: listening goes on to the frame's end. -/
theorem listenFor_frame (ds rest : List Bool) (l : Line) (n : Nat) (hs : l.Still)
    (h : l.rxCnt = ds.length) (hn : l.rxFifo.length < n) :
    l.listenFor f n (ds ++ rest) = (ds.foldl (Line.sample f) l).listenFor f n rest := by
  induction ds generalizing l with
  | nil => rfl
  | cons v ds ih =>
    have hn' : ¬ n ≤ l.rxFifo.length := by omega
    simp only [List.cons_append, Line.listenFor, hn', if_false, hs.tick, List.foldl_cons]
    cases ds with
    | nil => rfl
    | cons w ds =>
      have e := sample_mid (f := f) l v ds.length (by simpa using h)
      exact ih _ (hs.sample v) (by rw [e]; simp) (by rw [e]; exact hn)

/-- A read that waits for bytes which arrive in time has exactly them when it stops listening. -/
theorem listenFor_begins {bs : List Byte} {d : List Bool} {l : Line} (h : LineQuiet l)
    (hc : begins f bs d = true) :
    ∃ r, l.listenFor f (l.rxFifo.length + bs.length) d =
      { l with rxShift := r, rxFifo := l.rxFifo ++ bs } := by
  induction bs generalizing d l with
  | nil => exact ⟨l.rxShift, by rw [listenFor_enough _ _ (by simp)]; simp⟩
  | cons b bs ih =>
    simp only [begins, Bool.and_eq_true, beq_iff_eq] at hc
    obtain ⟨hf, hc⟩ := hc
    have hn : l.rxFifo.length < l.rxFifo.length + (b :: bs).length := by simp
    have idle : ∀ d : List Bool, l.listenFor f (l.rxFifo.length + (b :: bs).length) d =
        l.listenFor f (l.rxFifo.length + (b :: bs).length) (d.dropWhile id) := by
      intro d
      induction d with
      | nil => rfl
      | cons v d ihd =>
        cases v with
        | true =>
          have hs : l.Still := ⟨h.txIdle, h.driverHigh⟩
          rw [Line.listenFor, if_neg (by omega), hs.tick, h.sample_idle, ihd]
          rfl
        | false => rfl
    rw [idle, ← List.take_append_drop 12 (d.dropWhile id), hf]
    have hs : l.Still := ⟨h.txIdle, h.driverHigh⟩
    have hframe := sample_frame (f := f) (w := frameBits f b) l h (frameBits_length b) rfl
    rw [Line.received_frameBits l b h] at hframe
    obtain ⟨ds, hds, hlen⟩ : ∃ ds, frameBits f b = false :: ds ∧ ds.length = 11 := ⟨_, rfl, rfl⟩
    rw [hds, List.cons_append, Line.listenFor, if_neg (by omega), hs.tick]
    have hst := sample_start (f := f) l h.rxIdle h.high
    rw [listenFor_frame ds _ _ _ (hs.sample false) (by rw [hst, hlen]) (by rw [hst]; exact hn)]
    rw [hds, List.foldl_cons] at hframe
    rw [hframe]
    have hq : LineQuiet
        { l with rxShift := (false :: ds).foldl shiftIn l.rxShift, rxFifo := l.rxFifo ++ [b] } :=
      ⟨h.txIdle, h.rxIdle, h.high, h.driverHigh⟩
    obtain ⟨r, hr⟩ := ih hq hc
    refine ⟨r, ?_⟩
    have e : l.rxFifo.length + (b :: bs).length = (l.rxFifo ++ [b]).length + bs.length := by
      simp; omega
    rw [e, hr]
    simp

/-! ### Sending -/

/-- The values a transmit register puts on the line, and what is left in it. -/
def shiftOut : Nat → BitVec 12 → List Bool × BitVec 12
  | 0, w => ([], w)
  | n + 1, w =>
    (w.getLsbD 0 :: (shiftOut n ((w >>> 1) ||| 0x800#12)).1,
      (shiftOut n ((w >>> 1) ||| 0x800#12)).2)

theorem shiftOut_getLsbD (n : Nat) (w : BitVec 12) (h : n ≤ 12) :
    (shiftOut n w).1 = (List.range n).map w.getLsbD := by
  induction n generalizing w with
  | zero => rfl
  | succ n ih =>
    rw [shiftOut, ih _ (by omega), List.range_succ_eq_map]
    simp only [List.map_cons, List.map_map]
    congr 1
    apply List.map_congr_left
    intro i hi
    have hi' : i < n := by simpa using hi
    have := shiftIn_getLsbD w true i (by omega)
    simpa [shiftIn, show i ≠ 11 by omega] using this

/-- Bit-times in which the engine sends and the target is silent. -/
theorem ticks_silent (n : Nat) (l : Line) (d : List Bool) (hd : d.all id = true) (h : l.txCnt = n)
    (hl : n = 0 → l.lineTx = true) :
    (l.ticks f n d).1 =
        { (shiftOut n l.txShift).1.foldl (Line.sample f) l with
          lineTx := (shiftOut n l.txShift).1.getLastD true
          txShift := (shiftOut n l.txShift).2
          txCnt := 0 } ∧ (l.ticks f n d).2.all id = true := by
  induction n generalizing l d with
  | zero =>
    refine ⟨?_, by simpa [Line.ticks] using hd⟩
    have := hl rfl
    cases l; simp_all [Line.ticks, shiftOut]
  | succ n ih =>
    obtain ⟨d', hd', e⟩ : ∃ d', d'.all id = true ∧ l.ticks f (n + 1) d = (l.tick f true).ticks f n d' := by
      cases d with
      | nil => exact ⟨[], rfl, rfl⟩
      | cons v d =>
        simp only [List.all_cons, Bool.and_eq_true, id] at hd
        obtain ⟨rfl, hd⟩ := hd
        exact ⟨d, hd, rfl⟩
    have et : l.tick f true =
        { l.sample f (l.txShift.getLsbD 0) with
          lineTx := l.txShift.getLsbD 0
          txShift := (l.txShift >>> 1) ||| 0x800#12
          txCnt := n } := by
      rw [← sample_tx]
      simp [Line.tick, Line.serialise, h]
    rw [e]
    cases n with
    | zero =>
      simp only [Line.ticks, shiftOut, List.foldl_cons, List.foldl_nil, et]
      exact ⟨rfl, hd'⟩
    | succ n =>
      obtain ⟨h1, h2⟩ := ih (l.tick f true) d' hd' (by simp [et]) (by simp)
      refine ⟨?_, h2⟩
      rw [h1, et]
      simp only [shiftOut, List.foldl_cons]
      generalize (shiftOut n _).1 = vs
      have key : ∀ (vs : List Bool) (m : Line) (a : Bool) (b : BitVec 12) (c : Nat)
          (a' : Bool) (b' : BitVec 12) (c' : Nat),
          ({ vs.foldl (Line.sample f) ({ m with lineTx := a, txShift := b, txCnt := c } : Line) with
              lineTx := a', txShift := b', txCnt := c' } : Line) =
            { vs.foldl (Line.sample f) m with lineTx := a', txShift := b', txCnt := c' } := by
        intro vs
        induction vs with
        | nil => intros; rfl
        | cons v vs ih => intro m a b c a' b' c'; rw [List.foldl_cons, List.foldl_cons, sample_tx, ih]
      have := key (((l.txShift >>> 1) ||| 0x800#12).getLsbD 0 :: vs) (l.sample f (l.txShift.getLsbD 0))
      simp only [List.foldl_cons] at this
      rw [this]
      simp

/-- A byte sent while the target is silent comes back (40_phy.md R131 to R133). -/
theorem load_ticks_silent (l : Line) (h : LineQuiet l) (b : Byte) (d : List Bool)
    (hd : d.all id = true) :
    (∃ x r, ((l.load f b).ticks f 12 d).1 =
      { l with lineTx := true, txShift := x, rxShift := r, rxFifo := l.rxFifo ++ [b] }) ∧
      ((l.load f b).ticks f 12 d).2.all id = true := by
  obtain ⟨h1, h2⟩ := ticks_silent 12 (l.load f b) d hd rfl (by simp)
  refine ⟨⟨(shiftOut 12 (packFrame (frameBits f b))).2, (frameBits f b).foldl shiftIn l.rxShift, ?_⟩, h2⟩
  have e : (shiftOut 12 (packFrame (frameBits f b))).1 = frameBits f b := by
    rw [shiftOut_getLsbD 12 _ (le_refl _)]
    exact unpackFrame_packFrame (frameBits_length b)
  have hq : LineQuiet l := h
  have hs : (frameBits f b).foldl (Line.sample f) (l.load f b) =
      { (frameBits f b).foldl (Line.sample f) l with
        lineTx := l.lineTx, txShift := packFrame (frameBits f b), txCnt := 12 } := by
    have key : ∀ (vs : List Bool) (m : Line) (a : Bool) (b : BitVec 12) (c : Nat),
        vs.foldl (Line.sample f) ({ m with lineTx := a, txShift := b, txCnt := c } : Line) =
          { vs.foldl (Line.sample f) m with lineTx := a, txShift := b, txCnt := c } := by
      intro vs
      induction vs with
      | nil => intros; rfl
      | cons v vs ih => intro m a b c; rw [List.foldl_cons, List.foldl_cons, sample_tx, ih]
    exact key (frameBits f b) l l.lineTx (packFrame (frameBits f b)) 12
  rw [h1]
  simp only [Line.load] at hs ⊢
  rw [e, hs, sample_frame l hq (frameBits_length b) rfl, Line.received_frameBits l b hq]
  cases l
  have := hq.txIdle
  simp_all [frameBits]

/-- Bytes sent while the target is silent come back, in order. -/
theorem send_silent (bs : List Byte) (l : Line) (h : LineQuiet l) (d : List Bool)
    (hd : d.all id = true) (hl : l.lineTx = true) :
    ∃ x r, l.send f bs d =
      { l with lineTx := true, txShift := x, rxShift := r, rxFifo := l.rxFifo ++ bs } := by
  induction bs generalizing l d with
  | nil => exact ⟨l.txShift, l.rxShift, by cases l; simp_all [Line.send]⟩
  | cons b bs ih =>
    obtain ⟨⟨x, r, e⟩, hd'⟩ := load_ticks_silent l h b d hd
    simp only [Line.send]
    rw [e]
    obtain ⟨x', r', e'⟩ := ih
      { l with lineTx := true, txShift := x, rxShift := r, rxFifo := l.rxFifo ++ [b] }
      ⟨h.txIdle, h.rxIdle, h.high, rfl⟩ _ hd' rfl
    exact ⟨x', r', by rw [e']; simp⟩

end Sys2Proof.Machine
end

