-- ==== Sys2Proof/Laws/Port.lean ====
section
/-! SUPPORT. What each byte-port primitive does: one lemma for each answer of the environment. -/

namespace Sys2Proof.Machine

variable {α β : Type}

/-- The state once the environment's draw for a call is taken. -/
def State.drawn (s : State) (act : PortAct) : State := s.setEnv (s.env.answer s.cfg act).2

/-- The draw. -/
def State.draw (s : State) (act : PortAct) : Draw := (s.env.answer s.cfg act).1

@[simp] theorem State.drawn_env (s : State) (a : PortAct) :
    (s.drawn a).env = (s.env.answer s.cfg a).2 := rfl
@[simp] theorem State.drawn_cfg (s : State) (a : PortAct) : (s.drawn a).cfg = s.cfg := rfl
@[simp] theorem State.drawn_ses (s : State) (a : PortAct) : (s.drawn a).ses = s.ses := rfl
@[simp] theorem State.drawn_phy (s : State) (a : PortAct) : (s.drawn a).phy = s.phy := rfl
@[simp] theorem State.drawn_dl (s : State) (a : PortAct) : (s.drawn a).dl = s.dl := rfl
@[simp] theorem State.drawn_nvm (s : State) (a : PortAct) : (s.drawn a).nvm = s.nvm := rfl
@[simp] theorem State.drawn_rsp (s : State) (a : PortAct) : (s.drawn a).rsp = s.rsp := rfl
@[simp] theorem State.drawn_now (s : State) (a : PortAct) : (s.drawn a).now = s.now := rfl
@[simp] theorem State.drawn_inputs (s : State) (a : PortAct) : (s.drawn a).inputs = s.inputs := rfl
@[simp] theorem State.drawn_trace (s : State) (a : PortAct) : (s.drawn a).trace = s.trace := rfl

@[simp] theorem drawFor_bind_run (act : PortAct) (k : Draw → Act β) (s : State) :
    (drawFor act >>= k) s = k (s.draw act) (s.drawn act) := rfl

/-- A failed primitive (40_phy.md R148): `q` is what the environment was asked, `a` what the trace shows,
`heard` what the receive half saw (log entry 35). -/
def State.failedAt (s : State) (q a : PortAct) (heard : List Bool) : State :=
  ((((s.drawn q).listen heard).setNow (s.now + (s.draw q).dt)).logged a .ioerror).setPhy
    { ((s.drawn q).listen heard).phy with phyState := .idle, echoPending := 0 }

/-- The error a failed primitive raises (40_phy.md R148). -/
def portError (op : OpName) : Err where
  code := .transport
  info := { base := { layer := some .phy, op := [op] } }

@[simp] theorem ioFailure_run (a : PortAct) (op : OpName) (dt : Nat) (heard : List Bool) (s : State) :
    (ioFailure a op dt heard : Act α) s = .error (portError op)
      ((((s.listen heard).setNow (s.now + dt)).logged a .ioerror).setPhy
        { (s.listen heard).phy with phyState := .idle, echoPending := 0 }) := by
  simp only [ioFailure, Act.modify_bind_run, raise_run, State.listen_now]; rfl

theorem trOpen_error {port baud : Nat} {s : State} (h : (s.draw (.trOpen port baud)).ioerror = true) :
    trOpen port baud s = .error (portError .trOpen)
      (s.failedAt (.trOpen port baud) (.trOpen port baud) (s.draw (.trOpen port baud)).drive) := by
  simp only [trOpen, drawFor_bind_run, h, if_true, ioFailure_run]; rfl

theorem trSetBaud_error {b : Nat} {s : State} (h : (s.draw (.trSetBaud b)).ioerror = true) :
    trSetBaud b s = .error (portError .trSetBaud)
      (s.failedAt (.trSetBaud b) (.trSetBaud b) (s.draw (.trSetBaud b)).drive) := by
  simp only [trSetBaud, drawFor_bind_run, h, if_true, ioFailure_run]; rfl

theorem trBreak_error {d g : Nat} {s : State} (h : (s.draw (.trBreak d g)).ioerror = true) :
    trBreak d g s = .error (portError .trBreak)
      (s.failedAt (.trBreak d g) (.trBreak d g) []) := by
  simp only [trBreak, drawFor_bind_run, h, if_true, ioFailure_run]; rfl

theorem trWrite_error {bs : List Byte} {s : State} (h : (s.draw (.trWrite bs)).ioerror = true) :
    trWrite bs s = .error (portError .trWrite)
      (s.failedAt (.trWrite bs) (.trWrite bs)
        (cutShort s.cfg.frame (s.draw (.trWrite bs)) bs)) := by
  simp only [trWrite, drawFor_bind_run, h, if_true, Act.get_bind_run, ioFailure_run]; rfl

/-- What a read asks of the environment: the bytes still to come (40_phy.md R134). -/
def State.readAct (s : State) (n t : Nat) : PortAct := .trRead (n - s.phy.line.rxFifo.length) t

/-- The state once a read has listened as long as it does. -/
def State.listened (s : State) (n t : Nat) : State :=
  (s.drawn (s.readAct n t)).listenFor n (if t = 0 then [] else (s.draw (s.readAct n t)).drive)

theorem trRead_error {n t : Nat} {s : State} (h : (s.draw (s.readAct n t)).ioerror = true) :
    trRead n t s = .error (portError .trRead)
      (s.failedAt (s.readAct n t) (.trRead n t) (s.draw (s.readAct n t)).drive) := by
  simp only [State.readAct] at h
  simp only [trRead, Act.get_bind_run, drawFor_bind_run, h, if_true, ioFailure_run]; rfl

theorem trClose_error {s : State} (h : (s.draw .trClose).ioerror = true) :
    trClose s = .error (portError .trClose)
      (s.failedAt .trClose .trClose (s.draw .trClose).drive) := by
  simp only [trClose, drawFor_bind_run, h, if_true, ioFailure_run]; rfl

theorem trOpen_ok {port baud : Nat} {s : State} (h : (s.draw (.trOpen port baud)).ioerror = false) :
    trOpen port baud s = .ok ()
      (((((s.drawn (.trOpen port baud)).setSes { s.ses with trOpen := true }).setPhy
        { s.phy with
          baudCur := baud
          line := { s.phy.line with
            frameErr := false, rxFifo := [], lineTx := true, rxCnt := 0, rxPrev := true } }).setNow
        (s.now + (s.draw (.trOpen port baud)).dt)).logged (.trOpen port baud) .done) := by
  simp only [trOpen, drawFor_bind_run, h]; rfl

theorem trSetBaud_ok {b : Nat} {s : State} (h : (s.draw (.trSetBaud b)).ioerror = false) :
    trSetBaud b s = .ok ()
      (((((s.drawn (.trSetBaud b)).listen (s.draw (.trSetBaud b)).drive).setPhy
        { ((s.drawn (.trSetBaud b)).listen (s.draw (.trSetBaud b)).drive).phy with
          baudCur := b }).setNow (s.now + (s.draw (.trSetBaud b)).dt)).logged (.trSetBaud b)
        .done) := by
  simp only [trSetBaud, drawFor_bind_run, h]
  simp [State.listen_now]

theorem trBreak_ok {d g : Nat} {s : State} (h : (s.draw (.trBreak d g)).ioerror = false) :
    trBreak d g s = .ok ()
      ((((((((s.drawn (.trBreak d g)).setLine { s.phy.line with lineTx := false }).logged
        (.trBreak d g) .done).setPhy
          { s.phy with
            phyState := .guard, line := { s.phy.line with lineTx := true, rxPrev := true } })).setNow
        (s.now + (s.draw (.trBreak d g)).dt)).logged (.breakGuard g) .done)) := by
  simp only [trBreak, drawFor_bind_run, h]; rfl

theorem trWrite_ok {bs : List Byte} {s : State} (h : (s.draw (.trWrite bs)).ioerror = false) :
    trWrite bs s = .ok ()
      ((((s.drawn (.trWrite bs)).setLine
        (s.phy.line.transmit s.cfg.frame (s.draw (.trWrite bs)) bs)).setNow
        (s.now + 1 + (s.draw (.trWrite bs)).dt)).logged (.trWrite bs) .done) := by
  simp only [trWrite, drawFor_bind_run, h]; rfl

theorem trRead_bytes {n t : Nat} {s : State} {l : Line}
    (h : (s.draw (s.readAct n t)).ioerror = false)
    (hl : (s.listened n t).phy.line = l) (hn : n ≤ l.rxFifo.length) :
    trRead n t s = .ok (some (l.rxFifo.take n))
      ((((s.listened n t).setLine { l with rxFifo := l.rxFifo.drop n }).setNow
        (s.now + if n ≤ s.phy.line.rxFifo.length then 0
          else min (s.draw (s.readAct n t)).dt (t - 1))).logged (.trRead n t)
          (.bytes (l.rxFifo.take n))) := by
  subst hl
  simp only [State.readAct, State.listened] at h hn ⊢
  simp only [trRead, Act.get_bind_run, drawFor_bind_run, h]
  simp [hn]

theorem trRead_timeout {n t : Nat} {s : State} {l : Line}
    (h : (s.draw (s.readAct n t)).ioerror = false)
    (hl : (s.listened n t).phy.line = l) (hn : ¬ n ≤ l.rxFifo.length) :
    trRead n t s = .ok none
      ((((s.listened n t).setLine { l with rxFifo := [] }).setNow
        (s.now + if t = 0 then 0 else t + (s.draw (s.readAct n t)).dt)).logged (.trRead n t)
          .timeout) := by
  subst hl
  simp only [State.readAct, State.listened] at h hn ⊢
  simp only [trRead, Act.get_bind_run, drawFor_bind_run, h]
  simp [hn]

theorem trClose_ok {s : State} (h : (s.draw .trClose).ioerror = false) :
    trClose s = .ok ()
      ((((((s.drawn .trClose).listen (s.draw .trClose).drive).setSes
        { s.ses with trOpen := false }).setPhy
          { ((s.drawn .trClose).listen (s.draw .trClose).drive).phy with
            linkUp := false
            line := { ((s.drawn .trClose).listen (s.draw .trClose).drive).phy.line with
              lineTx := true, rxCnt := 0, rxPrev := true } }).setNow
        (s.now + (s.draw .trClose).dt)).logged .trClose .done) := by
  simp only [trClose, drawFor_bind_run, h]
  simp [State.listen_now]

theorem waitFor_run (d : Nat) (s : State) :
    waitFor d s = .ok ()
      ((((s.drawn (.wait d)).listen (s.draw (.wait d)).drive).setNow
        (s.now + d + (s.draw (.wait d)).dt)).logged (.wait d) .done) := by
  simp only [waitFor, drawFor_bind_run]
  simp

/-- Everything a read can do. -/
theorem trRead_cases (n t : Nat) (s : State) :
    (∃ s', trRead n t s = .error (portError .trRead) s') ∨
    (∃ s', trRead n t s = .ok none s') ∨
    (∃ bs s', bs.length = n ∧ trRead n t s = .ok (some bs) s') := by
  cases h : (s.draw (s.readAct n t)).ioerror with
  | true => exact .inl ⟨_, trRead_error h⟩
  | false =>
    by_cases hn : n ≤ (s.listened n t).phy.line.rxFifo.length
    · exact .inr (.inr ⟨_, _, by simp [hn], trRead_bytes h rfl hn⟩)
    · exact .inr (.inl ⟨_, trRead_timeout h rfl hn⟩)

/-- What a read that listened leaves alone. -/
@[simp] theorem State.listened_cfg (s : State) (n t : Nat) : (s.listened n t).cfg = s.cfg := by
  simp [State.listened]
@[simp] theorem State.listened_ses (s : State) (n t : Nat) : (s.listened n t).ses = s.ses := by
  simp [State.listened]
@[simp] theorem State.listened_dl (s : State) (n t : Nat) : (s.listened n t).dl = s.dl := by
  simp [State.listened]
@[simp] theorem State.listened_nvm (s : State) (n t : Nat) : (s.listened n t).nvm = s.nvm := by
  simp [State.listened]
@[simp] theorem State.listened_rsp (s : State) (n t : Nat) : (s.listened n t).rsp = s.rsp := by
  simp [State.listened]
@[simp] theorem State.listened_now (s : State) (n t : Nat) : (s.listened n t).now = s.now := by
  simp [State.listened]
@[simp] theorem State.listened_inputs (s : State) (n t : Nat) : (s.listened n t).inputs = s.inputs := by
  simp [State.listened]
@[simp] theorem State.listened_trace (s : State) (n t : Nat) : (s.listened n t).trace = s.trace := by
  simp [State.listened]
@[simp] theorem State.listened_env (s : State) (n t : Nat) :
    (s.listened n t).env = (s.env.answer s.cfg (s.readAct n t)).2 := by
  simp [State.listened]

/-- A read listens to some first part of what the target drives. -/
theorem State.listened_eq (s : State) (n t : Nat) :
    ∃ d, s.listened n t = (s.drawn (s.readAct n t)).listen d := by
  unfold State.listened State.listenFor State.listen
  split
  · obtain ⟨k, e⟩ := listenFor_eq_listen (f := (s.drawn (s.readAct n t)).cfg.frame)
      (s.drawn (s.readAct n t)).phy.line n (if t = 0 then [] else (s.draw (s.readAct n t)).drive)
    exact ⟨_, by rw [e]⟩
  · exact ⟨[], rfl⟩

@[simp] theorem State.failedAt_cfg (s : State) (q a : PortAct) (h : List Bool) :
    (s.failedAt q a h).cfg = s.cfg := by simp [State.failedAt]
@[simp] theorem State.failedAt_ses (s : State) (q a : PortAct) (h : List Bool) :
    (s.failedAt q a h).ses = s.ses := by simp [State.failedAt]
@[simp] theorem State.failedAt_dl (s : State) (q a : PortAct) (h : List Bool) :
    (s.failedAt q a h).dl = s.dl := by simp [State.failedAt]
@[simp] theorem State.failedAt_nvm (s : State) (q a : PortAct) (h : List Bool) :
    (s.failedAt q a h).nvm = s.nvm := by simp [State.failedAt]
@[simp] theorem State.failedAt_rsp (s : State) (q a : PortAct) (h : List Bool) :
    (s.failedAt q a h).rsp = s.rsp := by simp [State.failedAt]
@[simp] theorem State.failedAt_inputs (s : State) (q a : PortAct) (h : List Bool) :
    (s.failedAt q a h).inputs = s.inputs := by simp [State.failedAt]
@[simp] theorem State.failedAt_now (s : State) (q a : PortAct) (h : List Bool) :
    (s.failedAt q a h).now = s.now + (s.draw q).dt := by simp [State.failedAt]
@[simp] theorem State.failedAt_env (s : State) (q a : PortAct) (h : List Bool) :
    (s.failedAt q a h).env = (s.env.answer s.cfg q).2 := by simp [State.failedAt]
@[simp] theorem State.failedAt_phy (s : State) (q a : PortAct) (h : List Bool) :
    (s.failedAt q a h).phy =
      { ((s.drawn q).listen h).phy with phyState := .idle, echoPending := 0 } := rfl

theorem State.failedAt_trace (s : State) (q a : PortAct) (h : List Bool) :
    ∃ p, (s.failedAt q a h).trace = s.trace ++
      [{ phy := p, dl := s.dl.dlState, nvm := s.nvm.nvmState, act := a, answer := .ioerror }] :=
  ⟨_, by simp [State.failedAt]; rfl⟩

end Sys2Proof.Machine
end

