-- ==== Sys2Proof/Laws/Stays.lean ====
section
/-! SUPPORT. Running a piece of a command inside an invariant: whatever the environment answers, the
invariant holds where the piece ends, and it raises no errors but the ones named. -/

namespace Sys2Proof.Machine

variable {α β : Type} {I : State → Prop} {C : Code → Prop}

/-- Run from `s` the piece ends in `I`, and an error it raises has a code in `C`. -/
def StaysAt (I : State → Prop) (C : Code → Prop) (x : Act α) (s : State) : Prop :=
  (∀ a s', x s = .ok a s' → I s') ∧ (∀ e s', x s = .error e s' → I s' ∧ C e.code)

/-- From every state in `I` the piece ends in `I`, and an error it raises has a code in `C`. -/
def Stays (I : State → Prop) (C : Code → Prop) (x : Act α) : Prop :=
  ∀ s, I s → (∀ a s', x s = .ok a s' → I s') ∧ (∀ e s', x s = .error e s' → I s' ∧ C e.code)

theorem Stays.ok {x : Act α} (h : Stays I C x) {s s' : State} {a : α} (hs : I s)
    (e : x s = .ok a s') : I s' := (h s hs).1 a s' e

theorem Stays.error {x : Act α} (h : Stays I C x) {s s' : State} {e : Err} (hs : I s)
    (he : x s = .error e s') : I s' ∧ C e.code := (h s hs).2 e s' he

theorem Stays.mono {C' : Code → Prop} {x : Act α} (h : Stays I C x) (hc : ∀ c, C c → C' c) :
    Stays I C' x := fun s hs =>
  ⟨(h s hs).1, fun e s' he => ⟨((h s hs).2 e s' he).1, hc _ ((h s hs).2 e s' he).2⟩⟩

theorem stays_pure (a : α) : Stays I C (pure a : Act α) := fun s hs =>
  ⟨fun b s' h => by
      obtain ⟨rfl, rfl⟩ : a = b ∧ s = s' := by simpa using h
      exact hs,
    fun e s' h => by simp at h⟩

theorem stays_raise {code : Code} (b : ErrBase) (hc : C code) : Stays I C (raise code b : Act α) :=
  fun s hs =>
  ⟨fun a s' h => by simp at h,
    fun e s' h => by
      simp only [raise_run, EStateM.Result.error.injEq] at h
      obtain ⟨rfl, rfl⟩ := h
      exact ⟨hs, hc⟩⟩

theorem stays_modify {f : State → State} (h : ∀ s, I s → I (f s)) :
    Stays I C (modify f : Act Unit) := fun s hs =>
  ⟨fun a s' e => by
      simp only [Act.modify_run, EStateM.Result.ok.injEq, true_and] at e
      exact e ▸ h s hs,
    fun e s' h => by simp at h⟩

theorem stays_bind {x : Act α} {k : α → Act β} (hx : Stays I C x) (hk : ∀ a, Stays I C (k a)) :
    Stays I C (x >>= k) := fun s hs => by
  cases h : x s with
  | ok a s1 =>
    rw [Act.bind_ok h]
    exact hk a s1 (hx.ok hs h)
  | error e s1 =>
    rw [Act.bind_error h]
    refine ⟨fun a s' h' => by simp at h', fun e' s' h' => ?_⟩
    simp only [EStateM.Result.error.injEq] at h'
    obtain ⟨rfl, rfl⟩ := h'
    exact hx.error hs h

/-- Reading the state: what is read satisfies the invariant. -/
theorem stays_get_bind {k : State → Act β} (hk : ∀ s, I s → Stays I C (k s)) :
    Stays I C ((get : Act State) >>= k) := fun s hs => by
  rw [Act.get_bind_run]
  exact hk s hs s hs

theorem stays_ite {p : Prop} [Decidable p] {x y : Act α} (hx : p → Stays I C x)
    (hy : ¬ p → Stays I C y) : Stays I C (if p then x else y) := by
  by_cases h : p
  · simpa [h] using hx h
  · simpa [h] using hy h

theorem stays_demand_bind {b : Bool} {k : Unit → Act β} (h : b = true) (hk : Stays I C (k ())) :
    Stays I C (demand b >>= k) := fun s hs => by
  subst h
  rw [demand_true_bind_run]
  exact hk s hs

theorem stays_drop {x : Act Unit} (hx : Stays I C x) : Stays I C (noData x) :=
  stays_bind hx fun _ => stays_pure _

theorem stays_oneByte {x : Act Byte} (hx : Stays I C x) : Stays I C (oneByte x) :=
  stays_bind hx fun _ => stays_pure _

theorem stays_inPhy {name : OpName} {x : Act α} (hx : Stays I C x)
    (h : ∀ s n, n = s.phy.echoPending ∨ n = 0 → I s →
      I (s.setPhy { s.phy with phyState := .idle, echoPending := n })) :
    Stays I C (inPhy name x) := fun s hs => by
  cases hr : x s with
  | ok a s1 =>
    rw [inPhy_ok hr]
    refine ⟨fun b s' e => ?_, fun e s' e' => by simp at e'⟩
    simp only [EStateM.Result.ok.injEq] at e
    rw [← e.2]
    exact h s1 s1.phy.echoPending (.inl rfl) (hx.ok hs hr)
  | error e s1 =>
    rw [inPhy_error hr]
    refine ⟨fun b s' e' => by simp at e', fun e' s' h' => ?_⟩
    simp only [EStateM.Result.error.injEq] at h'
    obtain ⟨rfl, rfl⟩ := h'
    obtain ⟨h1, h2⟩ := hx.error hs hr
    exact ⟨h s1 0 (.inr rfl) h1, h2⟩

theorem stays_inDl {name : OpName} {addr : State → Option Nat} {x : Act α} (hx : Stays I C x)
    (h : ∀ s d, I s → I (s.setDl d)) : Stays I C (inDl name addr x) := fun s hs => by
  cases hr : x s with
  | ok a s1 =>
    rw [inDl_ok hr]
    refine ⟨fun b s' e => ?_, fun e s' e' => by simp at e'⟩
    simp only [EStateM.Result.ok.injEq] at e
    rw [← e.2]
    exact h s1 _ (hx.ok hs hr)
  | error e s1 =>
    rw [inDl_error hr]
    refine ⟨fun b s' e' => by simp at e', fun e' s' h' => ?_⟩
    simp only [EStateM.Result.error.injEq] at h'
    obtain ⟨rfl, rfl⟩ := h'
    obtain ⟨h1, h2⟩ := hx.error hs hr
    exact ⟨h s1 _ h1, h2⟩

theorem stays_inNvm {name : OpName} {x : Act α} (hx : Stays I C x)
    (h : ∀ s, I s → I (s.setNvm { s.nvm with nvmState := .idle })) : Stays I C (inNvm name x) :=
  fun s hs => by
  cases hr : x s with
  | ok a s1 =>
    rw [inNvm_ok hr]
    refine ⟨fun b s' e => ?_, fun e s' e' => by simp at e'⟩
    simp only [EStateM.Result.ok.injEq] at e
    rw [← e.2]
    exact h s1 (hx.ok hs hr)
  | error e s1 =>
    rw [inNvm_error hr]
    refine ⟨fun b s' e' => by simp at e', fun e' s' h' => ?_⟩
    simp only [EStateM.Result.error.injEq] at h'
    obtain ⟨rfl, rfl⟩ := h'
    obtain ⟨h1, h2⟩ := hx.error hs hr
    exact ⟨h s1 h1, h2⟩

theorem stays_atPlace {addr region : Nat} {x : Act α} (hx : Stays I C x) :
    Stays I C (atPlace addr region x) := fun s hs => by
  cases hr : x s with
  | ok a s1 =>
    rw [atPlace_ok hr]
    refine ⟨fun b s' e => ?_, fun e s' e' => by simp at e'⟩
    simp only [EStateM.Result.ok.injEq] at e
    rw [← e.2]
    exact hx.ok hs hr
  | error e s1 =>
    rw [atPlace_error hr]
    refine ⟨fun b s' e' => by simp at e', fun e' s' h' => ?_⟩
    simp only [EStateM.Result.error.injEq] at h'
    obtain ⟨rfl, rfl⟩ := h'
    obtain ⟨h1, h2⟩ := hx.error hs hr
    exact ⟨h1, by split <;> exact h2⟩

/-- An attempted step ends `ok` whatever it does (43_session.md R266). -/
theorem stays_attempt {D : Code → Prop} {x : Act α} (hx : Stays I D x) : Stays I C (attempt x) :=
  fun s hs => by
  cases hr : x s with
  | ok a s1 =>
    refine ⟨fun b s' e => ?_, fun e s' e' => by simp [attempt, hr] at e'⟩
    simp only [attempt, hr, EStateM.Result.ok.injEq, true_and] at e
    exact e ▸ hx.ok hs hr
  | error e s1 =>
    refine ⟨fun b s' e => ?_, fun e s' e' => by simp [attempt, hr] at e'⟩
    simp only [attempt, hr, EStateM.Result.ok.injEq, true_and] at e
    exact e ▸ (hx.error hs hr).1

/-- The state left behind is in the invariant. -/
theorem Stays.effect {x : Act α} (h : Stays I C x) {s : State} (hs : I s) : I (effect x s) := by
  cases hr : x s with
  | ok a s1 => simpa [Machine.effect, hr] using h.ok hs hr
  | error e s1 => simpa [Machine.effect, hr] using (h.error hs hr).1

/-! ### What an invariant must allow for the operations to stay in it -/

/-- What DL and PHY raise in an exchange (41_datalink.md R210). -/
def LinkCode (c : Code) : Prop := c = .transport ∨ c = .linkTimeout ∨ c = .protocolAck

/-- A transmission stays in what its failure and its success both keep. -/
theorem stays_trWrite {bs : List Byte} (hc : C .transport)
    (hf : ∀ s heard, I s → I (s.failedAt (.trWrite bs) (.trWrite bs) heard))
    (hw : ∀ s, I s → I ((((s.drawn (.trWrite bs)).setLine
      (s.phy.line.transmit s.cfg.frame (s.draw (.trWrite bs)) bs)).setNow
        (s.now + 1 + (s.draw (.trWrite bs)).dt)).logged (.trWrite bs) .done)) :
    Stays I C (trWrite bs) := fun s hs => by
  cases hd : (s.draw (.trWrite bs)).ioerror with
  | true =>
    rw [trWrite_error hd]
    refine ⟨fun a s' e => by simp at e, fun e s' he => ?_⟩
    simp only [EStateM.Result.error.injEq] at he
    obtain ⟨rfl, rfl⟩ := he
    exact ⟨hf _ _ hs, hc⟩
  | false =>
    rw [trWrite_ok hd]
    refine ⟨fun a s' e => ?_, fun e s' he => by simp at he⟩
    simp only [EStateM.Result.ok.injEq, true_and] at e
    exact e ▸ hw s hs

/-- A read stays in what its failure and its two completions keep. -/
theorem stays_trRead {n t : Nat} (hc : C .transport)
    (hf : ∀ s q heard, I s → I (s.failedAt q (.trRead n t) heard))
    (hl : ∀ s fifo now ans, I s → s.now ≤ now → I
      ((((s.listened n t).setLine { (s.listened n t).phy.line with rxFifo := fifo }).setNow
        now).logged (.trRead n t) ans)) :
    Stays I C (trRead n t) := fun s hs => by
  cases hd : (s.draw (s.readAct n t)).ioerror with
  | true =>
    rw [trRead_error hd]
    refine ⟨fun a s' e => by simp at e, fun e s' he => ?_⟩
    simp only [EStateM.Result.error.injEq] at he
    obtain ⟨rfl, rfl⟩ := he
    exact ⟨hf _ _ _ hs, hc⟩
  | false =>
    by_cases hn : n ≤ (s.listened n t).phy.line.rxFifo.length
    · rw [trRead_bytes hd rfl hn]
      refine ⟨fun a s' e => ?_, fun e s' he => by simp at he⟩
      simp only [EStateM.Result.ok.injEq] at e
      rw [← e.2]; exact hl s _ _ _ hs (by omega)
    · rw [trRead_timeout hd rfl hn]
      refine ⟨fun a s' e => ?_, fun e s' he => by simp at he⟩
      simp only [EStateM.Result.ok.injEq] at e
      rw [← e.2]; exact hl s _ _ _ hs (by omega)

/-- What an NVM command raises once it has begun (42_nvm.md R223, R225). -/
def NvmCode (c : Code) : Prop := LinkCode c ∨ c = .nvmBusyTimeout

theorem LinkCode.nvm {c : Code} (h : LinkCode c) : NvmCode c := .inl h

/-- The invariant does not look at PHY's sequencing, and the primitives of an exchange keep it. -/
structure Prim (I : State → Prop) : Prop where
  seq : ∀ s p n, I s → I (s.setPhy { s.phy with phyState := p, echoPending := n })
  write : ∀ bs, Stays I LinkCode (trWrite bs)
  read : ∀ n t, Stays I LinkCode (trRead n t)

/-- As `Prim`, and it does not look at DL's registers. -/
structure Inert (I : State → Prop) : Prop extends Prim I where
  dl : ∀ s d, I s → I (s.setDl d)

/-- The invariant does not look at DL's registers, and PHY's send and receive keep it: what DL's
operations ask of it. -/
structure Exch (I : State → Prop) : Prop where
  dl : ∀ s d, I s → I (s.setDl d)
  send : ∀ bs, Stays I LinkCode (phySend bs)
  recv : ∀ n t, Stays I LinkCode (phyRecv n t)

/-- DL's operations, their arguments in their domain, keep the invariant: what the layers above DL ask
of it (41_datalink.md R174). -/
structure Over (I : State → Prop) : Prop where
  csRead : ∀ {a : Nat}, a ≤ 0x0F → Stays I LinkCode (csRead a)
  csWrite : ∀ {a v : Nat}, a ≤ 0x0F → v ≤ 0xFF → Stays I LinkCode (csWrite a v)
  ldsOp : ∀ {a n : Nat}, addrOk a n = true → Stays I LinkCode (ldsOp a n)
  stsOp : ∀ {a v n : Nat}, addrOk a n = true → v ≤ 0xFF → Stays I LinkCode (stsOp a v n)
  stPtrOp : ∀ {w p : Nat}, addrOk p w = true → Stays I LinkCode (stPtrOp w p)
  ldPtrOp : ∀ w : Nat, Stays I LinkCode (ldPtrOp w)
  stPtrIncOp : ∀ {block : List Byte} {rep : Bool},
    (!rep || decide (block.length ≤ repeatMax)) = true → Stays I LinkCode (stPtrIncOp block rep)
  ldPtrIncOp : ∀ {n : Nat} {rep : Bool},
    (!rep || decide (n ≤ repeatMax)) = true → Stays I LinkCode (ldPtrIncOp n rep)
  stIncWire : ∀ {v : Byte} {more : List Byte}, more.length < repeatMax →
    Stays I LinkCode (stIncWire v more)
  ldIncWire : ∀ {more : Nat}, more < repeatMax → Stays I LinkCode (ldIncWire more)
  repeatWire : ∀ {n : Nat}, 1 ≤ n → n ≤ repeatMax → Stays I LinkCode (repeatWire n)
  keyWriteOp : ∀ {k : List Byte} {s : State}, I s → k.length = s.cfg.keyLen →
    StaysAt I LinkCode (keyWriteOp k) s

/-- As `Over`, and it does not look at what the polling loop writes. -/
structure NvmInert (I : State → Prop) : Prop extends Over I where
  nvm : ∀ s n d l v, I s → I (s.setNvm
    { s.nvm with nvmState := n, pollDeadline := d, lastStatus := l, statusValid := v })
  wait : ∀ d, Stays I LinkCode (waitFor d)

variable {s : State}

theorem Exch.dlState (h : Exch I) (d : DlState) : Stays I C (setDlState d) :=
  stays_modify fun s hs => h.dl s _ hs

theorem Prim.phyState (h : Prim I) (p : PhyState) : Stays I C (setPhyState p) :=
  stays_modify fun s hs => h.seq s p s.phy.echoPending hs

theorem Exch.modifyDl (h : Exch I) (f : State → Dl) :
    Stays I C (modify fun s => s.setDl (f s)) :=
  stays_modify fun s hs => h.dl s _ hs

theorem Prim.phySend (h : Prim I) (bs : List Byte) : Stays I LinkCode (phySend bs) := by
  unfold Machine.phySend
  refine stays_ite (fun _ => stays_pure _) fun _ => ?_
  refine stays_inPhy ?_ fun s n _ hs => h.seq s _ n hs
  refine stays_bind (stays_modify fun s hs => h.seq s _ _ hs) fun _ => ?_
  refine stays_bind (h.write bs) fun _ => ?_
  refine stays_bind (h.phyState _) fun _ => ?_
  refine stays_get_bind fun s _ => ?_
  refine stays_bind (h.read _ _) fun r => ?_
  refine stays_bind (stays_modify fun s hs => h.seq s _ _ hs) fun _ => ?_
  cases r with
  | none => exact stays_raise _ (.inr (.inl rfl))
  | some r => exact stays_pure _

theorem Prim.phyRecv (h : Prim I) (n t : Nat) : Stays I LinkCode (phyRecv n t) := by
  unfold Machine.phyRecv
  refine stays_ite (fun _ => stays_pure _) fun _ => ?_
  refine stays_inPhy ?_ fun s n _ hs => h.seq s _ n hs
  refine stays_bind (h.phyState _) fun _ => ?_
  refine stays_bind (h.read _ _) fun r => ?_
  cases r with
  | none => exact stays_raise _ (.inr (.inl rfl))
  | some r => exact stays_pure _

theorem Inert.exch (h : Inert I) : Exch I where
  dl := h.dl
  send := h.toPrim.phySend
  recv := h.toPrim.phyRecv

theorem Exch.recvByte (h : Exch I) : Stays I LinkCode recvByte :=
  stays_get_bind fun _ _ => stays_bind (h.recv _ _) fun _ => stays_pure _

theorem Exch.expectAck (h : Exch I) (ph : Phase) : Stays I LinkCode (expectAck ph) := by
  refine stays_bind h.recvByte fun b => ?_
  refine stays_bind (h.modifyDl _) fun _ => ?_
  refine stays_get_bind fun s _ => ?_
  exact stays_ite (fun _ => stays_pure _) fun _ => stays_raise _ (.inr (.inr rfl))

theorem Exch.csRead (h : Exch I) {a : Nat} (ha : a ≤ 0x0F) : Stays I LinkCode (csRead a) := by
  refine stays_demand_bind (by simp [ha]) ?_
  refine stays_inDl ?_ h.dl
  refine stays_get_bind fun s _ => ?_
  refine stays_bind (h.modifyDl _) fun _ => ?_
  refine stays_bind (h.dlState _) fun _ => ?_
  refine stays_bind (h.send _) fun _ => ?_
  exact stays_bind (h.dlState _) fun _ => h.recvByte

theorem Exch.csWrite (h : Exch I) {a v : Nat} (ha : a ≤ 0x0F) (hv : v ≤ 0xFF) :
    Stays I LinkCode (csWrite a v) := by
  refine stays_demand_bind (by simp [ha, hv]) ?_
  refine stays_inDl ?_ h.dl
  refine stays_get_bind fun s _ => ?_
  refine stays_bind (h.modifyDl _) fun _ => ?_
  refine stays_bind (h.dlState _) fun _ => ?_
  exact h.send _

theorem Exch.ldsOp (h : Exch I) {a n : Nat} (ha : addrOk a n = true) :
    Stays I LinkCode (ldsOp a n) := by
  refine stays_demand_bind ha ?_
  refine stays_inDl ?_ h.dl
  refine stays_get_bind fun s _ => ?_
  refine stays_bind (h.modifyDl _) fun _ => ?_
  refine stays_bind (h.modifyDl _) fun _ => ?_
  refine stays_bind (h.modifyDl _) fun _ => ?_
  refine stays_bind (h.dlState _) fun _ => ?_
  refine stays_bind (h.send _) fun _ => ?_
  refine stays_bind (h.dlState _) fun _ => ?_
  refine stays_bind (h.recv _ _) fun _ => ?_
  exact stays_bind (h.modifyDl _) fun _ => stays_pure _

theorem Exch.stsOp (h : Exch I) {a v n : Nat} (ha : addrOk a n = true) (hv : v ≤ 0xFF) :
    Stays I LinkCode (stsOp a v n) := by
  refine stays_demand_bind (by simp [ha, hv]) ?_
  refine stays_inDl ?_ h.dl
  refine stays_get_bind fun s _ => ?_
  refine stays_bind (h.modifyDl _) fun _ => ?_
  refine stays_bind (h.modifyDl _) fun _ => ?_
  refine stays_bind (h.modifyDl _) fun _ => ?_
  refine stays_bind (h.modifyDl _) fun _ => ?_
  refine stays_bind (h.dlState _) fun _ => ?_
  refine stays_bind (h.send _) fun _ => ?_
  refine stays_bind (h.dlState _) fun _ => ?_
  refine stays_bind (h.expectAck _) fun _ => ?_
  refine stays_bind (h.dlState _) fun _ => ?_
  refine stays_bind (h.send _) fun _ => ?_
  exact stays_bind (h.dlState _) fun _ => h.expectAck _

theorem Exch.stPtrOp (h : Exch I) {w p : Nat} (ha : addrOk p w = true) :
    Stays I LinkCode (stPtrOp w p) := by
  refine stays_demand_bind ha ?_
  refine stays_inDl ?_ h.dl
  refine stays_get_bind fun s _ => ?_
  refine stays_bind (h.modifyDl _) fun _ => ?_
  refine stays_bind (h.modifyDl _) fun _ => ?_
  refine stays_bind (h.dlState _) fun _ => ?_
  refine stays_bind (h.send _) fun _ => ?_
  exact stays_bind (h.dlState _) fun _ => h.expectAck _

theorem Exch.ldPtrOp (h : Exch I) (w : Nat) : Stays I LinkCode (ldPtrOp w) := by
  refine stays_inDl ?_ h.dl
  refine stays_get_bind fun s _ => ?_
  refine stays_bind (h.modifyDl _) fun _ => ?_
  refine stays_bind (h.dlState _) fun _ => ?_
  refine stays_bind (h.send _) fun _ => ?_
  refine stays_bind (h.dlState _) fun _ => ?_
  refine stays_bind (h.recv _ _) fun _ => ?_
  exact stays_bind (h.modifyDl _) fun _ => stays_pure _

theorem Exch.sendRepeat (h : Exch I) (n : Nat) : Stays I LinkCode (sendRepeat n) := by
  refine stays_get_bind fun s _ => ?_
  exact stays_bind (h.dlState _) fun _ => h.send _

theorem Exch.repeatFor (h : Exch I) (n : Nat) : Stays I LinkCode (repeatFor n) :=
  stays_ite (fun _ => h.sendRepeat n) fun _ => stays_pure _

theorem Exch.stIncFirst (h : Exch I) (v : Byte) : Stays I LinkCode (stIncFirst v) := by
  refine stays_get_bind fun s _ => ?_
  refine stays_bind (h.dlState _) fun _ => ?_
  refine stays_bind (h.send _) fun _ => ?_
  refine stays_bind (h.dlState _) fun _ => ?_
  exact stays_bind (h.expectAck _) fun _ => h.modifyDl _

theorem Exch.stIncRest (h : Exch I) (vs : List Byte) : Stays I LinkCode (stIncRest vs) := by
  induction vs with
  | nil => exact stays_pure _
  | cons v vs ih =>
    refine stays_bind (h.dlState _) fun _ => ?_
    refine stays_bind (h.send _) fun _ => ?_
    refine stays_bind (h.dlState _) fun _ => ?_
    refine stays_bind (h.expectAck _) fun _ => ?_
    exact stays_bind (h.modifyDl _) fun _ => ih

theorem Exch.stIncSingles (h : Exch I) (vs : List Byte) : Stays I LinkCode (stIncSingles vs) := by
  induction vs with
  | nil => exact stays_pure _
  | cons v vs ih => exact stays_bind (h.stIncFirst v) fun _ => ih

theorem Exch.stPtrIncOp (h : Exch I) {block : List Byte} {rep : Bool}
    (hn : (!rep || decide (block.length ≤ repeatMax)) = true) :
    Stays I LinkCode (stPtrIncOp block rep) := by
  refine stays_demand_bind hn ?_
  refine stays_bind (h.modifyDl _) fun _ => ?_
  refine stays_bind (h.modifyDl _) fun _ => ?_
  refine stays_bind (h.modifyDl _) fun _ => ?_
  cases block with
  | nil => exact stays_pure _
  | cons v vs =>
    refine stays_inDl ?_ h.dl
    refine stays_ite (fun _ => ?_) fun _ => h.stIncSingles _
    refine stays_bind (h.repeatFor _) fun _ => ?_
    exact stays_bind (h.stIncFirst v) fun _ => h.stIncRest vs

theorem Exch.ldIncAnswers (h : Exch I) (n : Nat) : Stays I LinkCode (ldIncAnswers n) := by
  refine stays_get_bind fun s _ => ?_
  refine stays_bind (h.dlState _) fun _ => ?_
  refine stays_bind (h.send _) fun _ => ?_
  refine stays_bind (h.dlState _) fun _ => ?_
  exact stays_bind (h.recv _ _) fun _ => h.modifyDl _

theorem Exch.ldIncSingles (h : Exch I) (n : Nat) : Stays I LinkCode (ldIncSingles n) := by
  induction n with
  | zero => exact stays_pure _
  | succ n ih => exact stays_bind (h.ldIncAnswers 1) fun _ => ih

theorem Exch.ldPtrIncOp (h : Exch I) {n : Nat} {rep : Bool}
    (hn : (!rep || decide (n ≤ repeatMax)) = true) : Stays I LinkCode (ldPtrIncOp n rep) := by
  refine stays_demand_bind hn ?_
  refine stays_bind (h.modifyDl _) fun _ => ?_
  refine stays_bind (h.modifyDl _) fun _ => ?_
  refine stays_bind (h.modifyDl _) fun _ => ?_
  refine stays_ite (fun _ => stays_pure _) fun _ => ?_
  refine stays_inDl ?_ h.dl
  refine stays_ite (fun _ => ?_) fun _ => ?_
  · refine stays_bind (h.repeatFor _) fun _ => ?_
    refine stays_bind (h.ldIncAnswers n) fun _ => ?_
    exact stays_get_bind fun s _ => stays_pure _
  · refine stays_bind (h.ldIncSingles n) fun _ => ?_
    exact stays_get_bind fun s _ => stays_pure _

theorem Exch.stIncWire (h : Exch I) {v : Byte} {more : List Byte} (hn : more.length < repeatMax) :
    Stays I LinkCode (stIncWire v more) := by
  refine stays_demand_bind (by simp [hn]) ?_
  refine stays_bind (h.modifyDl _) fun _ => ?_
  refine stays_bind (h.modifyDl _) fun _ => ?_
  refine stays_bind (h.modifyDl _) fun _ => ?_
  refine stays_inDl ?_ h.dl
  exact stays_bind (h.stIncFirst v) fun _ => h.stIncRest more

theorem Exch.ldIncWire (h : Exch I) {more : Nat} (hn : more < repeatMax) :
    Stays I LinkCode (ldIncWire more) := by
  refine stays_demand_bind (by simp [hn]) ?_
  refine stays_bind (h.modifyDl _) fun _ => ?_
  refine stays_bind (h.modifyDl _) fun _ => ?_
  refine stays_bind (h.modifyDl _) fun _ => ?_
  refine stays_inDl ?_ h.dl
  refine stays_bind (h.ldIncAnswers _) fun _ => ?_
  exact stays_get_bind fun s _ => stays_pure _

theorem Exch.repeatWire (h : Exch I) {n : Nat} (h1 : 1 ≤ n) (hn : n ≤ repeatMax) :
    Stays I LinkCode (repeatWire n) := by
  refine stays_demand_bind (by simp [h1, hn]) ?_
  exact stays_inDl (h.repeatFor n) h.dl

theorem Exch.keyWriteOp (h : Exch I) {k : List Byte} {s : State} (hs : I s)
    (hk : k.length = s.cfg.keyLen) : StaysAt I LinkCode (keyWriteOp k) s := by
  unfold Machine.keyWriteOp
  unfold StaysAt
  rw [Act.get_bind_run]
  refine stays_demand_bind (I := I) (by simp [hk]) ?_ s hs
  refine stays_inDl ?_ h.dl
  refine stays_bind (h.modifyDl _) fun _ => ?_
  refine stays_bind (h.modifyDl _) fun _ => ?_
  refine stays_bind (h.dlState _) fun _ => ?_
  refine stays_bind (h.send _) fun _ => ?_
  exact stays_bind (h.dlState _) fun _ => h.send _

theorem Exch.over (h : Exch I) : Over I where
  csRead := h.csRead
  csWrite := h.csWrite
  ldsOp := h.ldsOp
  stsOp := h.stsOp
  stPtrOp := h.stPtrOp
  ldPtrOp := h.ldPtrOp
  stPtrIncOp := h.stPtrIncOp
  ldPtrIncOp := h.ldPtrIncOp
  stIncWire := h.stIncWire
  ldIncWire := h.ldIncWire
  repeatWire := h.repeatWire
  keyWriteOp := h.keyWriteOp

/-! ### The steps of the NVM commands -/

theorem NvmInert.nvmState (h : NvmInert I) (n : NvmState) : Stays I C (setNvmState n) :=
  stays_modify fun s hs => h.nvm s n s.nvm.pollDeadline s.nvm.lastStatus s.nvm.statusValid hs

theorem NvmInert.inNvm (h : NvmInert I) {name : OpName} {x : Act α} (hx : Stays I C x) :
    Stays I C (inNvm name x) :=
  stays_inNvm hx fun s hs =>
    h.nvm s .idle s.nvm.pollDeadline s.nvm.lastStatus s.nvm.statusValid hs

theorem allFit_mem {p : Profile} {addrs : List Nat} (h : allFit p addrs = true) {a : Nat}
    (ha : a ∈ addrs) : addrOk a p.addrBytes = true := List.all_eq_true.mp h a ha

theorem allFit_of_subset {p : Profile} {xs ys : List Nat} (h : allFit p ys = true) (hs : xs ⊆ ys) :
    allFit p xs = true := List.all_eq_true.mpr fun _ ha => allFit_mem h (hs ha)

/-- In every state of the invariant the command's registers are addressable (42_nvm.md R220 (4)). -/
def Fit (I : State → Prop) (regs : Config → Profile → List Nat) : Prop :=
  ∀ s, I s → allFit s.ses.profile (regs s.cfg s.ses.profile) = true

theorem Fit.poll_of_code (h : Fit I codeRegs) : Fit I pollRegs := fun s hs =>
  allFit_of_subset (h s hs) (by simp [pollRegs, codeRegs])

theorem Fit.code_of_fuse (h : Fit I fuseRegs) : Fit I codeRegs := fun s hs =>
  allFit_of_subset (h s hs) (by simp [codeRegs, fuseRegs])

theorem NvmInert.nvmExec (h : NvmInert I) {code : Config → Byte} (ha : Fit I codeRegs) :
    Stays I NvmCode (nvmExec code) := by
  refine stays_get_bind fun s hs => ?_
  refine stays_bind (h.nvmState _) fun _ => ?_
  have hv : (code s.cfg).toNat ≤ 0xFF := by have := (code s.cfg).isLt; omega
  exact (h.toOver.stsOp (allFit_mem (ha s hs) (by simp [codeRegs])) hv).mono fun _ => .inl

theorem NvmInert.pollOnce (h : NvmInert I) (ha : Fit I pollRegs) : Stays I NvmCode pollOnce := by
  refine stays_get_bind fun s hs => ?_
  refine stays_bind (h.nvmState _) fun _ => ?_
  have hf := allFit_mem (ha s hs) (a := statAddr s.cfg s.ses.profile) (by simp [pollRegs])
  refine stays_bind ((h.toOver.ldsOp hf).mono fun _ => .inl) fun r => ?_
  exact stays_bind (stays_modify fun s hs => h.nvm s _ s.nvm.pollDeadline _ _ hs) fun _ =>
    stays_pure _

theorem NvmInert.pollLoop (h : NvmInert I) (ha : Fit I pollRegs) (fuel : Nat) :
    Stays I NvmCode (pollLoop fuel) := by
  have hb : ∀ b, Stays I NvmCode (nvmBusy b) := fun b =>
    stays_get_bind fun _ _ => stays_raise _ (.inr rfl)
  induction fuel with
  | zero =>
    refine stays_bind (h.pollOnce ha) fun b => ?_
    refine stays_get_bind fun s _ => ?_
    exact stays_ite (fun _ => stays_pure _) fun _ => hb _
  | succ n ih =>
    refine stays_bind (h.pollOnce ha) fun b => ?_
    refine stays_get_bind fun s _ => ?_
    refine stays_ite (fun _ => stays_pure _) fun _ => ?_
    refine stays_ite (fun _ => hb _) fun _ => ?_
    refine stays_bind (h.nvmState _) fun _ => ?_
    exact stays_bind ((h.wait _).mono fun _ => .inl) fun _ => ih

theorem NvmInert.waitReadyNvm (h : NvmInert I) (ha : Fit I pollRegs) :
    Stays I NvmCode waitReadyNvm := by
  refine stays_get_bind fun s _ => ?_
  refine h.inNvm ?_
  exact stays_bind (stays_modify fun s hs => h.nvm s s.nvm.nvmState _ s.nvm.lastStatus _ hs) fun _ =>
    h.pollLoop ha _

theorem NvmInert.storeChunks (h : NvmInert I) {bs : List (List Byte)}
    (hb : ∀ b ∈ bs, b.length ≤ repeatMax) : Stays I NvmCode (storeChunks bs) := by
  induction bs with
  | nil => exact stays_pure _
  | cons b bs ih =>
    refine stays_get_bind fun s _ => ?_
    refine stays_bind ((h.toOver.stPtrIncOp ?_).mono fun _ => .inl) fun _ => ih fun x hx => hb x ?_
    · simp [hb b (by simp)]
    · simp [hx]

theorem NvmInert.loadChunks (h : NvmInert I) {ks : List Nat} (hk : ∀ k ∈ ks, k ≤ repeatMax) :
    Stays I NvmCode (loadChunks ks) := by
  induction ks with
  | nil => exact stays_pure _
  | cons k ks ih =>
    refine stays_get_bind fun s _ => ?_
    refine stays_bind ((h.toOver.ldPtrIncOp ?_).mono fun _ => .inl) fun _ => ?_
    · simp [hk k (by simp)]
    · exact stays_bind (ih fun x hx => hk x (by simp [hx])) fun _ => stays_pure _

/-! ### Chunks (42_nvm.md R234) -/

theorem chunkLens_le (n : Nat) : ∀ k ∈ chunkLens n, k ≤ repeatMax := by
  intro k hk
  simp only [chunkLens, List.mem_append, List.mem_replicate] at hk
  rcases hk with ⟨_, rfl⟩ | hk
  · exact le_refl _
  · split at hk
    · simp at hk
    · rw [List.mem_singleton.mp hk]
      exact (Nat.mod_lt _ (by decide)).le

theorem cutBlock_le {ks : List Nat} {m : Nat} (hk : ∀ k ∈ ks, k ≤ m) (bs : List Byte) :
    ∀ b ∈ cutBlock ks bs, b.length ≤ m := by
  induction ks generalizing bs with
  | nil => simp [cutBlock]
  | cons k ks ih =>
    intro b hb
    simp only [cutBlock, List.mem_cons] at hb
    rcases hb with rfl | hb
    · exact (List.length_take_le _ _).trans (hk k (by simp))
    · exact ih (fun x hx => hk x (by simp [hx])) _ b hb

theorem chunks_le (bs : List Byte) : ∀ b ∈ chunks bs, b.length ≤ repeatMax :=
  cutBlock_le (chunkLens_le _) bs

theorem chunkLens_sum (n : Nat) : (chunkLens n).sum = n := by
  have := Nat.div_add_mod n repeatMax
  unfold chunkLens
  split
  · rename_i h
    rw [h] at this
    simp only [List.append_nil, List.sum_replicate, smul_eq_mul]
    rw [Nat.mul_comm]; omega
  · simp only [List.sum_append, List.sum_replicate, smul_eq_mul, List.sum_cons, List.sum_nil,
      Nat.add_zero]
    rw [Nat.mul_comm]; omega

theorem cutBlock_flatten {ks : List Nat} {bs : List Byte} (h : ks.sum = bs.length) :
    (cutBlock ks bs).flatten = bs := by
  induction ks generalizing bs with
  | nil =>
    have : bs = [] := by simpa using h.symm
    simp [cutBlock, this]
  | cons k ks ih =>
    simp only [List.sum_cons] at h
    rw [cutBlock, List.flatten_cons, ih (by rw [List.length_drop]; omega), List.take_append_drop]

theorem cutBlock_lengths {ks : List Nat} {bs : List Byte} (h : ks.sum = bs.length) :
    (cutBlock ks bs).map List.length = ks := by
  induction ks generalizing bs with
  | nil => rfl
  | cons k ks ih =>
    simp only [List.sum_cons] at h
    rw [cutBlock, List.map_cons, ih (by rw [List.length_drop]; omega), List.length_take]
    congr 1; omega

theorem chunks_flatten (bs : List Byte) : (chunks bs).flatten = bs :=
  cutBlock_flatten (chunkLens_sum _)

theorem chunks_lengths (bs : List Byte) : (chunks bs).map List.length = chunkLens bs.length :=
  cutBlock_lengths (chunkLens_sum _)

theorem chunkLens_pos (n : Nat) : ∀ k ∈ chunkLens n, 0 < k := by
  intro k hk
  simp only [chunkLens, List.mem_append, List.mem_replicate] at hk
  rcases hk with ⟨_, rfl⟩ | hk
  · decide
  · split at hk
    · simp at hk
    · rw [List.mem_singleton.mp hk]; omega

theorem chunks_ne_nil (bs : List Byte) : ∀ b ∈ chunks bs, b ≠ [] := by
  intro b hb hnil
  have : b.length ∈ (chunks bs).map List.length := List.mem_map_of_mem hb
  rw [chunks_lengths] at this
  have := chunkLens_pos _ _ this
  simp [hnil] at this

end Sys2Proof.Machine
end

