-- ==== Sys2Proof/Laws/Frames.lean ====
section
/-! SUPPORT. What the operations of a session leave alone, whatever the environment answers. -/

namespace Sys2Proof.Machine

variable {α β : Type} {C : Code → Prop}

variable {f : FrameFormat}

/-! ### The line halves -/

theorem tick_tx (l : Line) (v : Bool) :
    (l.tick f v).lineTx = l.serialise.lineTx ∧ (l.tick f v).txShift = l.serialise.txShift ∧
      (l.tick f v).txCnt = l.serialise.txCnt := by
  simp [Line.tick]

theorem sample_frameErr {l : Line} (h : l.frameErr = true) (v : Bool) :
    (l.sample f v).frameErr = true := by
  simp only [Line.sample]
  repeat' split
  all_goals first
    | exact h
    | (simp only [Line.accept]; split <;> simp [h])

theorem tick_frameErr {l : Line} (h : l.frameErr = true) (v : Bool) : (l.tick f v).frameErr = true := by
  apply sample_frameErr
  simp only [Line.serialise]; split <;> exact h

theorem listen_frameErr {l : Line} (h : l.frameErr = true) (d : List Bool) :
    (l.listen f d).frameErr = true := by
  induction d generalizing l with
  | nil => exact h
  | cons v d ih => exact ih (tick_frameErr h v)

theorem ticks_frameErr {l : Line} (h : l.frameErr = true) (n : Nat) (d : List Bool) :
    (l.ticks f n d).1.frameErr = true := by
  induction n generalizing l d with
  | zero => exact h
  | succ n ih =>
    cases d with
    | nil => exact ih (tick_frameErr h true) []
    | cons v d => exact ih (tick_frameErr h v) d

theorem send_frameErr {l : Line} (h : l.frameErr = true) (bs : List Byte) (d : List Bool) :
    (l.send f bs d).frameErr = true := by
  induction bs generalizing l d with
  | nil => exact h
  | cons b bs ih => exact ih (ticks_frameErr (l := l.load f b) h 12 d) _

theorem ticks_tx (n : Nat) (l : Line) (d : List Bool) (h : l.txCnt = n) :
    (l.ticks f n d).1.txCnt = 0 ∧
      (l.ticks f n d).1.lineTx = (shiftOut n l.txShift).1.getLastD l.lineTx := by
  induction n generalizing l d with
  | zero => exact ⟨h, rfl⟩
  | succ n ih =>
    obtain ⟨v, d', e⟩ : ∃ v d', l.ticks f (n + 1) d = (l.tick f v).ticks f n d' := by
      cases d with
      | nil => exact ⟨true, [], rfl⟩
      | cons v d => exact ⟨v, d, rfl⟩
    have hs : l.serialise.txCnt = n ∧ l.serialise.txShift = (l.txShift >>> 1) ||| 0x800#12 ∧
        l.serialise.lineTx = l.txShift.getLsbD 0 := by
      simp [Line.serialise, h]
    obtain ⟨h1, h2, h3⟩ := tick_tx l v
    obtain ⟨i1, i2⟩ := ih (l.tick f v) d' (h3.trans hs.1)
    rw [e]
    refine ⟨i1, ?_⟩
    rw [i2, h2, hs.2.1, h1, hs.2.2]
    simp only [shiftOut]
    cases (shiftOut n (l.txShift >>> 1 ||| 2048#12)).1 <;> simp [List.getLast?_cons]

theorem send_tx {l : Line} (h1 : l.lineTx = true) (h2 : l.txCnt = 0) (bs : List Byte)
    (d : List Bool) : (l.send f bs d).lineTx = true ∧ (l.send f bs d).txCnt = 0 := by
  induction bs generalizing l d with
  | nil => exact ⟨h1, h2⟩
  | cons b bs ih =>
    obtain ⟨e1, e2⟩ := ticks_tx 12 (l.load f b) d rfl
    refine ih ?_ e1 _
    rw [e2]
    have e : (shiftOut 12 (l.load f b).txShift).1 = frameBits f b := by
      rw [shiftOut_getLsbD 12 _ (le_refl _)]
      exact unpackFrame_packFrame (frameBits_length (f := f) b)
    rw [e]; rfl

/-- A transmission leaves the line high and nothing going out (40_phy.md R131). -/
theorem transmit_tx {l : Line} (h1 : l.lineTx = true) (h2 : l.txCnt = 0) (bs : List Byte) (d : Draw) :
    (l.transmit f d bs).lineTx = true ∧ (l.transmit f d bs).txCnt = 0 := by
  unfold Line.transmit
  split
  · have := listen_tx (f := f) l h2 h1 (levelsFor (12 * bs.length) d.drive)
    exact ⟨this.1, this.2.1⟩
  · exact send_tx h1 h2 bs _

theorem transmit_frameErr {l : Line} (h : l.frameErr = true) (bs : List Byte) (d : Draw) :
    (l.transmit f d bs).frameErr = true := by
  unfold Line.transmit
  split
  · exact listen_frameErr h _
  · exact send_frameErr h bs _

/-! ### The ideal target's memory keeps its form -/

theorem Target.startBusy_tmem (t : Target) : t.startBusy.tmem = t.tmem := by
  unfold Target.startBusy; split <;> rfl

theorem Target.drawDelay_tmem (c : Config) (t : Target) : (t.drawDelay c).tmem = t.tmem := by
  unfold Target.drawDelay; split <;> rfl

theorem Target.speak_tmem (c : Config) (t : Target) (n k : Nat) : (t.speak c n k).2.tmem = t.tmem := by
  simp only [Target.speak]; repeat' split
  all_goals rfl

theorem Target.bump_tmem (t : Target) : t.bump.tmem = t.tmem := rfl

theorem Target.command_wf {c : Config} {t : Target} (h : Memory.wf t.tmem) (v : Byte) :
    Memory.wf (t.command c v).tmem := by
  simp only [Target.command]
  repeat' split
  · rw [Target.startBusy_tmem]; exact memWriteAll_wf h _
  · rw [Target.startBusy_tmem]
    simp only [Target.eraseBufferedPage]
    repeat' split
    all_goals first | exact memErase_wf h _ _ | exact h
  · rw [Target.startBusy_tmem]; exact memErase_wf (memErase_wf h _ _) _ _
  · rw [Target.startBusy_tmem]; exact memErase_wf h _ _
  · rw [Target.startBusy_tmem]; exact memWrite_wf h _ _
  · exact h

theorem Target.memWrite_wf {c : Config} {t : Target} (h : Memory.wf t.tmem) (a : Nat) (v : Byte) :
    Memory.wf (t.memWrite c a v).tmem := by
  simp only [Target.memWrite]
  repeat' split
  · exact h
  · exact Target.command_wf h v
  · exact Machine.memWrite_wf h _ _

theorem Target.memRead_tmem (c : Config) (t : Target) (a : Nat) :
    (t.memRead c a).2.tmem = t.tmem := by
  simp only [Target.memRead, Target.readStatus]
  repeat' split
  all_goals rfl

theorem Target.loadInc_tmem (c : Config) (n : Nat) (t : Target) :
    (t.loadInc c n).tmem = t.tmem := by
  induction n generalizing t with
  | zero => rfl
  | succ n ih =>
    simp only [Target.loadInc, ih]
    exact Target.memRead_tmem c t t.ptr

theorem Target.takeKey_tmem (c : Config) (t : Target) (k : List Byte) :
    (t.takeKey c k).tmem = t.tmem := by
  simp only [Target.takeKey]; repeat' split
  all_goals rfl

theorem Target.storeInc_wf {c : Config} {t : Target} (h : Memory.wf t.tmem) (v : Byte) :
    Memory.wf (t.storeInc c v).tmem := Target.memWrite_wf (c := c) h t.ptr v

theorem Target.act_wf {c : Config} {t : Target} (h : Memory.wf t.tmem) (opc : Byte) (xs : List Byte)
    (o : WireOp) : Memory.wf (t.act c opc xs o).tmem := by
  cases o <;> simp only [Target.act, Target.loadDirect, Target.csPut, Target.stsAddress,
    Target.setPointer, Target.getPointer, Target.memRead_tmem, Target.loadInc_tmem,
    Target.takeKey_tmem] <;> first
      | exact h
      | exact Target.storeInc_wf h _

theorem Target.hear_wf {c : Config} {t : Target} (h : Memory.wf t.tmem) (b : Byte) :
    Memory.wf (t.hear c b).tmem := by
  simp only [Target.hear]
  repeat' split
  all_goals first
    | exact h
    | exact Target.act_wf h _ _ _
    | exact Target.memWrite_wf h _ _

theorem Target.hear_all_wf {c : Config} (bs : List Byte) {t : Target} (h : Memory.wf t.tmem) :
    Memory.wf (t.hearAll c bs).tmem := by
  have key : ∀ (bs : List Byte) (t : Target), Memory.wf t.tmem →
      Memory.wf (bs.foldl (Target.hear c) t).tmem := by
    intro bs
    induction bs with
    | nil => exact fun _ h => h
    | cons b bs ih => exact fun t h => ih _ (Target.hear_wf h b)
  simp only [Target.hearAll]
  split
  · rw [Target.drawDelay_tmem]; exact key bs t h
  · exact key bs t h

theorem Env.answer_wf {c : Config} {e : Env} (h : e.wf) (a : PortAct) : (e.answer c a).2.wf := by
  cases e with
  | oracle script n => cases script <;> exact trivial
  | ideal t =>
    have h' : Memory.wf t.tmem := h
    simp only [Env.answer, Env.wf]
    cases a <;> simp only [Target.react, Target.onBreak, Target.speak_tmem] <;> first
      | exact Target.hear_all_wf _ h'
      | exact h'
      | (split <;> exact h')

/-! ### What a session's operations leave alone -/

/-- What of a session an operation may change beyond the line, DL's registers and NVM's polling
registers. -/
structure Scope where
  /-- `NoteNvmOp` (43_session.md R265) -/
  notes : Prop
  /-- link initialisation (40_phy.md R138) -/
  inits : Prop
  /-- the erase key (42_nvm.md R221) -/
  keys : Prop

/-- `s` is `s0` after some steps of an operation of that scope. -/
structure InSession (k : Scope) (s0 s : State) : Prop where
  cfg : s.cfg = s0.cfg
  inputs : s.inputs = s0.inputs
  rsp : s.rsp = s0.rsp
  profile : s.ses.profile = s0.ses.profile
  trOpen : s.ses.trOpen = s0.ses.trOpen
  mode : s.ses.sesState = s0.ses.sesState ∨
    (k.notes ∧ s0.ses.sesState = .unlocked ∧ s.ses.sesState = .programming)
  linkUp : s.phy.linkUp = s0.phy.linkUp ∨ k.inits
  syncAttempt : s.phy.syncAttempt = s0.phy.syncAttempt ∨ k.inits
  baud : s.phy.baudCur = s0.phy.baudCur ∨ (k.inits ∧ s.phy.baudCur = s0.cfg.baud)
  key : s.nvm.eraseKeySent = s0.nvm.eraseKeySent ∨
    (k.keys ∧ s.nvm.eraseKeySent = true ∧ s.ses.sesState = .programming)
  line : s0.phy.line.lineTx = true → s0.phy.line.txCnt = 0 →
    s.phy.line.lineTx = true ∧ s.phy.line.txCnt = 0
  frameErr : s0.phy.line.frameErr = true → s.phy.line.frameErr = true
  now : s0.now ≤ s.now
  trace : ∃ ev, s.trace = s0.trace ++ ev ∧ (k.inits ∨ ∀ e ∈ ev, e.isBreak = false)
  env : s0.env.wf → s.env.wf

theorem InSession.refl (k : Scope) (s : State) : InSession k s s where
  cfg := rfl
  inputs := rfl
  rsp := rfl
  profile := rfl
  trOpen := rfl
  mode := .inl rfl
  linkUp := .inl rfl
  syncAttempt := .inl rfl
  baud := .inl rfl
  key := .inl rfl
  line := fun h1 h2 => ⟨h1, h2⟩
  frameErr := id
  now := le_refl _
  trace := ⟨[], by simp, .inr (by simp)⟩
  env := id

/-- Steps that touch only the line halves, PHY's sequencing, the environment, the clock and the trace. -/
theorem InSession.port {k : Scope} {s0 s t : State} (h : InSession k s0 s)
    (hcfg : t.cfg = s.cfg) (hinp : t.inputs = s.inputs) (hrsp : t.rsp = s.rsp)
    (hses : t.ses = s.ses) (hnvm : t.nvm.eraseKeySent = s.nvm.eraseKeySent)
    (hlink : t.phy.linkUp = s.phy.linkUp ∨ k.inits)
    (hsync : t.phy.syncAttempt = s.phy.syncAttempt ∨ k.inits)
    (hbaud : t.phy.baudCur = s.phy.baudCur ∨ (k.inits ∧ t.phy.baudCur = s.cfg.baud))
    (hline : s.phy.line.lineTx = true → s.phy.line.txCnt = 0 →
      t.phy.line.lineTx = true ∧ t.phy.line.txCnt = 0)
    (hferr : s.phy.line.frameErr = true → t.phy.line.frameErr = true)
    (hnow : s.now ≤ t.now)
    (htrace : ∃ ev, t.trace = s.trace ++ ev ∧ (k.inits ∨ ∀ e ∈ ev, e.isBreak = false))
    (henv : s.env.wf → t.env.wf) : InSession k s0 t where
  cfg := hcfg.trans h.cfg
  inputs := hinp.trans h.inputs
  rsp := hrsp.trans h.rsp
  profile := by rw [hses]; exact h.profile
  trOpen := by rw [hses]; exact h.trOpen
  mode := by rw [hses]; exact h.mode
  linkUp := by
    rcases hlink with e | e
    · rw [e]; exact h.linkUp
    · exact .inr e
  syncAttempt := by
    rcases hsync with e | e
    · rw [e]; exact h.syncAttempt
    · exact .inr e
  baud := by
    rcases hbaud with e | e
    · rw [e]; exact h.baud
    · exact .inr ⟨e.1, by rw [e.2, h.cfg]⟩
  key := by rw [hnvm, hses]; exact h.key
  line := fun h1 h2 => hline (h.line h1 h2).1 (h.line h1 h2).2
  frameErr := fun h1 => hferr (h.frameErr h1)
  now := h.now.trans hnow
  trace := by
    obtain ⟨ev, e1, e2⟩ := h.trace
    obtain ⟨ev', e3, e4⟩ := htrace
    refine ⟨ev ++ ev', by rw [e3, e1, List.append_assoc], ?_⟩
    rcases e2 with e2 | e2
    · exact .inl e2
    · rcases e4 with e4 | e4
      · exact .inl e4
      · refine .inr fun e he => ?_
        rcases List.mem_append.mp he with he | he
        · exact e2 e he
        · exact e4 e he
  env := fun h1 => henv (h.env h1)

theorem listen_line {s : State} (d : List Bool) :
    (s.phy.line.lineTx = true → s.phy.line.txCnt = 0 →
      (s.listen d).phy.line.lineTx = true ∧ (s.listen d).phy.line.txCnt = 0) ∧
    (s.phy.line.frameErr = true → (s.listen d).phy.line.frameErr = true) ∧
    (s.listen d).phy = { s.phy with line := (s.listen d).phy.line } := by
  unfold State.listen
  split
  · refine ⟨fun h1 h2 => ?_, fun h => listen_frameErr h d, rfl⟩
    have := listen_tx (f := s.cfg.frame) s.phy.line h2 h1 d
    exact ⟨this.1, this.2.1⟩
  · exact ⟨fun h1 h2 => ⟨h1, h2⟩, id, rfl⟩

/-- The same of a read that listened. -/
theorem listened_line {s : State} (n t : Nat) :
    (s.phy.line.lineTx = true → s.phy.line.txCnt = 0 →
      (s.listened n t).phy.line.lineTx = true ∧ (s.listened n t).phy.line.txCnt = 0) ∧
    (s.phy.line.frameErr = true → (s.listened n t).phy.line.frameErr = true) ∧
    (s.listened n t).phy = { s.phy with line := (s.listened n t).phy.line } := by
  obtain ⟨d, e⟩ := s.listened_eq n t
  rw [e]
  exact listen_line (s := s.drawn (s.readAct n t)) d

theorem InSession.failedAt {k : Scope} {s0 s : State} (h : InSession k s0 s) (q a : PortAct)
    (heard : List Bool) : InSession k s0 (s.failedAt q a heard) := by
  have hl := listen_line (s := s.drawn q) heard
  refine h.port (by simp) (by simp) (by simp) (by simp) (by simp) (.inl ?_) (.inl ?_) (.inl ?_)
    hl.1 hl.2.1 (by simp) ?_ ?_
  · rw [State.failedAt_phy, hl.2.2]; rfl
  · rw [State.failedAt_phy, hl.2.2]; rfl
  · rw [State.failedAt_phy, hl.2.2]; rfl
  · obtain ⟨p, hp⟩ := s.failedAt_trace q a heard
    exact ⟨_, hp, .inr fun e he => by rw [List.mem_singleton.mp he]; cases a <;> rfl⟩
  · intro hw; rw [State.failedAt_env]; exact Env.answer_wf hw q

theorem inSession_write (k : Scope) (s0 : State) (bs : List Byte) :
    Stays (InSession k s0) LinkCode (trWrite bs) :=
  stays_trWrite (.inl rfl) (fun _ _ hs => hs.failedAt _ _ _) fun s hs => by
    refine hs.port rfl rfl rfl rfl rfl (.inl rfl) (.inl rfl) (.inl rfl) ?_ ?_ ?_ ?_ ?_
    · intro h1 h2; exact transmit_tx h1 h2 bs _
    · intro h1; exact transmit_frameErr h1 bs _
    · simp only [State.logged_now, State.setNow_now]; omega
    · exact ⟨_, rfl, .inr fun e he => by rw [List.mem_singleton.mp he]; rfl⟩
    · exact fun hw => Env.answer_wf hw _

theorem inSession_read (k : Scope) (s0 : State) (n t : Nat) :
    Stays (InSession k s0) LinkCode (trRead n t) :=
  stays_trRead (.inl rfl) (fun _ _ _ hs => hs.failedAt _ _ _) fun s f m ans hs hm => by
    have hl := listened_line (s := s) n t
    refine hs.port (by simp) (by simp) (by simp) (by simp) (by simp) (.inl ?_) (.inl ?_) (.inl ?_)
      hl.1 hl.2.1 (by simpa using hm) ?_ ?_
    · simp only [State.logged_phy, State.setNow_phy, State.setLine_phy]; rw [hl.2.2]
    · simp only [State.logged_phy, State.setNow_phy, State.setLine_phy]; rw [hl.2.2]
    · simp only [State.logged_phy, State.setNow_phy, State.setLine_phy]; rw [hl.2.2]
    · exact ⟨_, by simp; rfl, .inr fun e he => by rw [List.mem_singleton.mp he]; rfl⟩
    · intro hw; simpa using Env.answer_wf hw _

theorem inSession_wait (k : Scope) (s0 : State) (d : Nat) :
    Stays (InSession k s0) LinkCode (waitFor d) := fun s hs => by
  rw [waitFor_run]
  refine ⟨fun a s' e => ?_, fun e s' he => by simp at he⟩
  simp only [EStateM.Result.ok.injEq, true_and] at e
  subst e
  have hl := listen_line (s := s.drawn (.wait d)) (s.draw (.wait d)).drive
  refine hs.port (by simp) (by simp) (by simp) (by simp) (by simp) (.inl ?_) (.inl ?_) (.inl ?_)
    ?_ ?_ ?_ ?_ ?_
  · simp only [State.logged_phy, State.setNow_phy]; rw [hl.2.2]; rfl
  · simp only [State.logged_phy, State.setNow_phy]; rw [hl.2.2]; rfl
  · simp only [State.logged_phy, State.setNow_phy]; rw [hl.2.2]; rfl
  · exact hl.1
  · exact hl.2.1
  · simp only [State.logged_now, State.setNow_now]; omega
  · exact ⟨_, by simp; rfl, .inr fun e he => by rw [List.mem_singleton.mp he]; rfl⟩
  · intro hw; simpa using Env.answer_wf hw _

/-- The primitives of an exchange stay in it. -/
theorem inSession_inert (k : Scope) (s0 : State) : Inert (InSession k s0) where
  dl s d h := h.port rfl rfl rfl rfl rfl (.inl rfl) (.inl rfl) (.inl rfl) (fun a b => ⟨a, b⟩) id
    (le_refl _) ⟨[], by simp, .inr (by simp)⟩ id
  seq s p n h := h.port rfl rfl rfl rfl rfl (.inl rfl) (.inl rfl) (.inl rfl) (fun a b => ⟨a, b⟩) id
    (le_refl _) ⟨[], by simp, .inr (by simp)⟩ id
  write := inSession_write k s0
  read := inSession_read k s0

/-- The operations of DL, PHY and NVM's polling stay in it. -/
theorem inSession_nvmInert (k : Scope) (s0 : State) : NvmInert (InSession k s0) where
  toOver := (inSession_inert k s0).exch.over
  nvm s n d l v h := h.port rfl rfl rfl rfl rfl (.inl rfl) (.inl rfl) (.inl rfl)
    (fun a b => ⟨a, b⟩) id (le_refl _) ⟨[], by simp, .inr (by simp)⟩ id
  wait := inSession_wait k s0

/-- `NoteNvmOp` stays in a scope that allows it. -/
theorem inSession_note {k : Scope} (hk : k.notes) (s0 : State) : Stays (InSession k s0) C noteNvmOp :=
  stays_modify fun s h => by
    split
    · rename_i hu
      have hmode : s0.ses.sesState = .unlocked := by
        rcases h.mode with e | ⟨_, e, e'⟩
        · rw [← e, hu]
        · exact e
      exact { h with
        profile := h.profile
        trOpen := h.trOpen
        mode := .inr ⟨hk, hmode, rfl⟩
        key := by
          rcases h.key with e | ⟨e1, e2, _⟩
          · exact .inl e
          · exact .inr ⟨e1, e2, rfl⟩ }
    · exact h

end Sys2Proof.Machine
end

