-- ==== Sys2Proof/Laws/Rest.lean ====
section
/-! SUPPORT. Where the sequencers stand when an operation ends: PHY and DL are idle and no echo is owed
(40_phy.md R151, 60_exceptions.md R284). -/

namespace Sys2Proof.Machine

variable {α β : Type} {I J : State → Prop} {C : Code → Prop} {s : State}

theorem Stays.and {x : Act α} (hI : Stays I C x) (hJ : Stays J (fun _ => True) x) :
    Stays (fun s => I s ∧ J s) C x := fun _ hs =>
  ⟨fun _ _ e => ⟨hI.ok hs.1 e, hJ.ok hs.2 e⟩, fun _ _ h =>
    ⟨⟨(hI.error hs.1 h).1, (hJ.error hs.2 h).1⟩, (hI.error hs.1 h).2⟩⟩

theorem StaysAt.and {x : Act α} (hI : StaysAt I C x s) (hJ : StaysAt J (fun _ => True) x s) :
    StaysAt (fun s => I s ∧ J s) C x s :=
  ⟨fun _ _ e => ⟨hI.1 _ _ e, hJ.1 _ _ e⟩, fun _ _ h =>
    ⟨⟨(hI.2 _ _ h).1, (hJ.2 _ _ h).1⟩, (hI.2 _ _ h).2⟩⟩

theorem StaysAt.mono {C' : Code → Prop} {x : Act α} (h : StaysAt I C x s) (hc : ∀ c, C c → C' c) :
    StaysAt I C' x s := ⟨h.1, fun e s' he => ⟨(h.2 e s' he).1, hc _ (h.2 e s' he).2⟩⟩

theorem stays_demand {b : Bool} {k : Unit → Act β} (hc : C .refused) (hk : b = true → Stays I C (k ())) :
    Stays I C (demand b >>= k) := fun s hs => by
  cases b with
  | true => rw [demand_true_bind_run]; exact hk rfl s hs
  | false =>
    rw [demand_false_bind_run]
    refine ⟨fun a s' e => by simp at e, fun e s' h => ?_⟩
    simp only [EStateM.Result.error.injEq] at h
    obtain ⟨rfl, rfl⟩ := h
    exact ⟨hs, hc⟩

/-! ### PHY -/

/-- PHY is idle and owes no echo. -/
def PhyRest (s : State) : Prop := s.phy.phyState = .idle ∧ s.phy.echoPending = 0

/-- No echo is owed. -/
def NoEcho (s : State) : Prop := s.phy.echoPending = 0

/-- Where the piece ends without an error, the predicate holds. -/
def Ends (P : State → Prop) (x : Act α) : Prop := ∀ s a s', x s = .ok a s' → P s'

theorem ends_bind {P : State → Prop} {x : Act α} {k : α → Act β} (hk : ∀ a, Ends P (k a)) :
    Ends P (x >>= k) := fun s b s' h => by
  cases hx : x s with
  | ok a s1 => rw [Act.bind_ok hx] at h; exact hk a s1 b s' h
  | error e s1 => rw [Act.bind_error hx] at h; simp at h

theorem Stays.ends {x : Act α} (h : Stays I C x) (hI : ∀ s, I s) : Ends I x := fun s _ _ e =>
  h.ok (hI s) e

theorem inert_true : Inert (fun _ => True) where
  dl _ _ _ := trivial
  seq _ _ _ _ := trivial
  write _ := stays_trWrite (.inl rfl) (fun _ _ _ => trivial) fun _ _ => trivial
  read _ _ := stays_trRead (.inl rfl) (fun _ _ _ _ => trivial) fun _ _ _ _ _ _ => trivial

theorem trWrite_noEcho (bs : List Byte) : Stays NoEcho LinkCode (trWrite bs) :=
  stays_trWrite (.inl rfl) (fun _ _ _ => rfl) fun _ hs => hs

theorem trRead_noEcho (n t : Nat) : Stays NoEcho LinkCode (trRead n t) :=
  stays_trRead (.inl rfl) (fun _ _ _ _ => rfl) fun s _ _ _ hs _ => by
    have hl : (s.listened n t).phy.echoPending = 0 := by
      rw [(listened_line (s := s) n t).2.2]; exact hs
    exact hl

theorem stays_inPhy_rest {name : OpName} {x : Act α} (hx : Stays NoEcho C x) :
    ∀ s, NoEcho s → (∀ a s', inPhy name x s = .ok a s' → PhyRest s') ∧
      (∀ e s', inPhy name x s = .error e s' → PhyRest s' ∧ C e.code) := fun s hs => by
  cases hr : x s with
  | ok a s1 =>
    rw [inPhy_ok hr]
    refine ⟨fun b s' e => ?_, fun e s' h => by simp at h⟩
    simp only [EStateM.Result.ok.injEq] at e
    have h0 : NoEcho s1 := hx.ok hs hr
    rw [← e.2]; exact ⟨rfl, h0⟩
  | error e s1 =>
    rw [inPhy_error hr]
    refine ⟨fun b s' e => by simp at e, fun e s' h => ?_⟩
    simp only [EStateM.Result.error.injEq] at h
    obtain ⟨rfl, rfl⟩ := h
    exact ⟨⟨rfl, rfl⟩, (hx.error hs hr).2⟩

theorem phySend_ends (bs : List Byte) (hb : bs ≠ []) : Ends PhyRest (phySend bs) := fun s a s' h => by
  unfold phySend at h
  rw [if_neg hb] at h
  unfold inPhy at h
  split at h
  · rename_i b s1 hr
    have : NoEcho s1 := by
      refine (show Ends NoEcho _ from ?_) s b s1 hr
      refine ends_bind fun _ => ends_bind fun _ => ends_bind fun _ => ends_bind fun _ =>
        ends_bind fun r => ?_
      intro s2 b2 s3 h3
      rw [Act.modify_bind_run] at h3
      cases r with
      | none => simp at h3
      | some r =>
        simp only [Act.pure_run, EStateM.Result.ok.injEq, true_and] at h3
        rw [← h3]; rfl
    simp only [EStateM.Result.ok.injEq] at h
    rw [← h.2]; exact ⟨rfl, this⟩
  · simp at h

theorem phyRest_exch : Exch PhyRest where
  dl _ _ h := h
  send bs := fun s hs => by
    have hc := inert_true.phySend bs s trivial
    by_cases hb : bs = []
    · subst hb
      refine ⟨fun a s' e => ?_, fun e s' h => by simp [phySend] at h⟩
      obtain ⟨_, rfl⟩ : () = a ∧ s = s' := by simpa [phySend] using e
      exact hs
    · refine ⟨fun a s' e => phySend_ends bs hb s a s' e, fun e s' h => ⟨?_, (hc.2 e s' h).2⟩⟩
      unfold phySend at h
      rw [if_neg hb] at h
      unfold inPhy at h
      split at h
      · simp at h
      · simp only [EStateM.Result.error.injEq] at h
        rw [← h.2]; exact ⟨rfl, rfl⟩
  recv n t := fun s hs => by
    unfold phyRecv
    by_cases hn : n = 0
    · rw [if_pos hn]; exact (stays_pure _ : Stays PhyRest LinkCode _) s hs
    · rw [if_neg hn]
      refine stays_inPhy_rest (C := LinkCode) ?_ s hs.2
      refine stays_bind (stays_modify fun s hs => hs) fun _ => ?_
      refine stays_bind (trRead_noEcho n t) fun r => ?_
      cases r with
      | none => exact stays_raise _ (.inr (.inl rfl))
      | some r => exact stays_pure _

/-! ### DL -/

/-- DL is idle. -/
def DlRest (s : State) : Prop := s.dl.dlState = .idle

theorem DlRest.of_eq {t : State} (h : DlRest s) (e : t.dl = s.dl) : DlRest t := by
  unfold DlRest; rw [e]; exact h

theorem inDl_rest {name : OpName} {addr : State → Option Nat} (x : Act α) :
    Stays DlRest (fun _ => True) (inDl name addr x) := fun s _ => by
  cases hr : x s with
  | ok a s1 =>
    rw [inDl_ok hr]
    refine ⟨fun b s' e => ?_, fun e s' h => by simp at h⟩
    simp only [EStateM.Result.ok.injEq] at e
    rw [← e.2]; rfl
  | error e s1 =>
    rw [inDl_error hr]
    refine ⟨fun b s' e => by simp at e, fun e s' h => ⟨?_, trivial⟩⟩
    simp only [EStateM.Result.error.injEq] at h
    rw [← h.2]; rfl

theorem stPtrIncOp_rest (block : List Byte) (rep : Bool) :
    Stays DlRest (fun _ => True) (stPtrIncOp block rep) := by
  refine stays_demand trivial fun _ => ?_
  refine stays_bind (stays_modify fun s hs => hs) fun _ => ?_
  refine stays_bind (stays_modify fun s hs => hs) fun _ => ?_
  refine stays_bind (stays_modify fun s hs => hs) fun _ => ?_
  cases block with
  | nil => exact stays_pure _
  | cons v vs => exact inDl_rest _

theorem ldPtrIncOp_rest (n : Nat) (rep : Bool) :
    Stays DlRest (fun _ => True) (ldPtrIncOp n rep) := by
  refine stays_demand trivial fun _ => ?_
  refine stays_bind (stays_modify fun s hs => hs) fun _ => ?_
  refine stays_bind (stays_modify fun s hs => hs) fun _ => ?_
  refine stays_bind (stays_modify fun s hs => hs) fun _ => ?_
  exact stays_ite (fun _ => stays_pure _) fun _ => inDl_rest _

theorem stIncWire_rest (v : Byte) (more : List Byte) :
    Stays DlRest (fun _ => True) (stIncWire v more) := by
  refine stays_demand trivial fun _ => ?_
  refine stays_bind (stays_modify fun s hs => hs) fun _ => ?_
  refine stays_bind (stays_modify fun s hs => hs) fun _ => ?_
  refine stays_bind (stays_modify fun s hs => hs) fun _ => ?_
  exact inDl_rest _

theorem ldIncWire_rest (more : Nat) : Stays DlRest (fun _ => True) (ldIncWire more) := by
  refine stays_demand trivial fun _ => ?_
  refine stays_bind (stays_modify fun s hs => hs) fun _ => ?_
  refine stays_bind (stays_modify fun s hs => hs) fun _ => ?_
  refine stays_bind (stays_modify fun s hs => hs) fun _ => ?_
  exact inDl_rest _

theorem keyWriteOp_rest (k : List Byte) : Stays DlRest (fun _ => True) (keyWriteOp k) :=
  stays_get_bind fun _ _ => stays_demand trivial fun _ => inDl_rest _

/-! ### A session's operations from rest to rest -/

/-- `s` is `s0` after whole operations of that scope: PHY and DL are idle. -/
def Rested (k : Scope) (s0 s : State) : Prop := (InSession k s0 s ∧ PhyRest s) ∧ DlRest s

theorem Rested.session {k : Scope} {s0 s : State} (h : Rested k s0 s) : InSession k s0 s := h.1.1

theorem Rested.refl (k : Scope) {s : State} (h1 : s.phy.phyState = .idle)
    (h2 : s.phy.echoPending = 0) (h3 : s.dl.dlState = .idle) : Rested k s s :=
  ⟨⟨InSession.refl k s, h1, h2⟩, h3⟩

theorem rested_exch (k : Scope) (s0 : State) : Exch (fun s => InSession k s0 s ∧ PhyRest s) where
  dl s d h := ⟨(inSession_inert k s0).dl s d h.1, h.2⟩
  send bs := ((inSession_inert k s0).phySend bs).and ((phyRest_exch.send bs).mono fun _ _ => trivial)
  recv n t := ((inSession_inert k s0).phyRecv n t).and ((phyRest_exch.recv n t).mono fun _ _ => trivial)

theorem rested_over (k : Scope) (s0 : State) : Over (Rested k s0) where
  csRead ha := ((rested_exch k s0).csRead ha).and (stays_demand trivial fun _ => inDl_rest _)
  csWrite ha hv := ((rested_exch k s0).csWrite ha hv).and (stays_demand trivial fun _ => inDl_rest _)
  ldsOp ha := ((rested_exch k s0).ldsOp ha).and (stays_demand trivial fun _ => inDl_rest _)
  stsOp ha hv := ((rested_exch k s0).stsOp ha hv).and (stays_demand trivial fun _ => inDl_rest _)
  stPtrOp ha := ((rested_exch k s0).stPtrOp ha).and (stays_demand trivial fun _ => inDl_rest _)
  ldPtrOp w := ((rested_exch k s0).ldPtrOp w).and (inDl_rest _)
  stPtrIncOp hn := ((rested_exch k s0).stPtrIncOp hn).and (stPtrIncOp_rest _ _)
  ldPtrIncOp hn := ((rested_exch k s0).ldPtrIncOp hn).and (ldPtrIncOp_rest _ _)
  stIncWire hn := ((rested_exch k s0).stIncWire hn).and (stIncWire_rest _ _)
  ldIncWire hn := ((rested_exch k s0).ldIncWire hn).and (ldIncWire_rest _)
  repeatWire h1 hn :=
    ((rested_exch k s0).repeatWire h1 hn).and (stays_demand trivial fun _ => inDl_rest _)
  keyWriteOp hs hk := ((rested_exch k s0).keyWriteOp hs.1 hk).and (keyWriteOp_rest _ _ hs.2)

theorem rested_nvmInert (k : Scope) (s0 : State) : NvmInert (Rested k s0) where
  toOver := rested_over k s0
  nvm s n d l v h := ⟨⟨(inSession_nvmInert k s0).nvm s n d l v h.1.1, h.1.2⟩, h.2⟩
  wait d := (((inSession_nvmInert k s0).wait d).and (J := PhyRest) (by
    intro s hs
    rw [waitFor_run]
    refine ⟨fun a s' e => ?_, fun e s' he => by simp at he⟩
    simp only [EStateM.Result.ok.injEq, true_and] at e
    subst e
    have hl := (listen_line (s := s.drawn (.wait d)) (s.draw (.wait d)).drive).2.2
    refine ⟨?_, ?_⟩
    · simp only [State.logged_phy, State.setNow_phy]; rw [hl]; exact hs.1
    · simp only [State.logged_phy, State.setNow_phy]; rw [hl]; exact hs.2)).and (by
    intro s hs
    rw [waitFor_run]
    refine ⟨fun a s' e => ?_, fun e s' he => by simp at he⟩
    simp only [EStateM.Result.ok.injEq, true_and] at e
    subst e
    simpa [DlRest] using hs)

theorem rested_note {k : Scope} (hk : k.notes) (s0 : State) : Stays (Rested k s0) C noteNvmOp :=
  ((inSession_note hk s0).and (J := PhyRest) (stays_modify fun s hs => by split <;> exact hs)).and
    (stays_modify fun s hs => by split <;> exact hs)

end Sys2Proof.Machine
end

