-- ==== Sys2Proof/Laws/Bodies.lean ====
section
/-! SUPPORT. What the body of each command can do: it ends where it began, with an error of the caller,
or after whole exchanges. -/

namespace Sys2Proof.Machine

variable {α β : Type} {I : State → Prop} {C : Code → Prop} {s s0 : State} {k : Scope}

/-! ### Every instruction is a body run by the command port -/

/-- The row of the admission table an instruction is under. -/
def admOf : Instr → Admission
  | .getStatus | .closeSession _ => .any
  | .openSession _ _ => .closedOnly
  | .enterProgrammingMode => .linkOnly
  | .unlockChipEraseKey | .waitNvmReady | .chipErase | .writePage _ _ _ | .readBytes _ _ _
  | .readFuse _ | .writeFuse _ _ | .erasePage _ _ | .eepromErase => .nvmMode
  | .crcCheck => .never
  | _ => .inSession

/-- The body an instruction runs once admitted. -/
def bodyOf : Instr → Act (List Byte)
  | .ldcs a => oneByte (csRead a.toNat)
  | .stcs a v => noData (csWrite a.toNat v.toNat)
  | .lds1 a => ldsOp a.toNat 1
  | .lds2 a => ldsOp a.toNat 2
  | .lds3 a => ldsOp a.toNat 3
  | .sts1 a v => noData (stsOp a.toNat v.toNat 1)
  | .sts2 a v => noData (stsOp a.toNat v.toNat 2)
  | .sts3 a v => noData (stsOp a.toNat v.toNat 3)
  | .stptr1 p => noData (stPtrOp 1 p.toNat)
  | .stptr2 p => noData (stPtrOp 2 p.toNat)
  | .stptr3 p => noData (stPtrOp 3 p.toNat)
  | .ldptr1 => ldPtrOp 1
  | .ldptr2 => ldPtrOp 2
  | .ldptr3 => ldPtrOp 3
  | .stinc v more => noData (stIncWire v more)
  | .ldinc more => ldIncWire more
  | .repeatNext n => noData (repeatWire n)
  | .key k => noData (keyWriteOp k)
  | .getStatus => do pure [statusByte (← get)]
  | .openSession p port => noData (openOp p port)
  | .enterProgrammingMode => noData enterOp
  | .closeSession r => noData (closeBody r)
  | .initLink => noData phyInit
  | .sendBytes bs => noData (phySend bs)
  | .receiveBytes n t => phyRecv n t
  | .csRead a => oneByte (csRead a)
  | .csWrite a v => noData (csWrite a v)
  | .lds a n => ldsOp a n
  | .sts a v n => noData (stsOp a v n)
  | .stPtr a => do noData (stPtrOp (← get).ses.profile.addrBytes a)
  | .ldPtr => do ldPtrOp (← get).ses.profile.addrBytes
  | .stPtrInc b r => noData (stPtrIncOp b r)
  | .ldPtrInc n r => ldPtrIncOp n r
  | .keyWrite k => noData (keyWriteOp k)
  | .unlockChipEraseKey => noData unlockEraseKey
  | .waitNvmReady => noData waitCommand
  | .chipErase => noData (eraseWhole .chipErase (·.cmdChipErase))
  | .writePage r o d => noData (writePageOp r o d)
  | .readBytes r o n => readBytesOp r o n
  | .readFuse i => readFuseOp i
  | .writeFuse i v => noData (writeFuseOp i v)
  | .erasePage r o => noData (erasePageOp r o)
  | .eepromErase => noData (eraseWhole .eepromErase (·.cmdEepromErase))
  | .crcCheck => pure []

/-- `exec` is the command port around the body. -/
theorem exec_eq (i : Instr) (s : State) :
    exec i s = runCommand (admOf i) (!(isOpen i || isClose i)) (bodyOf i) s := by
  cases i <;> rfl

theorem admits_admOf (i : Instr) (m : SesState) : admits (admOf i) m = allowed i m := by
  cases i <;> cases m <;> rfl

/-! ### Bodies with checks before anything is done -/

/-- The errors a check raises (60_exceptions.md R283, R286 class caller). -/
def CallCode (c : Code) : Prop :=
  c = .refused ∨ c = .alignment ∨ c = .invalidPageSize ∨ c = .invalidFuseIndex

/-- How a body that began at `s0` ended: after steps that keep `I`, or by a failed check with nothing
done. -/
def Checked (I : State → Prop) (C : Code → Prop) (s0 : State) (r : Act.Result α) : Prop :=
  (∀ a t, r = .ok a t → I t) ∧
  (∀ e t, r = .error e t →
    (I t ∧ C e.code) ∨ (CallCode e.code ∧ t.sequencersIdle = s0.sequencersIdle))

theorem checked_stays {x : Act α} (hx : Stays I C x) (hs : I s) : Checked I C s0 (x s) :=
  ⟨fun _ _ e => hx.ok hs e, fun _ _ e => .inl (hx.error hs e)⟩

theorem checked_fail {e : Err} (hc : CallCode e.code) (hs : s.sequencersIdle = s0.sequencersIdle) :
    Checked I C s0 (.error e s : Act.Result α) :=
  ⟨fun _ _ h => by simp at h, fun e' t h => by
    simp only [EStateM.Result.error.injEq] at h
    obtain ⟨rfl, rfl⟩ := h
    exact .inr ⟨hc, hs⟩⟩

theorem checked_demand {b : Bool} {f : Unit → Act α} (hs : s.sequencersIdle = s0.sequencersIdle)
    (h : b = true → Checked I C s0 (f () s)) : Checked I C s0 ((demand b >>= f) s) := by
  cases b with
  | true => rw [demand_true_bind_run]; exact h rfl
  | false => rw [demand_false_bind_run]; exact checked_fail (.inl rfl) hs

theorem Checked.noData {x : Act Unit} (h : Checked I C s0 (x s)) :
    Checked I C s0 (Machine.noData x s) := by
  cases hx : x s with
  | ok a t =>
    rw [noData_ok hx]
    exact ⟨fun b u e => by
      simp only [EStateM.Result.ok.injEq] at e
      exact e.2 ▸ h.1 _ _ hx, fun _ _ e => by simp at e⟩
  | error e t =>
    rw [noData_error hx]
    exact ⟨fun _ _ e => by simp at e, fun e' u e2 => by
      simp only [EStateM.Result.error.injEq] at e2
      obtain ⟨rfl, rfl⟩ := e2
      exact h.2 _ _ hx⟩

theorem Checked.oneByte {x : Act Byte} (h : Checked I C s0 (x s)) :
    Checked I C s0 (Machine.oneByte x s) := by
  cases hx : x s with
  | ok a t =>
    rw [oneByte_ok hx]
    exact ⟨fun b u e => by
      simp only [EStateM.Result.ok.injEq] at e
      exact e.2 ▸ h.1 _ _ hx, fun _ _ e => by simp at e⟩
  | error e t =>
    rw [oneByte_error hx]
    exact ⟨fun _ _ e => by simp at e, fun e' u e2 => by
      simp only [EStateM.Result.error.injEq] at e2
      obtain ⟨rfl, rfl⟩ := e2
      exact h.2 _ _ hx⟩

theorem Checked.mono {C' : Code → Prop} {r : Act.Result α} (h : Checked I C s0 r)
    (hc : ∀ c, C c → C' c) : Checked I C' s0 r :=
  ⟨h.1, fun e t he => (h.2 e t he).imp (fun x => ⟨x.1, hc _ x.2⟩) id⟩

@[simp] theorem sequencersIdle_setNvmState (s : State) (n : NvmState) :
    (s.setNvm { s.nvm with nvmState := n }).sequencersIdle = s.sequencersIdle := rfl

/-! ### PHY and DL bodies -/

/-- A session's operation ended: at rest, with the mode register, the profile and NVM untouched. -/
def Quiet (k : Scope) (s0 s : State) : Prop := Rested k s0 s ∧ s.nvm = s0.nvm ∧ s.ses = s0.ses

theorem blocks_prim (n : Nvm) (x : Ses) (d : Dl) :
    Prim (fun s => (s.nvm = n ∧ s.ses = x) ∧ s.dl = d) where
  seq _ _ _ h := h
  write _ := stays_trWrite (.inl rfl) (fun _ _ hs => by simpa using hs) fun _ hs => hs
  read _ _ := stays_trRead (.inl rfl) (fun _ _ _ hs => by simpa using hs) fun _ _ _ _ hs _ => by
    simpa using hs

theorem blocks_exch (n : Nvm) (x : Ses) : Exch (fun s => s.nvm = n ∧ s.ses = x) where
  dl _ _ h := h
  send bs := fun s hs =>
    ⟨fun a s' e => ((blocks_prim n x s.dl).phySend bs s ⟨hs, rfl⟩ |>.1 a s' e).1,
      fun e s' h => ((blocks_prim n x s.dl).phySend bs s ⟨hs, rfl⟩ |>.2 e s' h).imp And.left id⟩
  recv m t := fun s hs =>
    ⟨fun a s' e => ((blocks_prim n x s.dl).phyRecv m t s ⟨hs, rfl⟩ |>.1 a s' e).1,
      fun e s' h => ((blocks_prim n x s.dl).phyRecv m t s ⟨hs, rfl⟩ |>.2 e s' h).imp And.left id⟩

theorem quiet_over (k : Scope) (s0 : State) : Over (Quiet k s0) where
  csRead ha := ((rested_over k s0).csRead ha).and
    (((blocks_exch s0.nvm s0.ses).csRead ha).mono fun _ _ => trivial)
  csWrite ha hv := ((rested_over k s0).csWrite ha hv).and
    (((blocks_exch s0.nvm s0.ses).csWrite ha hv).mono fun _ _ => trivial)
  ldsOp ha := ((rested_over k s0).ldsOp ha).and
    (((blocks_exch s0.nvm s0.ses).ldsOp ha).mono fun _ _ => trivial)
  stsOp ha hv := ((rested_over k s0).stsOp ha hv).and
    (((blocks_exch s0.nvm s0.ses).stsOp ha hv).mono fun _ _ => trivial)
  stPtrOp ha := ((rested_over k s0).stPtrOp ha).and
    (((blocks_exch s0.nvm s0.ses).stPtrOp ha).mono fun _ _ => trivial)
  ldPtrOp w := ((rested_over k s0).ldPtrOp w).and
    (((blocks_exch s0.nvm s0.ses).ldPtrOp w).mono fun _ _ => trivial)
  stPtrIncOp hn := ((rested_over k s0).stPtrIncOp hn).and
    (((blocks_exch s0.nvm s0.ses).stPtrIncOp hn).mono fun _ _ => trivial)
  ldPtrIncOp hn := ((rested_over k s0).ldPtrIncOp hn).and
    (((blocks_exch s0.nvm s0.ses).ldPtrIncOp hn).mono fun _ _ => trivial)
  stIncWire hn := ((rested_over k s0).stIncWire hn).and
    (((blocks_exch s0.nvm s0.ses).stIncWire hn).mono fun _ _ => trivial)
  ldIncWire hn := ((rested_over k s0).ldIncWire hn).and
    (((blocks_exch s0.nvm s0.ses).ldIncWire hn).mono fun _ _ => trivial)
  repeatWire h1 hn := ((rested_over k s0).repeatWire h1 hn).and
    (((blocks_exch s0.nvm s0.ses).repeatWire h1 hn).mono fun _ _ => trivial)
  keyWriteOp hs hk := ((rested_over k s0).keyWriteOp hs.1 hk).and
    (((blocks_exch s0.nvm s0.ses).keyWriteOp hs.2 hk).mono fun _ _ => trivial)

theorem Quiet.refl (k : Scope) (h : SequencersIdle s) : Quiet k s s :=
  ⟨Rested.refl k h.phyIdle h.noEcho h.dlIdle, rfl, rfl⟩

theorem quiet_send (k : Scope) (s0 : State) (bs : List Byte) : Stays (Quiet k s0) LinkCode (phySend bs) :=
  fun s hs =>
  have h1 := (rested_exch k s0).send bs s hs.1.1
  have h2 := (blocks_prim s0.nvm s0.ses s.dl).phySend bs s ⟨hs.2, rfl⟩
  ⟨fun a s' e => ⟨⟨h1.1 a s' e, hs.1.2.of_eq (h2.1 a s' e).2⟩, (h2.1 a s' e).1⟩, fun e s' h =>
    ⟨⟨⟨(h1.2 e s' h).1, hs.1.2.of_eq (h2.2 e s' h).1.2⟩, (h2.2 e s' h).1.1⟩, (h1.2 e s' h).2⟩⟩

theorem quiet_recv (k : Scope) (s0 : State) (n t : Nat) : Stays (Quiet k s0) LinkCode (phyRecv n t) :=
  fun s hs =>
  have h1 := (rested_exch k s0).recv n t s hs.1.1
  have h2 := (blocks_prim s0.nvm s0.ses s.dl).phyRecv n t s ⟨hs.2, rfl⟩
  ⟨fun a s' e => ⟨⟨h1.1 a s' e, hs.1.2.of_eq (h2.1 a s' e).2⟩, (h2.1 a s' e).1⟩, fun e s' h =>
    ⟨⟨⟨(h1.2 e s' h).1, hs.1.2.of_eq (h2.2 e s' h).1.2⟩, (h2.2 e s' h).1.1⟩, (h1.2 e s' h).2⟩⟩

/-- What the body of a wire instruction, or of a PHY or DL command other than `initialize`, can do. -/
theorem linkBody_checked (k : Scope) {i : Instr} (h : SequencersIdle s)
    (hi : admOf i = .inSession) (hinit : i ≠ .initLink) :
    Checked (Quiet k s) LinkCode s (bodyOf i s) := by
  have q := Quiet.refl k h
  have o := quiet_over k s
  have key : ∀ ks : List Byte, Checked (Quiet k s) LinkCode s (keyWriteOp ks s) := fun ks => by
    by_cases hk : ks.length = s.cfg.keyLen
    · exact ⟨fun a t e => (o.keyWriteOp q hk).1 a t e, fun e t h => .inl ((o.keyWriteOp q hk).2 e t h)⟩
    · unfold keyWriteOp
      rw [Act.get_bind_run]
      exact checked_demand rfl fun hb => absurd (by simpa using hb) hk
  have csr : ∀ a, Checked (Quiet k s) LinkCode s (csRead a s) := fun a => by
    by_cases ha : a ≤ 0x0F
    · exact checked_stays (o.csRead ha) q
    · exact checked_demand rfl fun hb => absurd (by simpa using hb) ha
  have csw : ∀ a v, Checked (Quiet k s) LinkCode s (csWrite a v s) := fun a v => by
    by_cases ha : a ≤ 0x0F ∧ v ≤ 0xFF
    · exact checked_stays (o.csWrite ha.1 ha.2) q
    · exact checked_demand rfl fun hb => absurd (by simpa using hb) ha
  have lds : ∀ a n, Checked (Quiet k s) LinkCode s (ldsOp a n s) := fun a n => by
    by_cases ha : addrOk a n = true
    · exact checked_stays (o.ldsOp ha) q
    · exact checked_demand rfl fun hb => absurd hb ha
  have sts : ∀ a v n, Checked (Quiet k s) LinkCode s (stsOp a v n s) := fun a v n => by
    by_cases ha : addrOk a n = true ∧ v ≤ 0xFF
    · exact checked_stays (o.stsOp ha.1 ha.2) q
    · exact checked_demand rfl fun hb => absurd (by simpa using hb) ha
  have stp : ∀ w p, Checked (Quiet k s) LinkCode s (stPtrOp w p s) := fun w p => by
    by_cases ha : addrOk p w = true
    · exact checked_stays (o.stPtrOp ha) q
    · exact checked_demand rfl fun hb => absurd hb ha
  have ldp : ∀ w, Checked (Quiet k s) LinkCode s (ldPtrOp w s) := fun w =>
    checked_stays (o.ldPtrOp w) q
  cases i with
  | ldcs a => exact (csr _).oneByte
  | stcs a v => exact (csw _ _).noData
  | lds1 a => exact lds _ _
  | lds2 a => exact lds _ _
  | lds3 a => exact lds _ _
  | sts1 a v => exact (sts _ _ _).noData
  | sts2 a v => exact (sts _ _ _).noData
  | sts3 a v => exact (sts _ _ _).noData
  | stptr1 p => exact (stp _ _).noData
  | stptr2 p => exact (stp _ _).noData
  | stptr3 p => exact (stp _ _).noData
  | ldptr1 => exact ldp _
  | ldptr2 => exact ldp _
  | ldptr3 => exact ldp _
  | stinc v more =>
    refine Checked.noData ?_
    by_cases hm : more.length < repeatMax
    · exact checked_stays (o.stIncWire hm) q
    · exact checked_demand rfl fun hb => absurd (by simpa using hb) hm
  | ldinc more =>
    by_cases hm : more < repeatMax
    · exact checked_stays (o.ldIncWire hm) q
    · exact checked_demand rfl fun hb => absurd (by simpa using hb) hm
  | repeatNext n =>
    refine Checked.noData ?_
    by_cases hm : 1 ≤ n ∧ n ≤ repeatMax
    · exact checked_stays (o.repeatWire hm.1 hm.2) q
    · exact checked_demand rfl fun hb => absurd (by simpa using hb) hm
  | key ks => exact (key _).noData
  | sendBytes bs => exact Checked.noData (checked_stays (quiet_send k s bs) q)
  | receiveBytes n t => exact checked_stays (quiet_recv k s n t) q
  | csRead a => exact (csr _).oneByte
  | csWrite a v => exact (csw _ _).noData
  | lds a n => exact lds _ _
  | sts a v n => exact (sts _ _ _).noData
  | stPtr a => exact (stp _ _).noData
  | ldPtr => exact ldp _
  | stPtrInc b r =>
    refine Checked.noData ?_
    by_cases hm : (!r || decide (b.length ≤ repeatMax)) = true
    · exact checked_stays (o.stPtrIncOp hm) q
    · exact checked_demand rfl fun hb => absurd hb hm
  | ldPtrInc n r =>
    by_cases hm : (!r || decide (n ≤ repeatMax)) = true
    · exact checked_stays (o.ldPtrIncOp hm) q
    · exact checked_demand rfl fun hb => absurd hb hm
  | keyWrite ks => exact (key _).noData
  | initLink => exact absurd rfl hinit
  | getStatus => cases hi
  | openSession p port => cases hi
  | enterProgrammingMode => cases hi
  | closeSession r => cases hi
  | unlockChipEraseKey => cases hi
  | waitNvmReady => cases hi
  | chipErase => cases hi
  | writePage r o d => cases hi
  | readBytes r o n => cases hi
  | readFuse i => cases hi
  | writeFuse i v => cases hi
  | erasePage r o => cases hi
  | eepromErase => cases hi
  | crcCheck => cases hi

end Sys2Proof.Machine
end

