-- ==== Sys2Proof/Laws/Init.lean ====
section
/-! SUPPORT. What link initialisation can do (40_phy.md R138 to R142). -/

namespace Sys2Proof.Machine

variable {s s0 : State}

/-- Link initialisation may write `link_up`, `sync_attempt`, `baud_cur` and send breaks. -/
def initScope : Scope := ⟨False, True, False⟩

/-- `s` is `s0` after some steps of link initialisation. -/
def Initing (s0 s : State) : Prop :=
  (InSession initScope s0 s ∧ NoEcho s) ∧ (s.nvm = s0.nvm ∧ s.ses = s0.ses) ∧ s.dl = s0.dl

/-- What link initialisation raises (40_phy.md R138, R148). -/
def InitCode (c : Code) : Prop := c = .transport ∨ c = .linkInit

theorem trWrite_code {bs : List Byte} {e : Err} {t : State} (h : trWrite bs s = .error e t) :
    e.code = .transport := by
  cases hd : (s.draw (.trWrite bs)).ioerror with
  | true =>
    rw [trWrite_error hd] at h
    simp only [EStateM.Result.error.injEq] at h
    rw [← h.1]; rfl
  | false => rw [trWrite_ok hd] at h; simp at h

theorem trRead_code {n T : Nat} {e : Err} {t : State} (h : trRead n T s = .error e t) :
    e.code = .transport := by
  rcases trRead_cases n T s with ⟨u, hu⟩ | ⟨u, hu⟩ | ⟨bs, u, _, hu⟩
  · rw [hu] at h
    simp only [EStateM.Result.error.injEq] at h
    rw [← h.1]; rfl
  · rw [hu] at h; simp at h
  · rw [hu] at h; simp at h

theorem initing_write (s0 : State) (bs : List Byte) : Stays (Initing s0) InitCode (trWrite bs) :=
  fun s hs =>
  have h1 := inSession_write initScope s0 bs s hs.1.1
  have h2 := trWrite_noEcho bs s hs.1.2
  have h3 := (blocks_prim s0.nvm s0.ses s0.dl).write bs s hs.2
  ⟨fun a s' e => ⟨⟨h1.1 a s' e, h2.1 a s' e⟩, h3.1 a s' e⟩, fun e s' h =>
    ⟨⟨⟨(h1.2 e s' h).1, (h2.2 e s' h).1⟩, (h3.2 e s' h).1⟩, .inl (trWrite_code h)⟩⟩

theorem initing_read (s0 : State) (n t : Nat) : Stays (Initing s0) InitCode (trRead n t) :=
  fun s hs =>
  have h1 := inSession_read initScope s0 n t s hs.1.1
  have h2 := trRead_noEcho n t s hs.1.2
  have h3 := (blocks_prim s0.nvm s0.ses s0.dl).read n t s hs.2
  ⟨fun a s' e => ⟨⟨h1.1 a s' e, h2.1 a s' e⟩, h3.1 a s' e⟩, fun e s' h =>
    ⟨⟨⟨(h1.2 e s' h).1, (h2.2 e s' h).1⟩, (h3.2 e s' h).1⟩, .inl (trRead_code h)⟩⟩

theorem initing_failedAt (h : Initing s0 s) (q a : PortAct) (heard : List Bool) :
    Initing s0 (s.failedAt q a heard) :=
  ⟨⟨h.1.1.failedAt q a heard, rfl⟩, by simpa using h.2⟩

theorem initing_setBaud (s0 : State) : Stays (Initing s0) InitCode (trSetBaud s0.cfg.baud) :=
  fun s hs => by
  cases hd : (s.draw (.trSetBaud s0.cfg.baud)).ioerror with
  | true =>
    rw [trSetBaud_error hd]
    refine ⟨fun a s' e => by simp at e, fun e s' he => ?_⟩
    simp only [EStateM.Result.error.injEq] at he
    obtain ⟨rfl, rfl⟩ := he
    exact ⟨initing_failedAt hs _ _ _, .inl rfl⟩
  | false =>
    rw [trSetBaud_ok hd]
    refine ⟨fun a s' e => ?_, fun e s' he => by simp at he⟩
    simp only [EStateM.Result.ok.injEq, true_and] at e
    subst e
    obtain ⟨⟨h1, h2⟩, h3, h4⟩ := hs
    have hl := listen_line (s := s.drawn (.trSetBaud s0.cfg.baud))
      (s.draw (.trSetBaud s0.cfg.baud)).drive
    refine ⟨⟨h1.port (by simp) (by simp) (by simp) (by simp) (by simp) (.inr trivial) (.inr trivial)
      (.inr ⟨trivial, by simp [h1.cfg]⟩) hl.1 hl.2.1 ?_ ?_ ?_, ?_⟩, ⟨by simpa using h3.1, by simpa using h3.2⟩,
      by simpa using h4⟩
    · simp only [State.logged_now, State.setNow_now]; omega
    · exact ⟨_, by simp; rfl, .inl trivial⟩
    · intro hw; simpa using Env.answer_wf hw _
    · simp only [NoEcho, State.logged_phy, State.setNow_phy, State.setPhy_phy]
      rw [hl.2.2]; exact h2

theorem initing_break (s0 : State) (d g : Nat) : Stays (Initing s0) InitCode (trBreak d g) :=
  fun s hs => by
  cases hd : (s.draw (.trBreak d g)).ioerror with
  | true =>
    rw [trBreak_error hd]
    refine ⟨fun a s' e => by simp at e, fun e s' he => ?_⟩
    simp only [EStateM.Result.error.injEq] at he
    obtain ⟨rfl, rfl⟩ := he
    exact ⟨initing_failedAt hs _ _ _, .inl rfl⟩
  | false =>
    rw [trBreak_ok hd]
    refine ⟨fun a s' e => ?_, fun e s' he => by simp at he⟩
    simp only [EStateM.Result.ok.injEq, true_and] at e
    subst e
    obtain ⟨⟨h1, h2⟩, h3, h4⟩ := hs
    refine ⟨⟨h1.port rfl rfl rfl rfl rfl (.inl rfl) (.inl rfl) (.inl rfl) ?_ ?_ ?_ ?_ ?_, h2⟩, h3, h4⟩
    · intro _ e2; exact ⟨rfl, e2⟩
    · exact id
    · simp only [State.logged_now, State.setNow_now]; omega
    · exact ⟨[⟨s.phy.phyState, s.dl.dlState, s.nvm.nvmState, .trBreak d g, .done⟩,
        ⟨.guard, s.dl.dlState, s.nvm.nvmState, .breakGuard g, .done⟩], by simp [State.logged],
        .inl trivial⟩
    · exact fun hw => Env.answer_wf hw _

/-- Register updates of link initialisation. -/
theorem initing_set {f : State → State}
    (hp : ∀ s, (f s).cfg = s.cfg ∧ (f s).inputs = s.inputs ∧ (f s).rsp = s.rsp ∧ (f s).ses = s.ses ∧
      (f s).nvm = s.nvm ∧ (f s).dl = s.dl ∧ (f s).phy.baudCur = s.phy.baudCur ∧
      (f s).phy.line.lineTx = s.phy.line.lineTx ∧ (f s).phy.line.txCnt = s.phy.line.txCnt ∧
      (f s).phy.line.frameErr = s.phy.line.frameErr ∧ (f s).now = s.now ∧
      (∃ ev, (f s).trace = s.trace ++ ev) ∧ (f s).env = s.env ∧
      (f s).phy.echoPending = s.phy.echoPending) (s0 : State) (C : Code → Prop) :
    Stays (Initing s0) C (modify f : Act Unit) := stays_modify fun s ⟨⟨h1, h2⟩, h3, h4⟩ => by
  obtain ⟨p1, p2, p3, p4, p5, p6, p7, p8, p9, p10, p11, p12, p13, p14⟩ := hp s
  refine ⟨⟨h1.port p1 p2 p3 p4 (by rw [p5]) (.inr trivial) (.inr trivial) (.inl p7) ?_ ?_ ?_ ?_ ?_,
    ?_⟩, ⟨by rw [p5]; exact h3.1, by rw [p4]; exact h3.2⟩, by rw [p6]; exact h4⟩
  · rw [p8, p9]; exact fun a b => ⟨a, b⟩
  · rw [p10]; exact id
  · rw [p11]
  · obtain ⟨ev, he⟩ := p12; exact ⟨ev, he, .inl trivial⟩
  · rw [p13]; exact id
  · unfold NoEcho; rw [p14]; exact h2

theorem initing_phyState (s0 : State) (p : PhyState) (C : Code → Prop) :
    Stays (Initing s0) C (setPhyState p) :=
  initing_set (fun s => by simp [State.setPhy]) s0 C

theorem initing_attempt (s0 : State) : Stays (Initing s0) InitCode syncAttempt := by
  unfold syncAttempt
  refine stays_bind (initing_set (fun s => by simp [State.setPhy]) s0 _) fun _ => ?_
  refine stays_get_bind fun s hs => ?_
  rw [hs.1.1.cfg]
  refine stays_bind (initing_phyState s0 _ _) fun _ => ?_
  refine stays_bind (initing_setBaud s0) fun _ => ?_
  refine stays_bind (initing_phyState s0 _ _) fun _ => ?_
  refine stays_bind (initing_break s0 _ _) fun _ => ?_
  refine stays_bind (initing_set (fun s => by simp [State.setLine, State.setPhy]) s0 _) fun _ => ?_
  refine stays_bind (initing_set (fun s => by simp [State.logged, State.setTrace]) s0 _) fun _ => ?_
  refine stays_bind (initing_phyState s0 _ _) fun _ => ?_
  refine stays_bind (initing_write s0 _) fun _ => ?_
  refine stays_bind (initing_phyState s0 _ _) fun _ => ?_
  exact initing_read s0 _ _

theorem initing_linkSynced (s0 : State) : Stays (Initing s0) InitCode linkSynced :=
  initing_set (fun s => by simp [State.setPhy]) s0 _

theorem initing_linkFailed (s0 : State) (r : Option (List Byte)) :
    Stays (Initing s0) InitCode (linkFailed r) := by
  unfold linkFailed
  refine stays_bind (initing_set (fun s => by simp [State.setPhy]) s0 _) fun _ => ?_
  exact stays_get_bind fun s _ => stays_raise _ (.inr rfl)

theorem initing_loop (s0 : State) (n : Nat) : Stays (Initing s0) InitCode (syncLoop n) := by
  induction n with
  | zero =>
    refine stays_bind (initing_attempt s0) fun r => ?_
    exact stays_ite (fun _ => initing_linkSynced s0) fun _ => initing_linkFailed s0 r
  | succ n ih =>
    refine stays_bind (initing_attempt s0) fun r => ?_
    exact stays_ite (fun _ => initing_linkSynced s0) fun _ => ih

theorem initing_phyInit (s0 : State) : Stays (Initing s0) InitCode phyInit := by
  unfold phyInit
  refine stays_inPhy ?_ ?_
  · refine stays_bind (initing_set (fun s => by simp [State.setPhy]) s0 _) fun _ => ?_
    exact stays_get_bind fun s _ => initing_loop s0 _
  · rintro s n hn ⟨⟨h1, h2⟩, h3⟩
    refine ⟨⟨(inSession_inert initScope s0).seq s _ n h1, ?_⟩, h3⟩
    rcases hn with rfl | rfl
    · exact h2
    · rfl

/-- Success leaves `link_up` at 1 (40_phy.md R140). -/
theorem syncLoop_ends (n : Nat) : Ends (fun s => s.phy.linkUp = true) (syncLoop n) := by
  have synced : Ends (fun s => s.phy.linkUp = true) linkSynced := fun s a s' h => by
    simp only [linkSynced, Act.modify_run, EStateM.Result.ok.injEq, true_and] at h
    rw [← h]; rfl
  have failed : ∀ r, Ends (fun s => s.phy.linkUp = true) (linkFailed r) := fun r => by
    refine ends_bind fun _ => ends_bind fun n s a s' h => ?_
    simp at h
  induction n with
  | zero =>
    refine ends_bind fun r => ?_
    split
    · exact synced
    · exact failed r
  | succ n ih =>
    refine ends_bind fun r => ?_
    split
    · exact synced
    · exact ih

end Sys2Proof.Machine
end

