-- ==== Sys2Proof/Laws/NvmBodies.lean ====
section
/-! SUPPORT. What the bodies of the NVM commands can do (42_nvm.md R220, R223). -/

namespace Sys2Proof.Machine

variable {α β : Type} {I : State → Prop} {C : Code → Prop} {s s0 : State} {k : Scope}

/-- An NVM command may move the mode to `Programming`; only `unlock_chip_erase_key` sets the key flag. -/
def nvmScope (keys : Prop) : Scope := ⟨True, False, keys⟩

/-- NVM is idle too. -/
def NvmDone (k : Scope) (s0 s : State) : Prop := Rested k s0 s ∧ s.nvm.nvmState = .idle

theorem checked_inNvm {name : OpName} {x : Act α}
    (h : Checked (Rested k s0) C s0 (x s)) : Checked (NvmDone k s0) C s0 (inNvm name x s) := by
  have cl : ∀ t, Rested k s0 t → NvmDone k s0 (t.setNvm { t.nvm with nvmState := .idle }) :=
    fun t ht => ⟨(rested_nvmInert k s0).nvm t .idle t.nvm.pollDeadline t.nvm.lastStatus
      t.nvm.statusValid ht, rfl⟩
  cases hx : x s with
  | ok a t =>
    rw [inNvm_ok hx]
    refine ⟨fun b u e => ?_, fun _ _ e => by simp at e⟩
    simp only [EStateM.Result.ok.injEq] at e
    rw [← e.2]; exact cl t (h.1 _ _ hx)
  | error e t =>
    rw [inNvm_error hx]
    refine ⟨fun _ _ e => by simp at e, fun e' u e2 => ?_⟩
    simp only [EStateM.Result.error.injEq] at e2
    obtain ⟨rfl, rfl⟩ := e2
    rcases h.2 _ _ hx with ⟨h1, h2⟩ | ⟨h1, h2⟩
    · exact .inl ⟨cl t h1, h2⟩
    · exact .inr ⟨h1, h2⟩

/-- The profile is still the session's. -/
theorem Rested.profile_eq (h : Rested k s0 s) : s.ses.profile = s0.ses.profile := h.1.1.profile
theorem Rested.cfg_eq (h : Rested k s0 s) : s.cfg = s0.cfg := h.1.1.cfg

theorem Rested.check (h : SequencersIdle s) (n : NvmState) :
    Rested k s (s.setNvm { s.nvm with nvmState := n }) :=
  (rested_nvmInert k s).nvm s n s.nvm.pollDeadline s.nvm.lastStatus s.nvm.statusValid
    (Rested.refl k h.phyIdle h.noEcho h.dlIdle)

/-! ### Checks -/

/-- A check: it changes nothing, and either lets the command go on, knowing `P`, or ends it. -/
def IsCheck (x : Act α) (P : α → State → Prop) : Prop :=
  ∀ s, (∃ a, x s = .ok a s ∧ P a s) ∨ ∃ e, x s = .error e s ∧ CallCode e.code

theorem checked_check {x : Act α} {f : α → Act β} {P : α → State → Prop} (hx : IsCheck x P)
    (hs : s.sequencersIdle = s0.sequencersIdle) (h : ∀ a, P a s → Checked I C s0 (f a s)) :
    Checked I C s0 ((x >>= f) s) := by
  rcases hx s with ⟨a, e, p⟩ | ⟨e, he, hc⟩
  · rw [Act.bind_ok e]; exact h a p
  · rw [Act.bind_error he]; exact checked_fail hc hs

theorem isCheck_demandRegs (regs : Config → Profile → List Nat) :
    IsCheck (demandRegs regs) fun _ s =>
      allFit s.ses.profile (regs s.cfg s.ses.profile) = true := fun s => by
  unfold demandRegs
  rw [Act.get_bind_run, demand_run]
  split
  · rename_i h; exact .inl ⟨(), rfl, h⟩
  · exact .inr ⟨_, rfl, .inl rfl⟩

theorem isCheck_demandKey : IsCheck demandKey fun _ s => s.nvm.eraseKeySent = true := fun s => by
  unfold demandKey
  rw [Act.get_bind_run, demand_run]
  split
  · rename_i h; exact .inl ⟨(), rfl, h⟩
  · exact .inr ⟨_, rfl, .inl rfl⟩

theorem isCheck_pagedRegion (region : Nat) : IsCheck (pagedRegion region) fun x s =>
    regionOfCode region = some x.1 ∧ regionPage s.ses.profile x.1 = some x.2 := fun s => by
  unfold pagedRegion
  rw [Act.get_bind_run]
  cases h : regionOfCode region with
  | none => exact .inr ⟨_, rfl, .inl rfl⟩
  | some r =>
    cases h2 : regionPage s.ses.profile r with
    | none => exact .inr ⟨_, by simp [h2]; rfl, .inl rfl⟩
    | some page => exact .inl ⟨(r, page), by simp [h2], rfl, h2⟩

theorem isCheck_checkAligned (region offset page : Nat) :
    IsCheck (checkAligned region offset page) fun _ _ => offset % page = 0 := fun s => by
  unfold checkAligned
  rw [Act.ite_run]
  split
  · rename_i h; exact .inl ⟨(), rfl, h⟩
  · exact .inr ⟨_, rfl, .inr (.inl rfl)⟩

theorem isCheck_checkPageSize (region length page : Nat) :
    IsCheck (checkPageSize region length page) fun _ _ => length = page := fun s => by
  unfold checkPageSize
  rw [Act.ite_run]
  split
  · rename_i h; exact .inl ⟨(), rfl, h⟩
  · exact .inr ⟨_, rfl, .inr (.inr (.inl rfl))⟩

theorem isCheck_checkFuseIndex (i : Nat) :
    IsCheck (checkFuseIndex i) fun _ s => i < s.ses.profile.fuseCount := fun s => by
  unfold checkFuseIndex
  rw [Act.get_bind_run, Act.ite_run]
  split
  · rename_i h; exact .inl ⟨(), rfl, h⟩
  · exact .inr ⟨_, rfl, .inr (.inr (.inr rfl))⟩

/-! ### The commands -/

variable {keys : Prop}

theorem rested_regs {regs : Config → Profile → List Nat}
    (hf : allFit s0.ses.profile (regs s0.cfg s0.ses.profile) = true) :
    Fit (Rested k s0) regs := fun t ht => by
  rw [ht.cfg_eq, ht.profile_eq]; exact hf

theorem waitCommand_checked (h : SequencersIdle s) :
    Checked (NvmDone (nvmScope keys) s) NvmCode s (waitCommand s) := by
  have o := rested_nvmInert (nvmScope keys) s
  unfold waitCommand
  rw [setNvmState_bind_run]
  refine checked_check (isCheck_demandRegs _) rfl fun _ hf => ?_
  have hr := rested_regs (k := nvmScope keys) (s0 := s) (regs := pollRegs) hf
  have hw := o.waitReadyNvm hr
  have hn : Stays (Rested (nvmScope keys) s) NvmCode noteNvmOp := rested_note trivial s
  have q := Rested.check (k := nvmScope keys) h .check
  obtain ⟨s1, e1⟩ : ∃ s1, noteNvmOp (s.setNvm { s.nvm with nvmState := .check }) = .ok () s1 := ⟨_, rfl⟩
  rw [Act.bind_ok e1]
  have q1 := hn.ok q e1
  unfold waitReadyNvm at hw ⊢
  unfold waitReady at hw ⊢
  rw [Act.get_bind_run]
  refine checked_inNvm (checked_stays ?_ q1)
  exact stays_bind (stays_modify fun s hs => o.nvm s s.nvm.nvmState _ s.nvm.lastStatus _ hs) fun _ =>
    o.pollLoop hr _

theorem eraseWhole_checked (h : SequencersIdle s) (name : OpName) (code : Config → Byte) :
    Checked (NvmDone (nvmScope keys) s) NvmCode s (eraseWhole name code s) := by
  have o := rested_nvmInert (nvmScope keys) s
  unfold eraseWhole
  refine checked_inNvm ?_
  rw [setNvmState_bind_run]
  refine checked_check (isCheck_demandRegs _) rfl fun _ hf => ?_
  refine checked_check isCheck_demandKey rfl fun _ _ => ?_
  have hr := rested_regs (k := nvmScope keys) (s0 := s) (regs := codeRegs) hf
  refine checked_stays ?_ (Rested.check h .check)
  refine stays_bind (rested_note trivial s) fun _ => ?_
  exact stays_bind (o.nvmExec hr) fun _ => o.waitReadyNvm hr.poll_of_code

/-- A valid profile's pages are not empty (43_session.md R262). -/
theorem regionPage_pos {c : Config} {p : Profile} (hp : profileValid c p = true) {r : Region} {page : Nat}
    (h : regionPage p r = some page) : 0 < page := by
  simp only [profileValid, Bool.and_eq_true, decide_eq_true_eq] at hp
  cases r <;> simp only [regionPage, Option.some.injEq, reduceCtorEq] at h
  · rw [← h]; exact hp.1.1.1.1.1.1.2
  · rw [← h]; exact hp.1.1.1.1.1.2

theorem writePage_checked (h : SequencersIdle s) (hv : profileValid s.cfg s.ses.profile = true) (region offset : Nat) (data : List Byte) :
    Checked (NvmDone (nvmScope keys) s) NvmCode s (writePageOp region offset data s) := by
  have o := rested_nvmInert (nvmScope keys) s
  unfold writePageOp
  refine checked_inNvm ?_
  rw [setNvmState_bind_run]
  refine checked_check (isCheck_pagedRegion region) rfl ?_
  rintro ⟨r, page⟩ ⟨-, hpage⟩
  have hpos : 0 < page := regionPage_pos hv hpage
  simp only [Act.get_bind_run]
  refine checked_check (isCheck_checkAligned _ _ _) rfl fun _ _ => ?_
  refine checked_check (isCheck_checkPageSize _ _ _) rfl fun _ _ => ?_
  refine checked_demand rfl fun hb => ?_
  refine checked_check (isCheck_demandRegs _) rfl fun _ hf => ?_
  refine checked_check isCheck_demandKey rfl fun _ _ => ?_
  have hr := rested_regs (k := nvmScope keys) (s0 := s) (regs := codeRegs) hf
  have hp : addrOk (regionBase s.ses.profile r + offset) s.ses.profile.addrBytes = true := by
    simp only [Bool.and_eq_true, addrOk, fits, decide_eq_true_eq, State.setNvm_ses] at hb ⊢
    have h2 := of_decide_eq_true hb.2.2
    exact ⟨hb.2.1, by omega⟩
  refine checked_stays ?_ (Rested.check h .check)
  refine stays_bind (rested_note trivial s) fun _ => ?_
  refine stays_atPlace ?_
  refine stays_bind (o.nvmState _) fun _ => ?_
  refine stays_bind ((o.toOver.stPtrOp hp).mono fun _ => .inl) fun _ => ?_
  refine stays_bind (o.nvmState _) fun _ => ?_
  refine stays_bind (o.storeChunks (chunks_le _)) fun _ => ?_
  exact stays_bind (o.nvmExec hr) fun _ => o.waitReadyNvm hr.poll_of_code

theorem erasePage_checked (h : SequencersIdle s) (region offset : Nat) :
    Checked (NvmDone (nvmScope keys) s) NvmCode s (erasePageOp region offset s) := by
  have o := rested_nvmInert (nvmScope keys) s
  unfold erasePageOp
  refine checked_inNvm ?_
  rw [setNvmState_bind_run]
  refine checked_check (isCheck_pagedRegion region) rfl ?_
  rintro ⟨r, page⟩ -
  simp only [Act.get_bind_run]
  refine checked_check (isCheck_checkAligned _ _ _) rfl fun _ _ => ?_
  refine checked_demand rfl fun hb => ?_
  refine checked_check (isCheck_demandRegs _) rfl fun _ hf => ?_
  refine checked_check isCheck_demandKey rfl fun _ _ => ?_
  have hr := rested_regs (k := nvmScope keys) (s0 := s) (regs := codeRegs) hf
  simp only [Bool.and_eq_true] at hb
  refine checked_stays ?_ (Rested.check h .check)
  refine stays_bind (rested_note trivial s) fun _ => ?_
  refine stays_atPlace ?_
  refine stays_bind (o.nvmState _) fun _ => ?_
  refine stays_bind ((o.toOver.stsOp hb.2 (by decide)).mono fun _ => .inl) fun _ => ?_
  exact stays_bind (o.nvmExec hr) fun _ => o.waitReadyNvm hr.poll_of_code

theorem readBytes_checked (h : SequencersIdle s) (region offset n : Nat) :
    Checked (NvmDone (nvmScope keys) s) NvmCode s (readBytesOp region offset n s) := by
  have o := rested_nvmInert (nvmScope keys) s
  unfold readBytesOp
  refine checked_inNvm ?_
  rw [setNvmState_bind_run]
  simp only [Act.get_bind_run]
  cases hreg : regionOfCode region with
  | none => exact checked_fail (.inl rfl) rfl
  | some r =>
    refine checked_demand rfl fun hb => ?_
    simp only [Act.ite_run]
    split
    · exact checked_stays (stays_pure []) (Rested.check h .check)
    · rename_i hn
      have hp : addrOk (regionBase s.ses.profile r + offset) s.ses.profile.addrBytes = true := by
        simp only [Bool.and_eq_true, addrOk, fits, decide_eq_true_eq, Bool.or_eq_true,
          State.setNvm_ses] at hb ⊢
        have hb2 := hb.2.resolve_left hn
        have h2 := of_decide_eq_true hb2.2
        exact ⟨hb2.1, by omega⟩
      refine checked_stays ?_ (Rested.check h .check)
      refine stays_bind (rested_note trivial s) fun _ => ?_
      refine stays_atPlace ?_
      refine stays_bind (o.nvmState _) fun _ => ?_
      refine stays_bind ((o.toOver.stPtrOp hp).mono fun _ => .inl) fun _ => ?_
      exact stays_bind (o.nvmState _) fun _ => o.loadChunks (chunkLens_le _)

theorem readFuse_checked (h : SequencersIdle s) (i : Nat) :
    Checked (NvmDone (nvmScope keys) s) NvmCode s (readFuseOp i s) := by
  have o := rested_nvmInert (nvmScope keys) s
  unfold readFuseOp
  refine checked_inNvm ?_
  rw [setNvmState_bind_run]
  refine checked_check (isCheck_checkFuseIndex _) rfl fun _ _ => ?_
  simp only [Act.get_bind_run]
  refine checked_demand rfl fun hb => ?_
  refine checked_stays ?_ (Rested.check h .check)
  refine stays_bind (rested_note trivial s) fun _ => stays_atPlace ?_
  exact stays_bind (o.nvmState _) fun _ => (o.toOver.ldsOp hb).mono fun _ => .inl

theorem writeFuse_checked (h : SequencersIdle s) (i v : Nat) :
    Checked (NvmDone (nvmScope keys) s) NvmCode s (writeFuseOp i v s) := by
  have o := rested_nvmInert (nvmScope keys) s
  unfold writeFuseOp
  refine checked_inNvm ?_
  rw [setNvmState_bind_run]
  refine checked_demand rfl fun hv => ?_
  refine checked_check (isCheck_checkFuseIndex _) rfl fun _ _ => ?_
  simp only [Act.get_bind_run]
  refine checked_demand rfl fun hb => ?_
  refine checked_check (isCheck_demandRegs _) rfl fun _ hf => ?_
  refine checked_check isCheck_demandKey rfl fun _ _ => ?_
  have hr := rested_regs (k := nvmScope keys) (s0 := s) (regs := fuseRegs) hf
  have ok : ∀ a ∈ fuseRegs s.cfg s.ses.profile, addrOk a s.ses.profile.addrBytes = true := fun a ha =>
    allFit_mem hf ha
  simp only [fuseRegs, List.mem_cons, List.not_mem_nil, or_false, forall_eq_or_imp, forall_eq] at ok
  have hb' : s.ses.profile.fuseBase + i < 2 ^ 16 := of_decide_eq_true hb
  have hv' : v ≤ 0xFF := by simpa using hv
  refine checked_stays ?_ (Rested.check h .check)
  refine stays_bind (rested_note trivial s) fun _ => stays_atPlace ?_
  refine stays_bind (o.nvmState _) fun _ => ?_
  refine stays_bind ((o.toOver.stsOp ok.1 (by omega)).mono fun _ => .inl) fun _ => ?_
  refine stays_bind ((o.toOver.stsOp ok.2.1 (show (s.ses.profile.fuseBase + i) / 256 ≤ 0xFF by omega)).mono fun _ => .inl) fun _ => ?_
  refine stays_bind ((o.toOver.stsOp ok.2.2.1 hv').mono fun _ => .inl) fun _ => ?_
  exact stays_bind (o.nvmExec hr.code_of_fuse) fun _ =>
    o.waitReadyNvm hr.code_of_fuse.poll_of_code

/-- The erase key's length is what a valid profile has (43_session.md R262). -/
theorem unlock_checked (h : SequencersIdle s)
    (hm : s.ses.sesState = .unlocked ∨ s.ses.sesState = .programming)
    (hk : s.ses.profile.keyErase.length = s.cfg.keyLen) :
    Checked (NvmDone (nvmScope True) s) NvmCode s (unlockEraseKey s) := by
  have o := rested_nvmInert (nvmScope True) s
  unfold unlockEraseKey
  refine checked_inNvm ?_
  rw [setNvmState_bind_run]
  simp only [Act.get_bind_run, Act.ite_run]
  split
  · exact checked_stays (stays_pure ()) (Rested.check h .check)
  · obtain ⟨s1, e1⟩ : ∃ s1, noteNvmOp (s.setNvm { s.nvm with nvmState := .check }) = .ok () s1 :=
      ⟨_, rfl⟩
    have q1 : Rested (nvmScope True) s s1 :=
      (rested_note (C := NvmCode) trivial s).ok (Rested.check h .check) e1
    have hp : s1.ses.sesState = .programming := by
      simp only [noteNvmOp, Act.modify_run, EStateM.Result.ok.injEq, true_and] at e1
      subst e1
      rcases hm with hm | hm <;> simp [hm]
    rw [Act.bind_ok e1]
    have hkw := (o.toOver.keyWriteOp q1 (k := s.ses.profile.keyErase) (by rw [q1.cfg_eq]; exact hk))
    have hses := (blocks_exch s1.nvm s1.ses).keyWriteOp (s := s1) ⟨rfl, rfl⟩
      (k := s.ses.profile.keyErase) (by rw [q1.cfg_eq]; exact hk)
    refine ⟨fun a t e => ?_, fun e t he => ?_⟩
    · cases hx : keyWriteOp s.ses.profile.keyErase s1 with
      | error e2 t2 =>
        rw [show (keyWriteOp (s.setNvm { s.nvm with nvmState := .check }).ses.profile.keyErase >>= _) s1
          = _ from Act.bind_error hx] at e
        simp at e
      | ok a2 t2 =>
        rw [show (keyWriteOp (s.setNvm { s.nvm with nvmState := .check }).ses.profile.keyErase >>= _) s1
          = _ from Act.bind_ok hx] at e
        simp only [Act.modify_run, EStateM.Result.ok.injEq, true_and] at e
        subst e
        have r2 := hkw.1 _ _ hx
        have m2 : t2.ses.sesState = .programming := by rw [(hses.1 _ _ hx).2]; exact hp
        exact ⟨⟨{ r2.1.1 with
          profile := r2.1.1.profile
          key := .inr ⟨trivial, rfl, m2⟩ }, r2.1.2⟩, r2.2⟩
    · cases hx : keyWriteOp s.ses.profile.keyErase s1 with
      | error e2 t2 =>
        rw [show (keyWriteOp (s.setNvm { s.nvm with nvmState := .check }).ses.profile.keyErase >>= _) s1
          = _ from Act.bind_error hx] at he
        simp only [EStateM.Result.error.injEq] at he
        obtain ⟨rfl, rfl⟩ := he
        exact .inl ⟨(hkw.2 _ _ hx).1, .inl (hkw.2 _ _ hx).2⟩
      | ok a2 t2 =>
        rw [show (keyWriteOp (s.setNvm { s.nvm with nvmState := .check }).ses.profile.keyErase >>= _) s1
          = _ from Act.bind_ok hx] at he
        simp at he

/-- What the body of an NVM command can do, in a session with a valid profile. -/
theorem nvmBody_checked {i : Instr} (h : SequencersIdle s) (hi : admOf i = .nvmMode)
    (hm : s.ses.sesState = .unlocked ∨ s.ses.sesState = .programming)
    (hp : profileValid s.cfg s.ses.profile = true) :
    Checked (NvmDone (nvmScope (i = .unlockChipEraseKey)) s) NvmCode s (bodyOf i s) := by
  have hk : s.ses.profile.keyErase.length = s.cfg.keyLen := by
    simp only [profileValid, Bool.and_eq_true, decide_eq_true_eq] at hp; exact hp.1.2
  cases i with
  | unlockChipEraseKey =>
    rw [show nvmScope (Instr.unlockChipEraseKey = .unlockChipEraseKey) = nvmScope True by simp]
    exact (unlock_checked h hm hk).noData
  | waitNvmReady => exact (waitCommand_checked h).noData
  | chipErase => exact (eraseWhole_checked h _ _).noData
  | writePage r o d => exact (writePage_checked h hp _ _ _).noData
  | readBytes r o n => exact readBytes_checked h _ _ _
  | readFuse i => exact readFuse_checked h _
  | writeFuse i v => exact (writeFuse_checked h _ _).noData
  | erasePage r o => exact (erasePage_checked h _ _).noData
  | eepromErase => exact (eraseWhole_checked h _ _).noData
  | ldcs a => cases hi
  | stcs a v => cases hi
  | lds1 a => cases hi
  | lds2 a => cases hi
  | lds3 a => cases hi
  | sts1 a v => cases hi
  | sts2 a v => cases hi
  | sts3 a v => cases hi
  | stptr1 p => cases hi
  | stptr2 p => cases hi
  | stptr3 p => cases hi
  | ldptr1 => cases hi
  | ldptr2 => cases hi
  | ldptr3 => cases hi
  | stinc v more => cases hi
  | ldinc more => cases hi
  | repeatNext n => cases hi
  | key ks => cases hi
  | getStatus => cases hi
  | openSession p port => cases hi
  | enterProgrammingMode => cases hi
  | closeSession r => cases hi
  | initLink => cases hi
  | sendBytes bs => cases hi
  | receiveBytes n t => cases hi
  | csRead a => cases hi
  | csWrite a v => cases hi
  | lds a n => cases hi
  | sts a v n => cases hi
  | stPtr a => cases hi
  | ldPtr => cases hi
  | stPtrInc b r => cases hi
  | ldPtrInc n r => cases hi
  | keyWrite ks => cases hi
  | crcCheck => cases hi

end Sys2Proof.Machine
end

