-- ==== Sys2Proof/Laws/Commands.lean ====
section
/-! SUPPORT. What every command can do, said once: closing, opening, entering programming mode, taking an
error, and the shape of every instruction's next state. -/

namespace Sys2Proof.Machine

variable {α β : Type} {C : Code → Prop} {s s0 t : State}

/-! ### Closing (43_session.md R266, 60_exceptions.md R288) -/

/-- `t` is what the body of `close` leaves of `s`. -/
structure Left (s t : State) : Prop where
  cfg : t.cfg = s.cfg
  inputs : t.inputs = s.inputs
  rsp : t.rsp = s.rsp
  profile : t.ses.profile = s.ses.profile
  syncAttempt : t.phy.syncAttempt = s.phy.syncAttempt
  baud : t.phy.baudCur = s.phy.baudCur
  line : s.phy.line.lineTx = true → s.phy.line.txCnt = 0 →
    t.phy.line.lineTx = true ∧ t.phy.line.txCnt = 0
  frameErr : s.phy.line.frameErr = true → t.phy.line.frameErr = true
  now : s.now ≤ t.now
  trace : ∃ ev, t.trace = s.trace ++ ev ∧ ∀ e ∈ ev, e.isBreak = false
  env : s.env.wf → t.env.wf
  closed : SessionClosed t
  idle : SequencersIdle t
  fifo : t.phy.line.rxFifo = []

/-- A session's operation that may write nothing beyond the line, DL's registers and the polling
registers. -/
def plainScope : Scope := ⟨False, False, False⟩

theorem closeLine_stays (r : Bool) (s0 : State) : Stays (InSession plainScope s0) (fun _ => False) (closeLine r) := by
  have o := (inSession_inert plainScope s0).exch
  have w : ∀ (a : CsAddr) (v : Byte),
      Stays (InSession plainScope s0) (fun _ => False) (attempt (csWrite a.toNat v.toNat)) := fun a v =>
    stays_attempt (o.csWrite (by have := a.isLt; omega) (by have := v.isLt; omega))
  unfold closeLine
  refine stays_get_bind fun s _ => ?_
  refine stays_bind (w _ _) fun _ => ?_
  refine stays_ite (fun _ => ?_) fun _ => stays_pure _
  exact stays_bind (w _ _) fun _ => w _ _

/-- Releasing the transport and ending the session, after steps that stayed in it. -/
theorem left_released {u : State} (h : InSession plainScope s u) : Left s u.released where
  cfg := h.cfg
  inputs := h.inputs
  rsp := h.rsp
  profile := h.profile
  syncAttempt := h.syncAttempt.resolve_right id
  baud := h.baud.resolve_right And.left
  line := h.line
  frameErr := h.frameErr
  now := h.now
  trace := by
    obtain ⟨ev, e1, e2⟩ := h.trace
    exact ⟨ev, e1, e2.resolve_left id⟩
  env := h.env
  closed := ⟨rfl, rfl, rfl, rfl⟩
  idle := ⟨rfl, rfl, rfl, rfl⟩
  fifo := rfl

/-- What `TrClose` does to a state, whether it completes or fails. -/
structure ClosedPort (u v : State) : Prop where
  cfg : v.cfg = u.cfg
  inputs : v.inputs = u.inputs
  rsp : v.rsp = u.rsp
  profile : v.ses.profile = u.ses.profile
  mode : v.ses.sesState = u.ses.sesState
  nvm : v.nvm = u.nvm
  syncAttempt : v.phy.syncAttempt = u.phy.syncAttempt
  baud : v.phy.baudCur = u.phy.baudCur
  line : u.phy.line.lineTx = true → u.phy.line.txCnt = 0 →
    v.phy.line.lineTx = true ∧ v.phy.line.txCnt = 0
  frameErr : u.phy.line.frameErr = true → v.phy.line.frameErr = true
  now : u.now ≤ v.now
  trace : ∃ ev, v.trace = u.trace ++ ev ∧ ∀ e ∈ ev, e.isBreak = false
  env : u.env.wf → v.env.wf

theorem trClose_effect (u : State) : ClosedPort u (effect trClose u) := by
  cases hd : (u.draw .trClose).ioerror with
  | true =>
    rw [effect_error (trClose_error hd)]
    have h := (InSession.refl plainScope u).failedAt .trClose .trClose (u.draw .trClose).drive
    obtain ⟨ev, e1, e2⟩ := h.trace
    exact ⟨h.cfg, h.inputs, h.rsp, h.profile, by simp, by simp, h.syncAttempt.resolve_right id,
      h.baud.resolve_right And.left, h.line, h.frameErr, h.now, ⟨ev, e1, e2.resolve_left id⟩, h.env⟩
  | false =>
    rw [effect_ok (trClose_ok hd)]
    have hl := listen_line (s := u.drawn .trClose) (u.draw .trClose).drive
    refine ⟨by simp, by simp, by simp, rfl, rfl, by simp, ?_, ?_, ?_, ?_, by simp, ?_, ?_⟩
    · show ((u.drawn .trClose).listen _).phy.syncAttempt = _; rw [hl.2.2]; rfl
    · show ((u.drawn .trClose).listen _).phy.baudCur = _; rw [hl.2.2]; rfl
    · exact fun h1 h2 => ⟨rfl, (hl.1 h1 h2).2⟩
    · exact hl.2.1
    · exact ⟨_, by simp; rfl, fun e he => by rw [List.mem_singleton.mp he]; rfl⟩
    · intro hw; simpa using Env.answer_wf hw _

theorem attempt_run (x : Act α) (s : State) : attempt x s = .ok () (effect x s) := by
  unfold attempt effect; cases x s <;> rfl

theorem left_trClose {u : State} (h : InSession plainScope s u) :
    ∃ v, attempt trClose u = .ok () v ∧ Left s v.released := by
  have hc := trClose_effect u
  refine ⟨_, attempt_run _ _, ?_⟩
  exact
    { cfg := hc.cfg.trans h.cfg
      inputs := hc.inputs.trans h.inputs
      rsp := hc.rsp.trans h.rsp
      profile := hc.profile.trans h.profile
      syncAttempt := hc.syncAttempt.trans (h.syncAttempt.resolve_right id)
      baud := hc.baud.trans (h.baud.resolve_right And.left)
      line := fun h1 h2 => hc.line (h.line h1 h2).1 (h.line h1 h2).2
      frameErr := fun h1 => hc.frameErr (h.frameErr h1)
      now := h.now.trans hc.now
      trace := by
        obtain ⟨ev, e1, e2⟩ := h.trace
        obtain ⟨ev', e3, e4⟩ := hc.trace
        refine ⟨ev ++ ev', by show (effect trClose u).trace = _; rw [e3, e1, List.append_assoc], ?_⟩
        intro e he
        rcases List.mem_append.mp he with he | he
        · exact e2.resolve_left id e he
        · exact e4 e he
      env := fun hw => hc.env (h.env hw)
      closed := ⟨rfl, rfl, rfl, rfl⟩
      idle := ⟨rfl, rfl, rfl, rfl⟩
      fifo := rfl }

/-- `close` never fails, and this is what it leaves. -/
theorem closeBody_left (r : Bool) (s : State) : ∃ t, closeBody r s = .ok () t ∧ Left s t := by
  unfold closeBody
  rw [Act.get_bind_run]
  cases ho : s.ses.trOpen with
  | false => exact ⟨s.released, rfl, left_released (InSession.refl _ s)⟩
  | true =>
    simp only [if_true]
    cases hl : s.phy.linkUp with
    | false =>
      obtain ⟨v, hv, h⟩ := left_trClose (InSession.refl plainScope s)
      refine ⟨v.released, ?_, h⟩
      simp only [Bool.false_eq_true, if_false]
      rw [Act.bind_ok hv]; rfl
    | true =>
      simp only [if_true]
      have hst := closeLine_stays r s
      cases hx : closeLine r s with
      | error e u => exact (hst.error (InSession.refl _ s) hx).2.elim
      | ok a u =>
        obtain ⟨v, hv, h⟩ := left_trClose (hst.ok (InSession.refl _ s) hx)
        refine ⟨v.released, ?_, h⟩
        rw [Act.bind_ok hx, Act.bind_ok hv]; rfl

/-! ### Opening (43_session.md R260) -/

/-- `t` is what a successful `open` makes of `s`. -/
structure Opened (p : Profile) (s t : State) : Prop where
  valid : profileValid s.cfg p = true
  cfg : t.cfg = s.cfg
  inputs : t.inputs = s.inputs
  profile : t.ses.profile = p
  trOpen : t.ses.trOpen = true
  mode : t.ses.sesState = .linkEstablished
  linkUp : t.phy.linkUp = true
  baud : t.phy.baudCur = s.cfg.baud
  key : t.nvm.eraseKeySent = false
  line : s.phy.line.txCnt = 0 → t.phy.line.lineTx = true ∧ t.phy.line.txCnt = 0
  now : s.now ≤ t.now
  trace : ∃ ev, t.trace = s.trace ++ ev
  env : s.env.wf → t.env.wf
  idle : SequencersIdle t

/-- `t` is what a failed `open` leaves of `s`. -/
structure Unopened (s t : State) : Prop where
  cfg : t.cfg = s.cfg
  inputs : t.inputs = s.inputs
  trOpen : t.ses.trOpen = false
  mode : t.ses.sesState = s.ses.sesState
  linkUp : t.phy.linkUp = false
  key : t.nvm.eraseKeySent = s.nvm.eraseKeySent
  line : s.phy.line.lineTx = true → s.phy.line.txCnt = 0 →
    t.phy.line.lineTx = true ∧ t.phy.line.txCnt = 0
  now : s.now ≤ t.now
  trace : ∃ ev, t.trace = s.trace ++ ev
  env : s.env.wf → t.env.wf

theorem openWrites_stays {I : State → Prop} (o : Over I) (ws : List (CsAddr × Byte)) :
    Stays I LinkCode (openWrites ws) := by
  induction ws with
  | nil => exact stays_pure _
  | cons w ws ih =>
    obtain ⟨a, v⟩ := w
    exact stays_bind (o.csWrite (by have := a.isLt; omega) (by have := v.isLt; omega)) fun _ => ih

/-- The session being opened: the transport is owned and the profile latched. -/
theorem acquire_cases (port : Nat) (s : State) :
    (∃ e, acquire port s.cfg.baud s = .error e (s.failedAt (.trOpen port s.cfg.baud)
      (.trOpen port s.cfg.baud) (s.draw (.trOpen port s.cfg.baud)).drive) ∧ e.code = .transport) ∨
    (∃ u, acquire port s.cfg.baud s = .ok () u ∧ u.cfg = s.cfg ∧ u.inputs = s.inputs ∧
      u.rsp = s.rsp ∧ u.ses = { s.ses with trOpen := true } ∧ u.nvm = s.nvm ∧ u.dl = s.dl ∧
      u.phy = { s.phy with
        baudCur := s.cfg.baud
        line := { s.phy.line with
          frameErr := false, rxFifo := [], lineTx := true, rxCnt := 0, rxPrev := true } } ∧
      s.now ≤ u.now ∧ (∃ ev, u.trace = s.trace ++ ev) ∧ (s.env.wf → u.env.wf)) := by
  cases hd : (s.draw (.trOpen port s.cfg.baud)).ioerror with
  | true => exact .inl ⟨_, by simp only [acquire, trOpen_error hd]; rfl, rfl⟩
  | false =>
    refine .inr ⟨_, by simp only [acquire, trOpen_ok hd]; rfl, ?_⟩
    refine ⟨rfl, rfl, rfl, rfl, rfl, rfl, rfl, ?_, ?_, ?_⟩
    · show s.now ≤ s.now + _; omega
    · exact ⟨_, rfl⟩
    · exact fun hw => Env.answer_wf hw _

/-- Where `open` stands while the link is being established. -/
structure Opening (p : Profile) (s u : State) : Prop where
  cfg : u.cfg = s.cfg
  inputs : u.inputs = s.inputs
  ses : u.ses = { s.ses with trOpen := true, profile := p }
  key : u.nvm = s.nvm
  baud : u.phy.baudCur = s.cfg.baud
  line : s.phy.line.txCnt = 0 → u.phy.line.lineTx = true ∧ u.phy.line.txCnt = 0
  now : s.now ≤ u.now
  trace : ∃ ev, u.trace = s.trace ++ ev
  env : s.env.wf → u.env.wf

theorem Opening.step {p : Profile} {u v : State} {k : Scope} (h : Opening p s u)
    (hi : InSession k u v) (hn : v.nvm = u.nvm) (hs : v.ses = u.ses) : Opening p s v where
  cfg := hi.cfg.trans h.cfg
  inputs := hi.inputs.trans h.inputs
  ses := hs.trans h.ses
  key := hn.trans h.key
  baud := by
    rcases hi.baud with e | ⟨_, e⟩
    · rw [e]; exact h.baud
    · rw [e, h.cfg]
  line := fun hl => hi.line (h.line hl).1 (h.line hl).2
  now := h.now.trans hi.now
  trace := by
    obtain ⟨a, ha⟩ := h.trace
    obtain ⟨b, hb, _⟩ := hi.trace
    exact ⟨a ++ b, by rw [hb, ha, List.append_assoc]⟩
  env := fun hw => hi.env (h.env hw)

/-- Establishing the link failed: the transport is released. -/
theorem Opening.fail {p : Profile} {u : State} (h : Opening p s u) :
    Unopened s (((effect trClose u).setSes { (effect trClose u).ses with trOpen := false }).setPhy
      { (effect trClose u).phy with linkUp := false }) := by
  have mode : u.ses.sesState = s.ses.sesState := by rw [h.ses]
  have hc := trClose_effect u
  exact
    { cfg := hc.cfg.trans h.cfg
      inputs := hc.inputs.trans h.inputs
      trOpen := rfl
      mode := hc.mode.trans mode
      linkUp := rfl
      key := congrArg _ (hc.nvm.trans h.key)
      line := fun _ b => hc.line (h.line b).1 (h.line b).2
      now := h.now.trans hc.now
      trace := by
        obtain ⟨a, ha⟩ := h.trace
        obtain ⟨b, hb, _⟩ := hc.trace
        exact ⟨a ++ b, by show (effect trClose u).trace = _; rw [hb, ha, List.append_assoc]⟩
      env := fun hw => hc.env (h.env hw) }

/-- A successful link initialisation (40_phy.md R140). -/
theorem phyInit_ok {a : Unit} (h : phyInit s = .ok a t) :
    t.phy.phyState = .idle ∧ t.phy.linkUp = true := by
  unfold phyInit at h
  unfold inPhy at h
  split at h
  · rename_i b s1 hr
    have hl : s1.phy.linkUp = true := by
      refine (show Ends (fun s => s.phy.linkUp = true) _ from ?_) s b s1 hr
      exact ends_bind fun _ => ends_bind fun _ => syncLoop_ends _
    simp only [EStateM.Result.ok.injEq] at h
    rw [← h.2]; exact ⟨rfl, hl⟩
  · simp at h

/-- The exchange inside `open`, from where the transport is owned. -/
theorem establish_cases {p : Profile} {u : State} (ws : List (CsAddr × Byte)) (ho : Opening p s u)
    (h : NoEcho u) (hd : DlRest u) :
    (∃ v, establish (do phyInit; openWrites ws) u = .ok () v ∧ Opening p s v ∧
      v.phy.linkUp = true ∧ PhyRest v ∧ DlRest v) ∨
    (∃ e v, establish (do phyInit; openWrites ws) u = .error e v ∧ Unopened s v ∧
      (e.code = .transport ∨ e.code = .deviceNotResponding)) := by
  have fail : ∀ e v, (do phyInit; openWrites ws : Act Unit) u = .error e v → Opening p s v →
      ∃ e v, establish (do phyInit; openWrites ws) u = .error e v ∧ Unopened s v ∧
        (e.code = .transport ∨ e.code = .deviceNotResponding) := fun e v he hv => by
    by_cases hc : e.code = .transport
    · exact ⟨e.named .openSession, _, by simp only [establish, he, hc, if_true], hv.fail, .inl hc⟩
    · exact ⟨e.wrapped .deviceNotResponding .openSession, _,
        by simp only [establish, he, hc, if_false], hv.fail, .inr rfl⟩
  have hi : Initing u u := ⟨⟨InSession.refl _ _, h⟩, ⟨rfl, rfl⟩, rfl⟩
  have st := initing_phyInit u u hi
  cases hx : phyInit u with
  | error e v =>
    have r := (st.2 e v hx).1
    exact .inr (fail e v (Act.bind_error hx) (ho.step r.1.1 r.2.1.1 r.2.1.2))
  | ok a v =>
    have r := st.1 a v hx
    obtain ⟨p1, p2⟩ := phyInit_ok hx
    have ov := ho.step r.1.1 r.2.1.1 r.2.1.2
    have q : Quiet plainScope v v :=
      ⟨⟨⟨InSession.refl _ _, p1, r.1.2⟩, hd.of_eq r.2.2⟩, rfl, rfl⟩
    have sw := openWrites_stays (quiet_over plainScope v) ws v q
    cases hy : openWrites ws v with
    | error e w =>
      have r2 := (sw.2 e w hy).1
      exact .inr (fail e w (by rw [Act.bind_ok hx, hy]) (ov.step r2.1.1.1 r2.2.1 r2.2.2))
    | ok b w =>
      have r2 := sw.1 b w hy
      refine .inl ⟨w, ?_, ov.step r2.1.1.1 r2.2.1 r2.2.2, ?_, r2.1.1.2, r2.1.2⟩
      · have : (do phyInit; openWrites ws : Act Unit) u = .ok b w := by rw [Act.bind_ok hx, hy]
        simp only [establish, this]
      · rw [r2.1.1.1.linkUp.resolve_right id]; exact p2

/-- Everything `open` can do once admitted. -/
theorem openOp_cases (p : Profile) (port : Nat) (h : SequencersIdle s) (ho : s.ses.trOpen = false)
    (hl : s.phy.linkUp = false) :
    (∃ t, openOp p port s = .ok () t ∧ Opened p s t) ∨
    (∃ e t, openOp p port s = .error e t ∧ Unopened s t ∧
      (e.code = .transport ∨ e.code = .deviceNotResponding)) ∨
    openOp p port s = .error { code := .refused, info := {} } s := by
  unfold openOp
  rw [Act.get_bind_run]
  cases hv : profileValid s.cfg p with
  | false => exact .inr (.inr rfl)
  | true =>
    rw [demand_true_bind_run]
    rcases acquire_cases port s with ⟨e, he, hc⟩ | ⟨u, hu, c1, c2, c3, c4, c5, c6, c7, c8, c9, c10⟩
    · rw [Act.bind_error he]
      have hf := (InSession.refl plainScope s).failedAt (.trOpen port s.cfg.baud)
        (.trOpen port s.cfg.baud) (s.draw (.trOpen port s.cfg.baud)).drive
      obtain ⟨ev, hev, _⟩ := hf.trace
      exact .inr (.inl ⟨e, _, rfl, ⟨hf.cfg, hf.inputs, hf.trOpen.trans ho, by simp,
        (hf.linkUp.resolve_right id).trans hl, by simp, hf.line, hf.now, ⟨ev, hev⟩, hf.env⟩, .inl hc⟩)
    · rw [Act.bind_ok hu, Act.modify_bind_run]
      have op : Opening p s (u.setSes { u.ses with profile := p }) := by
        refine ⟨c1, c2, ?_, c5, ?_, ?_, c8, c9, c10⟩
        · show ({ u.ses with profile := p } : Ses) = _
          rw [c4]
        · show u.phy.baudCur = _
          rw [c7]
        · intro hc
          show u.phy.line.lineTx = true ∧ u.phy.line.txCnt = 0
          rw [c7]; exact ⟨rfl, hc⟩
      have hne : NoEcho (u.setSes { u.ses with profile := p }) := by
        show u.phy.echoPending = 0
        rw [c7]; exact h.noEcho
      have hdr : DlRest (u.setSes { u.ses with profile := p }) := by
        show u.dl.dlState = .idle
        rw [c6]; exact h.dlIdle
      rcases establish_cases s.cfg.openCsWrites op hne hdr with
        ⟨v, e1, o1, l1, p1, d1⟩ | ⟨e, v, e1, o1, hc⟩
      · rw [Act.bind_ok e1]
        refine .inl ⟨_, rfl, ?_⟩
        exact {
          valid := hv
          cfg := o1.cfg
          inputs := o1.inputs
          profile := by show v.ses.profile = p; rw [o1.ses]
          trOpen := by show v.ses.trOpen = true; rw [o1.ses]
          mode := rfl
          linkUp := l1
          baud := o1.baud
          key := rfl
          line := o1.line
          now := o1.now
          trace := o1.trace
          env := o1.env
          idle := ⟨p1.1, d1, by show v.nvm.nvmState = .idle; rw [o1.key]; exact h.nvmIdle, p1.2⟩ }
      · rw [Act.bind_error e1]
        exact .inr (.inl ⟨e, v, rfl, o1, hc⟩)

/-! ### Entering programming mode (43_session.md R263) -/

/-- Everything `enter_programming_mode` can do in a session with a valid profile. -/
theorem enterOp_cases (h : SequencersIdle s) (hk : s.ses.profile.keyProg.length = s.cfg.keyLen) :
    (∃ u, enterOp s = .ok () (u.setSes { u.ses with sesState := .unlocked }) ∧ Quiet plainScope s u) ∨
    (∃ e u, enterOp s = .error e u ∧ Quiet plainScope s u ∧
      (e.code = .transport ∨ e.code = .unlock)) := by
  have q := Quiet.refl plainScope h
  have o := quiet_over plainScope s
  have hx := o.keyWriteOp q hk
  have ex : (∃ v u, unlockExchange (do
        keyWriteOp s.ses.profile.keyProg
        csRead s.cfg.csProgStatusAddr.toNat) s = .ok v u ∧ Quiet plainScope s u) ∨
      (∃ e u, unlockExchange (do
        keyWriteOp s.ses.profile.keyProg
        csRead s.cfg.csProgStatusAddr.toNat) s = .error e u ∧ Quiet plainScope s u ∧
        (e.code = .transport ∨ e.code = .unlock)) := by
    have fail : ∀ e u, (do
        keyWriteOp s.ses.profile.keyProg
        csRead s.cfg.csProgStatusAddr.toNat : Act Byte) s = .error e u → Quiet plainScope s u →
        ∃ e u, unlockExchange (do
          keyWriteOp s.ses.profile.keyProg
          csRead s.cfg.csProgStatusAddr.toNat) s = .error e u ∧ Quiet plainScope s u ∧
          (e.code = .transport ∨ e.code = .unlock) := fun e u he hq => by
      by_cases hc : e.code = .transport
      · exact ⟨e.named .enterProgrammingMode, u, by simp only [unlockExchange, he, hc, if_true], hq,
          .inl hc⟩
      · exact ⟨e.wrapped .unlock .enterProgrammingMode, u,
          by simp only [unlockExchange, he, hc, if_false], hq, .inr rfl⟩
    cases h1 : keyWriteOp s.ses.profile.keyProg s with
    | error e u => exact .inr (fail e u (Act.bind_error h1) (hx.2 e u h1).1)
    | ok a u =>
      have q1 := hx.1 a u h1
      have hr := o.csRead (a := s.cfg.csProgStatusAddr.toNat)
        (by have := s.cfg.csProgStatusAddr.isLt; omega) u q1
      cases h2 : csRead s.cfg.csProgStatusAddr.toNat u with
      | error e w => exact .inr (fail e w (by rw [Act.bind_ok h1, h2]) (hr.2 e w h2).1)
      | ok v w =>
        refine .inl ⟨v, w, ?_, hr.1 v w h2⟩
        have : (do
          keyWriteOp s.ses.profile.keyProg
          csRead s.cfg.csProgStatusAddr.toNat : Act Byte) s = .ok v w := by rw [Act.bind_ok h1, h2]
        simp only [unlockExchange, this]
  unfold enterOp
  rw [Act.get_bind_run]
  rcases ex with ⟨v, u, e1, q1⟩ | ⟨e, u, e1, q1, hc⟩
  · rw [Act.bind_ok e1]
    cases hs : showsProgMode s.cfg v with
    | true => exact .inl ⟨u, by simp, q1⟩
    | false => exact .inr ⟨_, u, by simp; rfl, q1, .inr rfl⟩
  · rw [Act.bind_error e1]
    exact .inr ⟨e, u, rfl, q1, hc⟩

/-! ### Taking an error (60_exceptions.md R284, R286, R288) -/

theorem InSession.idle {k : Scope} {u : State} (h : InSession k s u) : InSession k s u.sequencersIdle :=
  h.port rfl rfl rfl rfl rfl (.inl rfl) (.inl rfl) (.inl rfl) (fun a b => ⟨a, b⟩) id (le_refl _)
    ⟨[], by simp [State.sequencersIdle], .inr (by simp)⟩ id

/-- The forced cleanup is the body of `close`, which never fails. -/
theorem forcedCleanup_left (s : State) : Left s s.forcedCleanup := by
  obtain ⟨t, h1, h2⟩ := closeBody_left s.cfg.cleanupReset s
  unfold State.forcedCleanup
  rw [effect_ok h1]
  exact { h2 with
    profile := h2.profile
    closed := ⟨h2.closed.mode, h2.closed.transport, h2.closed.link, h2.closed.key⟩
    idle := ⟨h2.idle.phyIdle, rfl, h2.idle.nvmIdle, h2.idle.noEcho⟩ }

/-- The state in which an accepted command's body starts (30_encoding.md R117). -/
def State.accepted (s : State) : State := s.setRsp { s.rsp with busy := true }

/-- What an instruction other than `open` and `close` may do of what `Scope` names. -/
def scopeOf (i : Instr) : Scope :=
  if admOf i = .nvmMode then nvmScope (i = .unlockChipEraseKey)
  else if i = .initLink then initScope
  else plainScope

/-- How an instruction accepted in a state between commands ends. -/
inductive Ended (i : Instr) (s t : State) : Prop where
  /-- Nothing was done (60_exceptions.md R283). -/
  | refused (h : t = s.refusal)
  /-- A caller error, nothing done (R286). -/
  | caller (e : Err) (hc : CallCode e.code) (hr : e.code ≠ .refused) (h : t = s.respondError e)
  /-- `OK`. -/
  | done (data : List Byte) (u : State) (ho : isOpen i = false) (hc : isClose i = false)
      (he : i ≠ .enterProgrammingMode) (h : InSession (scopeOf i) s.accepted u)
      (hi : SequencersIdle u) (hl : i = .initLink → u.phy.linkUp = true)
      (ht : t = u.respondOk data)
  /-- A link or NVM error: the session is closed (R286, R288). -/
  | failed (e : Err) (u v : State) (ho : isOpen i = false) (hc : isClose i = false)
      (he : needsCleanup e.code = true) (h : InSession (scopeOf i) s.accepted u) (hv : Left u v)
      (ht : t = v.respondError e)
  /-- `enter_programming_mode` ended `OK`. -/
  | entered (u : State) (hi : i = .enterProgrammingMode) (h : Quiet plainScope s.accepted u)
      (hn : SequencersIdle u)
      (ht : t = (u.setSes { u.ses with sesState := .unlocked }).respondOk [])
  /-- `enter_programming_mode` ended in `UnlockError`. -/
  | locked (e : Err) (u : State) (hi : i = .enterProgrammingMode) (hc : e.code = .unlock)
      (h : Quiet plainScope s.accepted u) (hn : SequencersIdle u) (ht : t = u.respondError e)
  /-- `close`. -/
  | closed (u : State) (hi : isClose i = true) (h : Left s.accepted u) (ht : t = u.respondOk [])
  /-- `open` ended `OK`. -/
  | opened (p : Profile) (port : Nat) (u : State) (hi : i = .openSession p port)
      (h : Opened p s.accepted u) (ht : t = u.respondOk [])
  /-- `open` failed. -/
  | unopened (e : Err) (u : State) (hi : isOpen i = true)
      (hc : e.code = .transport ∨ e.code = .deviceNotResponding) (h : Unopened s.accepted u)
      (hn : SequencersIdle u) (ht : t = u.respondError e)

theorem accepted_idle (h : SequencersIdle s) : SequencersIdle s.accepted := ⟨h.1, h.2, h.3, h.4⟩

theorem sequencersIdle_eq (h : SequencersIdle s) : s.sequencersIdle = s := by
  obtain ⟨h1, h2, h3, h4⟩ := h
  obtain ⟨cfg, ses, phy, dl, nvm, rsp, env, now, inputs, trace⟩ := s
  obtain ⟨p1, p2, p3, p4, p5, p6⟩ := phy
  obtain ⟨d1, d2, d3, d4, d5, d6, d7, d8⟩ := dl
  obtain ⟨n1, n2, n3, n4, n5⟩ := nvm
  simp only at h1 h2 h3 h4
  subst h1 h2 h3 h4
  rfl

/-- A refusal delivered where nothing was done. -/
theorem refused_of_accepted (h : SequencersIdle s) (hb : s.rsp.busy = false) {u : State}
    (e : u.sequencersIdle = s.accepted.sequencersIdle) : u.sequencersIdle.respondRefused = s.refusal := by
  rw [e, sequencersIdle_eq (accepted_idle h)]
  obtain ⟨cfg, ses, phy, dl, nvm, rsp, env, now, inputs, trace⟩ := s
  rfl

theorem respondError_of_accepted (h : SequencersIdle s) {u : State} (e : Err)
    (he : u.sequencersIdle = s.accepted.sequencersIdle) :
    u.sequencersIdle.respondError e = s.respondError e := by
  rw [he, sequencersIdle_eq (accepted_idle h)]
  rfl

/-- A body that keeps what the checks of its layer ask, delivered. -/
theorem ended_of_checked {i : Instr} {I : State → Prop} (h : SequencersIdle s) (hb : s.rsp.busy = false)
    (ha : allowed i s.ses.sesState = true) (ho : isOpen i = false) (hc : isClose i = false)
    (he : i ≠ .enterProgrammingMode)
    (hx : Checked I C s.accepted (bodyOf i s.accepted))
    (hI : ∀ u, I u → InSession (scopeOf i) s.accepted u)
    (hok : ∀ data u, bodyOf i s.accepted = .ok data u → I u →
      SequencersIdle u ∧ (i = .initLink → u.phy.linkUp = true))
    (hC : ∀ c, C c → needsCleanup c = true) : ∃ t, exec i s = .next t ∧ Ended i s t := by
  rw [exec_eq, ho, hc]
  have ha' : admits (admOf i) s.ses.sesState = true := by rw [admits_admOf]; exact ha
  cases hr : bodyOf i s.accepted with
  | ok data u =>
    have hu := hx.1 data u hr
    obtain ⟨q1, q2⟩ := hok data u hr hu
    exact ⟨_, runCommand_ok hb ha' hr, .done data u ho hc he (hI u hu) q1 q2 rfl⟩
  | error e u =>
    refine ⟨_, runCommand_error hb ha' hr, ?_⟩
    rcases hx.2 e u hr with ⟨hu, hcode⟩ | ⟨hcode, hu⟩
    · have hn := hC _ hcode
      have hne : e.code ≠ .refused := fun hh => by rw [hh] at hn; cases hn
      refine .failed e u.sequencersIdle u.sequencersIdle.forcedCleanup ho hc hn (hI u hu).idle
        (forcedCleanup_left _) ?_
      simp only [State.deliver, hne, hn, if_false, if_true, Bool.or_self, Bool.not_false, Bool.and_self]
    · by_cases hne : e.code = .refused
      · refine .refused ?_
        simp only [State.deliver, hne, if_true]
        exact refused_of_accepted h hb hu
      · have hn : needsCleanup e.code = false := by
          rcases hcode with hh | hh | hh | hh
          · exact absurd hh hne
          · rw [hh]; rfl
          · rw [hh]; rfl
          · rw [hh]; rfl
        refine .caller e hcode hne ?_
        simp only [State.deliver, hne, hn, if_false, Bool.and_false, Bool.false_eq_true]
        exact respondError_of_accepted h e hu

theorem needsCleanup_link {c : Code} (h : LinkCode c) : needsCleanup c = true := by
  rcases h with h | h | h <;> rw [h] <;> rfl

theorem needsCleanup_init {c : Code} (h : InitCode c) : needsCleanup c = true := by
  rcases h with h | h <;> rw [h] <;> rfl

theorem needsCleanup_nvm {c : Code} (h : NvmCode c) : needsCleanup c = true := by
  rcases h with h | h
  · exact needsCleanup_link h
  · rw [h]; rfl

/-- Everything an instruction accepted between commands can do. -/
theorem exec_ended (i : Instr) (hb : s.rsp.busy = false) (hi : Inv s) :
    ∃ t, exec i s = .next t ∧ Ended i s t := by
  have h := hi.idle
  cases hal : allowed i s.ses.sesState with
  | false =>
    refine ⟨s.refusal, ?_, .refused rfl⟩
    rw [exec_eq]
    exact runCommand_refused hb (by rw [admits_admOf]; exact hal)
  | true =>
    have hopen : s.ses.sesState ≠ .closed → profileValid s.cfg s.ses.profile = true := fun hne =>
      hi.profileOk (by
        cases ht : s.ses.trOpen with
        | true => rfl
        | false => exact absurd (hi.closedIff.mpr ht) hne)
    have link : admOf i = .inSession → isOpen i = false → isClose i = false →
        i ≠ .enterProgrammingMode → ∃ t, exec i s = .next t ∧ Ended i s t := fun hadm ho hc he => by
      by_cases hin : i = .initLink
      · subst hin
        have st := initing_phyInit s.accepted
        have i0 : Initing s.accepted s.accepted := ⟨⟨InSession.refl _ _, h.noEcho⟩, ⟨rfl, rfl⟩, rfl⟩
        refine ended_of_checked h hb hal rfl rfl (by simp) (checked_stays (stays_drop st) i0)
          (fun u hu => hu.1.1) ?_ (fun _ => needsCleanup_init)
        intro data u hr hu
        cases hx : phyInit s.accepted with
        | error e v => rw [show bodyOf .initLink s.accepted = _ from noData_error hx] at hr; simp at hr
        | ok a v =>
          rw [show bodyOf .initLink s.accepted = _ from noData_ok hx] at hr
          simp only [EStateM.Result.ok.injEq] at hr
          obtain ⟨-, rfl⟩ := hr
          obtain ⟨p1, p2⟩ := phyInit_ok hx
          exact ⟨⟨p1, by rw [hu.2.2]; exact h.dlIdle, by rw [hu.2.1.1]; exact h.nvmIdle, hu.1.2⟩,
            fun _ => p2⟩
      · have hsc : scopeOf i = plainScope := by simp [scopeOf, hadm, hin]
        refine ended_of_checked h hb hal ho hc he
          (linkBody_checked plainScope (accepted_idle h) hadm hin) (fun u hu => hsc ▸ hu.1.1.1) ?_
          (fun _ => needsCleanup_link)
        intro data u _ hu
        exact ⟨⟨hu.1.1.2.1, hu.1.2, by rw [hu.2.1]; exact h.nvmIdle, hu.1.1.2.2⟩,
          fun hh => absurd hh hin⟩
    have nvm : admOf i = .nvmMode → isOpen i = false → isClose i = false →
        i ≠ .enterProgrammingMode → ∃ t, exec i s = .next t ∧ Ended i s t := fun hadm ho hc he => by
      have hm : s.ses.sesState = .unlocked ∨ s.ses.sesState = .programming := by
        rw [← admits_admOf, hadm] at hal
        cases hm : s.ses.sesState <;> rw [hm] at hal <;> simp_all [admits]
      have hp := hopen (by rcases hm with hm | hm <;> rw [hm] <;> simp)
      have hsc : scopeOf i = nvmScope (i = .unlockChipEraseKey) := by simp [scopeOf, hadm]
      refine ended_of_checked h hb hal ho hc he (nvmBody_checked (accepted_idle h) hadm hm hp)
        (fun u hu => hsc ▸ hu.1.1.1) ?_ (fun _ => needsCleanup_nvm)
      intro data u _ hu
      refine ⟨⟨hu.1.1.2.1, hu.1.2, hu.2, hu.1.1.2.2⟩, fun hh => ?_⟩
      subst hh; cases hadm
    cases i with
    | getStatus =>
      refine ⟨_, ?_, .done [statusByte s.accepted] s.accepted rfl rfl (by simp) (InSession.refl _ _)
        (accepted_idle h) (by simp) rfl⟩
      rw [exec_eq]
      exact runCommand_ok hb (by rw [admits_admOf]; exact hal) rfl
    | openSession p port =>
      have hcl : s.ses.sesState = .closed := by
        cases hm : s.ses.sesState <;> rw [hm] at hal <;> simp_all [allowed]
      have htr : s.ses.trOpen = false := hi.closedIff.mp hcl
      have hlk : s.phy.linkUp = false := by rw [hi.linkIff, htr]
      have ha' : admits (admOf (.openSession p port)) s.ses.sesState = true := by
        rw [admits_admOf]; exact hal
      rw [exec_eq]
      rcases openOp_cases p port (accepted_idle h) (s := s.accepted) htr hlk with
        ⟨u, e1, o1⟩ | ⟨e, u, e1, o1, hc⟩ | e1
      · exact ⟨_, runCommand_ok hb ha' (noData_ok e1), .opened p port u rfl o1 rfl⟩
      · refine ⟨_, runCommand_error hb ha' (noData_error e1),
          .unopened e u.sequencersIdle rfl hc ?_ ⟨rfl, rfl, rfl, rfl⟩ ?_⟩
        · exact ⟨o1.cfg, o1.inputs, o1.trOpen, o1.mode, o1.linkUp, o1.key, o1.line, o1.now, o1.trace,
            o1.env⟩
        · have hne : e.code ≠ .refused := by rcases hc with hc | hc <;> rw [hc] <;> simp
          simp [State.deliver, hne, isOpen]
      · exact ⟨_, runCommand_error hb ha' (noData_error e1),
          .refused (refused_of_accepted h hb rfl)⟩
    | enterProgrammingMode =>
      have hm : s.ses.sesState = .linkEstablished := by
        cases hm : s.ses.sesState <;> rw [hm] at hal <;> simp_all [allowed]
      have hp := hopen (by rw [hm]; simp)
      have hk : s.ses.profile.keyProg.length = s.cfg.keyLen := by
        simp only [profileValid, Bool.and_eq_true, decide_eq_true_eq] at hp; exact hp.1.1.2
      have ha' : admits (admOf .enterProgrammingMode) s.ses.sesState = true := by
        rw [admits_admOf]; exact hal
      have idle : ∀ u, Quiet plainScope s.accepted u → SequencersIdle u := fun u hu =>
        ⟨hu.1.1.2.1, hu.1.2, by rw [hu.2.1]; exact h.nvmIdle, hu.1.1.2.2⟩
      rw [exec_eq]
      rcases enterOp_cases (accepted_idle h) hk with ⟨u, e1, q⟩ | ⟨e, u, e1, q, hc⟩
      · exact ⟨_, runCommand_ok hb ha' (noData_ok e1), .entered u rfl q (idle u q) rfl⟩
      · refine ⟨_, runCommand_error hb ha' (noData_error e1), ?_⟩
        rcases hc with hc | hc
        · refine .failed e u.sequencersIdle u.sequencersIdle.forcedCleanup rfl rfl (by rw [hc]; rfl)
            q.1.1.1.idle (forcedCleanup_left _) ?_
          simp [State.deliver, hc, needsCleanup, isOpen, isClose]
        · refine .locked e u rfl hc q (idle u q) ?_
          simp [State.deliver, hc, needsCleanup, sequencersIdle_eq (idle u q)]
    | closeSession r =>
      obtain ⟨u, h1, h2⟩ := closeBody_left r s.accepted
      refine ⟨u.respondOk [], ?_, .closed u rfl h2 rfl⟩
      rw [exec_eq]
      exact runCommand_ok hb (by rw [admits_admOf]; exact hal) (noData_ok h1)
    | crcCheck => cases hal
    | unlockChipEraseKey => exact nvm rfl rfl rfl (by simp)
    | waitNvmReady => exact nvm rfl rfl rfl (by simp)
    | chipErase => exact nvm rfl rfl rfl (by simp)
    | writePage r o d => exact nvm rfl rfl rfl (by simp)
    | readBytes r o n => exact nvm rfl rfl rfl (by simp)
    | readFuse i => exact nvm rfl rfl rfl (by simp)
    | writeFuse i v => exact nvm rfl rfl rfl (by simp)
    | erasePage r o => exact nvm rfl rfl rfl (by simp)
    | eepromErase => exact nvm rfl rfl rfl (by simp)
    | ldcs a => exact link rfl rfl rfl (by simp)
    | stcs a v => exact link rfl rfl rfl (by simp)
    | lds1 a => exact link rfl rfl rfl (by simp)
    | lds2 a => exact link rfl rfl rfl (by simp)
    | lds3 a => exact link rfl rfl rfl (by simp)
    | sts1 a v => exact link rfl rfl rfl (by simp)
    | sts2 a v => exact link rfl rfl rfl (by simp)
    | sts3 a v => exact link rfl rfl rfl (by simp)
    | stptr1 p => exact link rfl rfl rfl (by simp)
    | stptr2 p => exact link rfl rfl rfl (by simp)
    | stptr3 p => exact link rfl rfl rfl (by simp)
    | ldptr1 => exact link rfl rfl rfl (by simp)
    | ldptr2 => exact link rfl rfl rfl (by simp)
    | ldptr3 => exact link rfl rfl rfl (by simp)
    | stinc v more => exact link rfl rfl rfl (by simp)
    | ldinc more => exact link rfl rfl rfl (by simp)
    | repeatNext n => exact link rfl rfl rfl (by simp)
    | key ks => exact link rfl rfl rfl (by simp)
    | initLink => exact link rfl rfl rfl (by simp)
    | sendBytes bs => exact link rfl rfl rfl (by simp)
    | receiveBytes n t => exact link rfl rfl rfl (by simp)
    | csRead a => exact link rfl rfl rfl (by simp)
    | csWrite a v => exact link rfl rfl rfl (by simp)
    | lds a n => exact link rfl rfl rfl (by simp)
    | sts a v n => exact link rfl rfl rfl (by simp)
    | stPtr a => exact link rfl rfl rfl (by simp)
    | ldPtr => exact link rfl rfl rfl (by simp)
    | stPtrInc b r => exact link rfl rfl rfl (by simp)
    | ldPtrInc n r => exact link rfl rfl rfl (by simp)
    | keyWrite ks => exact link rfl rfl rfl (by simp)

end Sys2Proof.Machine
end

