-- ==== Sys2Proof/Laws/Exchange.lean ====
section
/-! SUPPORT. What PHY's send and receive and the datalink operations over them do in a world that
answers as they need it (Safety.lean, `Plays`). -/

namespace Sys2Proof.Machine

variable {α β : Type}

/-- `t` is `s` after the given transfers: only the line halves, the environment, the clock, the trace
and PHY's sequencing differ. -/
structure Moved (s t : State) (xs : List Xfer) : Prop where
  cfg : t.cfg = s.cfg
  ses : t.ses = s.ses
  dl : t.dl = s.dl
  nvm : t.nvm = s.nvm
  rsp : t.rsp = s.rsp
  inputs : t.inputs = s.inputs
  linkUp : t.phy.linkUp = s.phy.linkUp
  syncAttempt : t.phy.syncAttempt = s.phy.syncAttempt
  baudCur : t.phy.baudCur = s.phy.baudCur
  frameErr : t.phy.line.frameErr = s.phy.line.frameErr
  phyIdle : t.phy.phyState = .idle
  noEcho : t.phy.echoPending = 0
  quiet : LineQuiet t.phy.line
  traffic : t.traffic = s.traffic ++ xs

theorem traffic_logged (s : State) (a : PortAct) (b : PortAnswer) :
    (s.logged a b).traffic = s.traffic ++
      (Event.xfer { phy := s.phy.phyState, dl := s.dl.dlState, nvm := s.nvm.nvmState, act := a,
                    answer := b }).toList := by
  simp only [State.traffic, State.logged_trace, List.filterMap_append]
  cases h : Event.xfer _ <;> simp [h]

/-- A read whose bytes stand in `rx_fifo` completes at once (40_phy.md R134). -/
theorem trRead_held {n t : Nat} {s : State} (h : (s.draw (.trRead 0 t)).ioerror = false)
    (hn : n ≤ s.phy.line.rxFifo.length) :
    trRead n t s = .ok (some (s.phy.line.rxFifo.take n))
      ((((s.drawn (.trRead 0 t)).setLine
        { s.phy.line with rxFifo := s.phy.line.rxFifo.drop n }).setNow s.now).logged (.trRead n t)
          (.bytes (s.phy.line.rxFifo.take n))) := by
  have ha : s.readAct n t = .trRead 0 t := by
    simp only [State.readAct, Nat.sub_eq_zero_of_le hn]
  have hl : s.listened n t = s.drawn (.trRead 0 t) := by
    unfold State.listened State.listenFor
    rw [ha, State.drawn_phy, listenFor_enough _ _ hn]
    split <;> rfl
  have := trRead_bytes (n := n) (t := t) (s := s) (by rw [ha]; exact h) (l := s.phy.line)
    (by rw [hl]; rfl) hn
  rw [this, hl]
  simp [hn]

/-- A read that waits for bytes which then come takes exactly them (40_phy.md R134). -/
theorem trRead_comes {bs : List Byte} {t : Nat} {s : State} (ho : s.ses.trOpen = true)
    (hq : LineQuiet s.phy.line) (hf : s.phy.line.rxFifo = []) (hne : bs ≠ []) (ht : 0 < t)
    (h : answers s.cfg.frame (s.draw (.trRead bs.length t)) bs) :
    ∃ r, trRead bs.length t s = .ok (some bs)
      ((((s.drawn (.trRead bs.length t)).setLine
        { s.phy.line with rxShift := r, rxFifo := [] }).setNow
          (s.now + min (s.draw (.trRead bs.length t)).dt (t - 1))).logged (.trRead bs.length t)
            (.bytes bs)) := by
  have ha : s.readAct bs.length t = .trRead bs.length t := by simp [State.readAct, hf]
  obtain ⟨r, hr⟩ := listenFor_begins (f := s.cfg.frame) hq h.2
  simp only [hf, List.length_nil, Nat.zero_add, List.nil_append] at hr
  have hl : s.listened bs.length t = (s.drawn (.trRead bs.length t)).setLine
      { s.phy.line with rxShift := r, rxFifo := bs } := by
    unfold State.listened
    rw [ha, State.listenFor_open _ _ _ (show (s.drawn _).ses.trOpen = true from ho), if_neg (by omega)]
    exact congrArg _ hr
  have hb : ¬ bs.length ≤ 0 := by simpa using hne
  have := trRead_bytes (n := bs.length) (t := t) (s := s) (by rw [ha]; exact h.1)
    (by rw [hl]) (le_refl bs.length)
  refine ⟨r, ?_⟩
  rw [this, hl]
  simp [hf, hb, ha]
  rfl

/-- One transmission in a world that answers it (40_phy.md R143). -/
theorem phySend_plays {c : Config} {bs : List Byte} {xs : List Xfer} {s : State} {w' : World}
    (hc : s.cfg = c) (hne : bs ≠ []) (_ho : s.ses.trOpen = true) (hq : LineQuiet s.phy.line)
    (h : Plays c (.tx bs :: xs) s.world w') :
    ∃ s', phySend bs s = .ok () s' ∧ Moved s s' [.tx bs] ∧ Plays c xs s'.world w' := by
  subst hc
  simp only [Plays, State.world_env, State.world_fifo, State.world_now] at h
  obtain ⟨hfifo', ha, hb, hp⟩ := h
  -- the transmission
  let s1 := s.setPhy { s.phy with phyState := .tx, echoPending := bs.length }
  obtain ⟨x, r, hsend⟩ := send_silent (f := s.cfg.frame) bs s.phy.line hq _ ha.silent hq.driverHigh
  obtain ⟨s2, hs2⟩ : ∃ s2, s2 = ((((s1.drawn (.trWrite bs)).setLine
      (s1.phy.line.transmit s1.cfg.frame (s1.draw (.trWrite bs)) bs)).setNow
        (s1.now + 1 + (s1.draw (.trWrite bs)).dt)).logged (.trWrite bs) .done) := ⟨_, rfl⟩
  have hw : trWrite bs s1 = .ok () s2 := by rw [hs2]; exact trWrite_ok ha.noError
  have hl2 : s2.phy.line =
      { s.phy.line with lineTx := true, txShift := x, rxShift := r, rxFifo := bs } := by
    have e : s2.phy.line = s.phy.line.send s.cfg.frame bs (s.env.answer s.cfg (.trWrite bs)).1.drive := by
      rw [hs2]
      show s.phy.line.transmit s.cfg.frame (s.env.answer s.cfg (.trWrite bs)).1 bs = _
      rw [Line.transmit, ha.heard]; rfl
    rw [e]; simpa [hfifo'] using hsend
  -- the echo
  let s3 := s2.setPhy { s2.phy with phyState := .echo }
  have henv3 : s3.env = (s.env.answer s.cfg (.trWrite bs)).2 := by
    show s2.env = _; rw [hs2]; rfl
  have hcfg3 : s3.cfg = s.cfg := by show s2.cfg = _; rw [hs2]; rfl
  have hl3 : s3.phy.line = s2.phy.line := rfl
  have hf3 : s3.phy.line.rxFifo = bs := by rw [hl3, hl2]
  have hrd := trRead_held (n := bs.length) (t := s.cfg.tEcho) (s := s3)
    (by simpa [State.draw, henv3, hcfg3] using hb) (by rw [hf3])
  simp only [hf3, List.take_length, List.drop_length] at hrd
  obtain ⟨s4, hs4⟩ : ∃ s4, s4 = ((((s3.drawn (.trRead 0 s.cfg.tEcho)).setLine
      { s3.phy.line with rxFifo := [] }).setNow s3.now).logged
        (.trRead bs.length s.cfg.tEcho) (.bytes bs)) := ⟨_, rfl⟩
  rw [← hs4] at hrd
  -- the whole operation
  let s5 := (s4.setPhy { s4.phy with echoPending := 0 })
  refine ⟨s5.setPhy { s5.phy with phyState := .idle }, ?_, ?_, ?_⟩
  · rw [phySend, if_neg hne]
    apply inPhy_ok
    rw [Act.modify_bind_run, Act.bind_ok hw, setPhyState_bind_run, Act.get_bind_run]
    have : s2.cfg.tEcho = s.cfg.tEcho := by rw [hs2]; rfl
    simp only [State.setPhy_cfg, this]
    rw [Act.bind_ok hrd]
    simp [s5]
  · have hphy4 : s4.phy = { s2.phy with
        phyState := .echo
        line := { s2.phy.line with rxFifo := [] } } := by
      rw [hs4]; rfl
    have hphy2 : s2.phy = { s.phy with
        phyState := .tx, echoPending := bs.length, line := s2.phy.line } := by
      rw [hs2]; rfl
    have ht2 : s2.traffic = s.traffic ++ [.tx bs] := by
      rw [hs2, traffic_logged]; rfl
    have ht4 : s4.traffic = s2.traffic := by
      rw [hs4, traffic_logged]
      simp [Event.xfer, s3, State.traffic]
    refine ⟨?_, ?_, ?_, ?_, ?_, ?_, ?_, ?_, ?_, ?_, rfl, rfl, ?_, ?_⟩
    · show s4.cfg = _; rw [hs4]; simp [hcfg3]
    · show s4.ses = _; rw [hs4]; simp [s3]; rw [hs2]; rfl
    · show s4.dl = _; rw [hs4]; simp [s3]; rw [hs2]; rfl
    · show s4.nvm = _; rw [hs4]; simp [s3]; rw [hs2]; rfl
    · show s4.rsp = _; rw [hs4]; simp [s3]; rw [hs2]; rfl
    · show s4.inputs = _; rw [hs4]; simp [s3]; rw [hs2]; rfl
    · show s4.phy.linkUp = _; rw [hphy4, hphy2]
    · show s4.phy.syncAttempt = _; rw [hphy4, hphy2]
    · show s4.phy.baudCur = _; rw [hphy4, hphy2]
    · show s4.phy.line.frameErr = _; rw [hphy4]; simp [hl2]
    · show LineQuiet s4.phy.line
      rw [hphy4, hl2]; exact ⟨hq.txIdle, hq.rxIdle, hq.high, rfl⟩
    · show s4.traffic = _; rw [ht4, ht2]
  · have e : (s5.setPhy { s5.phy with phyState := .idle }).world =
        ⟨((s.env.answer s.cfg (.trWrite bs)).2.answer s.cfg (.trRead 0 s.cfg.tEcho)).2, [],
          s.now + 1 + (s.env.answer s.cfg (.trWrite bs)).1.dt⟩ := by
      simp only [State.world, s5, State.setPhy_env, State.setPhy_now, State.setPhy_phy]
      rw [hs4]
      simp only [State.logged_env, State.setNow_env, State.setLine_env,
        State.drawn_env, henv3, hcfg3, State.logged_phy, State.setNow_phy, State.setLine_phy,
        State.logged_now, State.setNow_now]
      congr 1
      show s2.now = _
      rw [hs2]; rfl
    rw [e]; exact hp

/-- One answer in a world that gives it (40_phy.md R146). -/
theorem phyRecv_plays {c : Config} {bs : List Byte} {xs : List Xfer} {s : State} {w' : World}
    (hc : s.cfg = c) (hne : bs ≠ []) (ho : s.ses.trOpen = true) (hq : LineQuiet s.phy.line)
    (he : s.phy.echoPending = 0) (h : Plays c (.rx bs :: xs) s.world w') :
    ∃ s', phyRecv bs.length c.tByte s = .ok bs s' ∧ Moved s s' [.rx bs] ∧
      Plays c xs s'.world w' := by
  subst hc
  simp only [Plays, State.world_env, State.world_fifo, State.world_now] at h
  obtain ⟨hf, ht, ha, hp⟩ := h
  let s1 := s.setPhy { s.phy with phyState := .rx }
  obtain ⟨r, hrd⟩ := trRead_comes (s := s1) (t := s.cfg.tByte) ho hq hf hne ht ha
  obtain ⟨s2, hs2⟩ : ∃ s2, s2 = ((((s1.drawn (.trRead bs.length s.cfg.tByte)).setLine
        { s1.phy.line with rxShift := r, rxFifo := [] }).setNow
          (s1.now + min (s1.draw (.trRead bs.length s.cfg.tByte)).dt (s.cfg.tByte - 1))).logged
            (.trRead bs.length s.cfg.tByte) (.bytes bs)) := ⟨_, rfl⟩
  rw [← hs2] at hrd
  have hphy2 : s2.phy = { s.phy with
      phyState := .rx, line := { s.phy.line with rxShift := r, rxFifo := [] } } := by
    rw [hs2]; rfl
  refine ⟨s2.setPhy { s2.phy with phyState := .idle }, ?_, ?_, ?_⟩
  · rw [phyRecv, if_neg (by simpa using hne)]
    apply inPhy_ok
    rw [setPhyState_bind_run, Act.bind_ok hrd]
    rfl
  · refine ⟨?_, ?_, ?_, ?_, ?_, ?_, ?_, ?_, ?_, ?_, rfl, ?_, ?_, ?_⟩
    · show s2.cfg = _; rw [hs2]; rfl
    · show s2.ses = _; rw [hs2]; rfl
    · show s2.dl = _; rw [hs2]; rfl
    · show s2.nvm = _; rw [hs2]; rfl
    · show s2.rsp = _; rw [hs2]; rfl
    · show s2.inputs = _; rw [hs2]; rfl
    · show s2.phy.linkUp = _; rw [hphy2]
    · show s2.phy.syncAttempt = _; rw [hphy2]
    · show s2.phy.baudCur = _; rw [hphy2]
    · show s2.phy.line.frameErr = _; rw [hphy2]
    · show s2.phy.echoPending = _; rw [hphy2]; exact he
    · show LineQuiet s2.phy.line
      rw [hphy2]; exact ⟨hq.txIdle, hq.rxIdle, hq.high, hq.driverHigh⟩
    · show s2.traffic = _
      rw [hs2, traffic_logged]
      simp [Event.xfer, s1, State.traffic]
  · have e : (s2.setPhy { s2.phy with phyState := .idle }).world =
        ⟨(s.env.answer s.cfg (.trRead bs.length s.cfg.tByte)).2, [],
          s.now + min (s.env.answer s.cfg (.trRead bs.length s.cfg.tByte)).1.dt
            (s.cfg.tByte - 1)⟩ := by
      simp only [State.world, State.setPhy_env, State.setPhy_now, State.setPhy_phy, hphy2]
      rw [hs2]; rfl
    rw [e]; exact hp

/-! ### Putting transfers together -/

@[simp] theorem State.setDl_traffic (s : State) (x : Dl) : (s.setDl x).traffic = s.traffic := rfl
@[simp] theorem State.setNvm_traffic (s : State) (x : Nvm) : (s.setNvm x).traffic = s.traffic := rfl
@[simp] theorem State.setSes_traffic (s : State) (x : Ses) : (s.setSes x).traffic = s.traffic := rfl
@[simp] theorem State.setRsp_traffic (s : State) (x : Rsp) : (s.setRsp x).traffic = s.traffic := rfl
@[simp] theorem State.setDl_world (s : State) (x : Dl) : (s.setDl x).world = s.world := rfl
@[simp] theorem State.setNvm_world (s : State) (x : Nvm) : (s.setNvm x).world = s.world := rfl
@[simp] theorem State.setSes_world (s : State) (x : Ses) : (s.setSes x).world = s.world := rfl
@[simp] theorem State.setRsp_world (s : State) (x : Rsp) : (s.setRsp x).world = s.world := rfl

/-- What an operation needs to begin an exchange. -/
structure Live (s : State) : Prop where
  transport : s.ses.trOpen = true
  quiet : LineQuiet s.phy.line
  phyIdle : s.phy.phyState = .idle
  noEcho : s.phy.echoPending = 0

theorem Live.setDl {s : State} (h : Live s) (x : Dl) : Live (s.setDl x) := ⟨h.1, h.2, h.3, h.4⟩
theorem Live.setNvm {s : State} (h : Live s) (x : Nvm) : Live (s.setNvm x) := ⟨h.1, h.2, h.3, h.4⟩
theorem Live.setRsp {s : State} (h : Live s) (x : Rsp) : Live (s.setRsp x) := ⟨h.1, h.2, h.3, h.4⟩
theorem Moved.live {s t : State} {xs : List Xfer} (m : Moved s t xs) (h : Live s) : Live t :=
  ⟨m.ses ▸ h.1, m.quiet, m.phyIdle, m.noEcho⟩
theorem Ready.live {s : State} (h : Ready s) : Live s := ⟨h.transport, h.quiet, h.idle.phyIdle, h.idle.noEcho⟩

theorem Moved.refl {s : State} (h : Live s) : Moved s s [] where
  cfg := rfl
  ses := rfl
  dl := rfl
  nvm := rfl
  rsp := rfl
  inputs := rfl
  linkUp := rfl
  syncAttempt := rfl
  baudCur := rfl
  frameErr := rfl
  phyIdle := h.phyIdle
  noEcho := h.noEcho
  quiet := h.quiet
  traffic := (List.append_nil _).symm

theorem Moved.trans {s t u : State} {xs ys : List Xfer} (m : Moved s t xs) (m' : Moved t u ys) :
    Moved s u (xs ++ ys) where
  cfg := m'.cfg.trans m.cfg
  ses := m'.ses.trans m.ses
  dl := m'.dl.trans m.dl
  nvm := m'.nvm.trans m.nvm
  rsp := m'.rsp.trans m.rsp
  inputs := m'.inputs.trans m.inputs
  linkUp := m'.linkUp.trans m.linkUp
  syncAttempt := m'.syncAttempt.trans m.syncAttempt
  baudCur := m'.baudCur.trans m.baudCur
  frameErr := m'.frameErr.trans m.frameErr
  phyIdle := m'.phyIdle
  noEcho := m'.noEcho
  quiet := m'.quiet
  traffic := by rw [m'.traffic, m.traffic, List.append_assoc]

/-- The same registers written on both sides. -/
theorem Moved.setDl {s t : State} {xs : List Xfer} (m : Moved s t xs) (d : Dl) :
    Moved (s.setDl d) (t.setDl d) xs where
  cfg := m.cfg
  ses := m.ses
  dl := rfl
  nvm := m.nvm
  rsp := m.rsp
  inputs := m.inputs
  linkUp := m.linkUp
  syncAttempt := m.syncAttempt
  baudCur := m.baudCur
  frameErr := m.frameErr
  phyIdle := m.phyIdle
  noEcho := m.noEcho
  quiet := m.quiet
  traffic := m.traffic

theorem Moved.setNvm {s t : State} {xs : List Xfer} (m : Moved s t xs) (d : Nvm) :
    Moved (s.setNvm d) (t.setNvm d) xs where
  cfg := m.cfg
  ses := m.ses
  dl := m.dl
  nvm := rfl
  rsp := m.rsp
  inputs := m.inputs
  linkUp := m.linkUp
  syncAttempt := m.syncAttempt
  baudCur := m.baudCur
  frameErr := m.frameErr
  phyIdle := m.phyIdle
  noEcho := m.noEcho
  quiet := m.quiet
  traffic := m.traffic

/-- DL registers written between two stretches. -/
theorem Moved.andThen {s t u : State} {xs ys : List Xfer} (m : Moved s t xs) (d : Dl)
    (m' : Moved (t.setDl d) u ys) : Moved (s.setDl d) u (xs ++ ys) :=
  (m.setDl d).trans m'

theorem plays_append {c : Config} {xs ys : List Xfer} {w w' : World} :
    Plays c (xs ++ ys) w w' ↔ ∃ m, Plays c xs w m ∧ Plays c ys m w' := by
  induction xs generalizing w with
  | nil => simp [Plays]
  | cons x xs ih =>
    cases x <;> simp only [List.cons_append, Plays, ih] <;> constructor
    · rintro ⟨h1, h2, h3, m, h4, h5⟩; exact ⟨m, ⟨h1, h2, h3, h4⟩, h5⟩
    · rintro ⟨m, ⟨h1, h2, h3, h4⟩, h5⟩; exact ⟨h1, h2, h3, m, h4, h5⟩
    · rintro ⟨h1, h2, h3, m, h4, h5⟩; exact ⟨m, ⟨h1, h2, h3, h4⟩, h5⟩
    · rintro ⟨m, ⟨h1, h2, h3, h4⟩, h5⟩; exact ⟨h1, h2, h3, m, h4, h5⟩

end Sys2Proof.Machine
end

