-- ==== Sys2Proof/Laws/Datalink.lean ====
section
/-! SUPPORT. Each datalink operation in a world that answers its exchange: the registers it leaves and the
transfers it makes. -/

namespace Sys2Proof.Machine

variable {α β : Type} {c : Config} {rest : List Xfer} {s : State} {w' : World}

theorem recvByte_plays {b : Byte} (hc : s.cfg = c) (hl : Live s)
    (h : Plays c (.rx [b] :: rest) s.world w') :
    ∃ s', recvByte s = .ok b s' ∧ Moved s s' [.rx [b]] ∧ Plays c rest s'.world w' := by
  obtain ⟨s', h1, h2, h3⟩ := phyRecv_plays hc (by simp) hl.1 hl.2 hl.noEcho h
  refine ⟨s', ?_, h2, h3⟩
  have h1' : phyRecv 1 c.tByte s = .ok [b] s' := h1
  simp only [recvByte, Act.get_bind_run, hc]
  rw [Act.bind_ok h1']
  rfl

/-- The acknowledge arrives (41_datalink.md R173). -/
theorem expectAck_plays {ph : Phase} (hc : s.cfg = c) (hl : Live s)
    (h : Plays c (.rx [c.ack] :: rest) s.world w') :
    ∃ s', expectAck ph s = .ok () s' ∧
      Moved (s.setDl { s.dl with ackLast := c.ack }) s' [.rx [c.ack]] ∧
      Plays c rest s'.world w' := by
  obtain ⟨s1, h1, m, p⟩ := recvByte_plays hc hl h
  refine ⟨s1.setDl { s1.dl with ackLast := c.ack }, ?_, ?_, p⟩
  · simp only [expectAck]
    rw [Act.bind_ok h1]
    simp [m.cfg, hc]
  · rw [m.dl]; exact m.setDl _

/-- `cs_read` (41_datalink.md R176). -/
theorem csRead_plays {a : Nat} {b : Byte} (hc : s.cfg = c) (hl : Live s) (ha : a ≤ 0x0F)
    (h : Plays c (.tx [SYNC, opLdcs c (BitVec.ofNat 4 a)] :: .rx [b] :: rest) s.world w') :
    ∃ s', csRead a s = .ok b s' ∧
      Moved (s.setDl { s.dl with opAddr := BitVec.ofNat 24 a, dlState := .idle }) s'
        [.tx [SYNC, opLdcs c (BitVec.ofNat 4 a)], .rx [b]] ∧ Plays c rest s'.world w' := by
  obtain ⟨s2, h2, m2, p2⟩ := phySend_plays
    (s := s.setDl { s.dl with opAddr := BitVec.ofNat 24 a, dlState := .txInstr }) hc (by simp) hl.1
    hl.2 h
  obtain ⟨s4, h4, m4, p4⟩ := recvByte_plays (s := s2.setDl { s2.dl with dlState := .rxData })
    (m2.cfg.trans hc) ((m2.live (hl.setDl _)).setDl _) p2
  refine ⟨s4.setDl { s4.dl with dlState := .idle }, ?_, ?_, p4⟩
  · simp only [csRead, ha, decide_true, demand_true_bind_run]
    apply inDl_ok
    simp only [Act.get_bind_run, setOpAddr_bind_run, setDlState_bind_run, State.setDl_setDl,
      State.setDl_dl, hc]
    rw [Act.bind_ok h2, setDlState_bind_run]
    exact h4
  · have := (m2.andThen _ m4).setDl { s4.dl with dlState := .idle }
    simpa [m4.dl, m2.dl] using this

/-- `cs_write` (41_datalink.md R178). -/
theorem csWrite_plays {a v : Nat} (hc : s.cfg = c) (hl : Live s) (ha : a ≤ 0x0F) (hv : v ≤ 0xFF)
    (h : Plays c (.tx [SYNC, opStcs c (BitVec.ofNat 4 a), BitVec.ofNat 8 v] :: rest) s.world w') :
    ∃ s', csWrite a v s = .ok () s' ∧
      Moved (s.setDl { s.dl with opAddr := BitVec.ofNat 24 a, dlState := .idle }) s'
        [.tx [SYNC, opStcs c (BitVec.ofNat 4 a), BitVec.ofNat 8 v]] ∧ Plays c rest s'.world w' := by
  obtain ⟨s2, h2, m2, p2⟩ := phySend_plays
    (s := s.setDl { s.dl with opAddr := BitVec.ofNat 24 a, dlState := .txInstr }) hc (by simp) hl.1
    hl.2 h
  refine ⟨s2.setDl { s2.dl with dlState := .idle }, ?_, ?_, p2⟩
  · simp only [csWrite, ha, hv, decide_true, Bool.and_self, demand_true_bind_run]
    apply inDl_ok
    simp only [Act.get_bind_run, setOpAddr_bind_run, setDlState_bind_run, State.setDl_setDl,
      State.setDl_dl, hc]
    exact h2
  · have := m2.setDl { s2.dl with dlState := .idle }
    simpa [m2.dl] using this

/-- `lds` (41_datalink.md R180). -/
theorem ldsOp_plays {a n : Nat} {b : Byte} (hc : s.cfg = c) (hl : Live s) (ha : addrOk a n = true)
    (h : Plays c (ldsXfers c a n b ++ rest) s.world w') :
    ∃ s', ldsOp a n s = .ok [b] s' ∧
      Moved (s.setDl
        { s.dl with
          opAddr := BitVec.ofNat 24 a, opSize := BitVec.ofNat 2 n, opLen := 1, respBuf := [b]
          dlState := .idle }) s' (ldsXfers c a n b) ∧ Plays c rest s'.world w' := by
  simp only [ldsXfers, List.cons_append, List.nil_append] at h ⊢
  obtain ⟨s2, h2, m2, p2⟩ := phySend_plays
    (s := s.setDl
      { s.dl with
        opAddr := BitVec.ofNat 24 a, opSize := BitVec.ofNat 2 n, opLen := 1, dlState := .txInstr })
    hc (by simp) hl.1 hl.2 h
  obtain ⟨s4, h4, m4, p4⟩ := phyRecv_plays (s := s2.setDl { s2.dl with dlState := .rxData })
    (m2.cfg.trans hc) (by simp) (m2.live (hl.setDl _)).1 (m2.live (hl.setDl _)).2 m2.noEcho p2
  refine ⟨s4.setDl { s4.dl with respBuf := [b], dlState := .idle }, ?_, ?_, p4⟩
  · have h4' : phyRecv 1 c.tByte (s2.setDl { s2.dl with dlState := .rxData }) = .ok [b] s4 := h4
    simp only [ldsOp, ha, demand_true_bind_run]
    refine inDl_ok (s' := s4.setDl { s4.dl with respBuf := [b] }) ?_
    simp only [Act.get_bind_run, setOpAddr_bind_run, setOpSize_bind_run, setOpLen_bind_run,
      setDlState_bind_run, State.setDl_setDl, State.setDl_dl, hc, List.cons_append, List.nil_append]
    rw [Act.bind_ok h2, setDlState_bind_run, Act.bind_ok h4', setRespBuf_bind_run]
    rfl
  · have := (m2.andThen _ m4).setDl { s4.dl with respBuf := [b], dlState := .idle }
    simpa [m4.dl, m2.dl] using this

/-- `sts` (41_datalink.md R183). -/
theorem stsOp_plays {a v n : Nat} (hc : s.cfg = c) (hl : Live s) (ha : addrOk a n = true)
    (hv : v ≤ 0xFF) (h : Plays c (stsXfers c a (BitVec.ofNat 8 v) n ++ rest) s.world w') :
    ∃ s', stsOp a v n s = .ok () s' ∧
      Moved (s.setDl
        { s.dl with
          opAddr := BitVec.ofNat 24 a, opSize := BitVec.ofNat 2 n, opLen := 1
          dataBuf := [BitVec.ofNat 8 v], ackLast := c.ack, dlState := .idle }) s'
        (stsXfers c a (BitVec.ofNat 8 v) n) ∧ Plays c rest s'.world w' := by
  simp only [stsXfers, List.cons_append, List.nil_append] at h ⊢
  have hl0 := hl.setDl
    { s.dl with
      opAddr := BitVec.ofNat 24 a, opSize := BitVec.ofNat 2 n, opLen := 1
      dataBuf := [BitVec.ofNat 8 v], dlState := .txInstr }
  obtain ⟨s1, h1, m1, p1⟩ := phySend_plays (s := s.setDl
    { s.dl with
      opAddr := BitVec.ofNat 24 a, opSize := BitVec.ofNat 2 n, opLen := 1
      dataBuf := [BitVec.ofNat 8 v], dlState := .txInstr }) hc (by simp) hl0.1 hl0.2 h
  have hl1 := (m1.live hl0).setDl { s1.dl with dlState := .rxAckAddr }
  obtain ⟨s2, h2, m2, p2⟩ := expectAck_plays (ph := .address)
    (s := s1.setDl { s1.dl with dlState := .rxAckAddr }) (m1.cfg.trans hc) hl1 p1
  simp only [State.setDl_setDl, State.setDl_dl] at m2
  have hl2 := (m2.live ((m1.live hl0).setDl _)).setDl { s2.dl with dlState := .txData }
  obtain ⟨s3, h3, m3, p3⟩ := phySend_plays (s := s2.setDl { s2.dl with dlState := .txData })
    (m2.cfg.trans (m1.cfg.trans hc)) (by simp) hl2.1 hl2.2 p2
  have hl3 := (m3.live hl2).setDl { s3.dl with dlState := .rxAckData }
  obtain ⟨s4, h4, m4, p4⟩ := expectAck_plays (ph := .data)
    (s := s3.setDl { s3.dl with dlState := .rxAckData })
    (m3.cfg.trans (m2.cfg.trans (m1.cfg.trans hc))) hl3 p3
  simp only [State.setDl_setDl, State.setDl_dl] at m4
  refine ⟨s4.setDl { s4.dl with dlState := .idle }, ?_, ?_, p4⟩
  · simp only [stsOp, ha, hv, decide_true, Bool.and_self, demand_true_bind_run]
    refine inDl_ok (s' := s4) ?_
    simp only [Act.get_bind_run, setOpAddr_bind_run, setOpSize_bind_run, setOpLen_bind_run,
      setDataBuf_bind_run, setDlState_bind_run, State.setDl_setDl, State.setDl_dl, hc,
      List.cons_append, List.nil_append]
    rw [Act.bind_ok h1, setDlState_bind_run, Act.bind_ok h2, setDlState_bind_run, Act.bind_ok h3,
      setDlState_bind_run]
    exact h4
  · have := (((m1.andThen _ m2).andThen _ m3).andThen _ m4).setDl { s4.dl with dlState := .idle }
    simpa [m4.dl, m3.dl, m2.dl, m1.dl] using this

/-- `st_ptr` (41_datalink.md R187). -/
theorem stPtrOp_plays {w p : Nat} (hc : s.cfg = c) (hl : Live s) (ha : addrOk p w = true)
    (h : Plays c (stPtrXfers c w p ++ rest) s.world w') :
    ∃ s', stPtrOp w p s = .ok () s' ∧
      Moved (s.setDl
        { s.dl with
          opAddr := BitVec.ofNat 24 p, opSize := BitVec.ofNat 2 w, ackLast := c.ack
          dlState := .idle }) s' (stPtrXfers c w p) ∧ Plays c rest s'.world w' := by
  simp only [stPtrXfers, List.cons_append, List.nil_append] at h ⊢
  have hl0 := hl.setDl
    { s.dl with opAddr := BitVec.ofNat 24 p, opSize := BitVec.ofNat 2 w, dlState := .txInstr }
  obtain ⟨s1, h1, m1, p1⟩ := phySend_plays (s := s.setDl
    { s.dl with opAddr := BitVec.ofNat 24 p, opSize := BitVec.ofNat 2 w, dlState := .txInstr })
    hc (by simp) hl0.1 hl0.2 h
  have hl1 := (m1.live hl0).setDl { s1.dl with dlState := .rxAckAddr }
  obtain ⟨s2, h2, m2, p2⟩ := expectAck_plays (ph := .address)
    (s := s1.setDl { s1.dl with dlState := .rxAckAddr }) (m1.cfg.trans hc) hl1 p1
  simp only [State.setDl_setDl, State.setDl_dl] at m2
  refine ⟨s2.setDl { s2.dl with dlState := .idle }, ?_, ?_, p2⟩
  · simp only [stPtrOp, ha, demand_true_bind_run]
    refine inDl_ok (s' := s2) ?_
    simp only [Act.get_bind_run, setOpAddr_bind_run, setOpSize_bind_run, setDlState_bind_run,
      State.setDl_setDl, State.setDl_dl, hc, List.cons_append, List.nil_append]
    rw [Act.bind_ok h1, setDlState_bind_run]
    exact h2
  · have := (m1.andThen _ m2).setDl { s2.dl with dlState := .idle }
    simpa [m2.dl, m1.dl] using this

/-- `ld_ptr` (41_datalink.md R189). -/
theorem ldPtrOp_plays {w : Nat} {answer : List Byte} (hc : s.cfg = c) (hl : Live s)
    (hw : answer.length = w) (hne : answer ≠ [])
    (h : Plays c (ldPtrXfers c w answer ++ rest) s.world w') :
    ∃ s', ldPtrOp w s = .ok answer s' ∧
      Moved (s.setDl { s.dl with opSize := BitVec.ofNat 2 w, respBuf := answer, dlState := .idle }) s'
        (ldPtrXfers c w answer) ∧ Plays c rest s'.world w' := by
  simp only [ldPtrXfers, List.cons_append, List.nil_append] at h ⊢
  have hl0 := hl.setDl { s.dl with opSize := BitVec.ofNat 2 w, dlState := .txInstr }
  obtain ⟨s1, h1, m1, p1⟩ := phySend_plays (s := s.setDl
    { s.dl with opSize := BitVec.ofNat 2 w, dlState := .txInstr }) hc (by simp) hl0.1 hl0.2 h
  have hl1 := (m1.live hl0).setDl { s1.dl with dlState := .rxData }
  obtain ⟨s2, h2, m2, p2⟩ := phyRecv_plays (s := s1.setDl { s1.dl with dlState := .rxData })
    (m1.cfg.trans hc) hne hl1.1 hl1.2 m1.noEcho p1
  refine ⟨s2.setDl { s2.dl with respBuf := answer, dlState := .idle }, ?_, ?_, p2⟩
  · simp only [ldPtrOp]
    refine inDl_ok (s' := s2.setDl { s2.dl with respBuf := answer }) ?_
    simp only [Act.get_bind_run, setOpSize_bind_run, setDlState_bind_run, State.setDl_setDl,
      State.setDl_dl, hc]
    rw [hw] at h2
    rw [Act.bind_ok h1, setDlState_bind_run, Act.bind_ok h2, setRespBuf_bind_run]
    rfl
  · have := (m1.andThen _ m2).setDl { s2.dl with respBuf := answer, dlState := .idle }
    simpa [m2.dl, m1.dl] using this

/-- REPEAT (41_datalink.md R200). -/
theorem sendRepeat_plays {n : Nat} (hc : s.cfg = c) (hl : Live s)
    (h : Plays c (.tx [SYNC, opRepeat c, BitVec.ofNat 8 (n - 1)] :: rest) s.world w') :
    ∃ s', sendRepeat n s = .ok () s' ∧
      Moved (s.setDl { s.dl with dlState := .txRepeat }) s'
        [.tx [SYNC, opRepeat c, BitVec.ofNat 8 (n - 1)]] ∧ Plays c rest s'.world w' := by
  have hl0 := hl.setDl { s.dl with dlState := .txRepeat }
  obtain ⟨s1, h1, m1, p1⟩ := phySend_plays (s := s.setDl { s.dl with dlState := .txRepeat })
    hc (by simp) hl0.1 hl0.2 h
  refine ⟨s1, ?_, m1, p1⟩
  simp only [sendRepeat, Act.get_bind_run, setDlState_bind_run, hc]
  exact h1

/-- The REPEAT before a block, where one is due. -/
theorem repeatFor_plays {n : Nat} (hc : s.cfg = c) (hl : Live s) (hn : 1 ≤ n)
    (h : Plays c (repeatXfers c n ++ rest) s.world w') :
    ∃ s' d, repeatFor n s = .ok () s' ∧
      Moved (s.setDl { s.dl with dlState := d }) s' (repeatXfers c n) ∧
      Plays c rest s'.world w' := by
  by_cases h1 : n = 1
  · subst h1
    exact ⟨s, s.dl.dlState, rfl, Moved.refl hl, h⟩
  · simp only [repeatXfers, h1, if_false, List.cons_append, List.nil_append] at h ⊢
    obtain ⟨s1, e1, m1, p1⟩ := sendRepeat_plays hc hl h
    exact ⟨s1, .txRepeat, by simpa [repeatFor, show 2 ≤ n by omega] using e1, m1, p1⟩

/-- One STINC and its acknowledge. -/
theorem stIncFirst_plays {v : Byte} (hc : s.cfg = c) (hl : Live s)
    (h : Plays c (.tx [SYNC, opStInc c, v] :: .rx [c.ack] :: rest) s.world w') :
    ∃ s', stIncFirst v s = .ok () s' ∧
      Moved (s.setDl
        { s.dl with dlState := .rxAckData, ackLast := c.ack, opIdx := s.dl.opIdx + 1 }) s'
        [.tx [SYNC, opStInc c, v], .rx [c.ack]] ∧ Plays c rest s'.world w' := by
  have hl0 := hl.setDl { s.dl with dlState := .txInstr }
  obtain ⟨s1, h1, m1, p1⟩ := phySend_plays (s := s.setDl { s.dl with dlState := .txInstr })
    hc (by simp) hl0.1 hl0.2 h
  have hl1 := (m1.live hl0).setDl { s1.dl with dlState := .rxAckData }
  obtain ⟨s2, h2, m2, p2⟩ := expectAck_plays (ph := .data)
    (s := s1.setDl { s1.dl with dlState := .rxAckData }) (m1.cfg.trans hc) hl1 p1
  simp only [State.setDl_setDl, State.setDl_dl] at m2
  refine ⟨s2.setDl { s2.dl with opIdx := s2.dl.opIdx + 1 }, ?_, ?_, p2⟩
  · simp only [stIncFirst, Act.get_bind_run, setDlState_bind_run, hc]
    rw [Act.bind_ok h1, setDlState_bind_run, Act.bind_ok h2, incOpIdx_run]
  · have := (m1.andThen _ m2).setDl { s2.dl with opIdx := s2.dl.opIdx + 1 }
    simpa [m2.dl, m1.dl] using this

/-- One further data byte of a repeated STINC and its acknowledge. -/
theorem stIncRest_plays {vs : List Byte} (hc : s.cfg = c) (hl : Live s)
    (h : Plays c ((vs.flatMap fun x => [.tx [x], .rx [c.ack]]) ++ rest) s.world w') :
    ∃ s' d, stIncRest vs s = .ok () s' ∧
      Moved (s.setDl
        { s.dl with
          dlState := d, ackLast := if vs = [] then s.dl.ackLast else c.ack
          opIdx := s.dl.opIdx + vs.length }) s'
        (vs.flatMap fun x => [.tx [x], .rx [c.ack]]) ∧ Plays c rest s'.world w' := by
  induction vs generalizing s with
  | nil => exact ⟨s, s.dl.dlState, rfl, by simp; exact Moved.refl hl, h⟩
  | cons v vs ih =>
    simp only [List.flatMap_cons, List.cons_append, List.nil_append] at h ⊢
    have hl0 := hl.setDl { s.dl with dlState := .txData }
    obtain ⟨s1, h1, m1, p1⟩ := phySend_plays (s := s.setDl { s.dl with dlState := .txData })
      hc (by simp) hl0.1 hl0.2 h
    have hl1 := (m1.live hl0).setDl { s1.dl with dlState := .rxAckData }
    obtain ⟨s2, h2, m2, p2⟩ := expectAck_plays (ph := .data)
      (s := s1.setDl { s1.dl with dlState := .rxAckData }) (m1.cfg.trans hc) hl1 p1
    simp only [State.setDl_setDl, State.setDl_dl] at m2
    have hl2 := (m2.live ((m1.live hl0).setDl _)).setDl { s2.dl with opIdx := s2.dl.opIdx + 1 }
    obtain ⟨s3, d, h3, m3, p3⟩ := ih (s := s2.setDl { s2.dl with opIdx := s2.dl.opIdx + 1 })
      (m2.cfg.trans (m1.cfg.trans hc)) hl2 p2
    refine ⟨s3, d, ?_, ?_, p3⟩
    · simp only [stIncRest, setDlState_bind_run]
      rw [Act.bind_ok h1, setDlState_bind_run, Act.bind_ok h2, incOpIdx_bind_run]
      exact h3
    · have := (m1.andThen _ m2).andThen _ m3
      simpa [m2.dl, m1.dl, Nat.add_assoc, Nat.add_comm 1] using this

/-- STINC with the data bytes a REPEAT asks for, each acknowledged (30_encoding.md R104). -/
theorem stIncRun_plays {v : Byte} {vs : List Byte} (hc : s.cfg = c) (hl : Live s)
    (h : Plays c (stIncXfers c v vs ++ rest) s.world w') :
    ∃ s' d, (stIncFirst v >>= fun _ => stIncRest vs) s = .ok () s' ∧
      Moved (s.setDl
        { s.dl with dlState := d, ackLast := c.ack, opIdx := s.dl.opIdx + (vs.length + 1) }) s'
        (stIncXfers c v vs) ∧ Plays c rest s'.world w' := by
  simp only [stIncXfers, List.cons_append, List.nil_append] at h ⊢
  obtain ⟨s1, h1, m1, p1⟩ := stIncFirst_plays hc hl h
  obtain ⟨s2, d, h2, m2, p2⟩ := stIncRest_plays (s := s1) (m1.cfg.trans hc)
    (m1.live (hl.setDl _)) p1
  refine ⟨s2, d, ?_, ?_, p2⟩
  · rw [Act.bind_ok h1]; exact h2
  · have := m1.andThen _ m2
    simpa [m1.dl, Nat.add_assoc, Nat.add_comm 1] using this

/-- Single STINCs. -/
theorem stIncSingles_plays {vs : List Byte} (hc : s.cfg = c) (hl : Live s)
    (h : Plays c ((vs.flatMap fun x => stIncXfers c x []) ++ rest) s.world w') :
    ∃ s' d, stIncSingles vs s = .ok () s' ∧
      Moved (s.setDl
        { s.dl with
          dlState := d, ackLast := if vs = [] then s.dl.ackLast else c.ack
          opIdx := s.dl.opIdx + vs.length }) s'
        (vs.flatMap fun x => stIncXfers c x []) ∧ Plays c rest s'.world w' := by
  induction vs generalizing s with
  | nil => exact ⟨s, s.dl.dlState, rfl, by simp; exact Moved.refl hl, h⟩
  | cons v vs ih =>
    simp only [List.flatMap_cons, List.append_assoc] at h ⊢
    obtain ⟨s1, h1, m1, p1⟩ := stIncFirst_plays hc hl h
    obtain ⟨s2, d, h2, m2, p2⟩ := ih (s := s1) (m1.cfg.trans hc) (m1.live (hl.setDl _)) p1
    refine ⟨s2, d, ?_, ?_, p2⟩
    · simp only [stIncSingles]
      rw [Act.bind_ok h1]; exact h2
    · have := m1.andThen _ m2
      simpa [m1.dl, Nat.add_assoc, Nat.add_comm 1, stIncXfers] using this

/-- `st_ptr_inc` (41_datalink.md R192). -/
theorem stPtrIncOp_plays {block : List Byte} {rep : Bool} (hc : s.cfg = c) (hl : Live s)
    (hd : s.dl.dlState = .idle) (hn : rep = true → block.length ≤ repeatMax)
    (h : Plays c (stPtrIncXfers c rep block ++ rest) s.world w') :
    ∃ s', stPtrIncOp block rep s = .ok () s' ∧
      Moved (s.setDl
        { s.dl with
          opLen := block.length, dataBuf := block, opIdx := block.length
          ackLast := if block = [] then s.dl.ackLast else c.ack, dlState := .idle }) s'
        (stPtrIncXfers c rep block) ∧ Plays c rest s'.world w' := by
  have hdem : (!rep || decide (block.length ≤ repeatMax)) = true := by
    cases rep <;> simp_all
  cases block with
  | nil =>
    refine ⟨s.setDl { s.dl with opLen := 0, dataBuf := [], opIdx := 0 }, ?_, ?_, h⟩
    · simp only [stPtrIncOp, hdem, demand_true_bind_run]
      rfl
    · have := Moved.refl (hl.setDl { s.dl with opLen := 0, dataBuf := [], opIdx := 0 })
      simpa [stPtrIncXfers, ← hd] using this
  | cons v vs =>
    let s0 := s.setDl { s.dl with opLen := (v :: vs).length, dataBuf := v :: vs, opIdx := 0 }
    have hl0 : Live s0 := hl.setDl _
    cases rep with
    | false =>
      simp only [stPtrIncXfers] at h ⊢
      obtain ⟨s1, d, h1, m1, p1⟩ := stIncSingles_plays (s := s0) hc hl0 h
      refine ⟨s1.setDl { s1.dl with dlState := .idle }, ?_, ?_, p1⟩
      · simp only [stPtrIncOp, hdem, demand_true_bind_run, setOpLen_bind_run, setDataBuf_bind_run,
          setOpIdx_bind_run]
        exact inDl_ok h1
      · have := m1.setDl { s1.dl with dlState := .idle }
        simpa [m1.dl, s0] using this
    | true =>
      simp only [stPtrIncXfers, if_true, List.append_assoc] at h
      obtain ⟨s1, d1, h1, m1, p1⟩ := repeatFor_plays (s := s0) hc hl0 (by omega) h
      obtain ⟨s2, d2, h2, m2, p2⟩ := stIncRun_plays (s := s1) (m1.cfg.trans hc)
        (m1.live (hl0.setDl _)) p1
      refine ⟨s2.setDl { s2.dl with dlState := .idle }, ?_, ?_, p2⟩
      · simp only [stPtrIncOp, hdem, demand_true_bind_run, setOpLen_bind_run, setDataBuf_bind_run,
          setOpIdx_bind_run, if_true]
        refine inDl_ok (s' := s2) ?_
        exact (Act.bind_ok h1).trans h2
      · have := (m1.andThen _ m2).setDl { s2.dl with dlState := .idle }
        simpa [m2.dl, m1.dl, s0, stPtrIncXfers] using this

/-- One LDINC and its answer. -/
theorem ldIncAnswers_plays {answer : List Byte} (hc : s.cfg = c) (hl : Live s)
    (hne : answer ≠ []) (h : Plays c (.tx [SYNC, opLdInc c] :: .rx answer :: rest) s.world w') :
    ∃ s', ldIncAnswers answer.length s = .ok () s' ∧
      Moved (s.setDl
        { s.dl with
          dlState := .rxData, respBuf := s.dl.respBuf ++ answer
          opIdx := s.dl.opIdx + answer.length }) s'
        [.tx [SYNC, opLdInc c], .rx answer] ∧ Plays c rest s'.world w' := by
  have hl0 := hl.setDl { s.dl with dlState := .txInstr }
  obtain ⟨s1, h1, m1, p1⟩ := phySend_plays (s := s.setDl { s.dl with dlState := .txInstr })
    hc (by simp) hl0.1 hl0.2 h
  have hl1 := (m1.live hl0).setDl { s1.dl with dlState := .rxData }
  obtain ⟨s2, h2, m2, p2⟩ := phyRecv_plays (s := s1.setDl { s1.dl with dlState := .rxData })
    (m1.cfg.trans hc) hne hl1.1 hl1.2 m1.noEcho p1
  refine ⟨s2.setDl { s2.dl with
    respBuf := s2.dl.respBuf ++ answer, opIdx := s2.dl.opIdx + answer.length }, ?_, ?_, p2⟩
  · simp only [ldIncAnswers, Act.get_bind_run, setDlState_bind_run, hc]
    rw [Act.bind_ok h1, setDlState_bind_run, Act.bind_ok h2, Act.modify_run]
  · have := (m1.andThen _ m2).setDl { s2.dl with
      respBuf := s2.dl.respBuf ++ answer, opIdx := s2.dl.opIdx + answer.length }
    simpa [m2.dl, m1.dl] using this

/-- Single LDINCs. -/
theorem ldIncSingles_plays {answer : List Byte} (hc : s.cfg = c) (hl : Live s)
    (h : Plays c ((answer.flatMap fun b => [.tx [SYNC, opLdInc c], .rx [b]]) ++ rest) s.world w') :
    ∃ s' d, ldIncSingles answer.length s = .ok () s' ∧
      Moved (s.setDl
        { s.dl with
          dlState := d, respBuf := s.dl.respBuf ++ answer
          opIdx := s.dl.opIdx + answer.length }) s'
        (answer.flatMap fun b => [.tx [SYNC, opLdInc c], .rx [b]]) ∧ Plays c rest s'.world w' := by
  induction answer generalizing s with
  | nil => exact ⟨s, s.dl.dlState, rfl, by simp; exact Moved.refl hl, h⟩
  | cons b bs ih =>
    simp only [List.flatMap_cons, List.cons_append, List.nil_append] at h ⊢
    obtain ⟨s1, h1, m1, p1⟩ := ldIncAnswers_plays (answer := [b]) hc hl (by simp) h
    obtain ⟨s2, d, h2, m2, p2⟩ := ih (s := s1) (m1.cfg.trans hc) (m1.live (hl.setDl _)) p1
    refine ⟨s2, d, ?_, ?_, p2⟩
    · simp only [List.length_cons, ldIncSingles]
      have h1' : ldIncAnswers 1 s = .ok () s1 := h1
      rw [Act.bind_ok h1']; exact h2
    · have := m1.andThen _ m2
      simpa [m1.dl, Nat.add_assoc, Nat.add_comm 1] using this

/-- `ld_ptr_inc` (41_datalink.md R196). -/
theorem ldPtrIncOp_plays {answer : List Byte} {rep : Bool} (hc : s.cfg = c) (hl : Live s)
    (hd : s.dl.dlState = .idle) (hn : rep = true → answer.length ≤ repeatMax)
    (h : Plays c (ldPtrIncXfers c rep answer ++ rest) s.world w') :
    ∃ s', ldPtrIncOp answer.length rep s = .ok answer s' ∧
      Moved (s.setDl
        { s.dl with
          opLen := answer.length, respBuf := answer, opIdx := answer.length, dlState := .idle }) s'
        (ldPtrIncXfers c rep answer) ∧ Plays c rest s'.world w' := by
  have hdem : (!rep || decide (answer.length ≤ repeatMax)) = true := by
    cases rep <;> simp_all
  by_cases hne : answer = []
  · subst hne
    refine ⟨s.setDl { s.dl with opLen := 0, respBuf := [], opIdx := 0 }, ?_, ?_, h⟩
    · simp only [ldPtrIncOp, hdem, demand_true_bind_run]
      rfl
    · have := Moved.refl (hl.setDl { s.dl with opLen := 0, respBuf := [], opIdx := 0 })
      simpa [ldPtrIncXfers, ← hd] using this
  · have hlen : answer.length ≠ 0 := by simpa using hne
    let s0 := s.setDl { s.dl with opLen := answer.length, respBuf := [], opIdx := 0 }
    have hl0 : Live s0 := hl.setDl _
    simp only [ldPtrIncXfers, hne, if_false] at h ⊢
    cases rep with
    | false =>
      obtain ⟨s1, d, h1, m1, p1⟩ := ldIncSingles_plays (s := s0) hc hl0 h
      refine ⟨s1.setDl { s1.dl with dlState := .idle }, ?_, ?_, p1⟩
      · simp only [ldPtrIncOp, hdem, demand_true_bind_run, setOpLen_bind_run, setRespBuf_bind_run,
          setOpIdx_bind_run, hlen, if_false]
        refine inDl_ok (s' := s1) ?_
        refine (Act.bind_ok h1).trans ?_
        simp [m1.dl, s0]
      · have := m1.setDl { s1.dl with dlState := .idle }
        simpa [m1.dl, s0] using this
    | true =>
      simp only [if_true, List.append_assoc, List.cons_append, List.nil_append] at h
      obtain ⟨s1, d1, h1, m1, p1⟩ := repeatFor_plays (s := s0) hc hl0 (by omega) h
      obtain ⟨s2, h2, m2, p2⟩ := ldIncAnswers_plays (s := s1) (m1.cfg.trans hc)
        (m1.live (hl0.setDl _)) hne p1
      refine ⟨s2.setDl { s2.dl with dlState := .idle }, ?_, ?_, p2⟩
      · simp only [ldPtrIncOp, hdem, demand_true_bind_run, setOpLen_bind_run, setRespBuf_bind_run,
          setOpIdx_bind_run, hlen, if_false, if_true]
        refine inDl_ok (s' := s2) ?_
        refine (Act.bind_ok h1).trans ((Act.bind_ok h2).trans ?_)
        simp [m2.dl, m1.dl, s0]
      · have := (m1.andThen _ m2).setDl { s2.dl with dlState := .idle }
        simpa [m2.dl, m1.dl, s0] using this

/-- STINC as a wire instruction. -/
theorem stIncWire_plays {v : Byte} {more : List Byte} (hc : s.cfg = c) (hl : Live s)
    (hn : more.length < repeatMax) (h : Plays c (stIncXfers c v more ++ rest) s.world w') :
    ∃ s', stIncWire v more s = .ok () s' ∧
      Moved (s.setDl
        { s.dl with
          opLen := more.length + 1, dataBuf := v :: more, opIdx := more.length + 1
          ackLast := c.ack, dlState := .idle }) s' (stIncXfers c v more) ∧
      Plays c rest s'.world w' := by
  obtain ⟨s1, d, h1, m1, p1⟩ := stIncRun_plays
    (s := s.setDl { s.dl with opLen := more.length + 1, dataBuf := v :: more, opIdx := 0 }) hc
    (hl.setDl _) h
  refine ⟨s1.setDl { s1.dl with dlState := .idle }, ?_, ?_, p1⟩
  · simp only [stIncWire, hn, decide_true, demand_true_bind_run, setOpLen_bind_run,
      setDataBuf_bind_run, setOpIdx_bind_run]
    exact inDl_ok h1
  · have := m1.setDl { s1.dl with dlState := .idle }
    simpa [m1.dl] using this

/-- LDINC as a wire instruction. -/
theorem ldIncWire_plays {more : Nat} {answer : List Byte} (hc : s.cfg = c) (hl : Live s)
    (ha : answer.length = more + 1) (hn : more < repeatMax)
    (h : Plays c (.tx [SYNC, opLdInc c] :: .rx answer :: rest) s.world w') :
    ∃ s', ldIncWire more s = .ok answer s' ∧
      Moved (s.setDl
        { s.dl with
          opLen := more + 1, respBuf := answer, opIdx := more + 1, dlState := .idle }) s'
        [.tx [SYNC, opLdInc c], .rx answer] ∧ Plays c rest s'.world w' := by
  obtain ⟨s1, h1, m1, p1⟩ := ldIncAnswers_plays
    (s := s.setDl { s.dl with opLen := more + 1, respBuf := [], opIdx := 0 }) hc (hl.setDl _)
    (by rintro rfl; simp at ha) h
  rw [ha] at h1
  refine ⟨s1.setDl { s1.dl with dlState := .idle }, ?_, ?_, p1⟩
  · simp only [ldIncWire, hn, decide_true, demand_true_bind_run, setOpLen_bind_run,
      setRespBuf_bind_run, setOpIdx_bind_run]
    refine inDl_ok (s' := s1) ?_
    refine (Act.bind_ok h1).trans ?_
    simp [m1.dl]
  · have := m1.setDl { s1.dl with dlState := .idle }
    simpa [m1.dl, ha] using this

/-- REPEAT as a wire instruction, omitted for one repetition. -/
theorem repeatWire_plays {n : Nat} (hc : s.cfg = c) (hl : Live s) (h1 : 1 ≤ n) (hn : n ≤ repeatMax)
    (h : Plays c (repeatXfers c n ++ rest) s.world w') :
    ∃ s', repeatWire n s = .ok () s' ∧
      Moved (s.setDl { s.dl with dlState := .idle }) s' (repeatXfers c n) ∧
      Plays c rest s'.world w' := by
  obtain ⟨s1, d, e1, m1, p1⟩ := repeatFor_plays hc hl h1 h
  refine ⟨s1.setDl { s1.dl with dlState := .idle }, ?_, ?_, p1⟩
  · simp only [repeatWire, h1, hn, decide_true, Bool.and_self, demand_true_bind_run]
    exact inDl_ok e1
  · have := m1.setDl { s1.dl with dlState := .idle }
    simpa [m1.dl] using this

theorem keyOrd_length (c : Config) (k : List Byte) : (keyOrd c k).length = k.length := by
  unfold keyOrd; split <;> simp

/-- `key_write` (41_datalink.md R205). -/
theorem keyWriteOp_plays {k : List Byte} (hc : s.cfg = c) (hl : Live s) (hk : k.length = c.keyLen)
    (h : Plays c (keyXfers c k ++ rest) s.world w') :
    ∃ s', keyWriteOp k s = .ok () s' ∧
      Moved (s.setDl { s.dl with dataBuf := keyOrd c k, opLen := c.keyLen, dlState := .idle }) s'
        (keyXfers c k) ∧ Plays c rest s'.world w' := by
  simp only [keyXfers, List.cons_append] at h ⊢
  have hl0 := hl.setDl
    { s.dl with dataBuf := keyOrd c k, opLen := c.keyLen, dlState := .txInstr }
  obtain ⟨s1, h1, m1, p1⟩ := phySend_plays (s := s.setDl
    { s.dl with dataBuf := keyOrd c k, opLen := c.keyLen, dlState := .txInstr }) hc (by simp)
    hl0.1 hl0.2 h
  have hl1 := (m1.live hl0).setDl { s1.dl with dlState := .txData }
  have key : ∃ s2, phySend (keyOrd c k) (s1.setDl { s1.dl with dlState := .txData }) = .ok () s2 ∧
      Moved (s1.setDl { s1.dl with dlState := .txData }) s2 (sends (keyOrd c k)) ∧
      Plays c rest s2.world w' := by
    by_cases hk0 : keyOrd c k = []
    · simp only [sends, hk0, if_true, List.nil_append] at p1 ⊢
      exact ⟨_, rfl, Moved.refl hl1, p1⟩
    · simp only [sends, hk0, if_false, List.cons_append, List.nil_append] at p1 ⊢
      exact phySend_plays (s := s1.setDl { s1.dl with dlState := .txData }) (m1.cfg.trans hc) hk0
        hl1.1 hl1.2 p1
  obtain ⟨s2, h2, m2, p2⟩ := key
  refine ⟨s2.setDl { s2.dl with dlState := .idle }, ?_, ?_, p2⟩
  · simp only [keyWriteOp, Act.get_bind_run, hc, hk, decide_true, demand_true_bind_run]
    refine inDl_ok (s' := s2) ?_
    simp only [setDataBuf_bind_run, setOpLen_bind_run, setDlState_bind_run, State.setDl_setDl,
      State.setDl_dl]
    rw [Act.bind_ok h1, setDlState_bind_run]
    exact h2
  · have := (m1.andThen _ m2).setDl { s2.dl with dlState := .idle }
    simpa [m2.dl, m1.dl] using this

end Sys2Proof.Machine
end

