-- ==== Sys2Proof/Laws/Nvm.lean ====
section
/-! SUPPORT. The steps of the NVM commands in a world that answers their exchanges. -/

namespace Sys2Proof.Machine

variable {α β : Type} {c : Config} {rest : List Xfer} {s : State} {w' : World}

/-- A transmission takes time (60_exceptions.md R296). -/
theorem plays_now {xs : List Xfer} {w w' : World} (h : Plays c xs w w') : w.now ≤ w'.now := by
  induction xs generalizing w with
  | nil => simp only [Plays] at h; subst h; exact le_refl _
  | cons x xs ih =>
    cases x with
    | tx bs =>
      obtain ⟨_, _, _, h4⟩ := h
      have := ih h4
      simp only at this
      omega
    | rx bs =>
      obtain ⟨_, _, _, h4⟩ := h
      have := ih h4
      simp only at this
      omega

theorem plays_tx_now {bs : List Byte} {xs : List Xfer} {w w' : World}
    (h : Plays c (.tx bs :: xs) w w') : w.now + 1 ≤ w'.now := by
  obtain ⟨_, _, _, h4⟩ := h
  have := plays_now h4
  simp only at this
  omega

/-- A `Wait` in which the target is silent (00_scope.md R13). -/
theorem waitFor_plays (hc : s.cfg = c) (hl : Live s)
    (h : (s.env.answer c (.wait c.nvmPollInterval)).1.drive.all id = true) :
    ∃ s', waitFor c.nvmPollInterval s = .ok () s' ∧ Moved s s' [] ∧ s'.world = s.world.pause c := by
  subst hc
  have ho : (s.drawn (.wait s.cfg.nvmPollInterval)).ses.trOpen = true := hl.transport
  obtain ⟨r, hr⟩ := samples_carries (f := s.cfg.frame) (bs := []) hl.quiet h
  have hl1 : ((s.drawn (.wait s.cfg.nvmPollInterval)).listen
      (s.draw (.wait s.cfg.nvmPollInterval)).drive).phy =
        { s.phy with line := { s.phy.line with rxShift := r } } := by
    rw [State.listen_open _ _ ho]
    simp only [State.setLine_phy, State.drawn_phy]
    rw [State.drawn_cfg, listen_eq_samples _ hl.quiet.txIdle hl.quiet.driverHigh]
    have : (s.draw (.wait s.cfg.nvmPollInterval)).drive =
        (s.env.answer s.cfg (.wait s.cfg.nvmPollInterval)).1.drive := rfl
    rw [this, hr]
    simp
  refine ⟨_, waitFor_run _ _, ?_, ?_⟩
  · refine ⟨by simp, by simp, by simp, by simp, by simp, by simp, ?_, ?_, ?_, ?_, ?_, ?_, ?_, ?_⟩
    · simp [hl1]
    · simp [hl1]
    · simp [hl1]
    · simp [hl1]
    · simpa [hl1] using hl.phyIdle
    · simpa [hl1] using hl.noEcho
    · simp only [State.logged_phy, State.setNow_phy, hl1]
      exact ⟨hl.quiet.1, hl.quiet.2, hl.quiet.3, hl.quiet.4⟩
    · rw [traffic_logged]
      simp [Event.xfer, State.traffic]
  · simp only [State.world, State.logged_env, State.setNow_env, State.listen_env, State.drawn_env,
      State.logged_phy, State.setNow_phy, hl1, State.logged_now, State.setNow_now]
    rfl

/-- `nvm_exec` (42_nvm.md R228). -/
theorem nvmExec_plays {code : Config → Byte} (hc : s.cfg = c) (hl : Live s)
    (ha : addrOk (ctrlAddr c s.ses.profile) s.ses.profile.addrBytes = true)
    (h : Plays c (execXfers c s.ses.profile (code c) ++ rest) s.world w') :
    ∃ s', nvmExec code s = .ok () s' ∧
      Moved ((s.setDl
        { s.dl with
          opAddr := BitVec.ofNat 24 (ctrlAddr c s.ses.profile)
          opSize := BitVec.ofNat 2 s.ses.profile.addrBytes, opLen := 1
          dataBuf := [code c], ackLast := c.ack, dlState := .idle }).setNvm
            { s.nvm with nvmState := .cmd }) s' (execXfers c s.ses.profile (code c)) ∧
      Plays c rest s'.world w' := by
  have hv : (code c).toNat ≤ 0xFF := by have := (code c).isLt; omega
  obtain ⟨s', h1, m, p⟩ := stsOp_plays (s := s.setNvm { s.nvm with nvmState := .cmd })
    (v := (code c).toNat) hc (hl.setNvm _) ha hv (by simpa [execXfers] using h)
  refine ⟨s', ?_, ?_, p⟩
  · simp only [nvmExec, Act.get_bind_run, setNvmState_bind_run, hc]
    exact h1
  · simpa [execXfers] using m

/-- One status read (42_nvm.md R225). -/
theorem pollOnce_plays {b : Byte} (hc : s.cfg = c) (hl : Live s)
    (ha : addrOk (statAddr c s.ses.profile) s.ses.profile.addrBytes = true)
    (h : Plays c (statusXfers c s.ses.profile b ++ rest) s.world w') :
    ∃ s', pollOnce s = .ok b s' ∧
      Moved ((s.setDl
        { s.dl with
          opAddr := BitVec.ofNat 24 (statAddr c s.ses.profile)
          opSize := BitVec.ofNat 2 s.ses.profile.addrBytes, opLen := 1, respBuf := [b]
          dlState := .idle }).setNvm
            { s.nvm with nvmState := .pollEval, lastStatus := b, statusValid := true }) s'
        (statusXfers c s.ses.profile b) ∧
      Plays c rest s'.world w' := by
  obtain ⟨s1, h1, m, p⟩ := ldsOp_plays (s := s.setNvm { s.nvm with nvmState := .pollRead })
    hc (hl.setNvm _) ha h
  refine ⟨s1.setNvm { s1.nvm with lastStatus := b, statusValid := true, nvmState := .pollEval }, ?_,
    ?_, p⟩
  · simp only [pollOnce, Act.get_bind_run, setNvmState_bind_run, hc]
    rw [Act.bind_ok h1]
    simp
  · have := m.setNvm { s1.nvm with lastStatus := b, statusValid := true, nvmState := .pollEval }
    simpa [m.nvm, statusXfers] using this

/-- The polling loop, with enough fuel for the time left (42_nvm.md R225). -/
theorem pollLoop_plays {last : Byte} {busy : List Byte} {deadline : Nat} :
    ∀ {fuel : Nat} {s : State}, s.cfg = c → Live s →
      addrOk (statAddr c s.ses.profile) s.ses.profile.addrBytes = true →
      s.nvm.pollDeadline = deadline → deadline ≤ s.now + fuel →
      PollsIdle c s.ses.profile deadline last busy s.world w' →
      ∃ s', pollLoop fuel s = .ok () s' ∧
        Moved ((s.setDl
          { s.dl with
            opAddr := BitVec.ofNat 24 (statAddr c s.ses.profile)
            opSize := BitVec.ofNat 2 s.ses.profile.addrBytes, opLen := 1, respBuf := [last]
            dlState := .idle }).setNvm
              { s.nvm with nvmState := .pollEval, lastStatus := last, statusValid := true }) s'
          (pollXfers c s.ses.profile busy last) ∧
        s'.world = w' := by
  induction busy with
  | nil =>
    intro fuel s hc hl ha hd hf h
    obtain ⟨hi, hp⟩ := h
    obtain ⟨s1, h1, m, p⟩ := pollOnce_plays (rest := []) hc hl ha (by simpa using hp)
    have hcfg : s1.cfg = c := m.cfg.trans hc
    refine ⟨s1, ?_, by simpa [pollXfers] using m, p.symm⟩
    cases fuel with
    | zero => simp only [pollLoop]; rw [Act.bind_ok h1]; simp [hcfg, hi]
    | succ n => simp only [pollLoop]; rw [Act.bind_ok h1]; simp [hcfg, hi]
  | cons b bs ih =>
    intro fuel s hc hl ha hd hf h
    obtain ⟨mw, hi, hp, hlt, hw, hrest⟩ := h
    obtain ⟨s1, h1, m, p⟩ := pollOnce_plays (rest := []) hc hl ha (by simpa using hp)
    have hcfg : s1.cfg = c := m.cfg.trans hc
    have hw1 : mw = s1.world := p
    subst hw1
    have hgrow : s.now + 1 ≤ s1.now := plays_tx_now hp
    have hlt' : s1.now < deadline := hlt
    obtain ⟨k, rfl⟩ : ∃ k, fuel = k + 1 := ⟨fuel - 1, by omega⟩
    have hdl : s1.nvm.pollDeadline = deadline := by rw [m.nvm]; exact hd
    have hl1 : Live s1 := m.live ((hl.setDl _).setNvm _)
    obtain ⟨s2, h2, m2, p2⟩ := waitFor_plays (s := s1.setNvm { s1.nvm with nvmState := .pollWait })
      hcfg (hl1.setNvm _) hw
    have hses2 : s2.ses = s.ses := m2.ses.trans m.ses
    have hnow2 : s1.now ≤ s2.now := by
      have : s2.now = (s1.world.pause c).now := congrArg World.now p2
      rw [this]; simp [World.pause]; omega
    obtain ⟨s3, h3, m3, p3⟩ := ih (fuel := k) (s := s2) (m2.cfg.trans hcfg) (m2.live (hl1.setNvm _))
      (by rw [hses2]; exact ha) (by rw [m2.nvm]; exact hdl) (by omega)
      (by rw [hses2, p2]; exact hrest)
    refine ⟨s3, ?_, ?_, p3⟩
    · simp only [pollLoop]
      rw [Act.bind_ok h1]
      have hnot : ¬ s1.nvm.pollDeadline ≤ s1.now := by omega
      simp only [Act.get_bind_run, hcfg, hi, hnot]
      simp only [Bool.false_eq_true, if_false, setNvmState_bind_run]
      rw [Act.bind_ok h2]
      exact h3
    · have e1 := (m.setNvm { s1.nvm with nvmState := .pollWait }).trans m2
      have e2 := (((e1.setDl { s2.dl with
            opAddr := BitVec.ofNat 24 (statAddr c s2.ses.profile)
            opSize := BitVec.ofNat 2 s2.ses.profile.addrBytes, opLen := 1, respBuf := [last]
            dlState := .idle }).setNvm
              { s2.nvm with nvmState := .pollEval, lastStatus := last, statusValid := true }).trans m3)
      simpa [m2.nvm, m2.dl, m.nvm, m.dl, hses2, pollXfers, State.setNvm, State.setDl] using e2

/-- `WaitReady(T_NVM)` (42_nvm.md R225). -/
theorem waitReadyNvm_plays {last : Byte} {busy : List Byte} (hc : s.cfg = c) (hl : Live s)
    (ha : addrOk (statAddr c s.ses.profile) s.ses.profile.addrBytes = true)
    (h : PollsIdle c s.ses.profile (s.now + c.tNvm) last busy s.world w') :
    ∃ s', waitReadyNvm s = .ok () s' ∧
      Moved ((s.setDl
        { s.dl with
          opAddr := BitVec.ofNat 24 (statAddr c s.ses.profile)
          opSize := BitVec.ofNat 2 s.ses.profile.addrBytes, opLen := 1, respBuf := [last]
          dlState := .idle }).setNvm (s.nvm.afterReady c s.now last)) s'
        (pollXfers c s.ses.profile busy last) ∧
      s'.world = w' := by
  let s0 := s.setNvm { s.nvm with statusValid := false, pollDeadline := s.now + c.tNvm }
  obtain ⟨s1, h1, m, p⟩ := pollLoop_plays (fuel := c.tNvm) (s := s0) hc (hl.setNvm _) ha rfl
    (le_refl _) h
  refine ⟨s1.setNvm { s1.nvm with nvmState := .idle }, ?_, ?_, p⟩
  · simp only [waitReadyNvm, waitReady, Act.get_bind_run, hc]
    refine inNvm_ok ?_
    rw [Act.modify_bind_run]
    exact h1
  · have := m.setNvm { s1.nvm with nvmState := .idle }
    simpa [m.nvm, s0, Nvm.afterReady] using this

/-- The chunk loop of `write_page` (42_nvm.md R232). -/
theorem storeChunks_plays {bs : List (List Byte)} :
    ∀ {s : State}, s.cfg = c → Live s → s.dl.dlState = .idle →
      (∀ b ∈ bs, b ≠ [] ∧ b.length ≤ repeatMax) →
      Plays c ((bs.flatMap fun b => stPtrIncXfers c (decide (c.repeatThreshold < b.length)) b) ++ rest)
        s.world w' →
      ∃ s', storeChunks bs s = .ok () s' ∧
        Moved (s.setDl (s.dl.afterStores c.ack bs)) s'
          (bs.flatMap fun b => stPtrIncXfers c (decide (c.repeatThreshold < b.length)) b) ∧
        Plays c rest s'.world w' := by
  induction bs with
  | nil =>
    intro s hc hl hd _ h
    exact ⟨s, rfl, Moved.refl hl, h⟩
  | cons b bs ih =>
    intro s hc hl hd hb h
    simp only [List.flatMap_cons, List.append_assoc] at h ⊢
    obtain ⟨hne, hlen⟩ := hb b (by simp)
    obtain ⟨s1, h1, m1, p1⟩ := stPtrIncOp_plays hc hl hd (fun _ => hlen) h
    have hd1 : s1.dl.dlState = .idle := by rw [m1.dl]; rfl
    obtain ⟨s2, h2, m2, p2⟩ := ih (s := s1) (m1.cfg.trans hc)
      (m1.live (hl.setDl _)) hd1 (fun x hx => hb x (by simp [hx])) p1
    refine ⟨s2, ?_, ?_, p2⟩
    · simp only [storeChunks, Act.get_bind_run, hc]
      rw [Act.bind_ok h1]
      exact h2
    · have m := m1.andThen _ m2
      have e : s1.dl.afterStores c.ack bs = s.dl.afterStores c.ack (b :: bs) := by
        have hs1 : s1.dl = { s.dl with
            opLen := b.length, dataBuf := b, opIdx := b.length
            ackLast := if b = [] then s.dl.ackLast else c.ack, dlState := .idle } := m1.dl
        cases bs with
        | nil => simp [Dl.afterStores, hs1, hne, hd]
        | cons x xs =>
          rw [hs1]
          simp only [Dl.afterStores, List.getLast?_cons_cons]
          cases hx : (x :: xs).getLast? with
          | none => simp at hx
          | some y => simp [hd]
      rw [← e]; exact m

/-- The chunk loop of `read_bytes` (42_nvm.md R237). -/
theorem loadChunks_plays {bs : List (List Byte)} :
    ∀ {s : State}, s.cfg = c → Live s → s.dl.dlState = .idle →
      (∀ b ∈ bs, b.length ≤ repeatMax) →
      Plays c ((bs.flatMap fun b => ldPtrIncXfers c (decide (c.repeatThreshold < b.length)) b) ++ rest)
        s.world w' →
      ∃ s', loadChunks (bs.map List.length) s = .ok bs.flatten s' ∧
        Moved (s.setDl (s.dl.afterLoads bs)) s'
          (bs.flatMap fun b => ldPtrIncXfers c (decide (c.repeatThreshold < b.length)) b) ∧
        Plays c rest s'.world w' := by
  induction bs with
  | nil =>
    intro s hc hl hd _ h
    exact ⟨s, rfl, Moved.refl hl, h⟩
  | cons b bs ih =>
    intro s hc hl hd hb h
    simp only [List.flatMap_cons, List.append_assoc] at h ⊢
    have hlen := hb b (by simp)
    obtain ⟨s1, h1, m1, p1⟩ := ldPtrIncOp_plays hc hl hd (fun _ => hlen) h
    have hd1 : s1.dl.dlState = .idle := by rw [m1.dl]; rfl
    obtain ⟨s2, h2, m2, p2⟩ := ih (s := s1) (m1.cfg.trans hc)
      (m1.live (hl.setDl _)) hd1 (fun x hx => hb x (by simp [hx])) p1
    refine ⟨s2, ?_, ?_, p2⟩
    · simp only [List.map_cons, loadChunks, Act.get_bind_run, hc]
      rw [Act.bind_ok h1, Act.bind_ok h2]
      simp
    · have m := m1.andThen _ m2
      have e : s1.dl.afterLoads bs = s.dl.afterLoads (b :: bs) := by
        have hs1 : s1.dl = { s.dl with
            opLen := b.length, respBuf := b, opIdx := b.length, dlState := .idle } := m1.dl
        cases bs with
        | nil => simp [Dl.afterLoads, hs1, hd]
        | cons x xs =>
          rw [hs1]
          simp only [Dl.afterLoads, List.getLast?_cons_cons]
          cases hx : (x :: xs).getLast? with
          | none => simp at hx
          | some y => simp [hd]
      rw [← e]; exact m

end Sys2Proof.Machine
end

