-- ==== Sys2Proof/Laws/Script.lean ====
section
/-! SUPPORT. A scripted environment that answers a given list of transfers: the worlds that `Plays` asks for
exist. -/

namespace Sys2Proof.Machine

/-- The draws that answer these transfers: silence while the engine sends and reads its echo, the frames
of an answer while it reads. -/
def scriptOf (f : FrameFormat) : List Xfer → List Draw
  | [] => []
  | .tx _ :: xs => {} :: {} :: scriptOf f xs
  | .rx bs :: xs => { drive := bs.flatMap (frameBits f) } :: scriptOf f xs

/-- How long such an environment takes: one unit for each transmission. -/
def scriptTime : List Xfer → Nat
  | [] => 0
  | .tx _ :: xs => scriptTime xs + 1
  | .rx _ :: xs => scriptTime xs

theorem scriptOf_append (f : FrameFormat) (xs ys : List Xfer) :
    scriptOf f (xs ++ ys) = scriptOf f xs ++ scriptOf f ys := by
  induction xs with
  | nil => rfl
  | cons x xs ih => cases x <;> simp [scriptOf, ih]

theorem begins_frames (f : FrameFormat) (bs : List Byte) :
    begins f bs (bs.flatMap (frameBits f)) = true := by
  induction bs with
  | nil => rfl
  | cons b bs ih =>
    have e : (frameBits f b ++ bs.flatMap (frameBits f)).dropWhile id
        = frameBits f b ++ bs.flatMap (frameBits f) := by simp [frameBits]
    simp only [List.flatMap_cons, begins, e, Bool.and_eq_true, beq_iff_eq]
    exact ⟨rfl, ih⟩

theorem echoes_silence : Echoes {} := ⟨rfl, rfl, rfl⟩

theorem plays_script (c : Config) (ht : 0 < c.tByte) (xs : List Xfer) (ds : List Draw) (k n : Nat) :
    Plays c xs ⟨.oracle (scriptOf c.frame xs ++ ds) k, [], n⟩
      ⟨.oracle ds k, [], n + scriptTime xs⟩ := by
  induction xs generalizing n with
  | nil => rfl
  | cons x xs ih =>
    cases x with
    | tx bs =>
      refine ⟨rfl, echoes_silence, rfl, ?_⟩
      have h := ih (n + 1)
      have e : n + 1 + scriptTime xs = n + scriptTime (.tx bs :: xs) := by
        simp only [scriptTime]; omega
      rw [e] at h
      simpa [Env.answer, scriptOf] using h
    | rx bs =>
      refine ⟨rfl, ht, ⟨rfl, begins_frames _ bs⟩, ?_⟩
      simpa [Env.answer, scriptOf, scriptTime] using ih n

end Sys2Proof.Machine
end

