-- ==== Sys2Proof/Tests/Slice0.lean ====
section
/-! SUPPORT. Tests: the static checks refuse what they should, words written out from 30_encoding.md decode to
their instructions, one-step runs of 95_test_vectors.md, and for every statement with hypotheses a state and
operands that meet them. -/

namespace Sys2Proof.Tests

open Machine

set_option Elab.async false

/-! ### The static checks (each on an ill-formed term) -/

theorem test_wf_stinc : Instr.wf .ex1 (.stinc 0 (List.replicate 256 0)) = false := by
  decide +kernel
theorem test_wf_ldinc : Instr.wf .ex1 (.ldinc 256) = false := by decide
theorem test_wf_repeat_none : Instr.wf .ex1 (.repeatNext 0) = false := by decide
theorem test_wf_repeat_many : Instr.wf .ex1 (.repeatNext 257) = false := by decide
theorem test_wf_key : Instr.wf .ex1 (.key [1]) = false := by decide
theorem test_wf_csRead : Instr.wf .ex1 (.csRead 0x10) = false := by decide
theorem test_wf_csWrite_address : Instr.wf .ex1 (.csWrite 0x10 0) = false := by decide
theorem test_wf_csWrite_value : Instr.wf .ex1 (.csWrite 0 0x100) = false := by decide
theorem test_wf_lds_size : Instr.wf .ex1 (.lds 0 4) = false := by decide
theorem test_wf_lds_address : Instr.wf .ex1 (.lds 0x100 1) = false := by decide
theorem test_wf_sts_address : Instr.wf .ex1 (.sts 0x10000 0 2) = false := by decide
theorem test_wf_sts_value : Instr.wf .ex1 (.sts 0 0x100 2) = false := by decide
theorem test_wf_stPtr : Instr.wf .ex1 (.stPtr 0x1000000) = false := by decide
theorem test_wf_stPtrInc : Instr.wf .ex1 (.stPtrInc (List.replicate 257 0) true) = false := by
  decide +kernel
theorem test_wf_ldPtrInc : Instr.wf .ex1 (.ldPtrInc 257 true) = false := by decide
theorem test_wf_keyWrite : Instr.wf .ex1 (.keyWrite []) = false := by decide
theorem test_wf_writePage : Instr.wf .ex1 (.writePage 2 0 []) = false := by decide
theorem test_wf_readBytes : Instr.wf .ex1 (.readBytes 5 0 0) = false := by decide
theorem test_wf_writeFuse : Instr.wf .ex1 (.writeFuse 0 0x100) = false := by decide
theorem test_wf_erasePage : Instr.wf .ex1 (.erasePage 4 0) = false := by decide

/-- 00_scope.md R9, one constraint each. -/
theorem test_config : Config.ex1.wf = true ∧ { Config.ex1 with baud := 0 }.wf = false ∧
    { Config.ex1 with breakBits := 24 }.wf = false ∧ { Config.ex1 with breakGuardBits := 0 }.wf = false ∧
    { Config.ex1 with syncAttempts := 0 }.wf = false ∧
    { Config.ex1 with repeatThreshold := 0 }.wf = false := by decide

theorem test_codes : Config.ex1.codesDistinct = true ∧
    { Config.ex1 with opcLd := 0 }.codesDistinct = false ∧
    { Config.ex1 with ptrModeInc := 2 }.codesDistinct = false := by decide

/-! ### Frames (30_encoding.md R92) -/

theorem test_frame_sync :
    frameBits frameDefault 0x55 = [false, true, false, true, false, true, false, true, false, false, true, true] := by
  decide
theorem test_frame_ack :
    frameBits frameDefault 0x40 = [false, false, false, false, false, false, false, true, false, true, true, true] := by
  decide
/-- Odd parity is malformed (30_encoding.md R93). -/
theorem test_frame_parity :
    deframe frameDefault [false, false, false, false, false, false, false, true, false, false, true, true] = none := by
  decide
theorem test_frame_stop :
    deframe frameDefault [false, false, false, false, false, false, false, true, false, true, true, false] = none := by
  decide

/-- Another `FRAME`: most significant bit first, odd parity (log entry 17). -/
theorem test_frame_other : let f : FrameFormat := { msbFirst := true, parity := .odd }
    frameBits f 0x0B = [false, false, false, false, false, true, false, true, true, false, true, true] ∧
      deframe f (frameBits f 0x0B) = some 0x0B ∧ deframe f (frameBits frameDefault 0x0B) = none := by
  decide

/-! ### Decoding: bytes and codes written out from 30_encoding.md R97 to R103 and R115 -/

/-- The decoder's answer for wire bytes at the defaults. -/
def reads (armed : Nat) (bytes : List Byte) : Option Instr :=
  match decode .ex1 (.wire armed bytes) with
  | .ok i => some i
  | .error _ => none

theorem test_decode_ldcs : reads 0 [0x55, 0b10001011] = some (.ldcs 0xB) := by decide
theorem test_decode_stcs : reads 0 [0x55, 0b11000011, 0x00] = some (.stcs 0x3 0x00) := by decide
theorem test_decode_lds1 : reads 0 [0x55, 0b00000000, 0x7F] = some (.lds1 0x7F) := by decide
theorem test_decode_lds2 : reads 0 [0x55, 0b00000100, 0x02, 0x10] = some (.lds2 0x1002) := by decide
theorem test_decode_lds3 : reads 0 [0x55, 0b00001000, 0x34, 0x12, 0x80] = some (.lds3 0x801234) := by
  decide
theorem test_decode_sts1 : reads 0 [0x55, 0b01000000, 0x7F, 0xAA] = some (.sts1 0x7F 0xAA) := by decide
theorem test_decode_sts2 : reads 0 [0x55, 0b01000100, 0x00, 0x10, 0x05] = some (.sts2 0x1000 0x05) := by
  decide
theorem test_decode_sts3 :
    reads 0 [0x55, 0b01001000, 0x34, 0x12, 0x80, 0xFF] = some (.sts3 0x801234 0xFF) := by decide
theorem test_decode_stptr1 : reads 0 [0x55, 0b01101000, 0x42] = some (.stptr1 0x42) := by decide
theorem test_decode_stptr2 : reads 0 [0x55, 0b01101001, 0x00, 0x80] = some (.stptr2 0x8000) := by decide
theorem test_decode_stptr3 :
    reads 0 [0x55, 0b01101010, 0x00, 0x80, 0x01] = some (.stptr3 0x018000) := by decide
theorem test_decode_ldptr1 : reads 0 [0x55, 0b00101000] = some .ldptr1 := by decide
theorem test_decode_ldptr2 : reads 0 [0x55, 0b00101001] = some .ldptr2 := by decide
theorem test_decode_ldptr3 : reads 0 [0x55, 0b00101010] = some .ldptr3 := by decide
theorem test_decode_stinc : reads 2 [0x55, 0b01100100, 0xAA, 0xBB, 0xCC] = some (.stinc 0xAA [0xBB, 0xCC]) := by
  decide
theorem test_decode_ldinc : reads 63 [0x55, 0b00100100] = some (.ldinc 63) := by decide
theorem test_decode_repeat : reads 0 [0x55, 0b10100000, 0x3F] = some (.repeatNext 64) := by decide
theorem test_decode_key :
    reads 0 [0x55, 0b11100000, 0x20, 0x67, 0x6F, 0x72, 0x50, 0x4D, 0x56, 0x4E] =
      some (.key [0x4E, 0x56, 0x4D, 0x50, 0x72, 0x6F, 0x67, 0x20]) := by decide

/-- Bit 4, a fourth size, 16-bit data, a two-byte count, a longer key: never emitted (R108), so unknown. -/
theorem test_decode_reserved :
    reads 0 [0x55, 0b00010100, 0, 0] = none ∧ reads 0 [0x55, 0b00001100, 0, 0, 0, 0] = none ∧
    reads 0 [0x55, 0b01100101, 0, 0] = none ∧ reads 0 [0x55, 0b10100001, 0, 0] = none ∧
    reads 0 [0x55, 0b11100100] = none ∧ reads 0 [0x56, 0b10001011] = none ∧
    reads 0 [0x55, 0b11000011] = none := by decide

theorem test_table_getStatus : decodeTableWord 8 0x00 = some .getStatus := by decide
/-- A bare 0x24 is the command st_ptr (log entry 6). -/
theorem test_table_ldinc : decodeTableWord 16 0x0024 = some (.ldinc 0) := by decide
theorem test_table_lds1 : decodeTableWord 16 0x7F00 = some (.lds1 0x7F) := by decide
theorem test_table_open : decodeTableWord 8 0x01 = some (.openSession Profile.blank 0) := by decide
theorem test_table_enter : decodeTableWord 8 0x02 = some .enterProgrammingMode := by decide
theorem test_table_close : decodeTableWord 8 0x03 = some (.closeSession false) := by decide
theorem test_table_initLink : decodeTableWord 8 0x10 = some .initLink := by decide
theorem test_table_sendBytes : decodeTableWord 8 0x11 = some (.sendBytes []) := by decide
theorem test_table_receiveBytes : decodeTableWord 8 0x12 = some (.receiveBytes 0 0) := by decide
theorem test_table_csRead : decodeTableWord 8 0x20 = some (.csRead 0) := by decide
theorem test_table_csWrite : decodeTableWord 8 0x21 = some (.csWrite 0 0) := by decide
theorem test_table_lds : decodeTableWord 8 0x22 = some (.lds 0 0) := by decide
theorem test_table_sts : decodeTableWord 8 0x23 = some (.sts 0 0 0) := by decide
theorem test_table_stPtr : decodeTableWord 8 0x24 = some (.stPtr 0) := by decide
theorem test_table_ldPtr : decodeTableWord 8 0x25 = some .ldPtr := by decide
theorem test_table_stPtrInc : decodeTableWord 8 0x26 = some (.stPtrInc [] false) := by decide
theorem test_table_ldPtrInc : decodeTableWord 8 0x27 = some (.ldPtrInc 0 false) := by decide
theorem test_table_keyWrite : decodeTableWord 8 0x28 = some (.keyWrite []) := by decide
theorem test_table_unlock : decodeTableWord 8 0x30 = some .unlockChipEraseKey := by decide
theorem test_table_wait : decodeTableWord 8 0x31 = some .waitNvmReady := by decide
theorem test_table_chipErase : decodeTableWord 8 0x32 = some .chipErase := by decide
theorem test_table_writePage : decodeTableWord 8 0x33 = some (.writePage 0 0 []) := by decide
theorem test_table_readBytes : decodeTableWord 8 0x34 = some (.readBytes 0 0 0) := by decide
theorem test_table_readFuse : decodeTableWord 8 0x35 = some (.readFuse 0) := by decide
theorem test_table_writeFuse : decodeTableWord 8 0x36 = some (.writeFuse 0 0) := by decide
theorem test_table_erasePage : decodeTableWord 8 0x37 = some (.erasePage 0 0) := by decide
theorem test_table_eepromErase : decodeTableWord 8 0x38 = some .eepromErase := by decide
theorem test_table_crcCheck : decodeTableWord 8 0x39 = some .crcCheck := by decide

/-! ### One step (95_test_vectors.md) -/

/-- A session in the given mode at rest, with these draws of the environment. -/
def session (m : SesState) (draws : List Draw) : State :=
  { State.reset with
    ses := { sesState := m, profile := Profile.ex1, trOpen := m != .closed }
    phy := { State.reset.phy with linkUp := m != .closed, baudCur := 115200 }
    env := .oracle draws 0 }

/-- The same with a world that answers these transfers. -/
def answered (m : SesState) (xs : List Xfer) : State := session m (scriptOf frameDefault xs)

/-- As `answered`, with the erase key sent. -/
def unlocked (xs : List Xfer) : State :=
  { answered .programming xs with nvm := { State.reset.nvm with eraseKeySent := true } }

/-- The state an instruction leaves. -/
def after (i : Instr) (s : State) : State :=
  match exec i s with
  | .next t => t
  | .fault _ => s
  | .refused _ => s

/-- A silent draw. -/
def still : Draw := {}

/-- From a session where these transfers are answered, the instruction ends `OK` with this result and
makes exactly these transfers. -/
def runs (m : SesState) (i : Instr) (xs : List Xfer) (data : List Byte) : Bool :=
  let t := after i (answered m xs)
  t.rsp.rspStatus == 0x00 && t.rsp.rspData == data && t.traffic == xs

/-- The same with the erase key sent. -/
def runsKeyed (i : Instr) (xs : List Xfer) : Bool :=
  let t := after i (unlocked xs)
  t.rsp.rspStatus == 0x00 && t.rsp.rspData == [] && t.traffic == xs
    && t.ses.sesState == .programming && t.nvm.lastStatus == 0x00

/-- The instruction is refused and makes no transfer. -/
def refuses (i : Instr) (s : State) : Bool :=
  (after i s).rsp.rspStatus == 0xFF && (after i s).trace == s.trace

/-- The status and record an instruction ends with. -/
def fails (i : Instr) (s : State) : Byte × ErrBase :=
  ((after i s).rsp.rspStatus, (after i s).rsp.rspInfo.base)

/-- D2 -/
theorem test_ldcs :
    runs .linkEstablished (.ldcs 0xF)
      [.tx [0x55, 0x8F], .rx [0xEE]] [0xEE] = true := by decide +kernel
/-- D4 -/
theorem test_stcs :
    runs .linkEstablished (.stcs 0x8 0x59)
      [.tx [0x55, 0xC8, 0x59]] [] = true := by decide +kernel
/-- D9 -/
theorem test_lds1 :
    runs .linkEstablished (.lds1 0x34)
      [.tx [0x55, 0x00, 0x34], .rx [0x12]] [0x12] = true := by decide +kernel
/-- D11 -/
theorem test_lds2 :
    runs .linkEstablished (.lds2 0xFFFF)
      [.tx [0x55, 0x04, 0xFF, 0xFF], .rx [0x12]] [0x12] = true := by decide +kernel
/-- D10 -/
theorem test_lds3 :
    runs .linkEstablished (.lds3 0x123456)
      [.tx [0x55, 0x08, 0x56, 0x34, 0x12], .rx [0x12]] [0x12] = true := by decide +kernel
/-- D15 -/
theorem test_sts1 :
    runs .linkEstablished (.sts1 0x34 0x7F)
      [.tx [0x55, 0x40, 0x34], .rx [0x40], .tx [0x7F], .rx [0x40]] [] = true := by decide +kernel
/-- D17 -/
theorem test_sts2 :
    runs .linkEstablished (.sts2 0x1000 0x55)
      [.tx [0x55, 0x44, 0x00, 0x10], .rx [0x40], .tx [0x55], .rx [0x40]] [] = true := by decide +kernel
/-- D16 -/
theorem test_sts3 :
    runs .linkEstablished (.sts3 0x123456 0x7F)
      [.tx [0x55, 0x48, 0x56, 0x34, 0x12], .rx [0x40], .tx [0x7F], .rx [0x40]] [] = true := by decide +kernel
/-- D22 -/
theorem test_stptr1 :
    runs .linkEstablished (.stptr1 0x34)
      [.tx [0x55, 0x68, 0x34], .rx [0x40]] [] = true := by decide +kernel
/-- D21 -/
theorem test_stptr2 :
    runs .linkEstablished (.stptr2 0x8000)
      [.tx [0x55, 0x69, 0x00, 0x80], .rx [0x40]] [] = true := by decide +kernel
/-- D22 -/
theorem test_stptr3 :
    runs .linkEstablished (.stptr3 0x123456)
      [.tx [0x55, 0x6A, 0x56, 0x34, 0x12], .rx [0x40]] [] = true := by decide +kernel
/-- 30_encoding.md R100 -/
theorem test_ldptr1 :
    runs .linkEstablished .ldptr1
      [.tx [0x55, 0x28], .rx [0x80]] [0x80] = true := by decide +kernel
/-- D24 -/
theorem test_ldptr2 :
    runs .linkEstablished .ldptr2
      [.tx [0x55, 0x29], .rx [0x00, 0x80]] [0x00, 0x80] = true := by decide +kernel
/-- D24 -/
theorem test_ldptr3 :
    runs .linkEstablished .ldptr3
      [.tx [0x55, 0x2A], .rx [0x56, 0x34, 0x12]] [0x56, 0x34, 0x12] = true := by decide +kernel
/-- D26, after its REPEAT -/
theorem test_stinc :
    runs .linkEstablished (.stinc 0xAA [0xBB, 0xCC])
      [.tx [0x55, 0x64, 0xAA], .rx [0x40], .tx [0xBB], .rx [0x40], .tx [0xCC], .rx [0x40]] [] = true := by decide +kernel
/-- D31, after its REPEAT -/
theorem test_ldinc :
    runs .linkEstablished (.ldinc 2)
      [.tx [0x55, 0x24], .rx [0xAA, 0xBB, 0xCC]] [0xAA, 0xBB, 0xCC] = true := by decide +kernel
/-- D26 -/
theorem test_repeatNext :
    runs .linkEstablished (.repeatNext 256)
      [.tx [0x55, 0xA0, 0xFF]] [] = true := by decide +kernel
/-- 41_datalink.md R200: omitted for one repetition. -/
theorem test_repeatNext_one : runs .linkEstablished (.repeatNext 1) [] [] = true := by decide +kernel
/-- D36 -/
theorem test_key :
    runs .linkEstablished (.key keyNvmErase)
      [.tx [0x55, 0xE0], .tx [0x65, 0x73, 0x61, 0x72, 0x45, 0x4D, 0x56, 0x4E]] [] = true := by decide +kernel
/-- R38, at reset and in a session of which every flag but frame_err is set. -/
theorem test_getStatus :
    (after .getStatus State.reset).rsp.rspData = [0x00] ∧
      (after .getStatus (unlocked [])).rsp.rspData = [0x2F] := by decide +kernel
/-- 43_session.md R260, example: the status byte after open is 0x25. -/
theorem test_openSession :
    let t := after (.openSession Profile.ex1 0) (session .closed (List.replicate 5 still))
    t.traffic = [.tx [0x55]] ∧ statusByte t = 0x25 ∧ t.breaks = 1 := by decide +kernel
/-- The receive wire is open: nothing sent comes back, and no frame is malformed. -/
def deaf : Draw := { cut := true }
/-- X12: P3 inside open with no echo at all; FERR is 0. -/
theorem test_openSession_deaf :
    let t := after (.openSession Profile.ex1 0)
      (session .closed ([still] ++ [still, still, deaf, still] ++ [still, still, deaf, still] ++
        [still, still, deaf, still, still]))
    t.rsp.rspStatus = 0x0A ∧ t.breaks = 3 ∧ statusByte t = 0x00 ∧
      t.rsp.rspInfo.cause = some (.linkInit,
        { layer := some .phy, op := [.initLink], attempts := some 3, got := some .timeout }) := by
  decide +kernel
/-- 43_session.md R263, example. -/
theorem test_enterProgrammingMode :
    let t := after .enterProgrammingMode (answered .linkEstablished
      [.tx [0x55, 0xE0], .tx [0x20, 0x67, 0x6F, 0x72, 0x50, 0x4D, 0x56, 0x4E], .tx [0x55, 0x8B],
        .rx [0x08]])
    t.rsp.rspStatus = 0x00 ∧ t.ses.sesState = .unlocked ∧
      t.traffic = [.tx [0x55, 0xE0], .tx [0x20, 0x67, 0x6F, 0x72, 0x50, 0x4D, 0x56, 0x4E],
        .tx [0x55, 0x8B], .rx [0x08]] := by decide +kernel
/-- P4 of section 3, run (a). -/
theorem test_enterProgrammingMode_deaf :
    let t := after .enterProgrammingMode (session .linkEstablished [deaf, still])
    t.rsp.rspStatus = 0x0B ∧ statusByte t = 0x25 ∧ t.rsp.rspInfo.cause.map (·.1) = some .linkTimeout := by
  decide +kernel
/-- 43_session.md R266, example. -/
theorem test_closeSession :
    let t := after (.closeSession true) (session .programming (List.replicate 7 still))
    t.traffic = [.tx [0x55, 0xC3, 0x00], .tx [0x55, 0xC8, 0x59], .tx [0x55, 0xC8, 0x00]] ∧
      statusByte t = 0x00 ∧ t.rsp.rspStatus = 0x00 := by decide +kernel
/-- S5: a second close. -/
theorem test_closeSession_again :
    let t := after (.closeSession false) (session .programming (List.replicate 3 still))
    after (.closeSession true) t = t := by decide +kernel
/-- P2: the first SYNC echo lost. -/
theorem test_initLink :
    let t := after .initLink (session .linkEstablished
      ([still, still, { drive := List.replicate 12 false }, still] ++ List.replicate 4 still))
    t.rsp.rspStatus = 0x00 ∧ t.phy.syncAttempt = 2 ∧ t.breaks = 2 ∧ t.phy.linkUp = true := by
  decide +kernel
/-- P5: a wrong byte, then SYNC. -/
theorem test_initLink_wrong :
    let t := after .initLink (session .linkEstablished
      ([still, still, { drive := frameBits frameDefault 0x54, cut := true }] ++ List.replicate 5 still))
    t.rsp.rspStatus = 0x00 ∧ t.phy.syncAttempt = 2 ∧ t.phy.line.frameErr = false := by decide +kernel
/-- 60_exceptions.md R300: a primitive that fails after its first frame has gone out and come back. -/
theorem test_sendBytes_ioerror :
    let t := after (.sendBytes [0x55, 0x80]) (session .linkEstablished
      ([{ ioerror := true, dt := 3, sent := 12 }] ++ List.replicate 4 still))
    t.rsp.rspStatus = 0x01 ∧ t.now = 4 ∧ t.phy.line.rxFifo = [] ∧ t.ses.sesState = .closed := by
  decide +kernel
/-- P13: a stale byte is taken for the first echo. -/
theorem test_sendBytes_stale :
    let s := session .linkEstablished [still, still]
    let s := s.setLine { s.phy.line with rxFifo := [0x99] }
    (after (.sendBytes [0x55, 0x8B]) s).phy.line.rxFifo = [0x8B] := by decide +kernel
/-- P15 -/
theorem test_receiveBytes :
    let t := after (.receiveBytes 1 100) (answered .linkEstablished [.rx [0x08]])
    t.rsp.rspStatus = 0x00 ∧ t.rsp.rspData = [0x08] := by decide +kernel
/-- P16 -/
theorem test_receiveBytes_short :
    fails (.receiveBytes 3 100) (session .linkEstablished
      [{ drive := [0x01, 0x02].flatMap (frameBits frameDefault) }, still, still, still]) =
      (0x03, { layer := some .phy, op := [.receiveBytes], phase := some .response, wanted := some 3 }) := by
  decide +kernel
/-- D1 -/
theorem test_csRead :
    runs .linkEstablished (.csRead 0x0B)
      [.tx [0x55, 0x8B], .rx [0x08]] [0x08] = true := by decide +kernel
/-- D5 -/
theorem test_csRead_refused :
    refuses (.csRead 0x10) (answered .linkEstablished []) = true := by decide +kernel
/-- D7 -/
theorem test_csWrite :
    runs .linkEstablished (.csWrite 0x03 0x00)
      [.tx [0x55, 0xC3, 0x00]] [] = true := by decide +kernel
/-- D5 -/
theorem test_csWrite_refused :
    refuses (.csWrite 0x03 0x100) (answered .linkEstablished []) = true := by decide +kernel
/-- D8 -/
theorem test_lds :
    runs .linkEstablished (.lds 0x1002 2)
      [.tx [0x55, 0x04, 0x02, 0x10], .rx [0x00]] [0x00] = true := by decide +kernel
/-- D12 -/
theorem test_lds_refused :
    refuses (.lds 0x100 1) (answered .linkEstablished []) = true := by decide +kernel
/-- D14 -/
theorem test_sts :
    runs .linkEstablished (.sts 0x1000 0x05 2)
      [.tx [0x55, 0x44, 0x00, 0x10], .rx [0x40], .tx [0x05], .rx [0x40]] [] = true := by decide +kernel
/-- D20; the cleanup writes CS registers and leaves DL's registers alone (60_exceptions.md R288, R290). -/
theorem test_sts_nack :
    let t := after (.sts 0x1008 0x82 2) (session .linkEstablished
      (scriptOf frameDefault [.tx [0x55, 0x44, 0x08, 0x10], .rx [0x40], .tx [0x82], .rx [0x41]] ++
        [still, still, still]))
    t.rsp.rspStatus = 0x04 ∧ t.rsp.rspInfo.base =
      { layer := some .dl, op := [.sts], addr := some 0x1008, phase := some .data
        expected := some 0x40, got := some (.byte 0x41) } ∧
    t.dl.opAddr = 0x1008 ∧ t.dl.ackLast = 0x41 ∧ t.dl.dlState = .idle ∧
      t.traffic.getLast? = some (.tx [0x55, 0xC3, 0x00]) := by decide +kernel
/-- D21 -/
theorem test_stPtr :
    runs .linkEstablished (.stPtr 0x8000)
      [.tx [0x55, 0x69, 0x00, 0x80], .rx [0x40]] [] = true := by decide +kernel
/-- D23 -/
theorem test_stPtr_refused :
    refuses (.stPtr 0x10000) (answered .linkEstablished []) = true := by decide +kernel
/-- D24 -/
theorem test_ldPtr :
    runs .linkEstablished .ldPtr
      [.tx [0x55, 0x29], .rx [0x00, 0x80]] [0x00, 0x80] = true := by decide +kernel
/-- D26 -/
theorem test_stPtrInc :
    runs .linkEstablished (.stPtrInc [0xAA, 0xBB, 0xCC] true)
      [.tx [0x55, 0xA0, 0x02], .tx [0x55, 0x64, 0xAA], .rx [0x40], .tx [0xBB], .rx [0x40], .tx [0xCC], .rx [0x40]] [] = true := by decide +kernel
/-- D28 -/
theorem test_stPtrInc_singles :
    runs .linkEstablished (.stPtrInc [0xAA, 0xBB] false)
      [.tx [0x55, 0x64, 0xAA], .rx [0x40], .tx [0x55, 0x64, 0xBB], .rx [0x40]] [] = true := by decide +kernel
/-- D31 -/
theorem test_ldPtrInc :
    runs .linkEstablished (.ldPtrInc 3 true)
      [.tx [0x55, 0xA0, 0x02], .tx [0x55, 0x24], .rx [0xAA, 0xBB, 0xCC]] [0xAA, 0xBB, 0xCC] = true := by decide +kernel
/-- D33 -/
theorem test_ldPtrInc_singles :
    runs .linkEstablished (.ldPtrInc 2 false)
      [.tx [0x55, 0x24], .rx [0xAA], .tx [0x55, 0x24], .rx [0xBB]] [0xAA, 0xBB] = true := by decide +kernel
/-- D35 -/
theorem test_keyWrite :
    runs .linkEstablished (.keyWrite keyNvmProg)
      [.tx [0x55, 0xE0], .tx [0x20, 0x67, 0x6F, 0x72, 0x50, 0x4D, 0x56, 0x4E]] [] = true := by decide +kernel
/-- D38 -/
theorem test_keyWrite_refused :
    refuses (.keyWrite [1, 2, 3, 4, 5, 6, 7]) (answered .linkEstablished []) = true := by decide +kernel
/-- 42_nvm.md R221, example; and the call that sends nothing. -/
theorem test_unlock :
    (after .unlockChipEraseKey (answered .unlocked [.tx [0x55, 0xE0], .tx [0x65, 0x73, 0x61, 0x72, 0x45, 0x4D, 0x56, 0x4E]])).traffic = [.tx [0x55, 0xE0], .tx [0x65, 0x73, 0x61, 0x72, 0x45, 0x4D, 0x56, 0x4E]] ∧
    statusByte (after .unlockChipEraseKey (answered .unlocked [.tx [0x55, 0xE0], .tx [0x65, 0x73, 0x61, 0x72, 0x45, 0x4D, 0x56, 0x4E]])) = 0x2F ∧
    (after .unlockChipEraseKey (unlocked [])).traffic = [] := by decide +kernel
/-- N24: an idle read after the deadline is still success. -/
theorem test_wait :
    let t := after .waitNvmReady (session .unlocked
      [still, still, { drive := frameBits frameDefault 0x01 }, still, still, still, { drive := frameBits frameDefault 0x01 }, still, still, still,
        { drive := frameBits frameDefault 0x00 }])
    t.rsp.rspStatus = 0x00 ∧ t.now = 7 ∧ t.ses.sesState = .programming := by decide +kernel
/-- N22, N25: the error bit for ever. -/
theorem test_wait_stuck :
    let bad : Draw := { drive := frameBits frameDefault 0x04 }
    fails .waitNvmReady (session .unlocked
      [still, still, bad, still, still, still, bad, still, still, still, bad, still, still, still]) =
      (0x05, { layer := some .nvm, op := [.waitNvmReady], addr := some 0x1002, status := some 0x04 }) := by
  decide +kernel
/-- N18 -/
theorem test_chipErase :
    runsKeyed .chipErase
      [.tx [0x55, 0x44, 0x00, 0x10], .rx [0x40], .tx [0x05], .rx [0x40],
        .tx [0x55, 0x04, 0x02, 0x10], .rx [0x00]] = true := by decide +kernel
/-- 42_nvm.md R222 -/
theorem test_chipErase_refused :
    refuses .chipErase (answered .programming []) = true := by decide +kernel
/-- N12, with 32 data bytes. -/
theorem test_writePage :
    runsKeyed (.writePage 1 32 (List.replicate 32 0x5A))
      ([.tx [0x55, 0x69, 0x20, 0x14], .rx [0x40], .tx [0x55, 0xA0, 0x1F], .tx [0x55, 0x64, 0x5A],
          .rx [0x40]] ++ (List.replicate 31 [.tx [0x5A], .rx [0x40]]).flatten ++
        [.tx [0x55, 0x44, 0x00, 0x10], .rx [0x40], .tx [0x01], .rx [0x40],
          .tx [0x55, 0x04, 0x02, 0x10], .rx [0x00]]) = true := by decide +kernel
/-- N2 -/
theorem test_writePage_unaligned :
    fails (.writePage 0 10 [1, 2, 3]) (answered .unlocked []) =
      (0x06,
        { layer := some .nvm, op := [.writePage], region := some 0, offset := some 10, page := some 64 }) := by
  decide +kernel
/-- 42_nvm.md R237, on the fuses -/
theorem test_readBytes :
    runs .unlocked (.readBytes 2 4 2)
      [.tx [0x55, 0x69, 0x84, 0x12], .rx [0x40], .tx [0x55, 0xA0, 0x01], .tx [0x55, 0x24], .rx [0x11, 0x22]] [0x11, 0x22] = true := by decide +kernel
/-- 42_nvm.md R237: past the region's end -/
theorem test_readBytes_refused :
    refuses (.readBytes 0 0x2000 1) (answered .unlocked []) = true := by decide +kernel
/-- N29 -/
theorem test_readFuse :
    runs .unlocked (.readFuse 5)
      [.tx [0x55, 0x04, 0x85, 0x12], .rx [0x33]] [0x33] = true := by decide +kernel
/-- 42_nvm.md R223: the error of the load carries the command's region, address and name. -/
theorem test_readFuse_silent :
    fails (.readFuse 5) (session .unlocked (List.replicate 6 still)) =
      (0x03, { layer := some .phy, op := [.receiveBytes, .lds, .readFuse], addr := some 0x1285
               nvmAddr := some 0x1285, phase := some .response, wanted := some 1, region := some 2 }) := by
  decide +kernel
/-- N32 -/
theorem test_writeFuse :
    runsKeyed (.writeFuse 1 0xAB)
      [.tx [0x55, 0x44, 0x08, 0x10], .rx [0x40], .tx [0x81], .rx [0x40],
        .tx [0x55, 0x44, 0x09, 0x10], .rx [0x40], .tx [0x12], .rx [0x40],
        .tx [0x55, 0x44, 0x06, 0x10], .rx [0x40], .tx [0xAB], .rx [0x40],
        .tx [0x55, 0x44, 0x00, 0x10], .rx [0x40], .tx [0x07], .rx [0x40],
        .tx [0x55, 0x04, 0x02, 0x10], .rx [0x00]] = true := by decide +kernel
/-- N33 -/
theorem test_writeFuse_refused :
    refuses (.writeFuse 1 0x100) (unlocked []) = true := by decide +kernel
/-- N15 -/
theorem test_erasePage :
    runsKeyed (.erasePage 0 64)
      [.tx [0x55, 0x44, 0x40, 0x80], .rx [0x40], .tx [0xFF], .rx [0x40],
        .tx [0x55, 0x44, 0x00, 0x10], .rx [0x40], .tx [0x02], .rx [0x40],
        .tx [0x55, 0x04, 0x02, 0x10], .rx [0x00]] = true := by decide +kernel
/-- N17 -/
theorem test_erasePage_refused :
    refuses (.erasePage 0 0x2000) (unlocked []) = true := by decide +kernel
/-- N19 -/
theorem test_eepromErase :
    runsKeyed .eepromErase
      [.tx [0x55, 0x44, 0x00, 0x10], .rx [0x40], .tx [0x06], .rx [0x40],
        .tx [0x55, 0x04, 0x02, 0x10], .rx [0x00]] = true := by decide +kernel
/-- 42_nvm.md R248 -/
theorem test_crcCheck :
    refuses .crcCheck (unlocked []) = true := by decide +kernel
/-- 60_exceptions.md R292 -/
theorem test_unadmitted :
    refuses (.lds 0 1) State.reset = true := by decide +kernel
/-- A step takes the first request and leaves the rest. -/
theorem test_step :
    (match step { answered .linkEstablished [.tx [0x55, 0x8B], .rx [0x08]] with
        inputs := [.request (.command 0x20 { address := 0x0B }), .reset] } with
      | .next t => some (t.rsp.rspData, t.inputs)
      | _ => none) = some ([0x08], [.reset]) := by decide +kernel

/-- A word of the table runs as the first instruction after reset. -/
theorem test_fetch :
    (match step (State.reset.withFetchWord 8 0x00) with
      | .next t => some (t.rsp.rspStatus, t.rsp.rspData, t.inputs)
      | _ => none) = some (0x00, [0x00], []) := by decide +kernel

/-! ### Every statement's hypotheses are met: one theorem for each statement that has any -/

theorem ex1_valid : profileValid Config.ex1 Profile.ex1 = true := by decide

theorem session_inv (m : SesState) (ds : List Draw) : Inv (session m ds) where
  notBusy := rfl
  idle := ⟨rfl, rfl, rfl, rfl⟩
  lineHigh := rfl
  noFrameOut := rfl
  closedIff := by cases m <;> simp [session]
  linkIff := by cases m <;> rfl
  baudSet := fun _ => rfl
  keyInProgramming := by simp [session, State.reset]
  profileOk := fun _ => ex1_valid

theorem answered_inv (m : SesState) (xs : List Xfer) : Inv (answered m xs) := session_inv m _

theorem unlocked_inv (xs : List Xfer) : Inv (unlocked xs) where
  notBusy := rfl
  idle := ⟨rfl, rfl, rfl, rfl⟩
  lineHigh := rfl
  noFrameOut := rfl
  closedIff := (session_inv .programming (scriptOf frameDefault xs)).closedIff
  linkIff := rfl
  baudSet := fun _ => rfl
  keyInProgramming := fun _ => rfl
  profileOk := fun _ => ex1_valid

theorem after_eq {s : State} (h : Inv s) (i : Instr) : exec i s = .next (after i s) := by
  obtain ⟨t, ht, _⟩ := exec_ended i h.notBusy h
  simp [after, ht]

theorem session_ready {m : SesState} (h : m ≠ .closed) (ds : List Draw) : Ready (session m ds) := by
  cases m
  · exact absurd rfl h
  all_goals exact ⟨rfl, h, rfl, ⟨rfl, rfl, rfl, rfl⟩, ⟨rfl, rfl, rfl, rfl⟩⟩

theorem answered_ready {m : SesState} (h : m ≠ .closed) (xs : List Xfer) : Ready (answered m xs) :=
  session_ready h _

theorem session_nvmReady (ds : List Draw) : NvmReady (session .unlocked ds) :=
  ⟨session_ready (by nofun) ds, .inl rfl, ex1_valid⟩

theorem answered_nvmReady (xs : List Xfer) : NvmReady (answered .unlocked xs) := session_nvmReady _

theorem unlocked_nvmReady (xs : List Xfer) : NvmReady (unlocked xs) :=
  ⟨⟨rfl, nofun, rfl, ⟨rfl, rfl, rfl, rfl⟩, ⟨rfl, rfl, rfl, rfl⟩⟩, .inr rfl, ex1_valid⟩

/-- The world at the end of the transfers `answered` was made for. -/
def ended (xs : List Xfer) : World := ⟨.oracle [] 0, [], scriptTime xs⟩

theorem answered_plays (m : SesState) (xs : List Xfer) :
    Plays Config.ex1 xs (answered m xs).world (ended xs) := by
  have h := plays_script Config.ex1 (by decide) xs [] 0 0
  rw [List.append_nil, Nat.zero_add] at h
  exact h

/-- A command's transfers and then one idle status read. -/
theorem plays_then_idle (xs : List Xfer) :
    ∃ m w, Plays .ex1 xs ⟨.oracle (scriptOf frameDefault (xs ++ statusXfers .ex1 .ex1 0)) 0, [], 0⟩ m ∧
      PollsIdle .ex1 .ex1 (m.now + Config.ex1.tNvm) 0 [] m w := by
  have e1 := plays_script .ex1 (by decide) xs (scriptOf frameDefault (statusXfers .ex1 .ex1 0)) 0 0
  have e2 := plays_script .ex1 (by decide) (statusXfers .ex1 .ex1 0) [] 0 (0 + scriptTime xs)
  rw [show Config.ex1.frame = frameDefault from rfl, ← scriptOf_append] at e1
  rw [List.append_nil] at e2
  exact ⟨_, _, e1, by decide, e2⟩

/-- The ideal target of a part as in EX1, idle. -/
def part : Target where
  prof := Profile.ex1
  cs := List.replicate 16 0
  ptr := 0
  rep := 0
  phase := .sync
  tmem := [(0x1280, 0x11)]
  pbuf := []
  progKey := false
  eraseKey := false
  held := false
  busyLeft := 0
  busyDraws := [0, 0]
  drawn := 0
  busyByte := 0x01
  alwaysBusy := false
  progBits := 0x08
  owed := []
  lag := 0
  lead := 0
  delays := List.replicate 60 (2, 1)

/-- A session facing it. -/
def facing (m : SesState) (d : Target) : State := { session m [] with env := .ideal d }

theorem facing_ready {m : SesState} (h : m ≠ .closed) (d : Target) : Ready (facing m d) := by
  cases m
  · exact absurd rfl h
  all_goals exact ⟨rfl, h, rfl, ⟨rfl, rfl, rfl, rfl⟩, ⟨rfl, rfl, rfl, rfl⟩⟩

theorem facing_nvmReady (d : Target) : NvmReady (facing .unlocked d) :=
  ⟨facing_ready (by nofun) d, .inl rfl, ex1_valid⟩

theorem ex1_codes : Config.ex1.codesDistinct = true := by decide

theorem facing_faces (m : SesState) : Faces (facing m part) part :=
  ⟨rfl, ⟨rfl, rfl, rfl, rfl, rfl⟩, rfl, rfl, ex1_codes, rfl, by decide,
    (by decide : 0 < Config.ex1.tByte)⟩

theorem witness_DecodeEncode : Config.ex1.codesDistinct = true ∧
    Instr.wf Config.ex1 (.repeatNext 1) = true ∧ Instr.wf Config.ex1 (.repeatNext 256) = true ∧
    Instr.wf Config.ex1 (.ldinc 255) = true ∧ Instr.wf Config.ex1 (.csWrite 0x0F 0xFF) = true := by
  decide

theorem witness_ParserTakesOneInstruction : Config.ex1.codesDistinct = true ∧
    Instr.wf Config.ex1 (.repeatNext 256) = true ∧
    encode Config.ex1 (.repeatNext 256) = .wire 0 [0x55, 0xA0, 0xFF] := by decide

theorem witness_OnlyEncodedBytesAreSent : ∃ s t i, Inv s ∧ s.cfg.codesDistinct = true ∧
    exec i s = .next t ∧ t.trace ≠ s.trace :=
  ⟨answered .linkEstablished [.tx [0x55, 0x8B], .rx [0x08]], _, .csRead 0x0B, answered_inv _ _,
    by decide, after_eq (answered_inv _ _) _, by decide +kernel⟩

theorem witness_StepRunsTheDecodedInstruction :
    (∃ (s : State) (i : Instr) (r : Request) (rest : List Input), s.inputs = .request r :: rest ∧
      decode s.cfg r = .ok i) ∧
    ∃ (s : State) (i : Instr) (nbits w : Nat), decode s.cfg (tableRequest nbits w) = .ok i :=
  ⟨⟨State.reset.present (.command 0x00 {}), .getStatus, _, _, rfl, by rfl⟩,
    ⟨State.reset, .ldcs 0xB, 8, 0x8B, by rfl⟩⟩

theorem witness_UnknownCodesAreRefused : ∃ s : State, s.rsp.busy = false ∧ SequencersIdle s ∧
    (∃ r, 4 < r) ∧ ∃ op : Byte,
      op ∉ ([0x00, 0x01, 0x02, 0x03, 0x10, 0x11, 0x12, 0x20, 0x21, 0x22, 0x23, 0x24, 0x25, 0x26,
        0x27, 0x28, 0x30, 0x31, 0x32, 0x33, 0x34, 0x35, 0x36, 0x37, 0x38, 0x39] : List Byte) :=
  ⟨session .unlocked [], rfl, ⟨rfl, rfl, rfl, rfl⟩, ⟨5, by decide⟩, 0x04, by decide⟩

theorem witness_HandshakeOfTheCommandPort : (∃ s : State, s.rsp.busy = true) ∧
    ∃ (s t : State) (i : Instr), s.rsp.busy = false ∧ exec i s = .next t :=
  ⟨⟨(session .unlocked []).accepted, rfl⟩,
    session .unlocked [], _, .getStatus, rfl, after_eq (session_inv _ _) _⟩

theorem witness_ResetInput : ∃ (s : State) (rest : List Input), s.inputs = .reset :: rest :=
  ⟨{ session .unlocked [] with inputs := [.reset] }, [], rfl⟩

theorem witness_IdleLine : (∃ s : State, Inv s ∧ s.inputs = [] ∧ s.ses.trOpen = true) ∧
    (∃ s : State, Inv s ∧ (∃ rest, s.inputs = .idle :: rest)) ∧
    ∃ s : State, Inv s ∧ s.inputs = [] ∧ s.ses.trOpen = false :=
  ⟨⟨session .unlocked [], session_inv _ _, rfl, rfl⟩,
    ⟨(session .closed []).setInputs [.idle], ⟨rfl, ⟨rfl, rfl, rfl, rfl⟩, rfl, rfl, by decide, rfl,
      by decide, by decide, by decide⟩, [], rfl⟩,
    ⟨session .closed [], session_inv _ _, rfl, rfl⟩⟩

theorem witness_EveryCommandEnds : ∃ s : State, Inv s ∧ s.ses.sesState = .programming :=
  ⟨session .programming [], session_inv _ _, rfl⟩

theorem witness_RefusedInOtherModes : ∃ (s : State) (i : Instr), s.rsp.busy = false ∧
    allowed i s.ses.sesState = false := ⟨session .closed [], .lds 0 1, rfl, rfl⟩

/-- Each clause at the first value out of its range. -/
theorem witness_DatalinkArgumentsChecked : ∃ s : State, s.rsp.busy = false ∧ SequencersIdle s ∧
    (∃ a, 0x0F < a) ∧ (∃ v, 0xFF < v) ∧ (¬(1 ≤ 2 ∧ 2 ≤ 3 ∧ 0x10000 < 2 ^ (8 * 2))) ∧
    (¬(1 ≤ s.ses.profile.addrBytes ∧ s.ses.profile.addrBytes ≤ 3 ∧
      0x10000 < 2 ^ (8 * s.ses.profile.addrBytes))) ∧
    (∃ b : List Byte, 256 < b.length) ∧ (∃ k : List Byte, k.length ≠ s.cfg.keyLen) ∧
    (∃ more : List Byte, 256 ≤ more.length) ∧ ∃ n, n = 0 ∨ 256 < n :=
  ⟨session .unlocked [], rfl, ⟨rfl, rfl, rfl, rfl⟩, ⟨0x10, by decide⟩, ⟨0x100, by decide⟩, by decide,
    by decide, ⟨List.replicate 257 0, by rw [List.length_replicate]; decide⟩, ⟨[], by decide⟩,
    ⟨List.replicate 256 0, by rw [List.length_replicate]⟩, ⟨0, .inl rfl⟩⟩

/-- A part whose controller, flash and fuses reach the end of the address space. -/
def edgePart : Profile :=
  { Profile.ex1 with nvmBase := 0xFFFF, flashBase := 0xFFC0, flashSize := 128, fuseBase := 0xFFFF }

/-- Each clause at the first value out of its range; the fuse address of 2^16 is `fuseBase + 1`. -/
theorem witness_NvmAndOpenArgumentsChecked : ∃ s : State, s.rsp.busy = false ∧ SequencersIdle s ∧
    (∃ q : Profile, q.addrBytes = 4) ∧ (∃ q : Profile, q.addrBytes = 2 ∧ q.flashSize % q.flashPage ≠ 0) ∧
    (regionOfCode 2 = some .fuse ∧ regionOfCode 3 = some .lock ∧ regionOfCode 4 = some .userRow) ∧
    regionOfCode 0 = some .flash ∧ regionPage s.ses.profile .flash = some 64 ∧
    regionSize s.ses.profile .flash < 128 + 64 ∧
    (64 % 64 = 0 ∧ 2 ^ (8 * s.ses.profile.addrBytes) ≤ regionBase s.ses.profile .flash + 64) ∧
    (∃ d : List Byte, d.length = 64) ∧
    regionSize s.ses.profile .userRow < 33 + 0 ∧
    2 ^ (8 * s.ses.profile.addrBytes) ≤ regionBase s.ses.profile .flash + 64 + 1 - 1 ∧
    1 < s.ses.profile.fuseCount ∧ 2 ^ (8 * s.ses.profile.addrBytes) ≤ s.ses.profile.fuseBase + 1 ∧
    2 ^ 16 ≤ s.ses.profile.fuseBase + 1 ∧
    ∀ regs ∈ [pollRegs, codeRegs, fuseRegs], ∃ a ∈ regs s.cfg s.ses.profile,
      2 ^ (8 * s.ses.profile.addrBytes) ≤ a := by
  let s := session .unlocked []
  exact ⟨s.setSes { s.ses with profile := edgePart }, rfl, ⟨rfl, rfl, rfl, rfl⟩,
    ⟨{ Profile.ex1 with addrBytes := 4 }, rfl⟩, ⟨{ Profile.ex1 with flashSize := 0x2001 }, by decide⟩,
    by decide, rfl, rfl, by decide, by decide, ⟨List.replicate 64 0, List.length_replicate ..⟩,
    by decide, by decide, by decide, by decide, by decide, by decide⟩

theorem witness_CsAddressChecked : ∃ s : State, Inv s ∧ s.ses.sesState ≠ .closed :=
  ⟨session .linkEstablished [], session_inv _ _, by decide⟩

theorem witness_CrcCheckRefused : ∃ s : State, s.rsp.busy = false := ⟨State.reset, rfl⟩

theorem witness_StatusByteFields : (∃ s : State, s.rsp.busy = false ∧ s.ses.trOpen = true) ∧
    State.reset.rsp.busy = false := ⟨⟨session .unlocked [], rfl, rfl⟩, rfl⟩

theorem witness_CallerErrors : ∃ (s : State) (r : Region) (region page : Nat), s.rsp.busy = false ∧
    SequencersIdle s ∧ (s.ses.sesState = .unlocked ∨ s.ses.sesState = .programming) ∧
    regionOfCode region = some r ∧ regionPage s.ses.profile r = some page ∧
    10 % page ≠ 0 ∧ 64 % page = 0 ∧ ([] : List Byte).length ≠ page ∧ s.ses.profile.fuseCount ≤ 6 ∧
    0xAB ≤ 0xFF :=
  ⟨session .unlocked [], .flash, 0, 64, rfl, ⟨rfl, rfl, rfl, rfl⟩, .inl rfl, rfl, rfl, by decide,
    by decide, by decide, by decide, by decide⟩

theorem witness_MutatingCommandsNeedTheKey : ∃ s : State, s.rsp.busy = false ∧ SequencersIdle s ∧
    s.nvm.eraseKeySent = false ∧ s.ses.sesState = .unlocked :=
  ⟨session .unlocked [], rfl, ⟨rfl, rfl, rfl, rfl⟩, rfl, rfl⟩

/-- A state and an instruction that ends with this status. -/
def endsWith (code : Byte) : Prop :=
  ∃ s t i, Inv s ∧ exec i s = .next t ∧ t.rsp.rspStatus = code

theorem endsWith_of {code : Byte} {s : State} {i : Instr} (h : Inv s)
    (e : (after i s).rsp.rspStatus = code) : endsWith code := ⟨s, _, i, h, after_eq h i, e⟩

/-- A port that fails, and a line that is cut. -/
def broken : Draw := { ioerror := true }
/-- The target holds the line down while the engine sends. -/
def cut : Draw := { drive := List.replicate 36 false }

theorem ends_transport : endsWith 0x01 := endsWith_of (i := .csWrite 0 0)
  (session_inv .unlocked [broken, still, still, still]) (by decide +kernel)
theorem ends_linkInit : endsWith 0x02 := endsWith_of (i := .initLink)
  (session_inv .unlocked ([still, still, cut, still] ++ [still, still, cut, still] ++
    [still, still, cut, still] ++ [still, still, still])) (by decide +kernel)
theorem ends_linkTimeout : endsWith 0x03 := endsWith_of (i := .receiveBytes 1 5)
  (session_inv .unlocked (List.replicate 4 still)) (by decide +kernel)
theorem ends_protocolAck : endsWith 0x04 := endsWith_of (i := .stPtr 0)
  (session_inv .unlocked (scriptOf frameDefault [.tx [0x55, 0x69, 0, 0], .rx [0x41]] ++ [still, still, still]))
  (by decide +kernel)
theorem ends_nvmBusy : endsWith 0x05 := endsWith_of (i := .waitNvmReady)
  (session_inv .unlocked ([still, still, { drive := frameBits frameDefault 0x01, dt := 9 }] ++
    [still, still, still])) (by decide +kernel)
theorem ends_alignment : endsWith 0x06 := endsWith_of (i := .erasePage 0 1) (session_inv .unlocked [])
  (by decide +kernel)
theorem ends_pageSize : endsWith 0x07 := endsWith_of (i := .writePage 0 0 [])
  (session_inv .unlocked []) (by decide +kernel)
theorem ends_fuseIndex : endsWith 0x08 := endsWith_of (i := .readFuse 6) (session_inv .unlocked [])
  (by decide +kernel)
theorem ends_deviceNotResponding : endsWith 0x0A := endsWith_of (i := .openSession Profile.ex1 0)
  (session_inv .closed ([still] ++ [still, still, cut, still] ++ [still, still, cut, still] ++
    [still, still, cut, still, still])) (by decide +kernel)
theorem ends_unlock : endsWith 0x0B := endsWith_of (i := .enterProgrammingMode)
  (session_inv .linkEstablished [cut, still]) (by decide +kernel)
theorem ends_refused : endsWith 0xFF := endsWith_of (i := .crcCheck) (session_inv .unlocked [])
  (by decide +kernel)

theorem witness_ErrorClasses : endsWith 0x01 ∧ endsWith 0x02 ∧ endsWith 0x03 ∧ endsWith 0x04 ∧
    endsWith 0x05 ∧ endsWith 0x06 ∧ endsWith 0x07 ∧ endsWith 0x08 ∧ endsWith 0x0A ∧ endsWith 0x0B :=
  ⟨ends_transport, ends_linkInit, ends_linkTimeout, ends_protocolAck, ends_nvmBusy, ends_alignment,
    ends_pageSize, ends_fuseIndex, ends_deviceNotResponding, ends_unlock⟩

/-- The status read after the key shows no bit of `PROG_MODE_MASK`. -/
theorem ends_unlock_status : ∃ s t i, Inv s ∧ exec i s = .next t ∧ t.rsp.rspStatus = 0x0B ∧
    t.rsp.rspInfo.cause = none :=
  ⟨answered .linkEstablished [.tx [], .tx [], .tx [], .rx [0xF7]], _, .enterProgrammingMode,
    answered_inv _ _, after_eq (answered_inv _ _) _, by decide +kernel, by decide +kernel⟩

theorem witness_ErrorRecord : endsWith 0x02 ∧ endsWith 0x03 ∧ endsWith 0x04 ∧ endsWith 0x05 ∧
    endsWith 0x0A ∧ endsWith 0x0B ∧ ∃ s t i, Inv s ∧ exec i s = .next t ∧ t.rsp.rspStatus = 0x0B ∧
      t.rsp.rspInfo.cause = none :=
  ⟨ends_linkInit, ends_linkTimeout, ends_protocolAck, ends_nvmBusy, ends_deviceNotResponding,
    ends_unlock, ends_unlock_status⟩

theorem witness_WrongAcknowledgeStopsTheStore : ∃ (s : State) (a v n : Nat) (b : Byte) (w : World),
    Ready s ∧ addrOk a n = true ∧ v ≤ 0xFF ∧ b ≠ s.cfg.ack ∧
    Plays s.cfg [.tx ([SYNC, opSts s.cfg n] ++ le a n), .rx [b]] s.world w :=
  ⟨answered .unlocked [.tx ([SYNC, opSts .ex1 2] ++ le 0xFFFF 2), .rx [0x00]], 0xFFFF, 0xFF, 2, 0x00,
    _, answered_ready (by nofun) _, by decide, by decide, by decide, answered_plays _ _⟩

/-- A command that ends `OK`. -/
theorem ends_ok {s : State} {i : Instr} (h : Inv s) (e : (after i s).rsp.rspStatus = 0x00) :
    ∃ t, Inv s ∧ exec i s = .next t ∧ t.rsp.rspStatus = 0x00 := ⟨_, h, after_eq h i, e⟩

/-- The four statements over every command's outcome: each event of the mode table happens. -/
theorem witness_ModeTransitions :
    (∃ s t i, isOpen i = true ∧ Inv s ∧ exec i s = .next t ∧ t.rsp.rspStatus = 0x00) ∧
    (∃ s t, Inv s ∧ exec (.closeSession false) s = .next t ∧ t.rsp.rspStatus = 0x00) ∧
    (∃ s t, Inv s ∧ exec .enterProgrammingMode s = .next t ∧ t.rsp.rspStatus = 0x00) ∧
    (∃ s t i, isNvmCommand i = true ∧ Inv s ∧ exec i s = .next t ∧ t.rsp.rspStatus = 0x00) ∧
    endsWith 0x01 ∧ endsWith 0x05 ∧ endsWith 0x06 ∧ endsWith 0x0A ∧ endsWith 0x0B ∧ endsWith 0xFF := by
  obtain ⟨t1, h1⟩ := ends_ok (i := .openSession Profile.ex1 0)
    (session_inv .closed (List.replicate 5 still)) (by decide +kernel)
  obtain ⟨t2, h2⟩ := ends_ok (i := .closeSession false) (session_inv .unlocked [still, still, still])
    (by decide +kernel)
  obtain ⟨t3, h3⟩ := ends_ok (i := .enterProgrammingMode)
    (answered_inv .linkEstablished [.tx [], .tx [], .tx [], .rx [0x08]]) (by decide +kernel)
  obtain ⟨t4, h4⟩ := ends_ok (i := .readFuse 0) (answered_inv .unlocked [.tx [], .rx [0x12]])
    (by decide +kernel)
  exact ⟨⟨_, t1, _, rfl, h1⟩, ⟨_, t2, h2⟩, ⟨_, t3, h3⟩, ⟨_, t4, _, rfl, h4⟩, ends_transport, ends_nvmBusy,
    ends_alignment, ends_deviceNotResponding, ends_unlock, ends_refused⟩

/-- For both ends of ModeTransitions' clause on NVM commands too. -/
theorem witness_NoteNvmOpWhenSending :
    (∃ s t i, Inv s ∧ isNvmCommand i = true ∧ exec i s = .next t ∧ t.rsp.rspStatus = 0x00 ∧
      t.traffic = s.traffic) ∧
    ∃ s t i, Inv s ∧ isNvmCommand i = true ∧ exec i s = .next t ∧ t.rsp.rspStatus = 0x00 ∧
      t.traffic ≠ s.traffic :=
  ⟨⟨answered .unlocked [], _, .readBytes 0 0 0, answered_inv _ _, rfl, after_eq (answered_inv _ _) _,
      by decide +kernel, by decide +kernel⟩,
    ⟨answered .unlocked [.tx [], .rx [0x12]], _, .readFuse 0, answered_inv _ _, rfl,
      after_eq (answered_inv _ _) _, by decide +kernel, by decide +kernel⟩⟩

theorem witness_KeyFlag :
    (∃ s t, Inv s ∧ exec .unlockChipEraseKey s = .next t ∧ t.rsp.rspStatus = 0x00) ∧
    (∃ s t i, Inv s ∧ exec i s = .next t ∧ i ≠ .unlockChipEraseKey ∧ t.nvm.eraseKeySent = true) ∧
    (∃ s t, Inv s ∧ exec .unlockChipEraseKey s = .next t ∧ t.rsp.rspStatus = 0x03) ∧
    (∃ s t i, Inv s ∧ exec i s = .next t ∧ isOpen i = true ∧ t.rsp.rspStatus = 0x00) ∧
    ∃ s t i, Inv s ∧ exec i s = .next t ∧ isClose i = true ∧ s.nvm.eraseKeySent = true ∧
      t.nvm.eraseKeySent = false :=
  ⟨⟨answered .unlocked [.tx [], .tx []], _, answered_inv _ _, after_eq (answered_inv _ _) _,
      by decide +kernel⟩,
    ⟨unlocked [], _, .getStatus, unlocked_inv _, after_eq (unlocked_inv _) _, by decide,
      by decide +kernel⟩,
    ⟨session .unlocked (deaf :: List.replicate 4 still), _, session_inv _ _,
      after_eq (session_inv _ _) _, by decide +kernel⟩,
    ⟨session .closed (List.replicate 5 still), _, .openSession Profile.ex1 0, session_inv _ _,
      after_eq (session_inv _ _) _, rfl, by decide +kernel⟩,
    ⟨unlocked [.tx [], .tx []], _, .closeSession false, unlocked_inv _, after_eq (unlocked_inv _) _, rfl,
      rfl, by decide +kernel⟩⟩

theorem witness_BreaksOnlyInPhyInit :
    (∃ s t i, Inv s ∧ exec i s = .next t ∧ i = .initLink ∧ t.breaks ≠ s.breaks) ∧
    ∃ s t i, Inv s ∧ exec i s = .next t ∧ isOpen i = true ∧ t.rsp.rspStatus = 0x00 :=
  ⟨⟨session .unlocked (List.replicate 4 still), _, .initLink, session_inv _ _,
      after_eq (session_inv _ _) _, rfl, by decide +kernel⟩,
    ⟨session .closed (List.replicate 5 still), _, .openSession Profile.ex1 0, session_inv _ _,
      after_eq (session_inv _ _) _, rfl, by decide +kernel⟩⟩

/-- Link initialisation at the second attempt, and no answer at all, alone and in `open`. -/
theorem witness_LinkInitRetries :
    (∃ s t, Inv s ∧ exec .initLink s = .next t ∧ t.rsp.rspStatus = 0x00 ∧ t.phy.syncAttempt = 2) ∧
    (∃ s t, Inv s ∧ exec .initLink s = .next t ∧ t.rsp.rspStatus = 0x02) ∧
    ∃ s t p port, Inv s ∧ exec (.openSession p port) s = .next t ∧ t.rsp.rspStatus = 0x0A ∧
      t.rsp.rspInfo.cause.map (·.1) = some .linkInit :=
  ⟨⟨session .unlocked ([still, still, deaf, still] ++ List.replicate 4 still), _, session_inv _ _,
      after_eq (session_inv _ _) _, by decide +kernel, by decide +kernel⟩,
    ⟨session .unlocked ([still, still, deaf, still] ++ [still, still, deaf, still] ++
      [still, still, deaf, still] ++ [still, still, still]), _, session_inv _ _,
      after_eq (session_inv _ _) _, by decide +kernel⟩,
    ⟨session .closed ([still] ++ [still, still, deaf, still] ++ [still, still, deaf, still] ++
      [still, still, deaf, still, still]), _, Profile.ex1, 0, session_inv _ _,
      after_eq (session_inv _ _) _, by decide +kernel, by decide +kernel⟩⟩

theorem witness_WhatNoCommandChanges :
    (∃ s t i, Inv s ∧ exec i s = .next t ∧ isOpen i = false ∧ t.trace ≠ s.trace) ∧
    ∃ s t p port, Inv s ∧ exec (.openSession p port) s = .next t ∧ t.rsp.rspStatus = 0x00 :=
  ⟨⟨answered .unlocked [.tx [], .rx [0x12]], _, .readFuse 0, answered_inv _ _,
      after_eq (answered_inv _ _) _, rfl, by decide +kernel⟩,
    ⟨session .closed (List.replicate 5 still), _, Profile.ex1, 0, session_inv _ _,
      after_eq (session_inv _ _) _, by decide +kernel⟩⟩

theorem witness_StepKeepsInvariant : ∃ s t : State, Inv s ∧ step s = .next t ∧ s.env.wf :=
  ⟨State.reset.withFetchWord 8 0x00, _, ⟨rfl, ⟨rfl, rfl, rfl, rfl⟩, rfl, rfl, by decide, rfl, by decide,
    by decide, by decide⟩, rfl, trivial⟩

theorem witness_ReadyMeansAnIdleRead :
    (∃ s t i, Inv s ∧ exec i s = .next t ∧ endsReady i = true ∧ t.rsp.rspStatus = 0x00) ∧
    endsWith 0x05 :=
  ⟨⟨answered .unlocked [.tx [], .rx [0x00]], _, .waitNvmReady, answered_inv _ _,
      after_eq (answered_inv _ _) _, rfl, by decide +kernel⟩, ends_nvmBusy⟩

theorem witness_SelfEcho : ∃ (l : Line) (drive : List Bool), LineQuiet l ∧ drive.all id = true :=
  ⟨Line.reset, [true], ⟨rfl, rfl, rfl, rfl⟩, rfl⟩

theorem witness_FrameReceived : ∃ l : Line, LineQuiet l ∧
    (∃ w b, w.length = 12 ∧ w.head? = some false ∧ deframe frameDefault w = some b) ∧
    ∃ w, w.length = 12 ∧ w.head? = some false ∧ deframe frameDefault w = none :=
  ⟨Line.reset, ⟨rfl, rfl, rfl, rfl⟩, ⟨frameBits frameDefault 0x55, 0x55, rfl, rfl, by decide⟩,
    ⟨List.replicate 12 false, rfl, rfl, by decide⟩⟩

/-- In a session at rest, a world that answers these transfers. -/
theorem ready_plays (xs : List Xfer) : ∃ (s : State) (w : World), Ready s ∧ s.cfg = Config.ex1 ∧
    s.ses.profile = Profile.ex1 ∧ Plays Config.ex1 xs s.world w :=
  ⟨answered .linkEstablished xs, _, answered_ready (by decide) xs, rfl, rfl, answered_plays _ xs⟩

theorem witness_CsExchanges (a : CsAddr) (v : Byte) :
    (∃ (s : State) (w : World), Ready s ∧
      Plays s.cfg [.tx [SYNC, opLdcs s.cfg a], .rx [v]] s.world w) ∧
    ∃ (s : State) (w : World), Ready s ∧ Plays s.cfg [.tx [SYNC, opStcs s.cfg a, v]] s.world w :=
  ⟨⟨answered .linkEstablished [.tx [SYNC, opLdcs .ex1 a], .rx [v]], _, answered_ready (by nofun) _,
      answered_plays _ _⟩,
    ⟨answered .linkEstablished [.tx [SYNC, opStcs .ex1 a, v]], _, answered_ready (by nofun) _,
      answered_plays _ _⟩⟩

theorem witness_DirectLoads (a n : Nat) (b : Byte) : (∃ (s : State) (w : World), Ready s ∧
    Plays s.cfg (ldsXfers s.cfg a n b) s.world w) ∧ addrOk 0xFFFFFF 3 = true :=
  ⟨⟨answered .linkEstablished (ldsXfers .ex1 a n b), _, answered_ready (by nofun) _,
    answered_plays _ _⟩, by decide⟩

theorem witness_DirectStores (a n : Nat) (v : Byte) : (∃ (s : State) (w : World), Ready s ∧
    Plays s.cfg (stsXfers s.cfg a v n) s.world w) ∧ addrOk 0xFF 1 = true :=
  ⟨⟨answered .linkEstablished (stsXfers .ex1 a v n), _, answered_ready (by nofun) _,
    answered_plays _ _⟩, by decide⟩

theorem witness_PointerStores (p n : Nat) : ∃ (s : State) (w : World), Ready s ∧
    Plays s.cfg (stPtrXfers s.cfg n p) s.world w ∧ addrOk 0xFFFF s.ses.profile.addrBytes = true :=
  ⟨answered .linkEstablished (stPtrXfers .ex1 n p), _, answered_ready (by nofun) _,
    answered_plays _ _, rfl⟩

theorem witness_PointerLoads (answer : List Byte) : ∃ (s : State) (w : World), Ready s ∧
    Plays s.cfg (ldPtrXfers s.cfg answer.length answer) s.world w ∧
    sizeOk s.ses.profile.addrBytes = true :=
  ⟨answered .linkEstablished (ldPtrXfers .ex1 answer.length answer), _, answered_ready (by nofun) _,
    answered_plays _ _, rfl⟩

/-- For the longest continuation, the longest repeated block and any block without REPEAT. -/
theorem witness_PointerBlockStores (v : Byte) (block : List Byte) :
    (∃ (s : State) (w : World) (more : List Byte), Ready s ∧ more.length = 255 ∧
      Plays s.cfg (stIncXfers s.cfg v more) s.world w) ∧
    (∃ (s : State) (w : World) (b : List Byte), Ready s ∧ b.length = 256 ∧
      Plays s.cfg (stPtrIncXfers s.cfg true b) s.world w) ∧
    ∃ (s : State) (w : World), Ready s ∧ Plays s.cfg (stPtrIncXfers s.cfg false block) s.world w :=
  ⟨⟨answered .linkEstablished (stIncXfers .ex1 v (List.replicate 255 0)), _, _,
      answered_ready (by nofun) _, List.length_replicate .., answered_plays _ _⟩,
    ⟨answered .linkEstablished (stPtrIncXfers .ex1 true (List.replicate 256 0)), _, _,
      answered_ready (by nofun) _, List.length_replicate .., answered_plays _ _⟩,
    ⟨answered .linkEstablished (stPtrIncXfers .ex1 false block), _, answered_ready (by nofun) _,
      answered_plays _ _⟩⟩

theorem witness_PointerBlockLoads (answer : List Byte) :
    (∃ (s : State) (w : World), Ready s ∧
      Plays s.cfg [.tx [SYNC, opLdInc s.cfg], .rx answer] s.world w) ∧
    (∃ (s : State) (w : World) (b : List Byte), Ready s ∧ b.length = 256 ∧
      Plays s.cfg (ldPtrIncXfers s.cfg true b) s.world w) ∧
    ∃ (s : State) (w : World), Ready s ∧ Plays s.cfg (ldPtrIncXfers s.cfg false answer) s.world w :=
  ⟨⟨answered .linkEstablished [.tx [SYNC, opLdInc .ex1], .rx answer], _, answered_ready (by nofun) _,
      answered_plays _ _⟩,
    ⟨answered .linkEstablished (ldPtrIncXfers .ex1 true (List.replicate 256 0)), _, _,
      answered_ready (by nofun) _, List.length_replicate .., answered_plays _ _⟩,
    ⟨answered .linkEstablished (ldPtrIncXfers .ex1 false answer), _, answered_ready (by nofun) _,
      answered_plays _ _⟩⟩

/-- At one repetition and at any other count. -/
theorem witness_RepeatAndKey (n : Nat) :
    (∃ (s : State) (w : World), Ready s ∧ Plays s.cfg (repeatXfers s.cfg 1) s.world w) ∧
    (∃ (s : State) (w : World), Ready s ∧ Plays s.cfg (repeatXfers s.cfg n) s.world w) ∧
    ∃ (s : State) (w : World) (k : List Byte), Ready s ∧ k.length = s.cfg.keyLen ∧
      Plays s.cfg (keyXfers s.cfg k) s.world w :=
  ⟨⟨answered .linkEstablished (repeatXfers .ex1 1), _, answered_ready (by nofun) _, answered_plays _ _⟩,
    ⟨answered .linkEstablished (repeatXfers .ex1 n), _, answered_ready (by nofun) _, answered_plays _ _⟩,
    ⟨answered .linkEstablished (keyXfers .ex1 keyNvmErase), _, keyNvmErase, answered_ready (by nofun) _,
      by decide, answered_plays _ _⟩⟩

/-- With nothing unread, and with a stale byte before the echo. -/
theorem witness_SendBytes (bs : List Byte) :
    (∃ (s : State) (w : World), Ready s ∧ Plays s.cfg (sends bs) s.world w) ∧
    ∃ (s : State) (stale : Byte), Ready s ∧ s.phy.line.rxFifo = [stale] ∧
      Echoes (s.env.answer s.cfg (.trWrite bs)).1 ∧
      ((s.env.answer s.cfg (.trWrite bs)).2.answer s.cfg (.trRead 0 s.cfg.tEcho)).1.ioerror = false := by
  refine ⟨⟨answered .linkEstablished (sends bs), _, answered_ready (by nofun) _, answered_plays _ _⟩, ?_⟩
  let s := session .unlocked [still, still]
  exact ⟨s.setLine { s.phy.line with rxFifo := [0x99] }, 0x99,
    ⟨rfl, nofun, rfl, ⟨rfl, rfl, rfl, rfl⟩, ⟨rfl, rfl, rfl, rfl⟩⟩, rfl, echoes_silence, rfl⟩

/-- One clause each: a byte that stands there, a byte that comes, too few by the timeout, and a timeout of 0. -/
theorem witness_ReceiveBytes :
    (∃ (s : State) (bs left : List Byte) (timeout : Nat), Ready s ∧ bs ≠ [] ∧
      s.phy.line.rxFifo = bs ++ left ∧ (s.env.answer s.cfg (.trRead 0 timeout)).1.ioerror = false) ∧
    (∃ (s : State) (more : List Byte), Ready s ∧ more ≠ [] ∧
      answers s.cfg.frame (s.env.answer s.cfg (.trRead more.length 1)).1 more) ∧
    (∃ (s : State) (n : Nat) (more : List Byte), Ready s ∧ s.phy.line.rxFifo.length < n ∧
      (s.env.answer s.cfg (.trRead (n - s.phy.line.rxFifo.length) 5)).1.ioerror = false ∧
      carries s.cfg.frame more
        (s.env.answer s.cfg (.trRead (n - s.phy.line.rxFifo.length) 5)).1.drive = true ∧
      s.phy.line.rxFifo.length + more.length < n) ∧
    ∃ (s : State) (n : Nat), Ready s ∧ s.phy.line.rxFifo.length < n ∧
      (s.env.answer s.cfg (.trRead (n - s.phy.line.rxFifo.length) 0)).1.ioerror = false := by
  refine ⟨?_, ⟨answered .unlocked [.rx [0x12, 0x34]], [0x12, 0x34], answered_ready (by nofun) _, by decide,
      rfl, begins_frames _ _⟩,
    ⟨answered .unlocked [.rx [0x12]], 2, [0x12], answered_ready (by nofun) _, by decide, rfl,
      (by decide +kernel : carries frameDefault [0x12] ([0x12].flatMap (frameBits frameDefault)) = true),
      by decide⟩,
    ⟨answered .unlocked [.rx [0x12]], 1, answered_ready (by nofun) _, by decide, rfl⟩⟩
  let s := session .unlocked [still]
  exact ⟨s.setLine { s.phy.line with rxFifo := [0x12, 0x34] }, [0x12], [0x34], 5,
    ⟨rfl, nofun, rfl, ⟨rfl, rfl, rfl, rfl⟩, ⟨rfl, rfl, rfl, rfl⟩⟩, by decide, rfl, rfl⟩

theorem witness_InitializeLink : ∃ (s : State) (w : World), Ready s ∧ Synchronises s.cfg s.world w :=
  ⟨session .linkEstablished (List.replicate 4 still), _,
    ⟨rfl, by decide, rfl, ⟨rfl, rfl, rfl, rfl⟩, ⟨rfl, rfl, rfl, rfl⟩⟩,
    ⟨rfl, rfl⟩, rfl, echoes_silence, rfl, rfl⟩

theorem witness_OpenSession : ∃ (s : State) (p : Profile) (port : Nat) (m w : World), Inv s ∧
    s.ses.sesState = .closed ∧ profileValid s.cfg p = true ∧
    (s.env.answer s.cfg (.trOpen port s.cfg.baud)).1.ioerror = false ∧
    Synchronises s.cfg ⟨(s.env.answer s.cfg (.trOpen port s.cfg.baud)).2, [],
      s.now + (s.env.answer s.cfg (.trOpen port s.cfg.baud)).1.dt⟩ m ∧
    Plays s.cfg (openXfers s.cfg) m w :=
  ⟨session .closed (List.replicate 5 still), Profile.ex1, 0, _, _, session_inv _ _, rfl, by decide, rfl,
    ⟨⟨rfl, rfl⟩, rfl, echoes_silence, rfl, rfl⟩, rfl⟩

/-- The transfers of `enter_programming_mode` when the status byte is `v`. -/
def enterXfers (v : Byte) : List Xfer :=
  keyXfers .ex1 keyNvmProg ++ [.tx [SYNC, opLdcs .ex1 Config.ex1.csProgStatusAddr], .rx [v]]

theorem witness_EnterProgrammingMode (v : Byte) : ∃ (s : State) (w : World), Ready s ∧
    s.ses.sesState = .linkEstablished ∧ s.ses.profile.keyProg.length = s.cfg.keyLen ∧
    Plays s.cfg (keyXfers s.cfg s.ses.profile.keyProg ++
      [.tx [SYNC, opLdcs s.cfg s.cfg.csProgStatusAddr], .rx [v]]) s.world w ∧
    (0x08 : Byte) &&& s.cfg.progModeMask ≠ 0 ∧ (0xF7 : Byte) &&& s.cfg.progModeMask = 0 := by
  have e : Plays Config.ex1 (enterXfers v) (answered .linkEstablished (enterXfers v)).world
      (ended (enterXfers v)) := answered_plays _ _
  exact ⟨answered .linkEstablished (enterXfers v), _, answered_ready (by nofun) _, rfl, rfl, e,
    (by decide : (0x08 : Byte) &&& Config.ex1.progModeMask ≠ 0),
    (by decide : (0xF7 : Byte) &&& Config.ex1.progModeMask = 0)⟩

theorem witness_CloseNeverFails : ∃ s : State, s.rsp.busy = false ∧ s.ses.trOpen = true :=
  ⟨session .programming [broken, broken], rfl, rfl⟩

theorem witness_CloseReturnsTheControlRegister (r : Bool) : ∃ (s : State) (m : World), Ready s ∧
    s.phy.linkUp = true ∧ Plays s.cfg (closeXfers s.cfg r) s.world m ∧
    brings s.cfg.frame (m.env.answer s.cfg .trClose).1 [] :=
  ⟨session .unlocked (scriptOf frameDefault (closeXfers .ex1 r) ++ [still]), _,
    session_ready (by nofun) _, rfl, plays_script .ex1 (by decide) (closeXfers .ex1 r) [still] 0 0,
    ⟨rfl, rfl⟩⟩

theorem witness_UnlockChipEraseKey :
    (∃ s : State, NvmReady s ∧ s.nvm.eraseKeySent = true) ∧
    ∃ (s : State) (w : World), NvmReady s ∧ s.nvm.eraseKeySent = false ∧
      Plays s.cfg (keyXfers s.cfg s.ses.profile.keyErase) s.world w :=
  ⟨⟨unlocked [], unlocked_nvmReady _, rfl⟩,
    ⟨answered .unlocked (keyXfers .ex1 keyNvmErase), _, answered_nvmReady _, rfl, answered_plays _ _⟩⟩

theorem ex1_polls : allFit Profile.ex1 (pollRegs Config.ex1 Profile.ex1) = true := by decide
theorem ex1_codeRegs : allFit Profile.ex1 (codeRegs Config.ex1 Profile.ex1) = true := by decide
theorem ex1_fuseRegs : allFit Profile.ex1 (fuseRegs Config.ex1 Profile.ex1) = true := by decide

/-- With no busy read, and with one. -/
theorem witness_WaitAndWholeErases :
    (∃ (s : State) (w : World), NvmReady s ∧ allFit s.ses.profile (pollRegs s.cfg s.ses.profile) = true ∧
      PollsIdle s.cfg s.ses.profile (s.now + s.cfg.tNvm) 0 [0x01] s.world w) ∧
    ∃ (s : State) (m w : World), NvmReady s ∧ s.nvm.eraseKeySent = true ∧
      allFit s.ses.profile (codeRegs s.cfg s.ses.profile) = true ∧
      Plays s.cfg (execXfers s.cfg s.ses.profile s.cfg.cmdChipErase) s.world m ∧
      PollsIdle s.cfg s.ses.profile (m.now + s.cfg.tNvm) 0 [] m w := by
  constructor
  · have e1 := plays_script .ex1 (by decide) (statusXfers .ex1 .ex1 0x01)
      (still :: scriptOf frameDefault (statusXfers .ex1 .ex1 0x00)) 0 0
    have e2 := plays_script .ex1 (by decide) (statusXfers .ex1 .ex1 0) [] 0
      (0 + scriptTime (statusXfers .ex1 .ex1 0x01) + 2 + 0)
    rw [List.append_nil] at e2
    exact ⟨session .unlocked (scriptOf frameDefault (statusXfers .ex1 .ex1 0x01) ++
      still :: scriptOf frameDefault (statusXfers .ex1 .ex1 0x00)), _, session_nvmReady _, ex1_polls, _,
      (by decide : nvmIdle Config.ex1 0x01 = false), e1,
      (by decide : 0 + scriptTime (statusXfers .ex1 .ex1 0x01) < 5), rfl,
      (by decide : nvmIdle Config.ex1 0 = true), e2⟩
  · obtain ⟨m, w, h1, h2⟩ := plays_then_idle (execXfers .ex1 .ex1 0x05)
    exact ⟨unlocked (execXfers .ex1 .ex1 0x05 ++ statusXfers .ex1 .ex1 0), m, w, unlocked_nvmReady _, rfl,
      ex1_codeRegs, h1, h2⟩

theorem witness_WritePage : ∃ (s : State) (m w : World) (data : List Byte) (region page offset : Nat)
    (r : Region), NvmReady s ∧ s.nvm.eraseKeySent = true ∧ regionOfCode region = some r ∧
    regionPage s.ses.profile r = some page ∧ offset % page = 0 ∧ data.length = page ∧
    offset + page ≤ regionSize s.ses.profile r ∧
    addrOk (regionBase s.ses.profile r + offset + page - 1) s.ses.profile.addrBytes = true ∧
    allFit s.ses.profile (codeRegs s.cfg s.ses.profile) = true ∧
    Plays s.cfg (stPtrXfers s.cfg s.ses.profile.addrBytes (regionBase s.ses.profile r + offset) ++
      pageXfers s.cfg data ++ execXfers s.cfg s.ses.profile s.cfg.cmdWritePage) s.world m ∧
    PollsIdle s.cfg s.ses.profile (m.now + s.cfg.tNvm) 0 [] m w := by
  obtain ⟨m, w, h1, h2⟩ := plays_then_idle (stPtrXfers .ex1 2 (0x8000 + 0x1FC0) ++
    pageXfers .ex1 (List.replicate 64 0xFF) ++ execXfers .ex1 .ex1 0x01)
  exact ⟨unlocked ((stPtrXfers .ex1 2 (0x8000 + 0x1FC0) ++ pageXfers .ex1 (List.replicate 64 0xFF) ++
      execXfers .ex1 .ex1 0x01) ++ statusXfers .ex1 .ex1 0), m, w, List.replicate 64 0xFF, 0, 64, 0x1FC0,
    .flash, unlocked_nvmReady _, rfl, rfl, rfl, by decide, by decide, by decide, by decide, ex1_codeRegs,
    h1, h2⟩

theorem witness_ErasePage : ∃ (s : State) (m w : World) (region page offset : Nat) (r : Region),
    NvmReady s ∧ s.nvm.eraseKeySent = true ∧ regionOfCode region = some r ∧
    regionPage s.ses.profile r = some page ∧ offset % page = 0 ∧
    offset + page ≤ regionSize s.ses.profile r ∧
    addrOk (regionBase s.ses.profile r + offset) s.ses.profile.addrBytes = true ∧
    allFit s.ses.profile (codeRegs s.cfg s.ses.profile) = true ∧
    Plays s.cfg (stsXfers s.cfg (regionBase s.ses.profile r + offset) 0xFF s.ses.profile.addrBytes ++
      execXfers s.cfg s.ses.profile s.cfg.cmdErasePage) s.world m ∧
    PollsIdle s.cfg s.ses.profile (m.now + s.cfg.tNvm) 0 [] m w := by
  obtain ⟨m, w, h1, h2⟩ := plays_then_idle (stsXfers .ex1 (0x1400 + 96) 0xFF 2 ++
    execXfers .ex1 .ex1 0x02)
  exact ⟨unlocked ((stsXfers .ex1 (0x1400 + 96) 0xFF 2 ++ execXfers .ex1 .ex1 0x02) ++
      statusXfers .ex1 .ex1 0), m, w, 1, 32, 96, .eeprom, unlocked_nvmReady _, rfl, rfl, rfl, by decide,
    by decide, by decide, ex1_codeRegs, h1, h2⟩

theorem witness_NvmReads :
    (∃ (s : State) (r : Region), NvmReady s ∧ regionOfCode 4 = some r ∧
      32 ≤ regionSize s.ses.profile r) ∧
    (∃ (s : State) (w : World) (r : Region) (answer : List Byte), NvmReady s ∧ regionOfCode 2 = some r ∧
      answer ≠ [] ∧ 4 + answer.length ≤ regionSize s.ses.profile r ∧
      addrOk (regionBase s.ses.profile r + 4 + answer.length - 1) s.ses.profile.addrBytes = true ∧
      Plays s.cfg (stPtrXfers s.cfg s.ses.profile.addrBytes (regionBase s.ses.profile r + 4) ++
        loadXfers s.cfg answer) s.world w) ∧
    ∃ (s : State) (w : World) (i : Nat) (b : Byte), NvmReady s ∧ i < s.ses.profile.fuseCount ∧
      addrOk (s.ses.profile.fuseBase + i) s.ses.profile.addrBytes = true ∧
      Plays s.cfg (ldsXfers s.cfg (s.ses.profile.fuseBase + i) s.ses.profile.addrBytes b) s.world w :=
  ⟨⟨answered .unlocked [], .userRow, answered_nvmReady _, rfl, by decide⟩,
    ⟨answered .unlocked (stPtrXfers .ex1 2 (0x1280 + 4) ++ loadXfers .ex1 [0x11, 0x22]), _, .fuse,
      [0x11, 0x22], answered_nvmReady _, rfl, by decide, by decide, by decide, answered_plays _ _⟩,
    ⟨answered .unlocked (ldsXfers .ex1 (0x1280 + 5) 2 0x33), _, 5, 0x33, answered_nvmReady _, by decide,
      by decide, answered_plays _ _⟩⟩

theorem witness_WriteFuse : ∃ (s : State) (m w : World) (i : Nat) (v : Byte), NvmReady s ∧
    s.nvm.eraseKeySent = true ∧ i < s.ses.profile.fuseCount ∧ s.ses.profile.fuseBase + i < 2 ^ 16 ∧
    allFit s.ses.profile (fuseRegs s.cfg s.ses.profile) = true ∧
    Plays s.cfg (stsXfers s.cfg (aregAddr s.cfg s.ses.profile)
        (BitVec.ofNat 8 ((s.ses.profile.fuseBase + i) % 256)) s.ses.profile.addrBytes ++
      stsXfers s.cfg (aregAddr s.cfg s.ses.profile + 1)
        (BitVec.ofNat 8 ((s.ses.profile.fuseBase + i) / 256)) s.ses.profile.addrBytes ++
      stsXfers s.cfg (dregAddr s.cfg s.ses.profile) v s.ses.profile.addrBytes ++
      execXfers s.cfg s.ses.profile s.cfg.cmdWriteFuse) s.world m ∧
    PollsIdle s.cfg s.ses.profile (m.now + s.cfg.tNvm) 0 [] m w := by
  obtain ⟨m, w, h1, h2⟩ := plays_then_idle
    (stsXfers .ex1 (aregAddr .ex1 .ex1) (BitVec.ofNat 8 (0x1285 % 256)) 2 ++
      stsXfers .ex1 (aregAddr .ex1 .ex1 + 1) (BitVec.ofNat 8 (0x1285 / 256)) 2 ++
      stsXfers .ex1 (dregAddr .ex1 .ex1) 0xAB 2 ++ execXfers .ex1 .ex1 0x07)
  exact ⟨unlocked ((stsXfers .ex1 (aregAddr .ex1 .ex1) (BitVec.ofNat 8 (0x1285 % 256)) 2 ++
      stsXfers .ex1 (aregAddr .ex1 .ex1 + 1) (BitVec.ofNat 8 (0x1285 / 256)) 2 ++
      stsXfers .ex1 (dregAddr .ex1 .ex1) 0xAB 2 ++ execXfers .ex1 .ex1 0x07) ++
      statusXfers .ex1 .ex1 0), m, w, 5, 0xAB, unlocked_nvmReady _, rfl, by decide, by decide,
    ex1_fuseRegs, h1, h2⟩

theorem witness_LoadReadsTheTarget : ∃ (s : State) (d : Target) (a n : Nat), Ready s ∧ Faces s d ∧
    addrOk a n = true ∧ a ≠ statAddr s.cfg d.prof :=
  ⟨facing .unlocked part, part, 0x1280, 2, facing_ready (by nofun) _, facing_faces _, by decide,
    by decide⟩

/-- Outside the paged regions, and in one. -/
theorem witness_StoreWritesTheTarget : ∃ (s : State) (d : Target) (a b n : Nat), Ready s ∧ Faces s d ∧
    addrOk a n = true ∧ addrOk b n = true ∧ d.pagedAt a = none ∧ a ≠ ctrlAddr s.cfg d.prof ∧
    d.pagedAt b ≠ none :=
  ⟨facing .unlocked part, part, 0x1280, 0x8000, 2, facing_ready (by nofun) _, facing_faces _, by decide,
    by decide, by decide, by decide, by decide⟩

theorem witness_PointerAndCsReadBack : ∃ (s : State) (d : Target), Ready s ∧ Faces s d ∧
    addrOk 0xFFFF s.ses.profile.addrBytes = true :=
  ⟨facing .unlocked part, part, facing_ready (by nofun) _, facing_faces _, by decide⟩

theorem witness_StuckBusyTimesOut : ∃ (s : State) (d : Target), NvmReady s ∧ Faces s d ∧
    d.alwaysBusy = true ∧ s.cfg.nvmBusyMask &&& ~~~s.cfg.nvmErrMask ≠ 0 ∧
    allFit s.ses.profile (pollRegs s.cfg s.ses.profile) = true :=
  ⟨facing .unlocked { part with alwaysBusy := true }, { part with alwaysBusy := true },
    ⟨facing_ready (by nofun) _, .inl rfl, ex1_valid⟩,
    ⟨rfl, ⟨rfl, rfl, rfl, rfl, rfl⟩, rfl, rfl, ex1_codes, rfl, by decide,
      (by decide : 0 < Config.ex1.tByte)⟩,
    rfl, by decide, ex1_polls⟩

/-- 93_implementation_defined.md U13: a command empties the page buffer. -/
theorem test_target_buffer :
    (({ part with pbuf := [(0x8000, 0x12)] }).memWrite .ex1 0x1000 0x06).pbuf = [] := by decide +kernel
/-- 20_memory.md R77, R81: a break and a lone SYNC keep an armed repeat count. -/
theorem test_target_repeat :
    let t := [0x55, 0xA0, 0x02, 0x55].foldl (Target.hear .ex1) part
    (t.onBreak 25).rep = 2 ∧ ([0x55].foldl (Target.hear .ex1) (t.onBreak 25)).phase = .opcode := by
  decide +kernel
/-- 20_memory.md R85: no error bit, and a busy bit, whatever the draw. -/
theorem test_target_busy :
    ({ part with busyByte := 0x00 }).busyStatus .ex1 &&& 0x03 ≠ 0 ∧
      ({ part with busyByte := 0xFF }).busyStatus .ex1 &&& 0x04 = 0 := by decide
/-- P18, with an answer that takes its time (20_memory.md R77). -/
theorem test_target_answers :
    let t := after (.receiveBytes 1 100)
      (after (.sendBytes [0x55, 0x80]) (facing .linkEstablished { part with cs := 0x30 :: List.replicate 15 0 }))
    t.rsp.rspData = [0x30] ∧ t.now = 3 := by decide +kernel

/-- Two commands, one after the other, both end `OK`. -/
def bothEnd (i j : Instr) (s : State) : Bool :=
  match exec i s with
  | .next t =>
    match exec j t with
    | .next u => t.rsp.rspStatus == 0x00 && u.rsp.rspStatus == 0x00
    | _ => false
  | _ => false

theorem bothEnd_next {i j : Instr} {s : State} (h : bothEnd i j s = true) :
    ∃ t u, exec i s = .next t ∧ t.rsp.rspStatus = 0x00 ∧ exec j t = .next u ∧
      u.rsp.rspStatus = 0x00 := by
  unfold bothEnd at h
  split at h
  · rename_i t e1
    split at h
    · rename_i u e2
      rw [Bool.and_eq_true, beq_iff_eq, beq_iff_eq] at h
      exact ⟨t, u, e1, h.1, e2, h.2⟩
    · cases h
  · cases h

/-- A session with the key sent, facing the ideal target. -/
def facingKeyed : State :=
  { facing .programming part with nvm := { State.reset.nvm with eraseKeySent := true } }

theorem bothEnd_page : bothEnd (.writePage 1 32 (List.replicate 32 0x5A)) (.readBytes 1 32 32)
    facingKeyed = true := by decide +kernel

/-- The write ends `OK`, and so does the read after it. -/
theorem witness_PageRoundTrip : ∃ (s t u : State) (d : Target) (r : Region) (region offset : Nat)
    (data : List Byte), NvmReady s ∧ Faces s d ∧ regionOfCode region = some r ∧
    d.pagedAt (ctrlAddr s.cfg d.prof) = none ∧
    (∀ k, k < data.length → regionBase d.prof r + offset + k ≠ statAddr s.cfg d.prof) ∧
    exec (.writePage region offset data) s = .next t ∧ t.rsp.rspStatus = 0x00 ∧
    exec (.readBytes region offset data.length) t = .next u ∧ u.rsp.rspStatus = 0x00 := by
  obtain ⟨t, u, e1, h1, e2, h2⟩ := bothEnd_next bothEnd_page
  refine ⟨facingKeyed, t, u, part, .eeprom, 1, 32, List.replicate 32 0x5A,
    ⟨⟨rfl, by decide, rfl, ⟨rfl, rfl, rfl, rfl⟩, ⟨rfl, rfl, rfl, rfl⟩⟩, .inr rfl, ex1_valid⟩,
    ⟨rfl, ⟨rfl, rfl, rfl, rfl, rfl⟩, rfl, rfl, ex1_codes, rfl, by decide,
      (by decide : 0 < Config.ex1.tByte)⟩, rfl, by decide, ?_, e1, h1, e2, h2⟩
  intro k _
  have e3 : regionBase part.prof .eeprom = 0x1400 := rfl
  have e4 : statAddr facingKeyed.cfg part.prof = 0x1002 := rfl
  omega

end Sys2Proof.Tests
end

section
/-! PROOFS. How a command given to the engine ends (00_scope.md R14). Every instruction's next state is one
of the endings of `Ended`; each ending writes the response registers through `respondOk`, `respondError` or
the refusal, so R14 is a fact about the codes that reach `respondError`. -/

namespace Sys2Proof.Machine

/-- `t` answers a command given in `s` as 00_scope.md R14 allows: `OK`, the code of an error the engine
raises (60_exceptions.md R281 without the host's two), or `REFUSED` with nothing done. -/
def EndsAsR14 (s t : State) : Prop :=
  t.rsp.busy = false ∧
    (t.rsp.rspStatus = 0x00 ∨
      t.rsp.rspStatus ∈ ([0x01, 0x02, 0x03, 0x04, 0x05, 0x06, 0x07, 0x08, 0x0A, 0x0B] : List Byte) ∨
      (t.rsp.rspStatus = 0xFF ∧ t = s.refusal))

/-- The codes that reach the response of a failed command: the caller's errors without the refusal, those
that force a cleanup, and the two wrappers of SES (43_session.md R260, R263). -/
def DeliveredCode (c : Code) : Prop :=
  (CallCode c ∧ c ≠ .refused) ∨ needsCleanup c = true ∨ c = .deviceNotResponding ∨ c = .unlock

theorem deliveredCode_not_host {c : Code} (h : DeliveredCode c) :
    c ≠ .ok ∧ c ≠ .verification ∧ c ≠ .parse ∧ c ≠ .refused := by
  refine ⟨?_, ?_, ?_, ?_⟩ <;> rintro rfl <;> simp [DeliveredCode, CallCode, needsCleanup] at h

theorem codeByte_mem_of_delivered {c : Code} (h : DeliveredCode c) :
    codeByte c ∈ ([0x01, 0x02, 0x03, 0x04, 0x05, 0x06, 0x07, 0x08, 0x0A, 0x0B] : List Byte) := by
  obtain ⟨hok, hverification, hparse, hrefused⟩ := deliveredCode_not_host h
  cases c with
  | ok => exact absurd rfl hok
  | verification => exact absurd rfl hverification
  | parse => exact absurd rfl hparse
  | refused => exact absurd rfl hrefused
  | _ => decide

theorem endsAsR14_refusal (s : State) : EndsAsR14 s s.refusal := ⟨rfl, .inr (.inr ⟨rfl, rfl⟩)⟩

theorem endsAsR14_respondOk (s u : State) (data : List Byte) : EndsAsR14 s (u.respondOk data) :=
  ⟨rfl, .inl rfl⟩

theorem endsAsR14_respondError (s u : State) {e : Err} (h : DeliveredCode e.code) :
    EndsAsR14 s (u.respondError e) :=
  ⟨rfl, .inr (.inl (codeByte_mem_of_delivered h))⟩

theorem Ended.endsAsR14 {i : Instr} {s t : State} (h : Ended i s t) : EndsAsR14 s t := by
  cases h with
  | refused ht => exact ht ▸ endsAsR14_refusal s
  | caller e hc hr ht => exact ht ▸ endsAsR14_respondError s _ (.inl ⟨hc, hr⟩)
  | done data u _ _ _ _ _ _ ht => exact ht ▸ endsAsR14_respondOk s u data
  | failed e u v _ _ he _ _ ht => exact ht ▸ endsAsR14_respondError s v (.inr (.inl he))
  | entered u _ _ _ ht => exact ht ▸ endsAsR14_respondOk s _ []
  | locked e u _ hc _ _ ht => exact ht ▸ endsAsR14_respondError s u (.inr (.inr (.inr hc)))
  | closed u _ _ ht => exact ht ▸ endsAsR14_respondOk s u []
  | opened p port u _ _ ht => exact ht ▸ endsAsR14_respondOk s u []
  | unopened e u _ hc _ _ ht =>
    have hd : DeliveredCode e.code := by
      rcases hc with hc | hc
      · exact .inr (.inl (by rw [hc]; rfl))
      · exact .inr (.inr (.inl hc))
    exact ht ▸ endsAsR14_respondError s u hd

end Sys2Proof.Machine

namespace Sys2Proof.Proofs

open Sys2Proof.Machine

/-- Settles O11: every ending `exec_ended` names responds in one of R14's ways. -/
theorem everyCommandEnds : Obligations.EveryCommandEnds := by
  intro s i hinv
  obtain ⟨t, hexec, hended⟩ := exec_ended i hinv.notBusy hinv
  exact ⟨t, hexec, hended.endsAsR14⟩

end Sys2Proof.Proofs
end

section
/-! PROOFS. The registers of 10_state.md: their reset values, the status byte, when the erase key's flag
changes, and what no command changes. What an instruction does is read off `exec_ended`; here stand the facts
about a command's ending that `Ended` does not carry: that the instruction was admitted, and what the bodies
of `close` and `unlock_chip_erase_key` do to the key flag. -/

namespace Sys2Proof.Machine

variable {i : Instr} {s t u : State}

/-! ### Reset (10_state.md R41, 70_reset_and_hazards.md R320, R321) -/

theorem step_reset {rest : List Input} (h : s.inputs = .reset :: rest) :
    step s = .next (s.setInputs rest).resetEngine := by
  simp only [step, runInput, State.popInput, h, List.tail_cons]

theorem inv_reset : Inv State.reset where
  notBusy := rfl
  idle := ⟨rfl, rfl, rfl, rfl⟩
  lineHigh := rfl
  noFrameOut := rfl
  closedIff := ⟨fun _ => rfl, fun _ => rfl⟩
  linkIff := rfl
  baudSet := fun hopen => absurd hopen Bool.false_ne_true
  keyInProgramming := fun hkey => absurd hkey Bool.false_ne_true
  profileOk := fun hopen => absurd hopen Bool.false_ne_true

/-! ### The status byte (10_state.md R38) -/

theorem statusByte_mode (s : State) : (statusByte s).extractLsb' 0 2 = sesCode s.ses.sesState :=
  BitVec.extractLsb'_append_eq_right

/-- The bits above the mode, from bit 2 on. -/
theorem statusByte_flag (s : State) (j : Nat) : (statusByte s).getLsbD (j + 2) =
    [s.phy.linkUp, s.nvm.eraseKeySent, s.phy.line.frameErr, s.ses.trOpen].getD j false := by
  show BitVec.getLsbD (w := 2 + 1 + 1 + 1 + 1 + 2) _ _ = _
  simp only [statusByte, BitVec.getLsbD_append, BitVec.getLsbD_ofBool]
  match j with
  | 0 | 1 | 2 | 3 => simp
  | j + 4 => simp

theorem exec_getStatus (hb : s.rsp.busy = false) :
    exec .getStatus s = .next (s.accepted.respondOk [statusByte s]) := by
  rw [exec_eq]
  exact runCommand_ok hb rfl rfl

/-! ### How a command given between commands ends -/

theorem codeByte_eq_ok_iff {c : Code} : codeByte c = 0x00 ↔ c = .ok := by
  cases c <;> decide

theorem trOpen_of_mode (hinv : Inv s) (hmode : s.ses.sesState ≠ .closed) : s.ses.trOpen = true := by
  rw [← Bool.not_eq_false]
  exact fun hshut => hmode (hinv.closedIff.mpr hshut)

/-- A command is refused with nothing done, or it was admitted and ended in one of the ways `Ended` lists. -/
theorem exec_refused_or_ended (hinv : Inv s) (h : exec i s = .next t) :
    t = s.refusal ∨ (allowed i s.ses.sesState = true ∧ Ended i s t) := by
  cases hal : allowed i s.ses.sesState with
  | false =>
    have hrefused : exec i s = .next s.refusal := by
      rw [exec_eq]
      exact runCommand_refused hinv.notBusy (by rw [admits_admOf]; exact hal)
    exact .inl (Host.Outcome.next.inj (h.symm.trans hrefused))
  | true =>
    obtain ⟨t', hexec, hended⟩ := exec_ended i hinv.notBusy hinv
    obtain rfl := Host.Outcome.next.inj (h.symm.trans hexec)
    exact .inr ⟨rfl, hended⟩

/-- The ending of an `open` that answers `OK` (43_session.md R260). -/
theorem Ended.opened_of_ok (h : Ended i s t) (hopen : isOpen i = true) (hok : t.rsp.rspStatus = 0x00) :
    ∃ p port u, i = .openSession p port ∧ Opened p s.accepted u ∧ t = u.respondOk [] := by
  cases h with
  | opened p port u hi ho ht => exact ⟨p, port, u, hi, ho, ht⟩
  | refused ht => subst ht; cases hok
  | caller e hc _ ht =>
    subst ht
    rw [codeByte_eq_ok_iff.mp hok] at hc
    simp [CallCode] at hc
  | unopened e u _ hc _ _ ht =>
    subst ht
    rw [codeByte_eq_ok_iff.mp hok] at hc
    simp at hc
  | done _ _ ho => exact absurd (hopen.symm.trans ho) Bool.noConfusion
  | failed _ _ _ ho => exact absurd (hopen.symm.trans ho) Bool.noConfusion
  | entered _ hi => subst hi; cases hopen
  | locked _ _ hi => subst hi; cases hopen
  | closed _ hi =>
    cases i with
    | openSession p port => cases hi
    | _ => cases hopen

/-- Outside `open`, only `initLink` has the scope of link initialisation (40_phy.md R142). -/
theorem eq_initLink_of_inits (h : (scopeOf i).inits) : i = .initLink := by
  unfold scopeOf at h
  split_ifs at h with _ hi
  · exact h.elim
  · exact hi
  · exact h.elim

/-- An instruction whose scope has the erase key is `unlock_chip_erase_key` (42_nvm.md R221). -/
theorem eq_unlock_of_keys (h : (scopeOf i).keys) : i = .unlockChipEraseKey := by
  unfold scopeOf at h
  split_ifs at h
  · exact h
  · exact h.elim
  · exact h.elim

/-! ### The key flag (10_state.md R34) -/

/-- `close` is never refused: it always runs its body (43_session.md R266). -/
theorem exec_closeSession (r : Bool) (hb : s.rsp.busy = false) :
    ∃ u, Left s.accepted u ∧ exec (.closeSession r) s = .next (u.respondOk []) := by
  obtain ⟨u, hrun, hleft⟩ := closeBody_left r s.accepted
  refine ⟨u, hleft, ?_⟩
  rw [exec_eq]
  exact runCommand_ok hb rfl (noData_ok hrun)

theorem ends_inNvm {α : Type} {P : State → Prop} {name : OpName} {x : Act α} (hx : Ends P x)
    (hidle : ∀ s, P s → P (s.setNvm { s.nvm with nvmState := .idle })) : Ends P (inNvm name x) := by
  intro s a s' h
  cases hr : x s with
  | ok b s1 =>
    obtain ⟨-, rfl⟩ := EStateM.Result.ok.inj ((inNvm_ok hr).symm.trans h)
    exact hidle s1 (hx s b s1 hr)
  | error e s1 => cases (inNvm_error hr).symm.trans h

/-- Either the flag stood already, or the key is sent and then the flag set. -/
theorem unlockEraseKey_sets_key : Ends (fun s => s.nvm.eraseKeySent = true) unlockEraseKey := by
  refine ends_inNvm (ends_bind fun _ s a s' h => ?_) fun _ hkey => hkey
  rw [Act.get_bind_run, Act.ite_run] at h
  split at h
  · rename_i hsent
    cases h
    exact hsent
  · refine ends_bind (P := fun s => s.nvm.eraseKeySent = true)
      (fun _ => ends_bind fun _ s2 _ s3 hset => ?_) s a s' h
    cases hset
    rfl

/-- The errors of an NVM command's body: the checks' and those of its exchanges (42_nvm.md R223). -/
theorem nvmBody_error_ne_ok {e : Err} (hinv : Inv s) (hadm : admOf i = .nvmMode)
    (hal : allowed i s.ses.sesState = true) (h : bodyOf i s.accepted = .error e u) : e.code ≠ .ok := by
  have hmode : s.ses.sesState = .unlocked ∨ s.ses.sesState = .programming := by
    rw [← admits_admOf, hadm] at hal
    cases hm : s.ses.sesState <;> simp_all [admits]
  have hne : s.ses.sesState ≠ .closed := by rcases hmode with hm | hm <;> simp [hm]
  have hvalid := hinv.profileOk (trOpen_of_mode hinv hne)
  intro hok
  have hcode := (nvmBody_checked (s := s.accepted) (accepted_idle hinv.idle) hadm hmode hvalid).2 e u h
  simp [hok, NvmCode, LinkCode, CallCode] at hcode

theorem deliver_rspStatus (s : State) (cleans : Bool) (e : Err) :
    (s.deliver cleans e).rsp.rspStatus = codeByte e.code := by
  unfold State.deliver
  split_ifs with hrefused
  · rw [hrefused]; rfl
  · rfl
  · rfl

/-- `unlock_chip_erase_key` ending `OK` has run its body to the end (42_nvm.md R221). -/
theorem unlock_ok_sets_key (hinv : Inv s) (h : exec .unlockChipEraseKey s = .next t)
    (hok : t.rsp.rspStatus = 0x00) : t.nvm.eraseKeySent = true := by
  rcases runCommand_cases .nvmMode true (noData unlockEraseKey) s with
    ⟨hbusy, -⟩ | ⟨-, -, hrun⟩ | ⟨-, hadmits, ⟨data, u, hbody, hrun⟩ | ⟨e, u, hbody, hrun⟩⟩
  · exact absurd (hbusy.symm.trans hinv.notBusy) Bool.noConfusion
  · obtain rfl := Host.Outcome.next.inj (h.symm.trans hrun)
    cases hok
  · obtain rfl := Host.Outcome.next.inj (h.symm.trans hrun)
    cases hunlock : unlockEraseKey s.accepted with
    | ok a v =>
      obtain ⟨-, rfl⟩ := EStateM.Result.ok.inj ((noData_ok hunlock).symm.trans hbody)
      show v.nvm.eraseKeySent = true
      exact unlockEraseKey_sets_key _ _ _ hunlock
    | error e v => cases (noData_error hunlock).symm.trans hbody
  · obtain rfl := Host.Outcome.next.inj (h.symm.trans hrun)
    have hallowed := (admits_admOf .unlockChipEraseKey s.ses.sesState).symm.trans hadmits
    rw [deliver_rspStatus, codeByte_eq_ok_iff] at hok
    exact absurd hok (nvmBody_error_ne_ok hinv rfl hallowed hbody)

/-- The key flag stays as it is, or a successful unlock sets it, or it ends with the session. -/
theorem key_kept_set_or_ended (hinv : Inv s) (h : exec i s = .next t) :
    t.nvm.eraseKeySent = s.nvm.eraseKeySent ∨
      (i = .unlockChipEraseKey ∧ t.rsp.rspStatus = 0x00) ∨
      (t.ses.sesState = .closed ∧ t.nvm.eraseKeySent = false) := by
  rcases exec_refused_or_ended hinv h with rfl | ⟨hal, hended⟩
  · exact .inl rfl
  cases hended with
  | refused ht => subst ht; exact .inl rfl
  | caller e _ _ ht => subst ht; exact .inl rfl
  | done data u _ _ _ hu _ _ ht =>
    subst ht
    rcases hu.key with hkey | ⟨hkeys, -, -⟩
    · exact .inl hkey
    · exact .inr (.inl ⟨eq_unlock_of_keys hkeys, rfl⟩)
  | failed e u v _ _ _ _ hv ht => subst ht; exact .inr (.inr ⟨hv.closed.mode, hv.closed.key⟩)
  | entered u _ hu _ ht => subst ht; exact .inl (congrArg Nvm.eraseKeySent hu.2.1)
  | locked e u _ _ hu _ ht => subst ht; exact .inl (congrArg Nvm.eraseKeySent hu.2.1)
  | closed u _ hu ht => subst ht; exact .inr (.inr ⟨hu.closed.mode, hu.closed.key⟩)
  | opened p port u hi hu ht =>
    subst hi ht
    have hclosed : s.ses.sesState = .closed := by simpa [allowed] using hal
    have hnokey : s.nvm.eraseKeySent = false := by
      rw [← Bool.not_eq_true]
      exact fun hkey => by simpa [hclosed] using hinv.keyInProgramming hkey
    exact .inl (hu.key.trans hnokey.symm)
  | unopened e u _ _ hu _ ht => subst ht; exact .inl hu.key

/-! ### What no command changes (10_state.md R20, R22, R28, 60_exceptions.md R296) -/

/-- `t` comes after `s` with the same parameters and inputs: time and the trace have only grown. -/
structure RunsOn (s t : State) : Prop where
  cfg : t.cfg = s.cfg
  inputs : t.inputs = s.inputs
  now : s.now ≤ t.now
  trace : ∃ ev, t.trace = s.trace ++ ev

theorem RunsOn.refl (s : State) : RunsOn s s := ⟨rfl, rfl, le_rfl, [], (List.append_nil _).symm⟩

theorem RunsOn.trans (h1 : RunsOn s t) (h2 : RunsOn t u) : RunsOn s u where
  cfg := h2.cfg.trans h1.cfg
  inputs := h2.inputs.trans h1.inputs
  now := h1.now.trans h2.now
  trace := by
    obtain ⟨ev1, htrace1⟩ := h1.trace
    obtain ⟨ev2, htrace2⟩ := h2.trace
    exact ⟨ev1 ++ ev2, by rw [htrace2, htrace1, List.append_assoc]⟩

theorem RunsOn.inMode (h : RunsOn s t) (m : SesState) :
    RunsOn s (t.setSes { t.ses with sesState := m }) := ⟨h.cfg, h.inputs, h.now, h.trace⟩

/-- Neither the acceptance of a command nor its response is seen. -/
theorem RunsOn.responded (h : RunsOn s.accepted u) (r : Rsp) : RunsOn s (u.setRsp r) :=
  ⟨h.cfg, h.inputs, h.now, h.trace⟩

theorem InSession.runsOn {k : Scope} (h : InSession k s t) : RunsOn s t :=
  ⟨h.cfg, h.inputs, h.now, h.trace.imp fun _ hev => hev.1⟩

theorem Left.runsOn (h : Left s t) : RunsOn s t :=
  ⟨h.cfg, h.inputs, h.now, h.trace.imp fun _ hev => hev.1⟩

theorem Ended.runsOn (h : Ended i s t) : RunsOn s t := by
  cases h with
  | refused ht => exact ht ▸ (RunsOn.refl _).responded _
  | caller e _ _ ht => exact ht ▸ (RunsOn.refl _).responded _
  | done data u _ _ _ hu _ _ ht => exact ht ▸ hu.runsOn.responded _
  | failed e u v _ _ _ hu hv ht => exact ht ▸ (hu.runsOn.trans hv.runsOn).responded _
  | entered u _ hu _ ht => exact ht ▸ (hu.1.session.runsOn.inMode _).responded _
  | locked e u _ _ hu _ ht => exact ht ▸ hu.1.session.runsOn.responded _
  | closed u _ hu ht => exact ht ▸ hu.runsOn.responded _
  | opened p port u _ hu ht =>
    exact ht ▸ RunsOn.responded ⟨hu.cfg, hu.inputs, hu.now, hu.trace⟩ _
  | unopened e u _ _ hu _ ht =>
    exact ht ▸ RunsOn.responded ⟨hu.cfg, hu.inputs, hu.now, hu.trace⟩ _

/-- What only `open` changes: the profile and the baud rate; and only `open` clears `frame_err`. -/
structure KeepsLink (s t : State) : Prop where
  profile : t.ses.profile = s.ses.profile
  baud : t.phy.baudCur = s.phy.baudCur
  frameErr : s.phy.line.frameErr = true → t.phy.line.frameErr = true

theorem KeepsLink.refl (s : State) : KeepsLink s s := ⟨rfl, rfl, id⟩

theorem KeepsLink.trans (h1 : KeepsLink s t) (h2 : KeepsLink t u) : KeepsLink s u :=
  ⟨h2.profile.trans h1.profile, h2.baud.trans h1.baud, h2.frameErr ∘ h1.frameErr⟩

theorem KeepsLink.inMode (h : KeepsLink s t) (m : SesState) :
    KeepsLink s (t.setSes { t.ses with sesState := m }) := ⟨h.profile, h.baud, h.frameErr⟩

theorem KeepsLink.responded (h : KeepsLink s.accepted u) (r : Rsp) : KeepsLink s (u.setRsp r) :=
  ⟨h.profile, h.baud, h.frameErr⟩

/-- Link initialisation sets the baud rate the session already has (40_phy.md R138). -/
theorem InSession.keepsLink {k : Scope} (h : InSession k s t)
    (hbaud : k.inits → s.phy.baudCur = s.cfg.baud) : KeepsLink s t where
  profile := h.profile
  baud := by
    rcases h.baud with heq | ⟨hinits, heq⟩
    · exact heq
    · rw [heq, hbaud hinits]
  frameErr := h.frameErr

theorem Left.keepsLink (h : Left s t) : KeepsLink s t := ⟨h.profile, h.baud, h.frameErr⟩

theorem baud_of_inits (hinv : Inv s) (hal : allowed i s.ses.sesState = true) (h : (scopeOf i).inits) :
    s.phy.baudCur = s.cfg.baud := by
  obtain rfl := eq_initLink_of_inits h
  exact hinv.baudSet (trOpen_of_mode hinv (by simpa [allowed] using hal))

theorem Ended.keepsLink (hinv : Inv s) (hal : allowed i s.ses.sesState = true) (hopen : isOpen i = false)
    (h : Ended i s t) : KeepsLink s t := by
  have hbaud := baud_of_inits hinv hal
  cases h with
  | refused ht => exact ht ▸ (KeepsLink.refl _).responded _
  | caller e _ _ ht => exact ht ▸ (KeepsLink.refl _).responded _
  | done data u _ _ _ hu _ _ ht => exact ht ▸ (hu.keepsLink hbaud).responded _
  | failed e u v _ _ _ hu hv ht => exact ht ▸ ((hu.keepsLink hbaud).trans hv.keepsLink).responded _
  | entered u _ hu _ ht => exact ht ▸ ((hu.1.session.keepsLink False.elim).inMode _).responded _
  | locked e u _ _ hu _ ht => exact ht ▸ (hu.1.session.keepsLink False.elim).responded _
  | closed u _ hu ht => exact ht ▸ hu.keepsLink.responded _
  | opened p port u hi => subst hi; cases hopen
  | unopened e u hi => exact absurd (hi.symm.trans hopen) Bool.noConfusion

end Sys2Proof.Machine

namespace Sys2Proof.Proofs

open Sys2Proof.Machine

/-- Settles O9: the table's values stand in `State.reset`, and the reset input puts them in place. -/
theorem resetInput : Obligations.ResetInput := by
  refine ⟨by decide, fun s rest h => ⟨_, step_reset h, ?_⟩⟩
  exact ⟨rfl, rfl, rfl, rfl, rfl, rfl, rfl, rfl, rfl, rfl⟩

/-- Settles O27: nothing is under way after reset, and its environment is the oracle. -/
theorem resetHasInvariant : Obligations.ResetHasInvariant := ⟨inv_reset, trivial⟩

/-- Settles O16: `get_status` answers `statusByte`, whose fields `statusByte_mode` and `statusByte_flag`
give. -/
theorem statusByteFields : Obligations.StatusByteFields := by
  intro s hb
  have hflag := statusByte_flag s
  refine ⟨_, statusByte s, exec_getStatus hb, ⟨rfl, rfl, rfl⟩, rfl, ?_, hflag 0, hflag 1, hflag 2, hflag 3,
    hflag 4, hflag 5, ?_⟩
  · rw [statusByte_mode]
    cases s.ses.sesState <;> rfl
  · rintro rfl
    decide

/-- Settles O24, by the three things that can happen to the flag (`key_kept_set_or_ended`). -/
theorem keyFlag : Obligations.KeyFlag := by
  intro s t i hinv h
  have hcases := key_kept_set_or_ended hinv h
  refine ⟨?_, ?_, ?_, ?_, ?_⟩
  · rintro rfl hok
    exact unlock_ok_sets_key hinv h hok
  · intro hnot hset
    rcases hcases with hkept | hunlocked | ⟨-, hcleared⟩
    · exact hkept ▸ hset
    · exact absurd hunlocked hnot
    · exact absurd (hset.symm.trans hcleared) Bool.noConfusion
  · intro hopen hok
    rcases exec_refused_or_ended hinv h with rfl | ⟨-, hended⟩
    · cases hok
    · obtain ⟨p, port, u, -, hopened, rfl⟩ := hended.opened_of_ok hopen hok
      exact hopened.key
  · intro hclose
    cases i with
    | closeSession r =>
      obtain ⟨u, hleft, hexec⟩ := exec_closeSession r hinv.notBusy
      obtain rfl := Host.Outcome.next.inj (h.symm.trans hexec)
      exact hleft.closed.key
    | _ => cases hclose
  · intro hset hcleared
    rcases hcases with hkept | ⟨rfl, hok⟩ | ⟨hclosed, -⟩
    · exact absurd (hcleared.symm.trans (hkept.trans hset)) Bool.noConfusion
    · exact absurd (hcleared.symm.trans (unlock_ok_sets_key hinv h hok)) Bool.noConfusion
    · exact hclosed

/-- Settles O26: every ending keeps `RunsOn`, every ending but `open`'s keeps `KeepsLink`, and an `open` that
ends `OK` latched its profile. -/
theorem whatNoCommandChanges : Obligations.WhatNoCommandChanges := by
  intro s t i hinv h
  rcases exec_refused_or_ended hinv h with rfl | ⟨hal, hended⟩
  · refine ⟨rfl, rfl, le_rfl, ⟨[], (List.append_nil _).symm⟩, fun _ => ⟨rfl, rfl, id⟩, ?_⟩
    intro p port _ hok
    cases hok
  · obtain ⟨hcfg, hinputs, hnow, htrace⟩ := hended.runsOn
    refine ⟨hcfg, hinputs, hnow, htrace, fun hopen => ?_, ?_⟩
    · obtain ⟨hprofile, hbaud, hferr⟩ := hended.keepsLink hinv hal hopen
      exact ⟨hprofile, hbaud, hferr⟩
    · rintro p port rfl hok
      obtain ⟨p', port', u, hi, hopened, rfl⟩ := hended.opened_of_ok rfl hok
      cases hi
      exact hopened.profile

end Sys2Proof.Proofs
end

section
/-! PROOFS. What the engine's exchanges do against the ideal target T0 of 20_memory.md R75 to R87: the bytes of
an instruction make T0 act once (R77, R79, R80), its answer arrives after a delay shorter than `T_BYTE`, and
after it T0 is at rest again. -/

namespace Sys2Proof.Machine

variable {c : Config} {s t u : State} {d e : Target}

/-! ### T0 between instructions -/

/-- T0 waits for an instruction, with this profile, its CS space whole and its memory in canonical form. -/
structure Target.AtRest (d : Target) (p : Profile) : Prop where
  listening : d.Listening
  profile : p = d.prof
  csSpace : d.cs.length = 16
  memory : Memory.wf d.tmem

theorem Faces.atRest (h : Faces s d) : d.AtRest s.ses.profile := ⟨h.listening, h.profile, h.csSpace, h.memory⟩

theorem Target.Listening.waited (h : d.Listening) (ds : List (Nat × Nat)) (k : Nat) : (d.waited ds k).Listening :=
  ⟨h.sync, h.noRepeat, h.silent, h.noDelay⟩

theorem Target.AtRest.waited {p : Profile} (h : d.AtRest p) (ds : List (Nat × Nat)) (k : Nat) :
    (d.waited ds k).AtRest p := ⟨h.listening.waited ds k, h.profile, h.csSpace, h.memory⟩

theorem Faces.setDl (h : Faces s d) (x : Dl) : Faces (s.setDl x) d := { h with }
theorem Faces.setNvm (h : Faces s d) (x : Nvm) : Faces (s.setNvm x) d := { h with }
theorem Faces.setRsp (h : Faces s d) (x : Rsp) : Faces (s.setRsp x) d := { h with }

/-- What a completed exchange leaves of a session is still a session facing T0. -/
theorem Faces.moved {d' : Target} {xs : List Xfer} {m : Nat} (h : Faces s d) (hm : Moved s t xs)
    (hw : t.world = ⟨.ideal d', [], m⟩) (hd : d'.AtRest s.ses.profile) : Faces t d' where
  env := congrArg World.env hw
  listening := hd.listening
  nothingUnread := congrArg World.fifo hw
  profile := (congrArg Ses.profile hm.ses).trans hd.profile
  codes := (congrArg Config.codesDistinct hm.cfg).trans h.codes
  csSpace := hd.csSpace
  memory := hd.memory
  time := by rw [hm.cfg]; exact h.time

theorem Faces.world (h : Faces s d) : s.world = ⟨.ideal d, [], s.now⟩ := by
  simp only [State.world, h.env, h.nothingUnread]

/-! ### T0 hears an instruction -/

/-- T0 with its parser of the line at this place. -/
def Target.inPhase (d : Target) (p : TPhase) : Target := { d with phase := p }

@[simp] theorem Target.inPhase_owed (d : Target) (p : TPhase) : (d.inPhase p).owed = d.owed := rfl
@[simp] theorem Target.inPhase_inPhase (d : Target) (p q : TPhase) : (d.inPhase p).inPhase q = d.inPhase q := rfl
@[simp] theorem Target.inPhase_self (d : Target) : d.inPhase d.phase = d := rfl

theorem Target.hear_sync (h : d.phase = .sync) : d.hear c SYNC = d.inPhase .opcode := by
  simp only [Target.hear, h, if_true, Target.inPhase]

theorem Target.hear_more {o : WireOp} {opc b : Byte} {heard : List Byte} (h : d.phase = .operands o opc heard)
    (hmore : heard.length + 1 < operandCount c o) :
    d.hear c b = d.inPhase (.operands o opc (heard ++ [b])) := by
  simp only [Target.hear, h, hmore, if_true, Target.inPhase]

theorem Target.hear_last {o : WireOp} {opc b : Byte} {heard : List Byte} (h : d.phase = .operands o opc heard)
    (hlast : heard.length + 1 = operandCount c o) : d.hear c b = d.act c opc (heard ++ [b]) o := by
  simp only [Target.hear, h, hlast, lt_self_iff_false, if_false]

/-- An opcode byte of a row without operands is the whole instruction. -/
theorem Target.hear_bare {o : WireOp} {opc : Byte} (h : d.phase = .opcode) (ho : lookupWire c opc = some o)
    (hcount : operandCount c o = 0) : d.hear c opc = d.act c opc [] o := by
  simp only [Target.hear, h, ho, hcount, if_true]

theorem Target.hear_opcode {o : WireOp} {opc : Byte} (h : d.phase = .opcode) (ho : lookupWire c opc = some o)
    (hcount : operandCount c o ≠ 0) : d.hear c opc = d.inPhase (.operands o opc []) := by
  simp only [Target.hear, h, ho, hcount, if_false, Target.inPhase]

/-- The operand bytes end in the row's action. The phase T0 then leaves is of no account: every action sets it. -/
theorem Target.hear_operands {o : WireOp} {opc : Byte} {xs : List Byte} (hne : xs ≠ []) :
    ∀ {d : Target} {heard : List Byte}, d.phase = .operands o opc heard →
      heard.length + xs.length = operandCount c o →
      ∃ p, xs.foldl (Target.hear c) d = (d.inPhase p).act c opc (heard ++ xs) o := by
  induction xs with
  | nil => exact absurd rfl hne
  | cons b bs ih =>
    intro d heard hp hlen
    cases bs with
    | nil => exact ⟨d.phase, Target.hear_last hp hlen⟩
    | cons b' bs =>
      rw [List.foldl_cons, Target.hear_more hp (by simp at hlen; omega)]
      obtain ⟨p, hact⟩ := ih (List.cons_ne_nil b' bs) (d := d.inPhase (.operands o opc (heard ++ [b]))) rfl
        (by simp at hlen ⊢; omega)
      exact ⟨p, by simpa using hact⟩

/-- A whole instruction, with the bytes T0 collects before it acts (30_encoding.md R109). -/
theorem Target.hear_instruction {o : WireOp} {opc : Byte} {xs : List Byte} (h : d.phase = .sync)
    (ho : lookupWire c opc = some o) (hlen : xs.length = operandCount c o) :
    ∃ p, (SYNC :: opc :: xs).foldl (Target.hear c) d = (d.inPhase p).act c opc xs o := by
  rw [List.foldl_cons, Target.hear_sync h, List.foldl_cons]
  cases xs with
  | nil => exact ⟨.opcode, Target.hear_bare rfl ho hlen.symm⟩
  | cons b bs =>
    rw [Target.hear_opcode rfl ho (by rw [← hlen]; exact Nat.succ_ne_zero _)]
    exact Target.hear_operands (List.cons_ne_nil b bs) (d := d.inPhase (.operands o opc [])) rfl
      (by simpa using hlen)

/-! The rows of 30_encoding.md R107 that differ in their width only, and what T0 does for each. -/

theorem sizeOk_cases {n : Nat} (h : sizeOk n = true) : n = 1 ∨ n = 2 ∨ n = 3 := by
  simp only [sizeOk, Bool.and_eq_true, decide_eq_true_eq] at h
  omega

theorem addrOk_iff {a n : Nat} : addrOk a n = true ↔ sizeOk n = true ∧ a < 2 ^ (8 * n) := by
  simp only [addrOk, fits, Bool.and_eq_true, decide_eq_true_eq]

theorem le_ne_nil {n : Nat} (hn : sizeOk n = true) (a : Nat) : le a n ≠ [] := by
  rcases sizeOk_cases hn with rfl | rfl | rfl <;> exact List.cons_ne_nil _ _

theorem lookup_lds {n : Nat} (hc : c.codesDistinct = true) (hn : sizeOk n = true) :
    ∃ o, lookupWire c (opLds c n) = some o ∧ operandCount c o = n ∧
      ∀ (d : Target) opc xs, d.act c opc xs o = d.loadDirect c (unle xs) := by
  rcases sizeOk_cases hn with rfl | rfl | rfl
  · exact ⟨.lds1, lookupWire_shows hc rfl, rfl, fun _ _ _ => rfl⟩
  · exact ⟨.lds2, lookupWire_shows hc rfl, rfl, fun _ _ _ => rfl⟩
  · exact ⟨.lds3, lookupWire_shows hc rfl, rfl, fun _ _ _ => rfl⟩

theorem lookup_sts {n : Nat} (hc : c.codesDistinct = true) (hn : sizeOk n = true) :
    ∃ o, lookupWire c (opSts c n) = some o ∧ operandCount c o = n ∧
      ∀ (d : Target) opc xs, d.act c opc xs o = d.stsAddress c (unle xs) := by
  rcases sizeOk_cases hn with rfl | rfl | rfl
  · exact ⟨.sts1, lookupWire_shows hc rfl, rfl, fun _ _ _ => rfl⟩
  · exact ⟨.sts2, lookupWire_shows hc rfl, rfl, fun _ _ _ => rfl⟩
  · exact ⟨.sts3, lookupWire_shows hc rfl, rfl, fun _ _ _ => rfl⟩

theorem lookup_stPtr {n : Nat} (hc : c.codesDistinct = true) (hn : sizeOk n = true) :
    ∃ o, lookupWire c (opStPtr c n) = some o ∧ operandCount c o = n ∧
      ∀ (d : Target) opc xs, d.act c opc xs o = d.setPointer c (unle xs) := by
  rcases sizeOk_cases hn with rfl | rfl | rfl
  · exact ⟨.stptr1, lookupWire_shows hc rfl, rfl, fun _ _ _ => rfl⟩
  · exact ⟨.stptr2, lookupWire_shows hc rfl, rfl, fun _ _ _ => rfl⟩
  · exact ⟨.stptr3, lookupWire_shows hc rfl, rfl, fun _ _ _ => rfl⟩

theorem lookup_ldPtr {n : Nat} (hc : c.codesDistinct = true) (hn : sizeOk n = true) :
    ∃ o, lookupWire c (opLdPtr c n) = some o ∧ operandCount c o = 0 ∧
      ∀ (d : Target) opc xs, d.act c opc xs o = d.getPointer n := by
  rcases sizeOk_cases hn with rfl | rfl | rfl
  · exact ⟨.ldptr1, lookupWire_shows hc rfl, rfl, fun _ _ _ => rfl⟩
  · exact ⟨.ldptr2, lookupWire_shows hc rfl, rfl, fun _ _ _ => rfl⟩
  · exact ⟨.ldptr3, lookupWire_shows hc rfl, rfl, fun _ _ _ => rfl⟩

/-! ### T0 answers -/

/-- T0 once it has sent all it owed. -/
def Target.spoken (d : Target) : Target := { d with owed := [], lag := 0, lead := 0 }

theorem begins_idle (f : FrameFormat) (bs : List Byte) (k : Nat) (levels : List Bool) :
    begins f bs (List.replicate k true ++ levels) = begins f bs levels := by
  induction k with
  | zero => rfl
  | succ k ih => rw [← ih]; cases bs <;> rfl

/-- A transmission: T0 hears it, is silent meanwhile, and the echo is there at once. -/
theorem plays_tx_ideal (c : Config) (d : Target) (bs : List Byte) (n : Nat) :
    Plays c [.tx bs] ⟨.ideal d, [], n⟩ ⟨.ideal (d.hearAll c bs), [], n + 1⟩ :=
  ⟨rfl, ⟨rfl, rfl, rfl⟩, rfl, rfl⟩

/-- What T0 owes arrives within `T_BYTE` if its delay is shorter than that. -/
theorem plays_rx_ideal {bs : List Byte} (n : Nat) (howed : d.owed = bs) (hne : bs ≠ []) (hlag : d.lag < c.tByte) :
    ∃ m, Plays c [.rx bs] ⟨.ideal d, [], n⟩ ⟨.ideal d.spoken, [], m⟩ := by
  have hspeak : (Env.ideal d).answer c (.trRead bs.length c.tByte) =
      ({ drive := List.replicate d.lead true ++ bs.flatMap (frameBits c.frame), dt := d.lag },
        .ideal d.spoken) := by
    simp [Env.answer, Target.react, Target.speak, Target.spoken, howed, hne, hlag]
  refine ⟨n + min d.lag (c.tByte - 1), rfl, by omega, ⟨?_, ?_⟩, ?_⟩
  · rw [hspeak]
  · rw [hspeak, begins_idle]
    exact begins_frames c.frame bs
  · rw [hspeak]
    rfl

/-- An instruction that leaves T0 owing nothing. -/
theorem hearAll_silent {bs : List Byte} (h : bs.foldl (Target.hear c) d = e) (he : e.owed = []) :
    d.hearAll c bs = e := by
  simp only [Target.hearAll, h, he, ne_eq, not_true_eq_false, and_false, if_false]

theorem spoken_drawDelay (c : Config) (d : Target) :
    ∃ ds k, (d.drawDelay c).spoken = d.spoken.waited ds k := by
  unfold Target.drawDelay
  split
  · exact ⟨_, _, rfl⟩
  · exact ⟨_, _, rfl⟩

theorem drawDelay_lag (d : Target) (h : 0 < c.tByte) : (d.drawDelay c).lag < c.tByte := by
  unfold Target.drawDelay
  split
  · simp only; omega
  · simp only; omega

theorem drawDelay_owed (c : Config) (d : Target) : (d.drawDelay c).owed = d.owed := by
  unfold Target.drawDelay
  split <;> rfl

/-- An instruction that T0 answers: the delay is drawn, and T0 is left as the instruction made it. -/
theorem plays_exchange {bs answer : List Byte} (n : Nat) (ht : 0 < c.tByte) (hsilent : d.owed = [])
    (h : bs.foldl (Target.hear c) d = e) (he : e.owed = answer) (hne : answer ≠ []) :
    ∃ ds k m, Plays c [.tx bs, .rx answer] ⟨.ideal d, [], n⟩ ⟨.ideal (e.spoken.waited ds k), [], m⟩ := by
  have hhear : d.hearAll c bs = e.drawDelay c := by
    simp only [Target.hearAll, h, hsilent, he, ne_eq, hne, not_false_eq_true, and_self, if_true]
  obtain ⟨ds, k, hspoken⟩ := spoken_drawDelay c e
  obtain ⟨m, hrx⟩ := plays_rx_ideal (n + 1) ((drawDelay_owed c e).trans he) hne (drawDelay_lag e ht)
  refine ⟨ds, k, m, plays_append.mpr ⟨_, plays_tx_ideal c d bs n, ?_⟩⟩
  rw [hhear, ← hspoken]
  exact hrx

/-- T0 when an instruction has made it owe this answer and wait in this phase. -/
def Target.owing (d : Target) (answer : List Byte) (p : TPhase) : Target :=
  { d with owed := answer, rep := 0, phase := p }

/-- T0 with no instruction in progress. -/
def Target.rested (d : Target) : Target := { d with phase := .sync, rep := 0, owed := [], lag := 0, lead := 0 }

theorem Target.Listening.rested_eq (h : d.Listening) : d.rested = d := by
  obtain ⟨hsync, hrep, howed, hlag, hlead⟩ := h
  cases d
  cases hsync
  cases hrep
  cases howed
  cases hlag
  cases hlead
  rfl

theorem Target.Listening.spoken_owing (h : d.Listening) (answer : List Byte) (p : TPhase) :
    (d.owing answer p).spoken = d.inPhase p := by
  rw [← h.rested_eq]
  rfl

theorem Target.Listening.owing_nothing (h : d.Listening) : d.owing [] .sync = d := by
  rw [← h.rested_eq]
  rfl

theorem Target.Listening.inPhase_sync (h : d.Listening) : d.inPhase .sync = d := by
  rw [← h.sync, Target.inPhase_self]

/-- An instruction that leaves a listening T0 owing an answer: afterwards T0 is as the instruction made it. -/
theorem plays_answered {bs answer : List Byte} {p : TPhase} (now : Nat) (ht : 0 < c.tByte)
    (hsilent : d.owed = []) (he : e.Listening) (h : bs.foldl (Target.hear c) d = e.owing answer p)
    (hne : answer ≠ []) :
    ∃ ds k m, Plays c [.tx bs, .rx answer] ⟨.ideal d, [], now⟩
      ⟨.ideal ((e.inPhase p).waited ds k), [], m⟩ := by
  rw [← he.spoken_owing answer p]
  exact plays_exchange now ht hsilent h rfl hne

/-! ### T0's memory -/

theorem Target.readStatus_inPhase (c : Config) (d : Target) (p : TPhase) :
    (d.inPhase p).readStatus c = ((d.readStatus c).1, (d.readStatus c).2.inPhase p) := by
  have hstatus : (d.inPhase p).busyStatus c = d.busyStatus c := rfl
  have hbusy : (d.inPhase p).alwaysBusy = d.alwaysBusy := rfl
  have hleft : (d.inPhase p).busyLeft = d.busyLeft := rfl
  simp only [Target.readStatus, hstatus, hbusy, hleft]
  cases d.alwaysBusy with
  | true => rfl
  | false => cases d.busyLeft <;> rfl

/-- What a read returns does not depend on where the parser of the line stands. -/
theorem Target.memRead_inPhase (c : Config) (d : Target) (a : Nat) (p : TPhase) :
    (d.inPhase p).memRead c a = ((d.memRead c a).1, (d.memRead c a).2.inPhase p) := by
  by_cases ha : a = statAddr c d.prof
  · simp only [Target.memRead, ha, Target.inPhase, if_true]
    exact Target.readStatus_inPhase c d p
  · simp only [Target.memRead, ha, Target.inPhase, if_false]

theorem Target.memRead_of_ne_stat {a : Nat} (h : a ≠ statAddr c d.prof) : d.memRead c a = (d.byteAt a, d) := by
  simp only [Target.memRead, h, if_false, Target.byteAt]

/-- A status read of T0busy (20_memory.md R85). -/
theorem Target.memRead_stat_busy (h : d.alwaysBusy = true) :
    d.memRead c (statAddr c d.prof) = (d.busyStatus c, d) := by
  simp only [Target.memRead, Target.readStatus, h, if_true]

/-- T0 after a store that is no command: the page buffer takes it in a paged region, memory elsewhere
(20_memory.md R83). -/
def Target.stored (d : Target) (a : Nat) (v : Byte) : Target :=
  { d with
    pbuf := if (d.pagedAt a).isSome then d.pbuf ++ [(a, v)] else d.pbuf
    tmem := if (d.pagedAt a).isSome then d.tmem else Machine.memWrite d.tmem a v }

theorem Target.memWrite_eq_stored {a : Nat} (v : Byte) (h : d.pagedAt a = none → a ≠ ctrlAddr c d.prof) :
    d.memWrite c a v = d.stored a v := by
  cases hp : d.pagedAt a with
  | none => simp [Target.memWrite, Target.stored, hp, h hp]
  | some x => simp [Target.memWrite, Target.stored, hp]

theorem Target.stored_unpaged {a : Nat} (hm : Memory.wf d.tmem) (v : Byte) (h : d.pagedAt a = none) :
    (d.stored a v).byteAt a = v ∧ ∀ x, x ≠ a → (d.stored a v).byteAt x = d.byteAt x := by
  simp only [Target.byteAt, Target.stored, h, Option.isSome_none, Bool.false_eq_true, if_false]
  exact ⟨memRead_memWrite_same hm a v, fun x hx => memRead_memWrite_other hx v⟩

theorem Target.stored_paged {a : Nat} (v : Byte) (h : d.pagedAt a ≠ none) :
    (d.stored a v).pbuf = d.pbuf ++ [(a, v)] ∧ ∀ x, (d.stored a v).byteAt x = d.byteAt x := by
  have hsome : (d.pagedAt a).isSome = true := Option.isSome_iff_ne_none.mpr h
  simp only [Target.byteAt, Target.stored, hsome, if_true, implies_true, and_self]

theorem Target.Listening.stored (h : d.Listening) (a : Nat) (v : Byte) : (d.stored a v).Listening :=
  ⟨h.sync, h.noRepeat, h.silent, h.noDelay⟩

theorem Target.AtRest.stored {p : Profile} (h : d.AtRest p) (a : Nat) (v : Byte) : (d.stored a v).AtRest p where
  listening := h.listening.stored a v
  profile := h.profile
  csSpace := h.csSpace
  memory := by
    simp only [Target.stored]
    split
    · exact h.memory
    · exact Machine.memWrite_wf h.memory a v

/-! ### T0's pointer and CS registers -/

/-- T0 with its pointer set (20_memory.md R80). -/
def Target.pointing (d : Target) (a : Nat) : Target := { d with ptr := d.pointerOf a }

theorem Target.Listening.pointing (h : d.Listening) (a : Nat) : (d.pointing a).Listening :=
  ⟨h.sync, h.noRepeat, h.silent, h.noDelay⟩

theorem Target.AtRest.pointing {p : Profile} (h : d.AtRest p) (a : Nat) : (d.pointing a).AtRest p :=
  ⟨h.listening.pointing a, h.profile, h.csSpace, h.memory⟩

theorem Target.pointing_ptr {a : Nat} (h : a < 2 ^ (8 * d.prof.addrBytes)) : (d.pointing a).ptr = a := if_pos h

theorem Target.Listening.csPut (h : d.Listening) (c : Config) (r : CsAddr) (v : Byte) : (d.csPut c r v).Listening :=
  ⟨h.sync, h.noRepeat, h.silent, h.noDelay⟩

theorem Target.AtRest.csPut {p : Profile} (h : d.AtRest p) (c : Config) (r : CsAddr) (v : Byte) :
    (d.csPut c r v).AtRest p :=
  ⟨h.listening.csPut c r v, h.profile, List.length_set.trans h.csSpace, h.memory⟩

theorem Target.csGet_csPut (h : d.cs.length = 16) (c : Config) (r : CsAddr) (v : Byte) :
    (d.csPut c r v).csGet r = v := by
  have hr : r.toNat < d.cs.length := h ▸ r.isLt
  simp [Target.csGet, Target.csPut, hr]

/-! ### What T0 owes after each instruction -/

theorem Target.loadDirect_owing {a : Nat} {b : Byte} (q : TPhase) (howed : d.owed = [])
    (hread : d.memRead c a = (b, d)) : (d.inPhase q).loadDirect c a = d.owing [b] .sync := by
  have hread' := Target.memRead_inPhase c d a q
  rw [hread] at hread'
  simp only [Target.loadDirect, hread', Target.inPhase_owed, howed, List.nil_append]
  rfl

theorem Target.stsAddress_owing (c : Config) (a : Nat) (q : TPhase) (howed : d.owed = []) :
    (d.inPhase q).stsAddress c a = d.owing [c.ack] (.stsData a) := by
  simp only [Target.stsAddress, Target.inPhase_owed, howed, List.nil_append]
  rfl

theorem Target.setPointer_owing (c : Config) (a : Nat) (q : TPhase) (howed : d.owed = []) :
    (d.inPhase q).setPointer c a = (d.pointing a).owing [c.ack] .sync := by
  simp only [Target.setPointer, Target.inPhase_owed, howed, List.nil_append]
  rfl

theorem Target.getPointer_owing {n : Nat} (q : TPhase) (howed : d.owed = []) (hfit : d.ptr < 2 ^ (8 * n)) :
    (d.inPhase q).getPointer n = d.owing (le d.ptr n) .sync := by
  have hbytes : (d.inPhase q).pointerBytes n = le d.ptr n := if_pos hfit
  simp only [Target.getPointer, hbytes, Target.inPhase_owed, howed, List.nil_append]
  rfl

theorem Target.ldcs_owing (c : Config) (r : CsAddr) (q : TPhase) (howed : d.owed = []) :
    (d.inPhase q).act c (opLdcs c r) [] .ldcs = d.owing [d.csGet r] .sync := by
  simp only [Target.act, opLdcs, csOpcodeByte_low, Target.inPhase_owed, howed, List.nil_append]
  rfl

/-- The data byte of STS finds T0 waiting for it (20_memory.md R79). -/
theorem Target.hear_stsData {a : Nat} (v : Byte) (h : d.phase = .stsData a) (howed : d.owed = []) (hrep : d.rep = 0)
    (hctrl : d.pagedAt a = none → a ≠ ctrlAddr c d.prof) :
    d.hear c v = (d.stored a v).owing [c.ack] .sync := by
  have howed' : (d.stored a v).owed = [] := howed
  have hrep' : (d.stored a v).rep = 0 := hrep
  simp only [Target.hear, h, Target.memWrite_eq_stored v hctrl, howed', List.nil_append, Target.owing, ← hrep']

/-! ### The datalink exchanges against T0 -/

section exchanges

variable {a n : Nat}

/-- A load of a byte whose reading leaves T0 as it is (20_memory.md R79). -/
theorem plays_lds {b : Byte} (hc : c.codesDistinct = true) (ht : 0 < c.tByte) (hd : d.Listening)
    (ha : addrOk a n = true) (hread : d.memRead c a = (b, d)) (now : Nat) :
    ∃ ds k m, Plays c (ldsXfers c a n b) ⟨.ideal d, [], now⟩ ⟨.ideal (d.waited ds k), [], m⟩ := by
  obtain ⟨hn, hfit⟩ := addrOk_iff.mp ha
  obtain ⟨o, ho, hcount, hact⟩ := lookup_lds hc hn
  obtain ⟨q, hhear⟩ := Target.hear_instruction hd.sync ho ((le_length a n).trans hcount.symm)
  rw [hact, unle_le_of_lt hfit, Target.loadDirect_owing q hd.silent hread] at hhear
  have hplays := plays_answered now ht hd.silent hd hhear (List.cons_ne_nil b [])
  rwa [hd.inPhase_sync] at hplays

/-- The two exchanges of a store that is no command (20_memory.md R79, R83). -/
theorem plays_sts {v : Byte} (hc : c.codesDistinct = true) (ht : 0 < c.tByte) (hd : d.Listening)
    (ha : addrOk a n = true) (hctrl : d.pagedAt a = none → a ≠ ctrlAddr c d.prof) (now : Nat) :
    ∃ ds k m, Plays c (stsXfers c a v n) ⟨.ideal d, [], now⟩
      ⟨.ideal ((d.stored a v).waited ds k), [], m⟩ := by
  obtain ⟨hn, hfit⟩ := addrOk_iff.mp ha
  obtain ⟨o, ho, hcount, hact⟩ := lookup_sts hc hn
  obtain ⟨q, hhear⟩ := Target.hear_instruction hd.sync ho ((le_length a n).trans hcount.symm)
  rw [hact, unle_le_of_lt hfit, Target.stsAddress_owing c a q hd.silent] at hhear
  obtain ⟨ds, k, m, hfirst⟩ := plays_answered now ht hd.silent hd hhear (List.cons_ne_nil c.ack [])
  let waiting := (d.inPhase (.stsData a)).waited ds k
  have hdata : [v].foldl (Target.hear c) waiting = ((d.stored a v).waited ds k).owing [c.ack] .sync :=
    Target.hear_stsData (d := waiting) v rfl hd.silent hd.noRepeat hctrl
  have hrest : ((d.stored a v).waited ds k).Listening := (hd.stored a v).waited ds k
  obtain ⟨ds', k', m', hsecond⟩ := plays_answered (d := waiting) m ht hd.silent hrest hdata
    (List.cons_ne_nil c.ack [])
  rw [hrest.inPhase_sync] at hsecond
  exact ⟨ds', k', m', plays_append.mpr ⟨_, hfirst, hsecond⟩⟩

/-- The pointer set (20_memory.md R80). -/
theorem plays_stPtr (hc : c.codesDistinct = true) (ht : 0 < c.tByte) (hd : d.Listening)
    (ha : addrOk a n = true) (now : Nat) :
    ∃ ds k m, Plays c (stPtrXfers c n a) ⟨.ideal d, [], now⟩
      ⟨.ideal ((d.pointing a).waited ds k), [], m⟩ := by
  obtain ⟨hn, hfit⟩ := addrOk_iff.mp ha
  obtain ⟨o, ho, hcount, hact⟩ := lookup_stPtr hc hn
  obtain ⟨q, hhear⟩ := Target.hear_instruction hd.sync ho ((le_length a n).trans hcount.symm)
  rw [hact, unle_le_of_lt hfit, Target.setPointer_owing c a q hd.silent] at hhear
  have hrest : (d.pointing a).Listening := hd.pointing a
  have hplays := plays_answered now ht hd.silent hrest hhear (List.cons_ne_nil c.ack [])
  rwa [hrest.inPhase_sync] at hplays

/-- The pointer read, at a width its value fits (20_memory.md R80). -/
theorem plays_ldPtr (hc : c.codesDistinct = true) (ht : 0 < c.tByte) (hd : d.Listening)
    (ha : addrOk d.ptr n = true) (now : Nat) :
    ∃ ds k m, Plays c (ldPtrXfers c n (le d.ptr n)) ⟨.ideal d, [], now⟩
      ⟨.ideal (d.waited ds k), [], m⟩ := by
  obtain ⟨hn, hfit⟩ := addrOk_iff.mp ha
  obtain ⟨o, ho, hcount, hact⟩ := lookup_ldPtr hc hn
  obtain ⟨q, hhear⟩ := Target.hear_instruction (xs := []) hd.sync ho hcount.symm
  rw [hact, Target.getPointer_owing q hd.silent hfit] at hhear
  have hplays := plays_answered now ht hd.silent hd hhear (le_ne_nil hn d.ptr)
  rwa [hd.inPhase_sync] at hplays

/-- A CS register read (20_memory.md R78). -/
theorem plays_ldcs (hc : c.codesDistinct = true) (ht : 0 < c.tByte) (hd : d.Listening) (r : CsAddr) (now : Nat) :
    ∃ ds k m, Plays c [.tx [SYNC, opLdcs c r], .rx [d.csGet r]] ⟨.ideal d, [], now⟩
      ⟨.ideal (d.waited ds k), [], m⟩ := by
  obtain ⟨q, hhear⟩ := Target.hear_instruction (o := .ldcs) (opc := opLdcs c r) (xs := []) hd.sync
    (lookupWire_shows hc ⟨r, rfl⟩) rfl
  rw [Target.ldcs_owing c r q hd.silent] at hhear
  have hplays := plays_answered now ht hd.silent hd hhear (List.cons_ne_nil (d.csGet r) [])
  rwa [hd.inPhase_sync] at hplays

/-- A CS register write, which T0 does not answer (20_memory.md R78). -/
theorem plays_stcs (hc : c.codesDistinct = true) (hd : d.Listening) (r : CsAddr) (v : Byte) (now : Nat) :
    Plays c [.tx [SYNC, opStcs c r, v]] ⟨.ideal d, [], now⟩ ⟨.ideal (d.csPut c r v), [], now + 1⟩ := by
  obtain ⟨q, hhear⟩ := Target.hear_instruction (o := .stcs) (opc := opStcs c r) (xs := [v]) hd.sync
    (lookupWire_shows hc ⟨r, rfl⟩) rfl
  have hput : (d.inPhase q).act c (opStcs c r) [v] .stcs = (d.csPut c r v).owing d.owed .sync := by
    simp only [Target.act, opStcs, csOpcodeByte_low]
    rfl
  rw [hput, hd.silent, (hd.csPut c r v).owing_nothing] at hhear
  rw [← hearAll_silent hhear hd.silent]
  exact plays_tx_ideal c d _ now

end exchanges

/-! ### Commands against T0 -/

/-- A command whose body is a completed exchange ends `OK`, and the session faces what the exchange made of T0. -/
theorem exec_facing {i : Instr} {d' : Target} {data : List Byte} {x : Dl} {xs : List Xfer} {m : Nat} (hr : Ready s)
    (hf : Faces s d) (hadm : admOf i = .inSession) (hbody : bodyOf i s.accepted = .ok data u)
    (hm : Moved (s.accepted.setDl x) u xs) (hx : x.dlState = .idle) (hw : u.world = ⟨.ideal d', [], m⟩)
    (hd : d'.AtRest s.ses.profile) :
    ∃ t, exec i s = .next t ∧ Answered t data ∧ Faces t d' ∧ Ready t := by
  have hadmits : admits (admOf i) s.ses.sesState = true := by
    have hmode := hr.admitted
    rw [hadm]
    cases hs : s.ses.sesState with
    | closed => exact absurd hs hmode
    | _ => rfl
  refine ⟨u.respondOk data, ?_, ⟨rfl, rfl, rfl⟩, ?_, ?_⟩
  · rw [exec_eq]
    exact runCommand_ok hr.notBusy hadmits hbody
  · exact (((hf.setRsp _).setDl x).moved hm hw hd).setRsp _
  · have hses : u.ses = s.ses := hm.ses
    exact {
      notBusy := rfl
      admitted := hses ▸ hr.admitted
      transport := (congrArg Ses.trOpen hses).trans hr.transport
      idle := ⟨hm.phyIdle, (congrArg Dl.dlState hm.dl).trans hx,
        (congrArg Nvm.nvmState hm.nvm).trans hr.idle.nvmIdle, hm.noEcho⟩
      quiet := hm.quiet }

section commands

variable {a n : Nat}

theorem Ready.accepted_live (h : Ready s) : Live s.accepted := h.live.setRsp _

theorem Faces.accepted_plays {xs : List Xfer} {w : World} (h : Faces s d)
    (hp : Plays s.cfg xs ⟨.ideal d, [], s.now⟩ w) : Plays s.cfg (xs ++ []) s.accepted.world w := by
  rw [List.append_nil]
  exact h.world ▸ hp

theorem exec_lds_facing {b : Byte} (hr : Ready s) (hf : Faces s d) (ha : addrOk a n = true)
    (hread : d.memRead s.cfg a = (b, d)) :
    ∃ t ds k, exec (.lds a n) s = .next t ∧ Answered t [b] ∧ Faces t (d.waited ds k) ∧ Ready t := by
  obtain ⟨ds, k, m, hplays⟩ := plays_lds hf.codes hf.time hf.listening ha hread s.now
  obtain ⟨u, hbody, hm, hend⟩ := ldsOp_plays (s := s.accepted) rfl hr.accepted_live ha
    (hf.accepted_plays hplays)
  obtain ⟨t, hexec⟩ := exec_facing (i := .lds a n) hr hf rfl hbody hm rfl hend.symm (hf.atRest.waited ds k)
  exact ⟨t, ds, k, hexec⟩

theorem exec_sts_facing {v : Byte} (hr : Ready s) (hf : Faces s d) (ha : addrOk a n = true)
    (hctrl : d.pagedAt a = none → a ≠ ctrlAddr s.cfg d.prof) :
    ∃ t ds k, exec (.sts a v.toNat n) s = .next t ∧ Answered t [] ∧ Faces t ((d.stored a v).waited ds k) ∧
      Ready t := by
  obtain ⟨ds, k, m, hplays⟩ := plays_sts (v := v) hf.codes hf.time hf.listening ha hctrl s.now
  have hv : v.toNat ≤ 0xFF := Nat.le_of_lt_succ v.isLt
  obtain ⟨u, hbody, hm, hend⟩ := stsOp_plays (s := s.accepted) rfl hr.accepted_live ha hv
    (by rw [BitVec.ofNat_toNat, BitVec.setWidth_eq]; exact hf.accepted_plays hplays)
  obtain ⟨t, hexec⟩ := exec_facing (i := .sts a v.toNat n) hr hf rfl (noData_ok hbody) hm rfl hend.symm
    ((hf.atRest.stored a v).waited ds k)
  exact ⟨t, ds, k, hexec⟩

theorem exec_stPtr_facing (hr : Ready s) (hf : Faces s d) (ha : addrOk a s.ses.profile.addrBytes = true) :
    ∃ t ds k, exec (.stPtr a) s = .next t ∧ Answered t [] ∧ Faces t ((d.pointing a).waited ds k) ∧
      Ready t := by
  obtain ⟨ds, k, m, hplays⟩ := plays_stPtr hf.codes hf.time hf.listening ha s.now
  obtain ⟨u, hbody, hm, hend⟩ := stPtrOp_plays (s := s.accepted) rfl hr.accepted_live ha
    (hf.accepted_plays hplays)
  obtain ⟨t, hexec⟩ := exec_facing (i := .stPtr a) hr hf rfl (noData_ok hbody) hm rfl hend.symm
    ((hf.atRest.pointing a).waited ds k)
  exact ⟨t, ds, k, hexec⟩

theorem exec_ldPtr_facing (hr : Ready s) (hf : Faces s d) (ha : addrOk d.ptr s.ses.profile.addrBytes = true) :
    ∃ t ds k, exec .ldPtr s = .next t ∧ Answered t (le d.ptr s.ses.profile.addrBytes) ∧
      Faces t (d.waited ds k) ∧ Ready t := by
  obtain ⟨ds, k, m, hplays⟩ := plays_ldPtr hf.codes hf.time hf.listening ha s.now
  obtain ⟨u, hbody, hm, hend⟩ := ldPtrOp_plays (s := s.accepted) rfl hr.accepted_live (le_length _ _)
    (le_ne_nil (addrOk_iff.mp ha).1 d.ptr) (hf.accepted_plays hplays)
  obtain ⟨t, hexec⟩ := exec_facing (i := .ldPtr) hr hf rfl hbody hm rfl hend.symm (hf.atRest.waited ds k)
  exact ⟨t, ds, k, hexec⟩

theorem exec_ldcs_facing (hr : Ready s) (hf : Faces s d) (r : CsAddr) :
    ∃ t ds k, exec (.ldcs r) s = .next t ∧ Answered t [d.csGet r] ∧ Faces t (d.waited ds k) ∧ Ready t := by
  obtain ⟨ds, k, m, hplays⟩ := plays_ldcs hf.codes hf.time hf.listening r s.now
  obtain ⟨u, hbody, hm, hend⟩ := csRead_plays (s := s.accepted) (a := r.toNat) rfl hr.accepted_live
    (Nat.le_of_lt_succ r.isLt) (by rw [BitVec.ofNat_toNat, BitVec.setWidth_eq]; exact hf.accepted_plays hplays)
  obtain ⟨t, hexec⟩ := exec_facing (i := .ldcs r) hr hf rfl (oneByte_ok hbody) hm rfl hend.symm
    (hf.atRest.waited ds k)
  exact ⟨t, ds, k, hexec⟩

theorem exec_stcs_facing (hr : Ready s) (hf : Faces s d) (r : CsAddr) (v : Byte) :
    ∃ t, exec (.stcs r v) s = .next t ∧ Answered t [] ∧ Faces t (d.csPut s.cfg r v) ∧ Ready t := by
  have hplays := plays_stcs hf.codes hf.listening r v s.now
  obtain ⟨u, hbody, hm, hend⟩ := csWrite_plays (s := s.accepted) (a := r.toNat) (v := v.toNat) rfl
    hr.accepted_live (Nat.le_of_lt_succ r.isLt) (Nat.le_of_lt_succ v.isLt)
    (by simp only [BitVec.ofNat_toNat, BitVec.setWidth_eq]; exact hf.accepted_plays hplays)
  exact exec_facing (i := .stcs r v) hr hf rfl (noData_ok hbody) hm rfl hend.symm (hf.atRest.csPut s.cfg r v)

end commands

/-! ### T0busy (20_memory.md R85) -/

/-- A busy status shows a bit of `NVM_BUSY_MASK`, where the masks leave one that is no error bit. -/
theorem busyStatus_shows_busy (d : Target) (h : c.nvmBusyMask &&& ~~~c.nvmErrMask ≠ 0) :
    d.busyStatus c &&& c.nvmBusyMask ≠ 0 := by
  simp only [Target.busyStatus]
  split
  · have hbits : c.nvmBusyMask &&& ~~~c.nvmErrMask &&& c.nvmBusyMask = c.nvmBusyMask &&& ~~~c.nvmErrMask := by
      rw [BitVec.and_comm, ← BitVec.and_assoc, BitVec.and_self]
    intro hzero
    rw [BitVec.and_or_distrib_right, hbits] at hzero
    exact h (BitVec.or_eq_zero_iff.mp hzero).2
  · assumption

theorem busyStatus_not_idle (d : Target) (h : c.nvmBusyMask &&& ~~~c.nvmErrMask ≠ 0) :
    nvmIdle c (d.busyStatus c) = false := by
  rw [nvmIdle, beq_eq_false_iff_ne, BitVec.and_or_distrib_left]
  exact fun hzero => busyStatus_shows_busy d h (BitVec.or_eq_zero_iff.mp hzero).1

/-- The error in which a poll of T0busy ends (42_nvm.md R225). -/
def Target.busyError (d : Target) (c : Config) : Err where
  code := .nvmBusyTimeout
  info := { base := { layer := some .nvm, addr := some (statAddr c d.prof), status := some (d.busyStatus c) } }

section polling

/-- What the polling loop keeps against T0busy: the engine can begin an exchange, and the status register is
addressable. -/
structure Polls (s : State) (d : Target) : Prop where
  live : Live s
  faces : Faces s d
  busy : d.alwaysBusy = true
  fit : addrOk (statAddr s.cfg d.prof) d.prof.addrBytes = true

theorem Polls.setNvm (h : Polls s d) (x : Nvm) : Polls (s.setNvm x) d :=
  ⟨h.live.setNvm x, h.faces.setNvm x, h.busy, h.fit⟩

theorem pollOnce_polls (h : Polls s d) :
    ∃ t ds k, pollOnce s = .ok (d.busyStatus s.cfg) t ∧ Polls t (d.waited ds k) ∧ t.cfg = s.cfg := by
  obtain ⟨hlive, hf, hbusy, hfit⟩ := h
  obtain ⟨ds, k, m, hplays⟩ := plays_lds hf.codes hf.time hf.listening hfit (Target.memRead_stat_busy hbusy) s.now
  rw [← hf.world, ← hf.profile, ← List.append_nil (ldsXfers ..)] at hplays
  rw [← hf.profile] at hfit
  obtain ⟨t, hrun, hm, hend⟩ := pollOnce_plays rfl hlive hfit hplays
  refine ⟨t, ds, k, hrun, ⟨hm.live ((hlive.setDl _).setNvm _), ?_, hbusy, ?_⟩, hm.cfg⟩
  · exact ((hf.setDl _).setNvm _).moved hm hend.symm (hf.atRest.waited ds k)
  · rw [hm.cfg]
    exact hf.profile ▸ hfit

/-- T0 with nothing to say is silent during a `Wait`. -/
theorem answer_wait_silent (c : Config) (n : Nat) (h : d.owed = []) :
    (Env.ideal d).answer c (.wait n) = ({}, .ideal d) := by
  simp [Env.answer, Target.react, Target.speak, h]

theorem waitFor_polls (h : Polls s d) :
    ∃ t, waitFor s.cfg.nvmPollInterval s = .ok () t ∧ Polls t d ∧ t.cfg = s.cfg := by
  obtain ⟨hlive, hf, hbusy, hfit⟩ := h
  have hanswer := answer_wait_silent s.cfg s.cfg.nvmPollInterval hf.listening.silent
  obtain ⟨t, hrun, hm, hw⟩ := waitFor_plays rfl hlive (by rw [hf.env, hanswer]; rfl)
  have hworld : t.world = ⟨.ideal d, [], s.now + s.cfg.nvmPollInterval⟩ := by
    rw [hw, hf.world]
    simp only [World.pause, hanswer, Nat.add_zero]
  refine ⟨t, hrun, ⟨hm.live hlive, hf.moved hm hworld hf.atRest, hbusy, ?_⟩, hm.cfg⟩
  rw [hm.cfg]
  exact hfit

theorem nvmBusy_polls (h : Polls s d) : nvmBusy (d.busyStatus s.cfg) s = .error (d.busyError s.cfg) s := by
  simp only [nvmBusy, Act.get_bind_run, raise_run, h.faces.profile, Target.busyError]

/-- A status read of T0busy is not idle, and giving up on it raises the error. -/
theorem pollOnce_busy (hmask : s.cfg.nvmBusyMask &&& ~~~s.cfg.nvmErrMask ≠ 0) (h : Polls s d) :
    ∃ t ds k, pollOnce s = .ok (d.busyStatus s.cfg) t ∧ nvmIdle t.cfg (d.busyStatus s.cfg) = false ∧
      nvmBusy (d.busyStatus s.cfg) t = .error (d.busyError s.cfg) t ∧ Polls t (d.waited ds k) ∧
      t.cfg = s.cfg := by
  obtain ⟨t, ds, k, hpoll, ht, hcfg⟩ := pollOnce_polls h
  have hraise := nvmBusy_polls ht
  rw [hcfg] at hraise
  exact ⟨t, ds, k, hpoll, (congrArg (nvmIdle · _) hcfg).trans (busyStatus_not_idle d hmask), hraise, ht, hcfg⟩

/-- However many reads the time left allows, the loop ends in the error. -/
theorem pollLoop_busy (hmask : s.cfg.nvmBusyMask &&& ~~~s.cfg.nvmErrMask ≠ 0) (h : Polls s d) (fuel : Nat) :
    ∃ t, pollLoop fuel s = .error (d.busyError s.cfg) t := by
  induction fuel generalizing s d with
  | zero =>
    obtain ⟨t, ds, k, hpoll, hidle, hraise, -, -⟩ := pollOnce_busy hmask h
    refine ⟨t, ?_⟩
    rw [pollLoop, Act.bind_ok hpoll, Act.get_bind_run, Act.ite_run, hidle, if_neg Bool.false_ne_true]
    exact hraise
  | succ fuel ih =>
    obtain ⟨t, ds, k, hpoll, hidle, hraise, ht, hcfg⟩ := pollOnce_busy hmask h
    rw [pollLoop, Act.bind_ok hpoll, Act.get_bind_run, Act.ite_run, hidle, if_neg Bool.false_ne_true, Act.ite_run]
    split
    · exact ⟨t, hraise⟩
    · obtain ⟨u, hwait, hu, hcfg'⟩ := waitFor_polls (ht.setNvm { t.nvm with nvmState := .pollWait })
      rw [State.setNvm_cfg] at hwait hcfg'
      rw [setNvmState_bind_run, Act.bind_ok hwait, ← hcfg, ← hcfg']
      exact ih (d := d.waited ds k) ((hcfg'.trans hcfg).symm ▸ hmask) hu

/-- `NoteNvmOp` touches the mode register alone. -/
theorem noteNvmOp_polls (h : Polls s d) : ∃ t, noteNvmOp s = .ok () t ∧ Polls t d ∧ t.cfg = s.cfg := by
  refine ⟨_, rfl, ?_⟩
  dsimp only
  split
  · have hlive := h.live
    exact ⟨⟨⟨hlive.transport, hlive.quiet, hlive.phyIdle, hlive.noEcho⟩, { h.faces with }, h.busy, h.fit⟩, rfl⟩
  · exact ⟨h, rfl⟩

theorem demandRegs_run {regs : Config → Profile → List Nat}
    (h : allFit s.ses.profile (regs s.cfg s.ses.profile) = true) : demandRegs regs s = .ok () s := by
  rw [demandRegs, Act.get_bind_run, h, demand_true_run]

/-- The body of `wait_nvm_ready` against T0busy (42_nvm.md R225, R223). -/
theorem waitCommand_busy (hmask : s.cfg.nvmBusyMask &&& ~~~s.cfg.nvmErrMask ≠ 0) (h : Polls s d) :
    ∃ t, waitCommand s = .error ((d.busyError s.cfg).named .waitNvmReady) t := by
  obtain ⟨t, hnote, ht, hcfg⟩ := noteNvmOp_polls (h.setNvm { s.nvm with nvmState := .check })
  have hbegun := ht.setNvm { t.nvm with statusValid := false, pollDeadline := t.now + t.cfg.tNvm }
  rw [State.setNvm_cfg] at hcfg
  obtain ⟨u, hloop⟩ := pollLoop_busy (by rw [State.setNvm_cfg, hcfg]; exact hmask) hbegun t.cfg.tNvm
  have herror : d.busyError t.cfg = d.busyError s.cfg := congrArg d.busyError hcfg
  rw [State.setNvm_cfg, herror] at hloop
  let checked := s.setNvm { s.nvm with nvmState := .check }
  have hregs : allFit checked.ses.profile (pollRegs checked.cfg checked.ses.profile) = true := by
    simp only [checked, State.setNvm_ses, State.setNvm_cfg, allFit, pollRegs, h.faces.profile, List.all_cons,
      List.all_nil, h.fit, Bool.and_self]
  refine ⟨u.setNvm { u.nvm with nvmState := .idle }, ?_⟩
  have hrest : (noteNvmOp >>= fun _ => waitReadyNvm) checked =
      .error ((d.busyError s.cfg).named .waitNvmReady) (u.setNvm { u.nvm with nvmState := .idle }) := by
    rw [Act.bind_ok hnote, waitReadyNvm, Act.get_bind_run, waitReady]
    exact inNvm_error hloop
  rw [waitCommand, setNvmState_bind_run, Act.bind_ok (demandRegs_run hregs)]
  exact hrest

end polling

/-! ### A command that ends in an error -/

/-- A command that ends in an error of class link or NVM: the forced cleanup leaves no session
(60_exceptions.md R284, R288). -/
theorem exec_cleansUp {i : Instr} {e : Err} (hb : s.rsp.busy = false) (ha : allowed i s.ses.sesState = true)
    (hi : isOpen i = false ∧ isClose i = false) (hbody : bodyOf i s.accepted = .error e u)
    (he : needsCleanup e.code = true) :
    ∃ t, exec i s = .next t ∧ SessionClosed t ∧ Failed t (codeByte e.code) e.info := by
  have hne : e.code ≠ .refused := fun hcode => by rw [hcode] at he; cases he
  have hdeliver : u.deliver true e = u.sequencersIdle.forcedCleanup.respondError e := by
    simp only [State.deliver, hne, he, if_false, Bool.and_self, if_true]
  refine ⟨u.deliver true e, ?_, ?_, ?_⟩
  · rw [exec_eq, hi.1, hi.2]
    exact runCommand_error hb ((admits_admOf i _).trans ha) hbody
  · obtain ⟨hmode, htransport, hlink, hkey⟩ := (forcedCleanup_left u.sequencersIdle).closed
    rw [hdeliver]
    exact ⟨hmode, htransport, hlink, hkey⟩
  · rw [hdeliver]
    rfl

end Sys2Proof.Machine

namespace Sys2Proof.Proofs

open Sys2Proof.Machine

/-- Settles O54, by the exchange `plays_lds`: T0 answers the byte, and only a delay has been drawn. -/
theorem loadReadsTheTarget : Obligations.LoadReadsTheTarget := by
  intro s d a n hready hfaces haddr hstat
  exact exec_lds_facing hready hfaces haddr (Target.memRead_of_ne_stat hstat)

/-- Settles O55, by the exchange `plays_sts`: what T0 becomes is `Target.stored`. -/
theorem storeWritesTheTarget : Obligations.StoreWritesTheTarget := by
  intro s d a n v hready hfaces haddr hctrl
  obtain ⟨t, ds, k, hexec, hanswered, hfaces', hready'⟩ := exec_sts_facing (v := v) hready hfaces haddr hctrl
  exact ⟨t, _, hexec, hanswered, hfaces', hready', Target.stored_unpaged hfaces.memory v, Target.stored_paged v⟩

/-- Settles O56: the write and the read one after the other, the read from the T0 the write has left. -/
theorem pointerAndCsReadBack : Obligations.PointerAndCsReadBack := by
  intro s d hready hfaces
  refine ⟨fun p hp => ?_, fun a v => ?_⟩
  · obtain ⟨-, hfit⟩ := addrOk_iff.mp hp
    obtain ⟨t, ds, k, hwrite, -, hfaces', hready'⟩ := exec_stPtr_facing hready hfaces hp
    have hptr : ((d.pointing p).waited ds k).ptr = p := Target.pointing_ptr (hfaces.profile ▸ hfit)
    have hprofile : t.ses.profile = s.ses.profile := hfaces'.profile.trans hfaces.profile.symm
    obtain ⟨u, _, _, hread, hanswered, -⟩ := exec_ldPtr_facing hready' hfaces' (by rw [hptr, hprofile]; exact hp)
    rw [hptr, hprofile] at hanswered
    refine ⟨t, u, hwrite, hread, hanswered, ?_⟩
    rw [hanswered.2.2]
    exact unle_le_of_lt hfit
  · obtain ⟨t, hwrite, -, hfaces', hready'⟩ := exec_stcs_facing hready hfaces a v
    obtain ⟨u, _, _, hread, hanswered, -⟩ := exec_ldcs_facing hready' hfaces' a
    rw [Target.csGet_csPut hfaces.csSpace] at hanswered
    exact ⟨t, u, hwrite, hread, hanswered⟩

/-- Settles O57: every poll of T0busy shows busy, so the loop ends in the error, and the forced cleanup ends the
session. -/
theorem stuckBusyTimesOut : Obligations.StuckBusyTimesOut := by
  intro s d hready hfaces hbusy hmask hregs
  have hfit : addrOk (statAddr s.cfg d.prof) d.prof.addrBytes = true :=
    hfaces.profile ▸ allFit_mem hregs (List.mem_singleton.mpr rfl)
  have hpolls : Polls s.accepted d := ⟨hready.ready.accepted_live, hfaces.setRsp _, hbusy, hfit⟩
  obtain ⟨u, hbody⟩ := waitCommand_busy (s := s.accepted) hmask hpolls
  have hallowed : allowed .waitNvmReady s.ses.sesState = true := by
    rcases hready.nvmMode with hmode | hmode <;> rw [hmode] <;> rfl
  exact exec_cleansUp hready.ready.notBusy hallowed ⟨rfl, rfl⟩ (noData_error hbody) rfl

end Sys2Proof.Proofs
end

section
/-! PROOFS. Frames, encodings and the command port (30_encoding.md R92, R93, R104, R109, R115 to R117). -/

namespace Sys2Proof.Laws

variable {c : Config}

/-! ### The parser takes one instruction from the line (30_encoding.md R104, R109) -/

theorem splitAddr_append {n : Nat} (a : BitVec (8 * n)) (rest : List Byte) :
    splitAddr n (le a.toNat n ++ rest) = some (a.toNat, rest) :=
  splitAddr_le a.isLt rest

theorem splitAddrByte_append {n : Nat} (a : BitVec (8 * n)) (v : Byte) (rest : List Byte) :
    splitAddrByte n (le a.toNat n ++ v :: rest) = some (a.toNat, v, rest) :=
  splitAddrByte_le a.isLt v rest

theorem keyOrd_length (c : Config) (k : List Byte) : (keyOrd c k).length = k.length := by
  unfold keyOrd
  cases c.keyTxOrder with
  | reversed => exact List.length_reverse
  | forward => rfl

/-- What the encoder writes for a wire instruction, in front of further bytes. -/
theorem decodeWire_encode (hc : c.codesDistinct = true) {i : Instr} (hw : i.wf c = true) {armed : Nat}
    {bytes : List Byte} (h : encode c i = .wire armed bytes) (rest : List Byte) :
    decodeWire c armed (bytes ++ rest) = .ok (i, rest) := by
  cases i with
  | ldcs a =>
    cases h
    exact decodeWire_row hc (o := .ldcs) ⟨a, rfl⟩ _ _ (by simp [decodeOperands, opLdcs, csOpcodeByte_low])
  | stcs a v =>
    cases h
    exact decodeWire_row hc (o := .stcs) ⟨a, rfl⟩ _ _
      (by simp [decodeOperands, opStcs, csOpcodeByte_low, splitAddr_byte])
  | lds1 a =>
    cases h
    exact decodeWire_row hc (o := .lds1) rfl _ _ (by simp [decodeOperands, splitAddr_append (n := 1) a])
  | lds2 a =>
    cases h
    exact decodeWire_row hc (o := .lds2) rfl _ _ (by simp [decodeOperands, splitAddr_append (n := 2) a])
  | lds3 a =>
    cases h
    exact decodeWire_row hc (o := .lds3) rfl _ _ (by simp [decodeOperands, splitAddr_append (n := 3) a])
  | sts1 a v =>
    cases h
    exact decodeWire_row hc (o := .sts1) rfl _ _ (by simp [decodeOperands, splitAddrByte_append (n := 1) a])
  | sts2 a v =>
    cases h
    exact decodeWire_row hc (o := .sts2) rfl _ _ (by simp [decodeOperands, splitAddrByte_append (n := 2) a])
  | sts3 a v =>
    cases h
    exact decodeWire_row hc (o := .sts3) rfl _ _ (by simp [decodeOperands, splitAddrByte_append (n := 3) a])
  | stptr1 p =>
    cases h
    exact decodeWire_row hc (o := .stptr1) rfl _ _ (by simp [decodeOperands, splitAddr_append (n := 1) p])
  | stptr2 p =>
    cases h
    exact decodeWire_row hc (o := .stptr2) rfl _ _ (by simp [decodeOperands, splitAddr_append (n := 2) p])
  | stptr3 p =>
    cases h
    exact decodeWire_row hc (o := .stptr3) rfl _ _ (by simp [decodeOperands, splitAddr_append (n := 3) p])
  | ldptr1 => cases h; exact decodeWire_row hc (o := .ldptr1) rfl _ _ rfl
  | ldptr2 => cases h; exact decodeWire_row hc (o := .ldptr2) rfl _ _ rfl
  | ldptr3 => cases h; exact decodeWire_row hc (o := .ldptr3) rfl _ _ rfl
  | stinc v more =>
    cases h
    exact decodeWire_row hc (o := .stinc) rfl _ _ (by simp [decodeOperands, splitBytes])
  | ldinc more => cases h; exact decodeWire_row hc (o := .ldinc) rfl _ _ rfl
  | repeatNext n =>
    cases h
    simp only [Instr.wf, Bool.and_eq_true, decide_eq_true_eq] at hw
    obtain ⟨hpos, hmax⟩ : 1 ≤ n ∧ n ≤ 256 := hw
    have hcount : (n - 1) % 256 + 1 = n := by omega
    exact decodeWire_row hc (o := .repeatNext) rfl _ _ (by simp [decodeOperands, splitAddr_byte, hcount])
  | key k =>
    cases h
    have hlen : (keyOrd c k).length = c.keyLen := (keyOrd_length c k).trans (by simpa [Instr.wf] using hw)
    have hsplit := splitBytes_append (keyOrd c k) rest
    rw [hlen] at hsplit
    exact decodeWire_row hc (o := .key) rfl _ _ (by simp [decodeOperands, hsplit, keyOrd_keyOrd])
  | _ => cases h

end Sys2Proof.Laws

namespace Sys2Proof.Machine

variable {i : Instr} {s t : State}

/-! ### A request presented to the engine (30_encoding.md R116, R117) -/

theorem step_request {r : Request} {rest : List Input} (h : s.inputs = .request r :: rest) :
    step s = runRequest r (s.setInputs rest) := by
  simp only [step, runInput, State.popInput, h, List.tail_cons]

/-- Presenting a request and taking it again leaves the state as it was. -/
theorem step_present (r : Request) (s : State) : step (s.present r) = runRequest r s :=
  step_request rfl

theorem runRequest_of_decode {r : Request} (h : decode s.cfg r = .ok i) : runRequest r s = exec i s := by
  simp only [runRequest, h]

theorem runRequest_known {op : Byte} {a : Args} (h : decodeCommand op a = some i) :
    runRequest (.command op a) s = exec i s :=
  runRequest_of_decode (by simp only [decode, h])

theorem runRequest_unknown {op : Byte} {a : Args} (h : decodeCommand op a = none) :
    runRequest (.command op a) s = .next (if s.rsp.busy then s else s.refusal) := by
  simp only [runRequest, decode, h]
  rfl

/-- The command codes of 30_encoding.md R115. -/
def commandCodes : List Byte :=
  [0x00, 0x01, 0x02, 0x03, 0x10, 0x11, 0x12, 0x20, 0x21, 0x22, 0x23, 0x24, 0x25, 0x26, 0x27, 0x28,
    0x30, 0x31, 0x32, 0x33, 0x34, 0x35, 0x36, 0x37, 0x38, 0x39]

theorem decodeCommand_eq_none {op : Byte} {a : Args} (h : op ∉ commandCodes) : decodeCommand op a = none := by
  have hcode : ∀ code ∈ commandCodes, op.toNat ≠ code.toNat := fun code hmem heq =>
    h (BitVec.eq_of_toNat_eq heq ▸ hmem)
  simp only [commandCodes, List.forall_mem_cons] at hcode
  -- each row of the table that matches contradicts its conjunct of `hcode`
  unfold decodeCommand
  split <;> simp_all

/-! ### Busy (30_encoding.md R117, 60_exceptions.md R289) -/

theorem exec_busy (i : Instr) (h : s.rsp.busy = true) : exec i s = .next s := by
  rw [exec_eq]
  exact runCommand_busy h

theorem deliver_busy (s : State) (cleans : Bool) (e : Err) : (s.deliver cleans e).rsp.busy = false := by
  unfold State.deliver
  split_ifs <;> rfl

theorem exec_ends_not_busy (hb : s.rsp.busy = false) (h : exec i s = .next t) : t.rsp.busy = false := by
  rw [exec_eq] at h
  rcases runCommand_cases (admOf i) (!(isOpen i || isClose i)) (bodyOf i) s with
    ⟨hbusy, -⟩ | ⟨-, -, hrun⟩ | ⟨-, -, ⟨data, u, -, hrun⟩ | ⟨e, u, -, hrun⟩⟩
  · exact absurd (hbusy.symm.trans hb) Bool.noConfusion
  · obtain rfl := Host.Outcome.next.inj (h.symm.trans hrun)
    rfl
  · obtain rfl := Host.Outcome.next.inj (h.symm.trans hrun)
    rfl
  · obtain rfl := Host.Outcome.next.inj (h.symm.trans hrun)
    exact deliver_busy u _ e

/-! ### Region codes (30_encoding.md R116) -/

/-- The error `REFUSED` (60_exceptions.md R283). -/
def refusedError : Err where
  code := .refused
  info := {}

/-- A body that raises `REFUSED` before it has moved more than the sequencers is refused in every mode. -/
theorem exec_refused_of_body (hb : s.rsp.busy = false) (hidle : SequencersIdle s) {e : Err}
    (he : e.code = .refused) (hbody : bodyOf i s.accepted = .error e t)
    (ht : t.sequencersIdle = s.accepted.sequencersIdle) : exec i s = .next s.refusal := by
  rw [exec_eq]
  cases hadmits : admits (admOf i) s.ses.sesState with
  | false => exact runCommand_refused hb hadmits
  | true =>
    rw [runCommand_error hb hadmits hbody, State.deliver, if_pos he, refused_of_accepted hidle hb ht]

theorem regionOfCode_eq_none {r : Nat} (h : 4 < r) : regionOfCode r = none := by
  obtain ⟨k, rfl⟩ := Nat.exists_eq_add_of_le' h
  rfl

/-- A page command looks its region up before anything else (42_nvm.md R220 (2)). -/
theorem pagedRegion_unknown {α : Type} {r : Nat} (h : regionOfCode r = none) (name : OpName)
    (k : Region × Nat → Act α) (s : State) :
    ∃ t, inNvm name (setNvmState .check >>= fun _ => pagedRegion r >>= k) s =
        .error (refusedError.named name) t ∧ t.sequencersIdle = s.sequencersIdle := by
  have hraise : pagedRegion r (s.setNvm { s.nvm with nvmState := .check }) =
      .error refusedError (s.setNvm { s.nvm with nvmState := .check }) := by
    rw [pagedRegion, Act.get_bind_run, h]
    rfl
  exact ⟨_, inNvm_error ((setNvmState_bind_run _ _ _).trans (Act.bind_error hraise)), rfl⟩

theorem readBytesOp_unknown {r : Nat} (h : regionOfCode r = none) (o n : Nat) (s : State) :
    ∃ t, readBytesOp r o n s = .error (refusedError.named .readBytes) t ∧
      t.sequencersIdle = s.sequencersIdle := by
  refine ⟨_, inNvm_error (s' := s.setNvm { s.nvm with nvmState := .check }) ?_, rfl⟩
  simp only [setNvmState_bind_run, Act.get_bind_run, h, raise_run]
  rfl

theorem exec_writePage_unknown {r : Nat} (h : regionOfCode r = none) (hb : s.rsp.busy = false)
    (hidle : SequencersIdle s) (o : Nat) (d : List Byte) : exec (.writePage r o d) s = .next s.refusal := by
  obtain ⟨t, hbody, ht⟩ := pagedRegion_unknown h .writePage _ s.accepted
  exact exec_refused_of_body hb hidle rfl (noData_error hbody) ht

theorem exec_readBytes_unknown {r : Nat} (h : regionOfCode r = none) (hb : s.rsp.busy = false)
    (hidle : SequencersIdle s) (o n : Nat) : exec (.readBytes r o n) s = .next s.refusal := by
  obtain ⟨t, hbody, ht⟩ := readBytesOp_unknown h o n s.accepted
  exact exec_refused_of_body hb hidle rfl hbody ht

theorem exec_erasePage_unknown {r : Nat} (h : regionOfCode r = none) (hb : s.rsp.busy = false)
    (hidle : SequencersIdle s) (o : Nat) : exec (.erasePage r o) s = .next s.refusal := by
  obtain ⟨t, hbody, ht⟩ := pagedRegion_unknown h .erasePage _ s.accepted
  exact exec_refused_of_body hb hidle rfl (noData_error hbody) ht

end Sys2Proof.Machine

namespace Sys2Proof.Proofs

open Sys2Proof.Machine Sys2Proof.Laws

/-- Settles O2: the round trip of each instruction. -/
theorem decodeEncode : Obligations.DecodeEncode := by
  intro i
  cases i with
  | ldcs a => exact EncodeRoundTrip.ldcs a
  | stcs a v => exact EncodeRoundTrip.stcs a v
  | lds1 addr => exact EncodeRoundTrip.lds1 addr
  | lds2 addr => exact EncodeRoundTrip.lds2 addr
  | lds3 addr => exact EncodeRoundTrip.lds3 addr
  | sts1 addr v => exact EncodeRoundTrip.sts1 addr v
  | sts2 addr v => exact EncodeRoundTrip.sts2 addr v
  | sts3 addr v => exact EncodeRoundTrip.sts3 addr v
  | stptr1 p => exact EncodeRoundTrip.stptr1 p
  | stptr2 p => exact EncodeRoundTrip.stptr2 p
  | stptr3 p => exact EncodeRoundTrip.stptr3 p
  | ldptr1 => exact EncodeRoundTrip.ldptr1
  | ldptr2 => exact EncodeRoundTrip.ldptr2
  | ldptr3 => exact EncodeRoundTrip.ldptr3
  | stinc v more => exact EncodeRoundTrip.stinc v more
  | ldinc more => exact EncodeRoundTrip.ldinc more
  | repeatNext n => exact EncodeRoundTrip.repeatNext n
  | key k => exact EncodeRoundTrip.key k
  | getStatus => exact EncodeRoundTrip.getStatus
  | openSession p port => exact EncodeRoundTrip.openSession p port
  | enterProgrammingMode => exact EncodeRoundTrip.enterProgrammingMode
  | closeSession resetTarget => exact EncodeRoundTrip.closeSession resetTarget
  | initLink => exact EncodeRoundTrip.initLink
  | sendBytes bs => exact EncodeRoundTrip.sendBytes bs
  | receiveBytes n timeout => exact EncodeRoundTrip.receiveBytes n timeout
  | csRead address => exact EncodeRoundTrip.csRead address
  | csWrite address value => exact EncodeRoundTrip.csWrite address value
  | lds address sizeBytes => exact EncodeRoundTrip.lds address sizeBytes
  | sts address value sizeBytes => exact EncodeRoundTrip.sts address value sizeBytes
  | stPtr address => exact EncodeRoundTrip.stPtr address
  | ldPtr => exact EncodeRoundTrip.ldPtr
  | stPtrInc block rep => exact EncodeRoundTrip.stPtrInc block rep
  | ldPtrInc n rep => exact EncodeRoundTrip.ldPtrInc n rep
  | keyWrite k => exact EncodeRoundTrip.keyWrite k
  | unlockChipEraseKey => exact EncodeRoundTrip.unlockChipEraseKey
  | waitNvmReady => exact EncodeRoundTrip.waitNvmReady
  | chipErase => exact EncodeRoundTrip.chipErase
  | writePage region offset data => exact EncodeRoundTrip.writePage region offset data
  | readBytes region offset length => exact EncodeRoundTrip.readBytes region offset length
  | readFuse index => exact EncodeRoundTrip.readFuse index
  | writeFuse index value => exact EncodeRoundTrip.writeFuse index value
  | erasePage region offset => exact EncodeRoundTrip.erasePage region offset
  | eepromErase => exact EncodeRoundTrip.eepromErase
  | crcCheck => exact EncodeRoundTrip.crcCheck

/-- Settles O1: framing is undone by unframing, and nothing but a frame is unframed. -/
theorem deframeOnlyFrames : Obligations.DeframeOnlyFrames := by
  intro f w b
  refine ⟨deframe_some, ?_⟩
  rintro rfl
  exact deframe_frameBits b

/-- Settles O3: each row's operands are split off the front of what follows its opcode byte. -/
theorem parserTakesOneInstruction : Obligations.ParserTakesOneInstruction := by
  intro c i armed bytes rest hc hw henc
  exact decodeWire_encode hc hw henc rest

/-- Settles O7: an unknown region code is found by the first check of the commands that take a region, an unknown
command code by the decoder. -/
theorem unknownCodesAreRefused : Obligations.UnknownCodesAreRefused := by
  refine ⟨fun n => ?_, fun s hb hidle => ⟨fun r o n d hr => ?_, fun op a hop => ?_⟩⟩
  · match n with
    | 0 | 1 | 2 | 3 | 4 => rfl
    | k + 5 => rfl
  · have hnone := regionOfCode_eq_none hr
    exact ⟨exec_writePage_unknown hnone hb hidle o d, exec_readBytes_unknown hnone hb hidle o n,
      exec_erasePage_unknown hnone hb hidle o⟩
  · rw [step_present, runRequest_unknown (decodeCommand_eq_none hop), hb, if_neg Bool.false_ne_true]

/-- Settles O8: a busy port leaves the state as it is, and each of the three responses clears `busy`. -/
theorem handshakeOfTheCommandPort : Obligations.HandshakeOfTheCommandPort := by
  refine fun s => ⟨fun hbusy op a => ?_, fun hb i t h => exec_ends_not_busy hb h⟩
  rw [step_present]
  cases hdecode : decodeCommand op a with
  | none => rw [runRequest_unknown hdecode, if_pos hbusy]
  | some i => rw [runRequest_known hdecode, exec_busy i hbusy]

/-- Settles O4: each word is decoded at the default encodings. -/
theorem wordsDecode : Obligations.WordsDecode := by
  refine ⟨?_, ?_, ?_, ?_, ?_, ?_, ?_, ?_, ?_, ?_, ?_, ?_, ?_, ?_, ?_, ?_, ?_, ?_, ?_⟩ <;> decide

/-- Settles O6: a presented request is the next input, and is run by the instruction it decodes to. -/
theorem stepRunsTheDecodedInstruction : Obligations.StepRunsTheDecodedInstruction := by
  refine fun s i => ⟨fun r rest hinputs hdecode => ?_, fun nbits w hdecode => ?_⟩
  · rw [step_request hinputs]
    exact runRequest_of_decode hdecode
  · rw [State.withFetchWord, step_present]
    exact runRequest_of_decode hdecode

end Sys2Proof.Proofs
end

section
/-! PROOFS. What the engine puts on the line (30_encoding.md R104, R107, R108, 41_datalink.md R172): every piece of
a command, run from a state after which only encoded bytes were transmitted, leaves such a state, however it ends. -/

namespace Sys2Proof.Machine

variable {α β : Type} {c : Config} {i : Instr} {tr : List Event} {P : Dl → Prop} {s t : State}

/-! ### The forms of a transmission -/

/-- PHY's send may put these bytes on the line while DL is in this state. -/
def Sendable (c : Config) (i : Instr) (d : DlState) (bs : List Byte) : Prop :=
  ∀ n ans, Emits c i { phy := .tx, dl := d, nvm := n, act := .trWrite bs, answer := ans }

theorem sendable_instr (hc : c.codesDistinct = true) {o : WireOp} {opc : Byte} {ops : List Byte}
    (h : shows c o opc) (hlen : ops.length = headOperands o) :
    Sendable c i .txInstr (SYNC :: opc :: ops) :=
  fun _ _ => ⟨o, opc, ops, rfl, lookupWire_shows hc h, hlen⟩

theorem sendable_lds (hc : c.codesDistinct = true) {a n : Nat} (hn : sizeOk n = true) :
    Sendable c i .txInstr ([SYNC, opLds c n] ++ le a n) := by
  rcases sizeOk_cases hn with rfl | rfl | rfl
  · exact sendable_instr hc (o := .lds1) rfl (le_length a 1)
  · exact sendable_instr hc (o := .lds2) rfl (le_length a 2)
  · exact sendable_instr hc (o := .lds3) rfl (le_length a 3)

theorem sendable_sts (hc : c.codesDistinct = true) {a n : Nat} (hn : sizeOk n = true) :
    Sendable c i .txInstr ([SYNC, opSts c n] ++ le a n) := by
  rcases sizeOk_cases hn with rfl | rfl | rfl
  · exact sendable_instr hc (o := .sts1) rfl (le_length a 1)
  · exact sendable_instr hc (o := .sts2) rfl (le_length a 2)
  · exact sendable_instr hc (o := .sts3) rfl (le_length a 3)

theorem sendable_stPtr (hc : c.codesDistinct = true) {w p : Nat} (hw : sizeOk w = true) :
    Sendable c i .txInstr ([SYNC, opStPtr c w] ++ le p w) := by
  rcases sizeOk_cases hw with rfl | rfl | rfl
  · exact sendable_instr hc (o := .stptr1) rfl (le_length p 1)
  · exact sendable_instr hc (o := .stptr2) rfl (le_length p 2)
  · exact sendable_instr hc (o := .stptr3) rfl (le_length p 3)

theorem sendable_ldPtr (hc : c.codesDistinct = true) {w : Nat} (hw : sizeOk w = true) :
    Sendable c i .txInstr [SYNC, opLdPtr c w] := by
  rcases sizeOk_cases hw with rfl | rfl | rfl
  · exact sendable_instr hc (o := .ldptr1) rfl rfl
  · exact sendable_instr hc (o := .ldptr2) rfl rfl
  · exact sendable_instr hc (o := .ldptr3) rfl rfl

theorem sendable_repeat (n : Byte) : Sendable c i .txRepeat [SYNC, opRepeat c, n] := fun _ _ => ⟨n, rfl⟩

theorem sendable_byte (v : Byte) : Sendable c i .txData [v] := fun _ _ => .inl rfl

theorem sendable_key {bs : List Byte} (h : bs.length = c.keyLen) : Sendable c i .txData bs := fun _ _ => .inr h

theorem sendable_given (bs : List Byte) : Sendable c (.sendBytes bs) .idle bs := fun _ _ => .inr ⟨rfl, rfl⟩

/-- Only transmissions are restricted. -/
theorem emits_of_not_write {e : Event} (h : ∀ bs, e.act ≠ .trWrite bs) : Emits c i e := by
  obtain ⟨phy, dl, nvm, act, answer⟩ := e
  cases act with
  | trWrite bs => exact absurd rfl (h bs)
  | _ => trivial

/-! ### A trace of encoded transmissions -/

/-- `s` has the configuration `c`, the events since the trace `tr` are ones `i` may cause, and DL's registers are
as `P` says. -/
def EmittedWith (P : Dl → Prop) (c : Config) (i : Instr) (tr : List Event) (s : State) : Prop :=
  s.cfg = c ∧ P s.dl ∧ ∃ ev, s.trace = tr ++ ev ∧ ∀ e ∈ ev, Emits c i e

/-- DL's registers may hold anything. -/
abbrev Emitted : Config → Instr → List Event → State → Prop := EmittedWith fun _ => True

/-- DL is idle. -/
abbrev EmittedAtRest : Config → Instr → List Event → State → Prop := EmittedWith fun d => d.dlState = .idle

theorem EmittedWith.weaken (h : EmittedWith P c i tr s) : Emitted c i tr s := by
  obtain ⟨hcfg, -, htrace⟩ := h
  exact ⟨hcfg, trivial, htrace⟩

theorem EmittedWith.append (h : EmittedWith P c i tr s) (hcfg : t.cfg = s.cfg) (hdl : t.dl = s.dl)
    {e : Event} (htrace : t.trace = s.trace ++ [e]) (he : Emits c i e) : EmittedWith P c i tr t := by
  obtain ⟨hc, hp, ev, hev, hall⟩ := h
  refine ⟨hcfg.trans hc, hdl ▸ hp, ev ++ [e], by rw [htrace, hev, List.append_assoc], fun e' he' => ?_⟩
  rcases List.mem_append.mp he' with hold | hnew
  · exact hall e' hold
  · exact List.mem_singleton.mp hnew ▸ he

/-- A byte-port call, after the line, the environment, the clock and PHY have moved on from `s` to `t`. -/
theorem EmittedWith.call (h : EmittedWith P c i tr s) (hcfg : t.cfg = s.cfg) (hdl : t.dl = s.dl)
    (htrace : t.trace = s.trace) {a : PortAct} (ans : PortAnswer)
    (ha : Emits c i ⟨t.phy.phyState, t.dl.dlState, t.nvm.nvmState, a, ans⟩) :
    EmittedWith P c i tr (t.logged a ans) :=
  h.append hcfg hdl (by rw [State.logged_trace, htrace]) ha

theorem listen_phyState (s : State) (d : List Bool) : (s.listen d).phy.phyState = s.phy.phyState := by
  rw [(listen_line d).2.2]

/-- A failed primitive logs its call under the sequencer states of the moment (40_phy.md R148). -/
theorem EmittedWith.failedAt (h : EmittedWith P c i tr s) (q : PortAct) {a : PortAct} (heard : List Bool)
    (ha : Emits c i ⟨s.phy.phyState, s.dl.dlState, s.nvm.nvmState, a, .ioerror⟩) :
    EmittedWith P c i tr (s.failedAt q a heard) := by
  refine h.append (by simp) (by simp) ?_ ha
  simp [State.failedAt, listen_phyState]

/-! ### Pieces of a command -/

/-- The piece may raise any error. -/
abbrev AnyCode : Code → Prop := fun _ => True

/-- The piece transmits encoded bytes only. -/
abbrev SendsEncoded (c : Config) (i : Instr) (tr : List Event) (x : Act α) : Prop :=
  Stays (Emitted c i tr) AnyCode x

section
variable {I : State → Prop} {C : Code → Prop} {x : Act α}

theorem staysAt_ok {a : α} (h : x s = .ok a t) (ht : I t) : StaysAt I C x s := by
  refine ⟨fun b u hb => ?_, fun e u he => (nomatch h.symm.trans he)⟩
  obtain ⟨-, rfl⟩ := EStateM.Result.ok.inj (h.symm.trans hb)
  exact ht

theorem staysAt_error {e : Err} (h : x s = .error e t) (ht : I t) (hcode : C e.code) : StaysAt I C x s := by
  refine ⟨fun b u hb => (nomatch h.symm.trans hb), fun e' u he => ?_⟩
  obtain ⟨rfl, rfl⟩ := EStateM.Result.error.inj (h.symm.trans he)
  exact ⟨ht, hcode⟩

theorem staysAt_bind {k : α → Act β} (hx : StaysAt I C x s) (hk : ∀ a, Stays I C (k a)) :
    StaysAt I C (x >>= k) s := by
  cases h : x s with
  | ok a u =>
    unfold StaysAt
    rw [Act.bind_ok h]
    exact hk a u (hx.1 a u h)
  | error e u => exact staysAt_error (Act.bind_error h) (hx.2 e u h).1 (hx.2 e u h).2

theorem staysAt_modify_bind {f : State → State} {k : Unit → Act β} (h : StaysAt I C (k ()) (f s)) :
    StaysAt I C (modify f >>= k) s := h

theorem staysAt_inPhy {name : OpName} (hx : StaysAt I C x s) (h : ∀ u p, I u → I (u.setPhy p)) :
    StaysAt I C (inPhy name x) s := by
  cases hr : x s with
  | ok a u => exact staysAt_ok (inPhy_ok hr) (h _ _ (hx.1 a u hr))
  | error e u => exact staysAt_error (inPhy_error hr) (h _ _ (hx.2 e u hr).1) (hx.2 e u hr).2

end

theorem StaysAt.weaken {x : Act α} (h : StaysAt (EmittedWith P c i tr) AnyCode x s) :
    StaysAt (Emitted c i tr) AnyCode x s :=
  ⟨fun a u hu => (h.1 a u hu).weaken, fun e u hu => ⟨(h.2 e u hu).1.weaken, trivial⟩⟩

theorem IsCheck.stays {I : State → Prop} {x : Act α} {Q : α → State → Prop} (h : IsCheck x Q) :
    Stays I AnyCode x := by
  intro s hs
  rcases h s with ⟨a, hok, -⟩ | ⟨e, herror, -⟩
  · exact staysAt_ok hok hs
  · exact staysAt_error herror hs trivial

/-! ### The primitives of the byte port -/

theorem trRead_emitted (n timeout : Nat) : Stays (EmittedWith P c i tr) AnyCode (trRead n timeout) :=
  stays_trRead trivial (fun _ q heard hs => hs.failedAt q heard trivial) fun s fifo now ans hs _ =>
    hs.call (by simp) (by simp) (by simp) ans trivial

theorem trWrite_emitted {bs : List Byte} (hs : EmittedWith P c i tr s)
    (hsend : ∀ ans, Emits c i ⟨s.phy.phyState, s.dl.dlState, s.nvm.nvmState, .trWrite bs, ans⟩) :
    StaysAt (EmittedWith P c i tr) AnyCode (trWrite bs) s := by
  cases hio : (s.draw (.trWrite bs)).ioerror with
  | true => exact staysAt_error (trWrite_error hio) (hs.failedAt _ _ (hsend _)) trivial
  | false => exact staysAt_ok (trWrite_ok hio) (hs.call rfl rfl rfl _ (hsend _))

theorem trSetBaud_emitted (b : Nat) : Stays (EmittedWith P c i tr) AnyCode (trSetBaud b) := by
  intro s hs
  cases hio : (s.draw (.trSetBaud b)).ioerror with
  | true => exact staysAt_error (trSetBaud_error hio) (hs.failedAt _ _ trivial) trivial
  | false => exact staysAt_ok (trSetBaud_ok hio) (hs.call (by simp) (by simp) (by simp) _ trivial)

theorem trBreak_emitted (low guardBits : Nat) : Stays (EmittedWith P c i tr) AnyCode (trBreak low guardBits) := by
  intro s hs
  cases hio : (s.draw (.trBreak low guardBits)).ioerror with
  | true => exact staysAt_error (trBreak_error hio) (hs.failedAt _ _ trivial) trivial
  | false =>
    have hlow : EmittedWith P c i tr (s.logged (.trBreak low guardBits) .done) := hs.call rfl rfl rfl _ trivial
    exact staysAt_ok (trBreak_ok hio) (hlow.append rfl rfl rfl trivial)

theorem trOpen_emitted (port baud : Nat) : Stays (EmittedWith P c i tr) AnyCode (trOpen port baud) := by
  intro s hs
  cases hio : (s.draw (.trOpen port baud)).ioerror with
  | true => exact staysAt_error (trOpen_error hio) (hs.failedAt _ _ trivial) trivial
  | false => exact staysAt_ok (trOpen_ok hio) (hs.call rfl rfl rfl _ trivial)

theorem trClose_emitted : Stays (EmittedWith P c i tr) AnyCode trClose := by
  intro s hs
  cases hio : (s.draw .trClose).ioerror with
  | true => exact staysAt_error (trClose_error hio) (hs.failedAt _ _ trivial) trivial
  | false => exact staysAt_ok (trClose_ok hio) (hs.call (by simp) (by simp) (by simp) _ trivial)

theorem waitFor_emitted (d : Nat) : Stays (EmittedWith P c i tr) AnyCode (waitFor d) := fun s hs =>
  staysAt_ok (waitFor_run d s) (hs.call (by simp) (by simp) (by simp) _ trivial)

/-! ### PHY -/

/-- PHY's send, for bytes that may go out in DL's present state. -/
theorem phySend_emitted {bs : List Byte} (hs : EmittedWith P c i tr s) (hsend : Sendable c i s.dl.dlState bs) :
    StaysAt (EmittedWith P c i tr) AnyCode (phySend bs) s := by
  unfold phySend
  split_ifs
  · exact staysAt_ok rfl hs
  · refine staysAt_inPhy (staysAt_modify_bind ?_) fun _ _ h => h
    refine staysAt_bind (trWrite_emitted hs fun ans => hsend s.nvm.nvmState ans) fun _ => ?_
    refine stays_bind (stays_modify fun _ h => h) fun _ => ?_
    refine stays_get_bind fun _ _ => stays_bind (trRead_emitted _ _) fun r => ?_
    refine stays_bind (stays_modify fun _ h => h) fun _ => ?_
    cases r with
    | none => exact stays_raise _ trivial
    | some _ => exact stays_pure _

theorem phyRecv_emitted (n timeout : Nat) : Stays (EmittedWith P c i tr) AnyCode (phyRecv n timeout) := by
  refine stays_ite (fun _ => stays_pure _) fun _ => stays_inPhy ?_ fun _ _ _ h => h
  refine stays_bind (stays_modify fun _ h => h) fun _ => stays_bind (trRead_emitted _ _) fun r => ?_
  cases r with
  | none => exact stays_raise _ trivial
  | some _ => exact stays_pure _

/-- One attempt of link initialisation: its only transmission is the SYNC of 40_phy.md R139. -/
theorem syncAttempt_emitted : Stays (EmittedAtRest c i tr) AnyCode syncAttempt := by
  refine stays_bind (stays_modify fun _ h => h) fun _ => stays_get_bind fun s _ => ?_
  refine stays_bind (stays_modify fun _ h => h) fun _ => stays_bind (trSetBaud_emitted _) fun _ => ?_
  refine stays_bind (stays_modify fun _ h => h) fun _ => stays_bind (trBreak_emitted _ _) fun _ => ?_
  refine stays_bind (stays_modify fun _ h => h) fun _ => ?_
  refine stays_bind (stays_modify fun _ h => h.call rfl rfl rfl _ trivial) fun _ u hu => ?_
  refine staysAt_modify_bind (staysAt_bind (trWrite_emitted hu fun ans => ?_) fun _ => ?_)
  · obtain ⟨-, hidle, -⟩ := hu
    change u.dl.dlState = .idle at hidle
    rw [State.setPhy_dl, hidle]
    exact .inl ⟨rfl, rfl⟩
  · exact stays_bind (stays_modify fun _ h => h) fun _ => trRead_emitted _ _

theorem linkFailed_emitted (r : Option (List Byte)) : Stays (EmittedAtRest c i tr) AnyCode (linkFailed r) :=
  stays_bind (stays_modify fun _ h => h) fun _ => stays_get_bind fun _ _ => stays_raise _ trivial

theorem syncLoop_emitted (n : Nat) : Stays (EmittedAtRest c i tr) AnyCode (syncLoop n) := by
  induction n with
  | zero =>
    refine stays_bind syncAttempt_emitted fun r => ?_
    exact stays_ite (fun _ => stays_modify fun _ h => h) fun _ => linkFailed_emitted r
  | succ n ih =>
    refine stays_bind syncAttempt_emitted fun r => ?_
    exact stays_ite (fun _ => stays_modify fun _ h => h) fun _ => ih

theorem phyInit_emitted : Stays (EmittedAtRest c i tr) AnyCode phyInit :=
  stays_inPhy (stays_bind (stays_modify fun _ h => h) fun _ => stays_get_bind fun _ _ => syncLoop_emitted _)
    fun _ _ _ h => h

/-! ### What DL, NVM and SES are made of -/

theorem EmittedWith.idleDl (hP : ∀ d : Dl, P { d with dlState := .idle }) (h : Emitted c i tr s) :
    EmittedWith P c i tr (s.setDl { s.dl with dlState := .idle }) := by
  obtain ⟨hcfg, -, htrace⟩ := h
  exact ⟨hcfg, hP s.dl, htrace⟩

/-- A DL operation leaves DL idle. -/
theorem inDl_emitted (hP : ∀ d : Dl, P { d with dlState := .idle }) {name : OpName} {addr : State → Option Nat}
    {x : Act α} (hx : SendsEncoded c i tr x) : Stays (EmittedWith P c i tr) AnyCode (inDl name addr x) := by
  intro s hs
  cases hr : x s with
  | ok a u => exact staysAt_ok (inDl_ok hr) (.idleDl hP (hx.ok hs.weaken hr))
  | error e u => exact staysAt_error (inDl_error hr) (.idleDl hP (hx.error hs.weaken hr).1) trivial

theorem inDl_sendsEncoded {name : OpName} {addr : State → Option Nat} {x : Act α}
    (hx : SendsEncoded c i tr x) : SendsEncoded c i tr (inDl name addr x) := inDl_emitted (fun _ => trivial) hx

/-- DL enters a state and sends what may go out in it. -/
theorem sendIn_sendsEncoded {d : DlState} {bs : List Byte} (hsend : Sendable c i d bs) :
    SendsEncoded c i tr (setDlState d >>= fun _ => phySend bs) := fun _ hs =>
  staysAt_modify_bind (phySend_emitted hs hsend)

theorem sendIn_bind {d : DlState} {bs : List Byte} {k : Unit → Act α} (hsend : Sendable c i d bs)
    (hk : SendsEncoded c i tr (k ())) :
    SendsEncoded c i tr (setDlState d >>= fun _ => phySend bs >>= k) := by
  rw [← bind_assoc]
  exact stays_bind (sendIn_sendsEncoded hsend) fun _ => hk

theorem setDl_bind {f : State → Dl} {k : Unit → Act α} (hk : SendsEncoded c i tr (k ())) :
    SendsEncoded c i tr ((modify fun s => s.setDl (f s)) >>= k) :=
  stays_bind (stays_modify fun _ h => h) fun _ => hk

theorem setNvm_bind {f : State → Nvm} {k : Unit → Act α} (hk : SendsEncoded c i tr (k ())) :
    SendsEncoded c i tr ((modify fun s => s.setNvm (f s)) >>= k) :=
  stays_bind (stays_modify fun _ h => h) fun _ => hk

theorem inNvm_sendsEncoded {name : OpName} {x : Act α} (hx : SendsEncoded c i tr x) :
    SendsEncoded c i tr (inNvm name x) := stays_inNvm hx fun _ h => h

theorem noteNvmOp_sendsEncoded : SendsEncoded c i tr noteNvmOp := stays_modify fun _ h => by split <;> exact h

/-- Reading the state for its parameters. -/
theorem cfg_bind {k : State → Act α} (hk : ∀ s, s.cfg = c → SendsEncoded c i tr (k s)) :
    SendsEncoded c i tr (get >>= k) := stays_get_bind fun s ⟨hcfg, _, _⟩ => hk s hcfg

theorem recvByte_sendsEncoded : SendsEncoded c i tr recvByte :=
  stays_get_bind fun _ _ => stays_bind (phyRecv_emitted _ _) fun _ => stays_pure _

theorem expectAck_sendsEncoded (phase : Phase) : SendsEncoded c i tr (expectAck phase) := by
  refine stays_bind recvByte_sendsEncoded fun b => setDl_bind (stays_get_bind fun _ _ => ?_)
  exact stays_ite (fun _ => stays_pure _) fun _ => stays_raise _ trivial

theorem repeatFor_sendsEncoded (n : Nat) : SendsEncoded c i tr (repeatFor n) := by
  refine stays_ite (fun _ => cfg_bind fun s hcfg => ?_) fun _ => stays_pure _
  rw [hcfg]
  exact sendIn_sendsEncoded (sendable_repeat _)

theorem stIncRest_sendsEncoded (vs : List Byte) : SendsEncoded c i tr (stIncRest vs) := by
  induction vs with
  | nil => exact stays_pure _
  | cons v vs ih =>
    refine sendIn_bind (sendable_byte v) (setDl_bind (stays_bind (expectAck_sendsEncoded _) fun _ => ?_))
    exact setDl_bind ih

/-- The block commands end by answering `resp_buf`. -/
theorem respBuf_sendsEncoded : SendsEncoded c i tr (do pure (← get).dl.respBuf) :=
  stays_get_bind fun _ _ => stays_pure _

theorem repeatWire_sendsEncoded (n : Nat) : SendsEncoded c i tr (repeatWire n) :=
  stays_demand trivial fun _ => inDl_sendsEncoded (repeatFor_sendsEncoded n)

/-! The wrappers of SES (43_session.md R260, R263). -/

theorem acquire_emitted (port baud : Nat) : Stays (EmittedWith P c i tr) AnyCode (acquire port baud) := by
  intro s hs
  have hopen := trOpen_emitted (c := c) (i := i) (tr := tr) port baud s hs
  cases hr : trOpen port baud s with
  | ok a u => exact staysAt_ok (by rw [acquire, hr]) (hopen.1 a u hr)
  | error e u => exact staysAt_error (by rw [acquire, hr]) (hopen.2 e u hr).1 trivial

theorem establish_emitted {x : Act Unit} (hx : Stays (EmittedWith P c i tr) AnyCode x) :
    Stays (EmittedWith P c i tr) AnyCode (establish x) := by
  intro s hs
  cases hr : x s with
  | ok a u => exact staysAt_ok (by rw [establish, hr]) (hx.ok hs hr)
  | error e u =>
    have hclosed : EmittedWith P c i tr (effect trClose u) := trClose_emitted.effect (hx.error hs hr).1
    by_cases hcode : e.code = .transport
    · refine staysAt_error (by simp only [establish, hr, hcode, if_true]; rfl) ?_ trivial
      exact hclosed
    · refine staysAt_error (by simp only [establish, hr, hcode, if_false]; rfl) ?_ trivial
      exact hclosed

theorem unlockExchange_sendsEncoded {x : Act Byte} (hx : SendsEncoded c i tr x) :
    SendsEncoded c i tr (unlockExchange x) := by
  intro s hs
  cases hr : x s with
  | ok a u => exact staysAt_ok (by rw [unlockExchange, hr]) (hx.ok hs hr)
  | error e u =>
    by_cases hcode : e.code = .transport
    · exact staysAt_error (by simp only [unlockExchange, hr, hcode, if_true]; rfl) (hx.error hs hr).1 trivial
    · exact staysAt_error (by simp only [unlockExchange, hr, hcode, if_false]; rfl) (hx.error hs hr).1 trivial

/-! ### DL's operations (41_datalink.md R176 to R205) -/

section
variable (hc : c.codesDistinct = true)
include hc

theorem csRead_sendsEncoded (a : Nat) : SendsEncoded c i tr (csRead a) := by
  refine stays_demand trivial fun _ => inDl_sendsEncoded (cfg_bind fun s hcfg => setDl_bind ?_)
  rw [hcfg]
  refine sendIn_bind (sendable_instr hc (o := .ldcs) ⟨_, rfl⟩ rfl) ?_
  exact setDl_bind recvByte_sendsEncoded

theorem csWrite_emitted (hP : ∀ d : Dl, P { d with dlState := .idle }) (a v : Nat) :
    Stays (EmittedWith P c i tr) AnyCode (csWrite a v) := by
  refine stays_demand trivial fun _ => inDl_emitted hP (cfg_bind fun s hcfg => setDl_bind ?_)
  rw [hcfg]
  exact sendIn_sendsEncoded (sendable_instr hc (o := .stcs) ⟨_, rfl⟩ rfl)

theorem ldsOp_sendsEncoded (a n : Nat) : SendsEncoded c i tr (ldsOp a n) := by
  refine stays_demand trivial fun ha => inDl_sendsEncoded (cfg_bind fun s hcfg => ?_)
  rw [hcfg]
  refine setDl_bind (setDl_bind (setDl_bind (sendIn_bind (sendable_lds hc (addrOk_iff.mp ha).1) ?_)))
  refine setDl_bind (stays_bind (phyRecv_emitted _ _) fun _ => ?_)
  exact setDl_bind (stays_pure _)

theorem stsOp_sendsEncoded (a v n : Nat) : SendsEncoded c i tr (stsOp a v n) := by
  refine stays_demand trivial fun hargs => inDl_sendsEncoded (cfg_bind fun s hcfg => ?_)
  obtain ⟨ha, -⟩ := Bool.and_eq_true_iff.mp hargs
  rw [hcfg]
  refine setDl_bind (setDl_bind (setDl_bind (setDl_bind ?_)))
  refine sendIn_bind (sendable_sts hc (addrOk_iff.mp ha).1) (setDl_bind ?_)
  refine stays_bind (expectAck_sendsEncoded _) fun _ => sendIn_bind (sendable_byte _) (setDl_bind ?_)
  exact expectAck_sendsEncoded _

theorem stPtrOp_sendsEncoded (w p : Nat) : SendsEncoded c i tr (stPtrOp w p) := by
  refine stays_demand trivial fun hp => inDl_sendsEncoded (cfg_bind fun s hcfg => ?_)
  rw [hcfg]
  refine setDl_bind (setDl_bind (sendIn_bind (sendable_stPtr hc (addrOk_iff.mp hp).1) ?_))
  exact setDl_bind (expectAck_sendsEncoded _)

theorem ldPtrOp_sendsEncoded {w : Nat} (hw : sizeOk w = true) : SendsEncoded c i tr (ldPtrOp w) := by
  refine inDl_sendsEncoded (cfg_bind fun s hcfg => setDl_bind ?_)
  rw [hcfg]
  refine sendIn_bind (sendable_ldPtr hc hw) (setDl_bind (stays_bind (phyRecv_emitted _ _) fun _ => ?_))
  exact setDl_bind (stays_pure _)

theorem stIncFirst_sendsEncoded (v : Byte) : SendsEncoded c i tr (stIncFirst v) := by
  refine cfg_bind fun s hcfg => ?_
  rw [hcfg]
  refine sendIn_bind (sendable_instr hc (o := .stinc) rfl rfl) (setDl_bind ?_)
  exact stays_bind (expectAck_sendsEncoded _) fun _ => stays_modify fun _ h => h

theorem stIncSingles_sendsEncoded (vs : List Byte) : SendsEncoded c i tr (stIncSingles vs) := by
  induction vs with
  | nil => exact stays_pure _
  | cons v vs ih => exact stays_bind (stIncFirst_sendsEncoded hc v) fun _ => ih

theorem stPtrIncOp_sendsEncoded (block : List Byte) (rep : Bool) :
    SendsEncoded c i tr (stPtrIncOp block rep) := by
  refine stays_demand trivial fun _ => setDl_bind (setDl_bind (setDl_bind ?_))
  cases block with
  | nil => exact stays_pure _
  | cons v vs =>
    refine inDl_sendsEncoded (stays_ite (fun _ => ?_) fun _ => stIncSingles_sendsEncoded hc _)
    refine stays_bind (repeatFor_sendsEncoded _) fun _ => ?_
    exact stays_bind (stIncFirst_sendsEncoded hc v) fun _ => stIncRest_sendsEncoded vs

theorem ldIncAnswers_sendsEncoded (n : Nat) : SendsEncoded c i tr (ldIncAnswers n) := by
  refine cfg_bind fun s hcfg => ?_
  rw [hcfg]
  refine sendIn_bind (sendable_instr hc (o := .ldinc) rfl rfl) (setDl_bind ?_)
  exact stays_bind (phyRecv_emitted _ _) fun _ => stays_modify fun _ h => h

theorem ldIncSingles_sendsEncoded (n : Nat) : SendsEncoded c i tr (ldIncSingles n) := by
  induction n with
  | zero => exact stays_pure _
  | succ n ih => exact stays_bind (ldIncAnswers_sendsEncoded hc 1) fun _ => ih

theorem ldPtrIncOp_sendsEncoded (n : Nat) (rep : Bool) : SendsEncoded c i tr (ldPtrIncOp n rep) := by
  refine stays_demand trivial fun _ => setDl_bind (setDl_bind (setDl_bind ?_))
  refine stays_ite (fun _ => stays_pure _) fun _ => inDl_sendsEncoded (stays_ite (fun _ => ?_) fun _ => ?_)
  · refine stays_bind (repeatFor_sendsEncoded n) fun _ => ?_
    exact stays_bind (ldIncAnswers_sendsEncoded hc n) fun _ => respBuf_sendsEncoded
  · exact stays_bind (ldIncSingles_sendsEncoded hc n) fun _ => respBuf_sendsEncoded

theorem stIncWire_sendsEncoded (v : Byte) (more : List Byte) : SendsEncoded c i tr (stIncWire v more) := by
  refine stays_demand trivial fun _ => setDl_bind (setDl_bind (setDl_bind (inDl_sendsEncoded ?_)))
  exact stays_bind (stIncFirst_sendsEncoded hc v) fun _ => stIncRest_sendsEncoded more

theorem ldIncWire_sendsEncoded (more : Nat) : SendsEncoded c i tr (ldIncWire more) := by
  refine stays_demand trivial fun _ => setDl_bind (setDl_bind (setDl_bind (inDl_sendsEncoded ?_)))
  exact stays_bind (ldIncAnswers_sendsEncoded hc _) fun _ => respBuf_sendsEncoded

theorem keyWriteOp_sendsEncoded (k : List Byte) : SendsEncoded c i tr (keyWriteOp k) := by
  refine cfg_bind fun s hcfg => stays_demand trivial fun hlen => inDl_sendsEncoded ?_
  rw [hcfg] at hlen ⊢
  have hkey : (keyOrd c k).length = c.keyLen := (Laws.keyOrd_length c k).trans (of_decide_eq_true hlen)
  refine setDl_bind (setDl_bind (sendIn_bind (sendable_instr hc (o := .key) rfl rfl) ?_))
  exact sendIn_sendsEncoded (sendable_key hkey)

/-! ### NVM -/

theorem nvmExec_sendsEncoded (code : Config → Byte) : SendsEncoded c i tr (nvmExec code) :=
  stays_get_bind fun _ _ => setNvm_bind (stsOp_sendsEncoded hc _ _ _)

theorem pollOnce_sendsEncoded : SendsEncoded c i tr pollOnce := by
  refine stays_get_bind fun _ _ => setNvm_bind (stays_bind (ldsOp_sendsEncoded hc _ _) fun r => ?_)
  exact setNvm_bind (stays_pure _)

theorem pollLoop_sendsEncoded (fuel : Nat) : SendsEncoded c i tr (pollLoop fuel) := by
  have hbusy : ∀ b, SendsEncoded c i tr (nvmBusy b) := fun b => stays_get_bind fun _ _ => stays_raise _ trivial
  induction fuel with
  | zero =>
    refine stays_bind (pollOnce_sendsEncoded hc) fun b => stays_get_bind fun _ _ => ?_
    exact stays_ite (fun _ => stays_pure _) fun _ => hbusy b
  | succ n ih =>
    refine stays_bind (pollOnce_sendsEncoded hc) fun b => stays_get_bind fun _ _ => ?_
    refine stays_ite (fun _ => stays_pure _) fun _ => stays_ite (fun _ => hbusy b) fun _ => setNvm_bind ?_
    exact stays_bind (waitFor_emitted _) fun _ => ih

theorem waitReadyNvm_sendsEncoded : SendsEncoded c i tr waitReadyNvm :=
  stays_get_bind fun _ _ => inNvm_sendsEncoded (setNvm_bind (pollLoop_sendsEncoded hc _))

/-- The end of a mutating command: its code and the ready check (42_nvm.md R226, R228). -/
theorem nvmExec_waitReady_sendsEncoded (code : Config → Byte) :
    SendsEncoded c i tr (nvmExec code >>= fun _ => waitReadyNvm) :=
  stays_bind (nvmExec_sendsEncoded hc code) fun _ => waitReadyNvm_sendsEncoded hc

theorem storeChunks_sendsEncoded (bs : List (List Byte)) : SendsEncoded c i tr (storeChunks bs) := by
  induction bs with
  | nil => exact stays_pure _
  | cons b bs ih => exact stays_get_bind fun _ _ => stays_bind (stPtrIncOp_sendsEncoded hc _ _) fun _ => ih

theorem loadChunks_sendsEncoded (ks : List Nat) : SendsEncoded c i tr (loadChunks ks) := by
  induction ks with
  | nil => exact stays_pure _
  | cons k ks ih =>
    refine stays_get_bind fun _ _ => stays_bind (ldPtrIncOp_sendsEncoded hc _ _) fun _ => ?_
    exact stays_bind ih fun _ => stays_pure _

theorem unlockEraseKey_sendsEncoded : SendsEncoded c i tr unlockEraseKey := by
  refine inNvm_sendsEncoded (setNvm_bind (stays_get_bind fun s _ => ?_))
  refine stays_ite (fun _ => stays_pure _) fun _ => stays_bind noteNvmOp_sendsEncoded fun _ => ?_
  exact stays_bind (keyWriteOp_sendsEncoded hc _) fun _ => stays_modify fun _ h => h

theorem waitCommand_sendsEncoded : SendsEncoded c i tr waitCommand := by
  refine setNvm_bind (stays_bind (isCheck_demandRegs _).stays fun _ => ?_)
  exact stays_bind noteNvmOp_sendsEncoded fun _ => waitReadyNvm_sendsEncoded hc

theorem eraseWhole_sendsEncoded (name : OpName) (code : Config → Byte) :
    SendsEncoded c i tr (eraseWhole name code) := by
  refine inNvm_sendsEncoded (setNvm_bind (stays_bind (isCheck_demandRegs _).stays fun _ => ?_))
  refine stays_bind isCheck_demandKey.stays fun _ => stays_bind noteNvmOp_sendsEncoded fun _ => ?_
  exact nvmExec_waitReady_sendsEncoded hc code

theorem writePageOp_sendsEncoded (region offset : Nat) (data : List Byte) :
    SendsEncoded c i tr (writePageOp region offset data) := by
  refine inNvm_sendsEncoded (setNvm_bind (stays_bind (isCheck_pagedRegion region).stays ?_))
  rintro ⟨r, page⟩
  refine stays_get_bind fun s _ => stays_bind (isCheck_checkAligned _ _ _).stays fun _ => ?_
  refine stays_bind (isCheck_checkPageSize _ _ _).stays fun _ => stays_demand trivial fun _ => ?_
  refine stays_bind (isCheck_demandRegs _).stays fun _ => stays_bind isCheck_demandKey.stays fun _ => ?_
  refine stays_bind noteNvmOp_sendsEncoded fun _ => stays_atPlace (setNvm_bind ?_)
  refine stays_bind (stPtrOp_sendsEncoded hc _ _) fun _ => setNvm_bind ?_
  exact stays_bind (storeChunks_sendsEncoded hc _) fun _ => nvmExec_waitReady_sendsEncoded hc _

theorem erasePageOp_sendsEncoded (region offset : Nat) : SendsEncoded c i tr (erasePageOp region offset) := by
  refine inNvm_sendsEncoded (setNvm_bind (stays_bind (isCheck_pagedRegion region).stays ?_))
  rintro ⟨r, page⟩
  refine stays_get_bind fun s _ => stays_bind (isCheck_checkAligned _ _ _).stays fun _ => ?_
  refine stays_demand trivial fun _ => stays_bind (isCheck_demandRegs _).stays fun _ => ?_
  refine stays_bind isCheck_demandKey.stays fun _ => stays_bind noteNvmOp_sendsEncoded fun _ => ?_
  refine stays_atPlace (setNvm_bind (stays_bind (stsOp_sendsEncoded hc _ _ _) fun _ => ?_))
  exact nvmExec_waitReady_sendsEncoded hc _

theorem readBytesOp_sendsEncoded (region offset n : Nat) :
    SendsEncoded c i tr (readBytesOp region offset n) := by
  refine inNvm_sendsEncoded (setNvm_bind (stays_get_bind fun s _ => ?_))
  cases regionOfCode region with
  | none => exact stays_raise _ trivial
  | some r =>
    refine stays_demand trivial fun _ => stays_ite (fun _ => stays_pure _) fun _ => ?_
    refine stays_bind noteNvmOp_sendsEncoded fun _ => stays_atPlace (setNvm_bind ?_)
    refine stays_bind (stPtrOp_sendsEncoded hc _ _) fun _ => setNvm_bind ?_
    exact loadChunks_sendsEncoded hc _

theorem readFuseOp_sendsEncoded (index : Nat) : SendsEncoded c i tr (readFuseOp index) := by
  refine inNvm_sendsEncoded (setNvm_bind (stays_bind (isCheck_checkFuseIndex index).stays fun _ => ?_))
  refine stays_get_bind fun s _ => stays_demand trivial fun _ => stays_bind noteNvmOp_sendsEncoded fun _ => ?_
  exact stays_atPlace (setNvm_bind (ldsOp_sendsEncoded hc _ _))

theorem writeFuseOp_sendsEncoded (index v : Nat) : SendsEncoded c i tr (writeFuseOp index v) := by
  refine inNvm_sendsEncoded (setNvm_bind (stays_demand trivial fun _ => ?_))
  refine stays_bind (isCheck_checkFuseIndex index).stays fun _ => stays_get_bind fun s _ => ?_
  refine stays_demand trivial fun _ => stays_bind (isCheck_demandRegs _).stays fun _ => ?_
  refine stays_bind isCheck_demandKey.stays fun _ => stays_bind noteNvmOp_sendsEncoded fun _ => ?_
  refine stays_atPlace (setNvm_bind (stays_bind (stsOp_sendsEncoded hc _ _ _) fun _ => ?_))
  refine stays_bind (stsOp_sendsEncoded hc _ _ _) fun _ => stays_bind (stsOp_sendsEncoded hc _ _ _) fun _ => ?_
  exact nvmExec_waitReady_sendsEncoded hc _

/-! ### SES -/

theorem closeBody_sendsEncoded (r : Bool) : SendsEncoded c i tr (closeBody r) := by
  have hwrite : ∀ a v : Nat, SendsEncoded c i tr (attempt (csWrite a v)) := fun a v =>
    stays_attempt (csWrite_emitted hc (fun _ => trivial) a v)
  have hline : SendsEncoded c i tr (closeLine r) :=
    stays_get_bind fun _ _ => stays_bind (hwrite _ _) fun _ =>
      stays_ite (fun _ => stays_bind (hwrite _ _) fun _ => hwrite _ _) fun _ => stays_pure _
  have hrelease : SendsEncoded c i tr (modify State.released) := stays_modify fun _ h => h
  have hclose : SendsEncoded c i tr (attempt trClose >>= fun _ => modify State.released) :=
    stays_bind (stays_attempt trClose_emitted) fun _ => hrelease
  refine stays_get_bind fun s _ => stays_ite (fun _ => ?_) fun _ => hrelease
  exact stays_ite (fun _ => stays_bind hline fun _ => hclose) fun _ => hclose

theorem openWrites_emitted (ws : List (CsAddr × Byte)) : Stays (EmittedAtRest c i tr) AnyCode (openWrites ws) := by
  induction ws with
  | nil => exact stays_pure _
  | cons w ws ih => exact stays_bind (csWrite_emitted hc (fun _ => rfl) _ _) fun _ => ih

theorem openOp_emitted (p : Profile) (port : Nat) : Stays (EmittedAtRest c i tr) AnyCode (openOp p port) := by
  refine stays_get_bind fun _ _ => stays_demand trivial fun _ => stays_bind (acquire_emitted _ _) fun _ => ?_
  refine stays_bind (stays_modify fun _ h => h) fun _ => ?_
  refine stays_bind (establish_emitted (stays_bind phyInit_emitted fun _ => openWrites_emitted hc _)) fun _ => ?_
  exact stays_bind (stays_modify fun _ h => h) fun _ => stays_modify fun _ h => h

theorem enterOp_sendsEncoded : SendsEncoded c i tr enterOp := by
  refine stays_get_bind fun s _ => stays_bind (unlockExchange_sendsEncoded ?_) fun v => ?_
  · exact stays_bind (keyWriteOp_sendsEncoded hc _) fun _ => csRead_sendsEncoded hc _
  · exact stays_ite (fun _ => stays_modify fun _ h => h) fun _ => stays_raise _ trivial

end

/-! ### Instructions -/

/-- A valid profile's pointer width is one of `ADDR_SIZES` (43_session.md R262). -/
theorem sizeOk_addrBytes {p : Profile} (h : profileValid c p = true) : sizeOk p.addrBytes = true := by
  cases hsize : sizeOk p.addrBytes with
  | true => rfl
  | false => simp [profileValid, hsize] at h

theorem emitted_accepted (h : SequencersIdle s) : EmittedAtRest s.cfg i s.trace s.accepted :=
  ⟨rfl, h.dlIdle, [], (List.append_nil _).symm, fun _ he => nomatch he⟩

/-- The body of an admitted instruction transmits encoded bytes only. -/
theorem body_emitted (hc : s.cfg.codesDistinct = true) (hinv : Inv s) (hal : allowed i s.ses.sesState = true) :
    StaysAt (Emitted s.cfg i s.trace) AnyCode (bodyOf i) s.accepted := by
  have hrest : EmittedAtRest s.cfg i s.trace s.accepted := emitted_accepted hinv.idle
  have hstart := hrest.weaken
  cases i with
  | ldcs a => exact stays_oneByte (csRead_sendsEncoded hc _) _ hstart
  | stcs a v => exact stays_drop (csWrite_emitted hc (fun _ => trivial) _ _) _ hstart
  | lds1 a => exact ldsOp_sendsEncoded hc _ _ _ hstart
  | lds2 a => exact ldsOp_sendsEncoded hc _ _ _ hstart
  | lds3 a => exact ldsOp_sendsEncoded hc _ _ _ hstart
  | sts1 a v => exact stays_drop (stsOp_sendsEncoded hc _ _ _) _ hstart
  | sts2 a v => exact stays_drop (stsOp_sendsEncoded hc _ _ _) _ hstart
  | sts3 a v => exact stays_drop (stsOp_sendsEncoded hc _ _ _) _ hstart
  | stptr1 p => exact stays_drop (stPtrOp_sendsEncoded hc _ _) _ hstart
  | stptr2 p => exact stays_drop (stPtrOp_sendsEncoded hc _ _) _ hstart
  | stptr3 p => exact stays_drop (stPtrOp_sendsEncoded hc _ _) _ hstart
  | ldptr1 => exact ldPtrOp_sendsEncoded hc rfl _ hstart
  | ldptr2 => exact ldPtrOp_sendsEncoded hc rfl _ hstart
  | ldptr3 => exact ldPtrOp_sendsEncoded hc rfl _ hstart
  | stinc v more => exact stays_drop (stIncWire_sendsEncoded hc v more) _ hstart
  | ldinc more => exact ldIncWire_sendsEncoded hc more _ hstart
  | repeatNext n => exact stays_drop (repeatWire_sendsEncoded n) _ hstart
  | key k => exact stays_drop (keyWriteOp_sendsEncoded hc k) _ hstart
  | getStatus => exact stays_get_bind (fun _ _ => stays_pure _) _ hstart
  | openSession p port =>
    exact StaysAt.weaken (stays_drop (openOp_emitted hc p port) _ hrest)
  | enterProgrammingMode => exact stays_drop (enterOp_sendsEncoded hc) _ hstart
  | closeSession r => exact stays_drop (closeBody_sendsEncoded hc r) _ hstart
  | initLink => exact StaysAt.weaken (stays_drop phyInit_emitted _ hrest)
  | sendBytes bs =>
    have hsend : Sendable s.cfg (.sendBytes bs) s.accepted.dl.dlState bs := hinv.idle.dlIdle.symm ▸ sendable_given bs
    exact staysAt_bind (phySend_emitted hstart hsend) fun _ => stays_pure _
  | receiveBytes n timeout => exact phyRecv_emitted n timeout _ hstart
  | csRead a => exact stays_oneByte (csRead_sendsEncoded hc _) _ hstart
  | csWrite a v => exact stays_drop (csWrite_emitted hc (fun _ => trivial) _ _) _ hstart
  | lds a n => exact ldsOp_sendsEncoded hc _ _ _ hstart
  | sts a v n => exact stays_drop (stsOp_sendsEncoded hc _ _ _) _ hstart
  | stPtr a => exact stays_get_bind (fun _ _ => stays_drop (stPtrOp_sendsEncoded hc _ _)) _ hstart
  | ldPtr =>
    have hw := sizeOk_addrBytes (hinv.profileOk (trOpen_of_mode hinv (by simpa [allowed] using hal)))
    exact ldPtrOp_sendsEncoded hc hw _ hstart
  | stPtrInc b r => exact stays_drop (stPtrIncOp_sendsEncoded hc b r) _ hstart
  | ldPtrInc n r => exact ldPtrIncOp_sendsEncoded hc n r _ hstart
  | keyWrite k => exact stays_drop (keyWriteOp_sendsEncoded hc k) _ hstart
  | unlockChipEraseKey => exact stays_drop (unlockEraseKey_sendsEncoded hc) _ hstart
  | waitNvmReady => exact stays_drop (waitCommand_sendsEncoded hc) _ hstart
  | chipErase => exact stays_drop (eraseWhole_sendsEncoded hc _ _) _ hstart
  | writePage r o d => exact stays_drop (writePageOp_sendsEncoded hc r o d) _ hstart
  | readBytes r o n => exact readBytesOp_sendsEncoded hc r o n _ hstart
  | readFuse index => exact readFuseOp_sendsEncoded hc index _ hstart
  | writeFuse index v => exact stays_drop (writeFuseOp_sendsEncoded hc index v) _ hstart
  | erasePage r o => exact stays_drop (erasePageOp_sendsEncoded hc r o) _ hstart
  | eepromErase => exact stays_drop (eraseWhole_sendsEncoded hc _ _) _ hstart
  | crcCheck => exact stays_pure _ _ hstart

/-- Taking an error, with the forced cleanup where there is one (60_exceptions.md R284, R288). -/
theorem deliver_emitted (hc : c.codesDistinct = true) (h : Emitted c i tr s) (cleans : Bool) (e : Err) :
    Emitted c i tr (s.deliver cleans e) := by
  have hidle : Emitted c i tr s.sequencersIdle := h
  unfold State.deliver
  split_ifs
  · exact hidle
  · exact (closeBody_sendsEncoded hc s.sequencersIdle.cfg.cleanupReset).effect hidle
  · exact hidle

/-- Whatever an instruction does from a state between commands. -/
theorem exec_emitted (hc : s.cfg.codesDistinct = true) (hinv : Inv s) (h : exec i s = .next t) :
    Emitted s.cfg i s.trace t := by
  have hstart : Emitted s.cfg i s.trace s.accepted := (emitted_accepted hinv.idle).weaken
  rw [exec_eq] at h
  rcases runCommand_cases (admOf i) (!(isOpen i || isClose i)) (bodyOf i) s with
    ⟨-, hrun⟩ | ⟨-, -, hrun⟩ | ⟨-, hadmits, ⟨data, u, hbody, hrun⟩ | ⟨e, u, hbody, hrun⟩⟩
  · obtain rfl := Host.Outcome.next.inj (h.symm.trans hrun)
    exact hstart
  · obtain rfl := Host.Outcome.next.inj (h.symm.trans hrun)
    exact hstart
  · obtain rfl := Host.Outcome.next.inj (h.symm.trans hrun)
    exact (body_emitted hc hinv ((admits_admOf i _).symm.trans hadmits)).1 data u hbody
  · obtain rfl := Host.Outcome.next.inj (h.symm.trans hrun)
    have hu := (body_emitted hc hinv ((admits_admOf i _).symm.trans hadmits)).2 e u hbody
    exact deliver_emitted hc hu.1 _ e

end Sys2Proof.Machine

namespace Sys2Proof.Proofs

open Sys2Proof.Machine

/-- Settles O5: every piece of every instruction, and the forced cleanup after it, transmits encoded bytes only. -/
theorem onlyEncodedBytesAreSent : Obligations.OnlyEncodedBytesAreSent := by
  intro i s t hinv hc h
  obtain ⟨-, -, htrace⟩ := exec_emitted hc hinv h
  exact htrace

end Sys2Proof.Proofs
end

section
/-! PROOFS. The line bit-time by bit-time (40_phy.md R131 to R133, R136). -/

namespace Sys2Proof.Machine

variable {f : FrameFormat} {l : Line}

/-! ### The serialiser -/

/-- These values are still to go out, the first in bit 0 of the transmit register (40_phy.md R131). -/
structure Line.Sends (l : Line) (vs : List Bool) : Prop where
  count : l.txCnt = vs.length
  fits : vs.length ≤ 12
  bits : ∀ i < vs.length, l.txShift.getLsbD i = vs.getD i true

theorem Line.load_sends (f : FrameFormat) (l : Line) (b : Byte) : (l.load f b).Sends (frameBits f b) where
  count := rfl
  fits := le_rfl
  bits i hi := by
    rw [Line.load, packFrame_getLsbD _ _ hi, List.getD_eq_getElem _ _ hi, List.getD_eq_getElem _ _ hi]

/-- One bit-time drives the first of the values to go out, or 1 where there is none. -/
theorem Line.Sends.serialise {vs : List Bool} (h : l.Sends vs) :
    l.serialise.lineTx = vs.headD true ∧ l.serialise.Sends vs.tail := by
  obtain ⟨hcount, hfits, hbits⟩ := h
  cases vs with
  | nil => simp [Line.serialise, hcount, Line.Sends.mk]
  | cons v vs =>
    have hs : l.serialise = { l with
        lineTx := l.txShift.getLsbD 0, txShift := shiftIn l.txShift true, txCnt := vs.length } := by
      simp [Line.serialise, hcount, shiftIn]
    rw [hs]
    simp only [List.length_cons] at hfits hbits
    refine ⟨hbits 0 (Nat.succ_pos _), rfl, Nat.le_of_succ_le hfits, fun i hi => ?_⟩
    rw [shiftIn_getLsbD _ _ _ (by simp at hi; omega), if_neg (by simp at hi; omega)]
    exact hbits (i + 1) (Nat.succ_lt_succ hi)

theorem Line.Sends.drives {vs : List Bool} (h : l.Sends vs) (k : Nat) :
    (Line.serialise^[k + 1] l).lineTx = vs.getD k true := by
  induction k generalizing l vs with
  | zero => exact h.serialise.1.trans (by cases vs <;> rfl)
  | succ k ih =>
    rw [Function.iterate_succ_apply, ih h.serialise.2]
    cases vs <;> rfl

end Sys2Proof.Machine

namespace Sys2Proof.Proofs

open Sys2Proof.Machine

/-- Settles O30: a loaded frame is twelve values to go out, and each bit-time takes the first of them. -/
theorem serialiserDrivesTheFrame : Obligations.SerialiserDrivesTheFrame := fun f l b k =>
  (l.load_sends f b).drives k

/-- Settles O31: `send_silent` names every register of the line after the echo. -/
theorem selfEcho : Obligations.SelfEcho := by
  intro f l bs drive hquiet hsilent
  obtain ⟨x, r, hsend⟩ := send_silent (f := f) bs l hquiet drive hsilent hquiet.driverHigh
  have hrest : LineQuiet (l.send f bs drive) := by
    rw [hsend]
    exact ⟨hquiet.txIdle, hquiet.rxIdle, hquiet.high, rfl⟩
  exact ⟨congrArg Line.rxFifo hsend, (congrArg Line.frameErr hsend :), hrest⟩

/-- Settles O32: listening to twelve values from a start bit on is receiving them as one frame. -/
theorem frameReceived : Obligations.FrameReceived := by
  intro f l w hquiet hlength hstart
  have hframe : l.listen f w = l.received f w := by
    rw [listen_eq_samples l hquiet.txIdle hquiet.driverHigh, sample_frame l hquiet hlength hstart]
  simp only [hframe]
  refine ⟨fun b hb => ?_, fun hnone => ?_, rfl⟩
  · simp [Line.received, hb]
  · simp [Line.received, hnone]

end Sys2Proof.Proofs
end

section
/-! PROOFS. `send_bytes` and `receive_bytes` (40_phy.md R143 to R146): PHY's send and receive where bytes stand
unread, and how the two commands answer. -/

namespace Sys2Proof.Machine

variable {f : FrameFormat} {i : Instr} {s u : State} {xs : List Xfer} {w : World} {data bs more : List Byte}
  {n timeout : Nat}

/-! ### A command's answer, from the end of its body -/

theorem exec_of_body_ok (hb : s.rsp.busy = false) (hal : allowed i s.ses.sesState = true)
    (h : bodyOf i s.accepted = .ok data u) : exec i s = .next (u.respondOk data) := by
  rw [exec_eq]
  exact runCommand_ok hb (by rw [admits_admOf]; exact hal) h

theorem exec_of_body_error {e : Err} (hb : s.rsp.busy = false) (hal : allowed i s.ses.sesState = true)
    (h : bodyOf i s.accepted = .error e u) : exec i s = .next (u.deliver (!(isOpen i || isClose i)) e) := by
  rw [exec_eq]
  exact runCommand_error hb (by rw [admits_admOf]; exact hal) h

/-- Transfers that touch no register of the session, DL or NVM, answered `OK`. -/
theorem Moved.finished (h : Moved s.accepted u xs) (hw : u.world = w) (data : List Byte) :
    Finished s (u.respondOk data) data xs w s.ses s.dl s.nvm where
  answered := ⟨rfl, rfl, rfl⟩
  exchanged := ⟨h.cfg, h.inputs, h.linkUp, h.syncAttempt, h.baudCur, h.frameErr, h.phyIdle, h.noEcho, h.quiet,
    h.traffic, hw⟩
  ses := h.ses
  dl := h.dl
  nvm := h.nvm

theorem Live.accepted (h : Live s) : Live s.accepted := h.setRsp _

/-- PHY's commands are admitted in every session (60_exceptions.md R292). -/
theorem Ready.allowed_of_session (h : Ready s) (hi : admOf i = .inSession) :
    allowed i s.ses.sesState = true := by
  rw [← admits_admOf, hi]
  cases hmode : s.ses.sesState with
  | closed => exact absurd hmode h.admitted
  | _ => rfl

/-! ### Sending (40_phy.md R143, R144) -/

/-- A transmission that comes back stands behind what was unread. -/
theorem trWrite_echoes (hq : LineQuiet s.phy.line) (h : Echoes (s.draw (.trWrite bs))) :
    ∃ x r, trWrite bs s = .ok ()
      ((((s.drawn (.trWrite bs)).setLine { s.phy.line with
          lineTx := true, txShift := x, rxShift := r, rxFifo := s.phy.line.rxFifo ++ bs }).setNow
        (s.now + 1 + (s.draw (.trWrite bs)).dt)).logged (.trWrite bs) .done) := by
  obtain ⟨x, r, hsend⟩ := send_silent (f := s.cfg.frame) bs s.phy.line hq _ h.silent hq.driverHigh
  refine ⟨x, r, ?_⟩
  rw [trWrite_ok h.noError, ← hsend, Line.transmit, h.heard]
  rfl

/-- PHY's send removes as many bytes as it sent from the front of what was received. -/
theorem phySend_echoed (hq : LineQuiet s.phy.line) (hne : bs ≠ [])
    (hecho : Echoes (s.env.answer s.cfg (.trWrite bs)).1)
    (hread : ((s.env.answer s.cfg (.trWrite bs)).2.answer s.cfg (.trRead 0 s.cfg.tEcho)).1.ioerror = false) :
    ∃ t, phySend bs s = .ok () t ∧ Moved s t [.tx bs] ∧
      t.phy.line.rxFifo = (s.phy.line.rxFifo ++ bs).drop bs.length := by
  obtain ⟨x, r, hwrite⟩ := trWrite_echoes
    (s := s.setPhy { s.phy with phyState := .tx, echoPending := bs.length }) hq hecho
  generalize hs1 : State.logged _ _ _ = s1 at hwrite
  have hphy1 : s1.phy = { s.phy with
      phyState := .tx
      echoPending := bs.length
      line := { s.phy.line with
        lineTx := true, txShift := x, rxShift := r, rxFifo := s.phy.line.rxFifo ++ bs } } := by
    rw [← hs1]; rfl
  have hcfg1 : s1.cfg = s.cfg := by rw [← hs1]; rfl
  have henv1 : s1.env = (s.env.answer s.cfg (.trWrite bs)).2 := by rw [← hs1]; rfl
  have hecho_read := trRead_held (n := bs.length) (t := s.cfg.tEcho)
    (s := s1.setPhy { s1.phy with phyState := .echo })
    (by simpa [State.draw, henv1, hcfg1] using hread) (by simp [hphy1])
  generalize hs2 : State.logged _ _ _ = s2 at hecho_read
  have htraffic : s2.traffic = s.traffic ++ [.tx bs] := by
    rw [← hs2, ← hs1, traffic_logged]
    simp [State.traffic, Event.xfer]
  have hphy2 : s2.phy = { s1.phy with
      phyState := .echo
      line := { s1.phy.line with rxFifo := (s.phy.line.rxFifo ++ bs).drop bs.length } } := by
    rw [← hs2]; simp [hphy1]
  let s3 := s2.setPhy { s2.phy with echoPending := 0 }
  refine ⟨s3.setPhy { s3.phy with phyState := .idle }, ?_, ?_, ?_⟩
  · rw [phySend, if_neg hne]
    apply inPhy_ok
    rw [Act.modify_bind_run, Act.bind_ok hwrite, setPhyState_bind_run, Act.get_bind_run, State.setPhy_cfg, hcfg1,
      Act.bind_ok hecho_read]
    rfl
  · constructor
    all_goals simp only [s3, State.setPhy_cfg, State.setPhy_phy]
    case quiet => rw [hphy2, hphy1]; exact ⟨hq.txIdle, hq.rxIdle, hq.high, rfl⟩
    case traffic => exact htraffic
    case linkUp | syncAttempt | baudCur | frameErr => rw [hphy2, hphy1]
    case cfg | ses | dl | nvm | rsp | inputs => simp [← hs2, ← hs1]
  · simp [s3, hphy2]

/-! ### Receiving (40_phy.md R134, R146) -/

/-- A read that completes completes PHY's receive. -/
theorem phyRecv_completes {q : PortAct} {l : Line} {now : Nat} (hl : Live s) (hn : n ≠ 0)
    (h : trRead n timeout (s.setPhy { s.phy with phyState := .rx }) = .ok (some bs)
      (((((s.setPhy { s.phy with phyState := .rx }).drawn q).setLine l).setNow now).logged (.trRead n timeout)
        (.bytes bs))) (hquiet : LineQuiet l) (hferr : l.frameErr = s.phy.line.frameErr) :
    ∃ t, phyRecv n timeout s = .ok bs t ∧ Moved s t [.rx bs] ∧
      t.world = ⟨(s.env.answer s.cfg q).2, l.rxFifo, now⟩ := by
  generalize hu : State.logged _ _ _ = u at h
  refine ⟨u.setPhy { u.phy with phyState := .idle }, ?_, ?_, ?_⟩
  · rw [phyRecv, if_neg hn]
    apply inPhy_ok
    rw [setPhyState_bind_run, Act.bind_ok h]
    rfl
  · subst hu
    exact ⟨rfl, rfl, rfl, rfl, rfl, rfl, rfl, rfl, rfl, hferr, rfl, hl.noEcho, hquiet, by
      simp [State.traffic, Event.xfer]⟩
  · subst hu; rfl

/-- Bytes that stand unread are taken at once. -/
theorem phyRecv_held {left : List Byte} (hl : Live s) (hne : bs ≠ []) (hfifo : s.phy.line.rxFifo = bs ++ left)
    (hio : (s.env.answer s.cfg (.trRead 0 timeout)).1.ioerror = false) :
    ∃ t, phyRecv bs.length timeout s = .ok bs t ∧ Moved s t [.rx bs] ∧
      t.world = ⟨(s.env.answer s.cfg (.trRead 0 timeout)).2, left, s.now⟩ := by
  have hread := trRead_held (n := bs.length) (t := timeout) (s := s.setPhy { s.phy with phyState := .rx }) hio
    (by simp [hfifo])
  simp only [State.setPhy_phy, hfifo, List.take_left, List.drop_left, State.setPhy_now] at hread
  exact phyRecv_completes (q := .trRead 0 timeout) hl (List.length_pos_of_ne_nil hne).ne' hread
    ⟨hl.quiet.txIdle, hl.quiet.rxIdle, hl.quiet.high, hl.quiet.driverHigh⟩ rfl

/-- Bytes that come in time are taken behind those that stood unread. -/
theorem trRead_fills (ho : s.ses.trOpen = true) (hq : LineQuiet s.phy.line) (hne : more ≠ []) (ht : 0 < timeout)
    (h : answers s.cfg.frame (s.draw (.trRead more.length timeout)) more) :
    ∃ r, trRead (s.phy.line.rxFifo ++ more).length timeout s = .ok (some (s.phy.line.rxFifo ++ more))
      ((((s.drawn (.trRead more.length timeout)).setLine
        { s.phy.line with rxShift := r, rxFifo := [] }).setNow
          (s.now + min (s.draw (.trRead more.length timeout)).dt (timeout - 1))).logged
            (.trRead (s.phy.line.rxFifo ++ more).length timeout) (.bytes (s.phy.line.rxFifo ++ more))) := by
  generalize hn : (s.phy.line.rxFifo ++ more).length = n
  have hact : s.readAct n timeout = .trRead more.length timeout := by simp [State.readAct, ← hn]
  obtain ⟨r, hlisten⟩ := listenFor_begins (f := s.cfg.frame) hq h.2
  have hl : s.listened n timeout = (s.drawn (.trRead more.length timeout)).setLine
      { s.phy.line with rxShift := r, rxFifo := s.phy.line.rxFifo ++ more } := by
    unfold State.listened
    rw [hact, State.listenFor_open _ _ _ (show (s.drawn _).ses.trOpen = true from ho), if_neg (by omega), ← hn,
      List.length_append]
    exact congrArg _ hlisten
  have hwaits : ¬ n ≤ s.phy.line.rxFifo.length := by
    have := List.length_pos_of_ne_nil hne
    rw [← hn, List.length_append]; omega
  have hread := trRead_bytes (n := n) (t := timeout) (s := s) (by rw [hact]; exact h.1) (by rw [hl]) hn.ge
  refine ⟨r, ?_⟩
  have htaken : (s.phy.line.rxFifo ++ more).take n = s.phy.line.rxFifo ++ more := List.take_of_length_le hn.le
  have hrest : (s.phy.line.rxFifo ++ more).drop n = [] := List.drop_of_length_le hn.le
  rw [hread, hl, hact, if_neg hwaits]
  simp only [State.setLine_phy, htaken, hrest]
  rfl

theorem phyRecv_fills (hl : Live s) (hne : more ≠ []) (ht : 0 < timeout)
    (h : answers s.cfg.frame (s.env.answer s.cfg (.trRead more.length timeout)).1 more) :
    ∃ t, phyRecv (s.phy.line.rxFifo ++ more).length timeout s = .ok (s.phy.line.rxFifo ++ more) t ∧
      Moved s t [.rx (s.phy.line.rxFifo ++ more)] ∧
      t.world = ⟨(s.env.answer s.cfg (.trRead more.length timeout)).2, [],
        s.now + min (s.env.answer s.cfg (.trRead more.length timeout)).1.dt (timeout - 1)⟩ := by
  obtain ⟨r, hread⟩ := trRead_fills (s := s.setPhy { s.phy with phyState := .rx }) hl.transport hl.quiet hne ht h
  exact phyRecv_completes (q := .trRead more.length timeout) hl
    (List.length_pos_of_ne_nil (List.append_ne_nil_of_right_ne_nil _ hne)).ne' hread
    ⟨hl.quiet.txIdle, hl.quiet.rxIdle, hl.quiet.high, hl.quiet.driverHigh⟩ rfl

/-! ### A read that times out (40_phy.md R134, R146) -/

theorem sample_rxFifo_length_le (l : Line) (v : Bool) : l.rxFifo.length ≤ (l.sample f v).rxFifo.length := by
  have haccept : ∀ (m : Line) w, m.rxFifo.length ≤ (m.accept f w).rxFifo.length := fun m w => by
    unfold Line.accept
    split
    · simp
    · exact le_rfl
  unfold Line.sample
  dsimp only
  split
  · split <;> exact le_rfl
  · split
    · refine le_trans ?_ (haccept _ _)
      exact le_rfl
    · exact le_rfl

/-- Listening removes no byte. -/
theorem listen_rxFifo_length_le (l : Line) (d : List Bool) : l.rxFifo.length ≤ (l.listen f d).rxFifo.length := by
  induction d generalizing l with
  | nil => exact le_rfl
  | cons v d ih =>
    have hserialise : l.serialise.rxFifo = l.rxFifo := by unfold Line.serialise; split <;> rfl
    have htick : l.rxFifo.length ≤ (l.tick f v).rxFifo.length := hserialise ▸ sample_rxFifo_length_le _ _
    exact htick.trans (ih _)

/-- A read that listens to no more than these bytes has no more than them when it stops. -/
theorem listenFor_carries {l : Line} {d : List Bool} (hq : LineQuiet l) (hc : carries f more d = true) (n : Nat) :
    (l.listenFor f n d).rxFifo.length ≤ l.rxFifo.length + more.length := by
  obtain ⟨k, hk⟩ := listenFor_eq_listen (f := f) l n d
  obtain ⟨r, hall⟩ := samples_carries hq hc
  have hsplit : l.listen f d = (l.listen f (d.take k)).listen f (d.drop k) := by
    simp only [Line.listen, ← List.foldl_append, List.take_append_drop]
  calc (l.listenFor f n d).rxFifo.length
      ≤ (l.listen f d).rxFifo.length := by rw [hk, hsplit]; exact listen_rxFifo_length_le _ _
    _ = l.rxFifo.length + more.length := by
        rw [listen_eq_samples l hq.txIdle hq.driverHigh, hall, List.length_append]

/-- Too few bytes come, or there is no time to wait for them. -/
def FallsShort (s : State) (n timeout : Nat) : Prop :=
  timeout = 0 ∨ ∃ more,
    carries s.cfg.frame more (s.env.answer s.cfg (.trRead (n - s.phy.line.rxFifo.length) timeout)).1.drive = true ∧
      s.phy.line.rxFifo.length + more.length < n

theorem FallsShort.listened (h : FallsShort s n timeout) (ho : s.ses.trOpen = true) (hq : LineQuiet s.phy.line)
    (hn : s.phy.line.rxFifo.length < n) :
    ¬ n ≤ (s.listened n timeout).phy.line.rxFifo.length := by
  unfold State.listened
  rw [State.listenFor_open _ _ _ (show (s.drawn _).ses.trOpen = true from ho), not_le]
  rcases h with rfl | ⟨more, hcarries, hfew⟩
  · exact hn
  · split_ifs
    · exact hn
    · exact (listenFor_carries hq hcarries n).trans_lt hfew

/-- The error of a receive that timed out (40_phy.md R146). -/
def receiveTimeout (n : Nat) : Err where
  code := .linkTimeout
  info := { base :=
    { layer := some .phy, op := [.receiveBytes], phase := some .response, wanted := some n } }

theorem phyRecv_timesOut (hl : Live s) (hn : s.phy.line.rxFifo.length < n)
    (hio : (s.env.answer s.cfg (.trRead (n - s.phy.line.rxFifo.length) timeout)).1.ioerror = false)
    (hshort : FallsShort s n timeout) :
    ∃ t, phyRecv n timeout s = .error (receiveTimeout n) t ∧ s.now + timeout ≤ t.now := by
  have hread := trRead_timeout (n := n) (t := timeout) (s := s.setPhy { s.phy with phyState := .rx }) hio rfl
    (FallsShort.listened (s := s.setPhy { s.phy with phyState := .rx }) hshort hl.transport hl.quiet hn)
  generalize hu : State.logged _ _ _ = u at hread
  refine ⟨u.setPhy { u.phy with phyState := .idle, echoPending := 0 }, ?_, ?_⟩
  · rw [phyRecv, if_neg (by omega)]
    refine inPhy_error (e := { code := .linkTimeout, info := { base :=
      { layer := some .phy, phase := some .response, wanted := some n } } }) ?_
    rw [setPhyState_bind_run, Act.bind_ok hread]
    rfl
  · subst hu
    simp only [State.setPhy_now, State.logged_now, State.setNow_now]
    split_ifs <;> omega

end Sys2Proof.Machine

namespace Sys2Proof.Proofs

open Sys2Proof.Machine

/-- Settles O41: PHY's send in a world that answers it, and, where bytes stand unread, in one that only brings
its echo back. -/
theorem sendBytes : Obligations.SendBytes := by
  intro s bs hready
  have hal : allowed (.sendBytes bs) s.ses.sesState = true := hready.allowed_of_session rfl
  have hlive := hready.live.accepted
  refine ⟨fun w hplays => ?_, fun hne hecho hread => ?_⟩
  · by_cases hbs : bs = []
    · subst hbs
      exact ⟨_, exec_of_body_ok hready.notBusy hal rfl, (Moved.refl hlive).finished hplays.symm []⟩
    · simp only [sends, if_neg hbs] at hplays ⊢
      obtain ⟨t, hsend, hmoved, hw⟩ := phySend_plays (s := s.accepted) rfl hbs hlive.transport hlive.quiet hplays
      exact ⟨_, exec_of_body_ok hready.notBusy hal (noData_ok hsend), hmoved.finished hw.symm []⟩
  · obtain ⟨t, hsend, hmoved, hfifo⟩ := phySend_echoed (s := s.accepted) hlive.quiet hne hecho hread
    exact ⟨_, exec_of_body_ok hready.notBusy hal (noData_ok hsend), ⟨rfl, rfl, rfl⟩, hmoved.ses, hmoved.nvm,
      hmoved.dl, hmoved.traffic, hfifo⟩

/-- Settles O42, clause by clause: nothing asked for, bytes that stand unread, bytes that come, and a read that
times out, whose error closes the session (`forcedCleanup_left`). -/
theorem receiveBytes : Obligations.ReceiveBytes := by
  intro s timeout hready
  have hal : ∀ n, allowed (.receiveBytes n timeout) s.ses.sesState = true := fun n =>
    hready.allowed_of_session rfl
  have hlive := hready.live.accepted
  refine ⟨?_, ?_, ?_, ?_⟩
  · exact ⟨_, exec_of_body_ok hready.notBusy (hal 0) rfl, (Moved.refl hlive).finished rfl []⟩
  · intro bs left hne hfifo hio
    obtain ⟨t, hrecv, hmoved, hw⟩ := phyRecv_held (s := s.accepted) hlive hne hfifo hio
    exact ⟨_, exec_of_body_ok hready.notBusy (hal _) hrecv, hmoved.finished hw bs⟩
  · intro more hne ht hanswers
    obtain ⟨t, hrecv, hmoved, hw⟩ := phyRecv_fills (s := s.accepted) hlive hne ht hanswers
    exact ⟨_, exec_of_body_ok hready.notBusy (hal _) hrecv, hmoved.finished hw _⟩
  · intro n hn d hio hshort
    obtain ⟨t, hrecv, htime⟩ := phyRecv_timesOut (s := s.accepted) hlive hn hio hshort
    have hleft := forcedCleanup_left t.sequencersIdle
    exact ⟨_, exec_of_body_error hready.notBusy (hal n) hrecv, rfl,
      ⟨hleft.closed.mode, hleft.closed.transport, hleft.closed.link, hleft.closed.key⟩, hleft.fifo,
      htime.trans hleft.now⟩

end Sys2Proof.Proofs
end

section
/-! PROOFS. Link initialisation in a world that lets its first attempt succeed (40_phy.md R138, R139, R141): each
step of the attempt, and the attempt put together. -/

namespace Sys2Proof.Machine

variable {s : State} {w : World}

/-- What the steps of link initialisation leave alone. -/
structure InitFrame (s t : State) : Prop where
  cfg : t.cfg = s.cfg
  ses : t.ses = s.ses
  dl : t.dl = s.dl
  nvm : t.nvm = s.nvm
  rsp : t.rsp = s.rsp
  inputs : t.inputs = s.inputs

theorem InitFrame.trans {t u : State} (h : InitFrame s t) (h' : InitFrame t u) : InitFrame s u :=
  ⟨h'.cfg.trans h.cfg, h'.ses.trans h.ses, h'.dl.trans h.dl, h'.nvm.trans h.nvm, h'.rsp.trans h.rsp,
    h'.inputs.trans h.inputs⟩

/-- Setting the baud rate while the target is silent. -/
theorem trSetBaud_silent {b : Nat} (ho : s.ses.trOpen = true) (hq : LineQuiet s.phy.line)
    (h : brings s.cfg.frame (s.draw (.trSetBaud b)) []) :
    ∃ r, trSetBaud b s = .ok ()
      ((((s.drawn (.trSetBaud b)).setPhy
        { s.phy with baudCur := b, line := { s.phy.line with rxShift := r } }).setNow
          (s.now + (s.draw (.trSetBaud b)).dt)).logged (.trSetBaud b) .done) := by
  obtain ⟨r, hr⟩ := samples_carries hq h.2
  refine ⟨r, ?_⟩
  have hlisten : (s.drawn (.trSetBaud b)).listen (s.draw (.trSetBaud b)).drive =
      (s.drawn (.trSetBaud b)).setLine { s.phy.line with rxShift := r } := by
    rw [State.listen_open _ _ (show (s.drawn _).ses.trOpen = true from ho), State.drawn_cfg, State.drawn_phy,
      listen_eq_samples _ hq.txIdle hq.driverHigh, hr, List.append_nil]
  rw [trSetBaud_ok h.1, hlisten]
  rfl

/-- The attempt of 40_phy.md R139 in such a world: SYNC comes back. -/
theorem syncAttempt_synchronises (ho : s.ses.trOpen = true) (hq : LineQuiet s.phy.line)
    (h : Synchronises s.cfg s.world w) :
    ∃ t, syncAttempt s = .ok (some [SYNC]) t ∧ InitFrame s t ∧
      t.phy.syncAttempt = s.phy.syncAttempt + 1 ∧ t.phy.baudCur = s.cfg.baud ∧
      t.phy.echoPending = s.phy.echoPending ∧ LineQuiet t.phy.line ∧
      t.traffic = s.traffic ++ [.tx [SYNC]] ∧ t.breaks = s.breaks + 1 ∧ t.world = w := by
  obtain ⟨hbaud, hbreak, hecho, hread, rfl⟩ := h
  let s1 := s.setPhy { s.phy with syncAttempt := s.phy.syncAttempt + 1, phyState := .setBaud }
  obtain ⟨r1, run1⟩ := trSetBaud_silent (s := s1) ho hq hbaud
  generalize hs2 : State.logged _ _ _ = s2 at run1
  have hcfg2 : s2.cfg = s.cfg := by rw [← hs2]; rfl
  have henv2 : s2.env = (s.env.answer s.cfg (.trSetBaud s.cfg.baud)).2 := by rw [← hs2]; rfl
  have run3 := trBreak_ok (d := s.cfg.breakBits) (g := s.cfg.breakGuardBits)
    (s := s2.setPhy { s2.phy with phyState := .brk }) (by simpa [State.draw, hcfg2, henv2] using hbreak)
  generalize hs4 : State.logged _ _ _ = s4 at run3
  have hcfg4 : s4.cfg = s.cfg := by rw [← hs4, ← hcfg2]; rfl
  have henv4 : s4.env = (s2.env.answer s.cfg (.trBreak s.cfg.breakBits s.cfg.breakGuardBits)).2 := by
    rw [← hs4, ← hcfg2]; rfl
  have hline4 : s4.phy.line = { s2.phy.line with lineTx := true, rxPrev := true } := by rw [← hs4]; rfl
  let s5 := (((s4.setLine { s4.phy.line with rxFifo := [] }).logged .flush .done)).setPhy
    { s4.phy with phyState := .syncTx, line := { s4.phy.line with rxFifo := [] } }
  have hq5 : LineQuiet s5.phy.line := by
    simp only [s5, State.setPhy_phy, hline4, ← hs2]
    exact ⟨hq.txIdle, hq.rxIdle, rfl, rfl⟩
  obtain ⟨x, r5, run5⟩ := trWrite_echoes (s := s5) (bs := [SYNC]) hq5
    (by simpa [s5, State.draw, hcfg4, henv4, henv2] using hecho)
  generalize hs6 : State.logged _ _ _ = s6 at run5
  have hcfg6 : s6.cfg = s.cfg := by rw [← hs6, ← hcfg4]; rfl
  have henv6 : s6.env = (s4.env.answer s.cfg (.trWrite [SYNC])).2 := by rw [← hs6, ← hcfg4]; rfl
  have hline6 : s6.phy.line =
      { s5.phy.line with lineTx := true, txShift := x, rxShift := r5, rxFifo := [SYNC] } := by
    rw [← hs6]; rfl
  generalize hs7 : s6.setPhy { s6.phy with phyState := .syncEcho } = s7
  have hline7 : s7.phy.line = s6.phy.line := by rw [← hs7]; rfl
  have run7 := trRead_held (n := 1) (t := s.cfg.tSync) (s := s7)
    (by simpa [State.draw, ← hs7, hcfg6, henv6, henv4, henv2] using hread) (by simp [hline7, hline6])
  simp only [hline7, hline6] at run7
  generalize hs8 : State.logged _ _ _ = s8 at run7
  have hphy8 : s8.phy = { s.phy with
      phyState := .syncEcho
      syncAttempt := s.phy.syncAttempt + 1
      baudCur := s.cfg.baud
      line := s8.phy.line } := by
    simp [← hs8, ← hs7, ← hs6, s5, ← hs4, ← hs2, s1]
  refine ⟨s8, ?_, ?_, by rw [hphy8], by rw [hphy8], by rw [hphy8], ?_, ?_, ?_, ?_⟩
  · refine (Act.bind_ok run1).trans ((Act.bind_ok run3).trans ((Act.bind_ok run5).trans ?_))
    rw [setPhyState_bind_run, hs7]
    exact run7
  · constructor
    all_goals simp [← hs8, ← hs7, ← hs6, s5, ← hs4, ← hs2, s1]
  · rw [← hs8]; exact ⟨hq5.txIdle, hq5.rxIdle, hq5.high, rfl⟩
  · simp [← hs8, ← hs7, ← hs6, s5, ← hs4, ← hs2, s1, State.traffic, List.filterMap_cons, Event.xfer]
  · simp [← hs8, ← hs7, ← hs6, s5, ← hs4, ← hs2, s1, State.breaks, List.countP_cons, Event.isBreak]
  · simp [← hs8, ← hs7, ← hs6, s5, ← hs4, ← hs2, s1, State.world, State.draw]
    omega

/-- Link initialisation completes at its first attempt (40_phy.md R138). -/
theorem phyInit_synchronises (ho : s.ses.trOpen = true) (hq : LineQuiet s.phy.line)
    (he : s.phy.echoPending = 0) (h : Synchronises s.cfg s.world w) :
    ∃ t, phyInit s = .ok () t ∧ InitFrame s t ∧ Linked s t [] w := by
  obtain ⟨u, hrun, hframe, hattempt, hbaud, hecho, hquiet, htraffic, hbreaks, hworld⟩ :=
    syncAttempt_synchronises (s := s.setPhy { s.phy with syncAttempt := 0 }) ho hq h
  have hloop : ∀ n, syncLoop n (s.setPhy { s.phy with syncAttempt := 0 }) =
      .ok () (u.setPhy { u.phy with linkUp := true }) := by
    intro n
    cases n <;> (rw [syncLoop, Act.bind_ok hrun]; rfl)
  refine ⟨(u.setPhy { u.phy with linkUp := true }).setPhy { u.phy with linkUp := true, phyState := .idle },
    ?_, ?_, ?_⟩
  · rw [phyInit]
    exact inPhy_ok (hloop _)
  · exact ⟨hframe.cfg, hframe.ses, hframe.dl, hframe.nvm, hframe.rsp, hframe.inputs⟩
  · exact ⟨hframe.cfg, hframe.inputs, rfl, hattempt, hbaud, rfl, hecho.trans he, hquiet, htraffic, hbreaks, hworld⟩

end Sys2Proof.Machine

namespace Sys2Proof.Proofs

open Sys2Proof.Machine

/-- Settles O43: the command is link initialisation, and neither its acceptance nor its answer is seen in what
`Linked` names. -/
theorem initializeLink : Obligations.InitializeLink := by
  intro s w hready hsync
  have hlive := hready.live.accepted
  obtain ⟨t, hinit, hframe, hlinked⟩ :=
    phyInit_synchronises (s := s.accepted) hlive.transport hlive.quiet hlive.noEcho hsync
  refine ⟨_, exec_of_body_ok hready.notBusy (hready.allowed_of_session rfl) (noData_ok hinit), ⟨rfl, rfl, rfl⟩,
    ?_, hframe.ses, hframe.nvm, hframe.dl⟩
  exact ⟨hlinked.cfg, hlinked.inputs, hlinked.linkUp, hlinked.syncAttempt, hlinked.baudCur, hlinked.phyIdle,
    hlinked.noEcho, hlinked.quiet, hlinked.traffic, hlinked.breaks, hlinked.world⟩

end Sys2Proof.Proofs
end

section
/-! PROOFS. The attempts of link initialisation as the trace shows them (40_phy.md R138 to R142): how often SYNC's
echo was read, what each read gave, how many breaks were made and in which state. -/

namespace Sys2Proof.Machine

variable {α β : Type} {i : Instr} {s t u : State} {e : Err} {tr : List Event} {k n more : Nat}
  {reads : List PortAnswer} {breaks : Nat} {code : Code}

/-! ### Pieces of a command, by what holds where they end -/

/-- Run from `s` the piece ends in `Q`, or with an error in `E`. -/
def Leads (x : Act α) (s : State) (Q : α → State → Prop) (E : Err → State → Prop) : Prop :=
  (∀ a t, x s = .ok a t → Q a t) ∧ (∀ e t, x s = .error e t → E e t)

section
variable {x : Act α} {Q Q' : α → State → Prop} {E E' : Err → State → Prop} {R : β → State → Prop}

theorem leads_ok {a : α} (h : x s = .ok a t) (ht : Q a t) : Leads x s Q E := by
  refine ⟨fun b u hb => ?_, fun e u he => (nomatch h.symm.trans he)⟩
  obtain ⟨rfl, rfl⟩ := EStateM.Result.ok.inj (h.symm.trans hb)
  exact ht

theorem leads_error (h : x s = .error e t) (ht : E e t) : Leads x s Q E := by
  refine ⟨fun b u hb => (nomatch h.symm.trans hb), fun e' u he => ?_⟩
  obtain ⟨rfl, rfl⟩ := EStateM.Result.error.inj (h.symm.trans he)
  exact ht

theorem Leads.mono (h : Leads x s Q E) (hQ : ∀ a t, Q a t → Q' a t) (hE : ∀ e t, E e t → E' e t) :
    Leads x s Q' E' :=
  ⟨fun a t ha => hQ a t (h.1 a t ha), fun e t he => hE e t (h.2 e t he)⟩

theorem leads_bind {f : α → Act β} (hx : Leads x s Q E) (hf : ∀ a t, Q a t → Leads (f a) t R E) :
    Leads (x >>= f) s R E := by
  cases h : x s with
  | ok a u =>
    unfold Leads
    rw [Act.bind_ok h]
    exact hf a u (hx.1 a u h)
  | error e u => exact leads_error (Act.bind_error h) (hx.2 e u h)

theorem leads_modify_bind {g : State → State} {f : Unit → Act β} {P : State → Prop} (hg : P (g s))
    (h : ∀ u, P u → Leads (f ()) u R E) : Leads (modify g >>= f) s R E := h _ hg

theorem leads_get_bind {f : State → Act β} (h : Leads (f s) s R E) : Leads (get >>= f) s R E := h

theorem leads_inPhy {name : OpName} (h : Leads x s Q E)
    (hQ : ∀ a t, Q a t → Q' a (t.setPhy { t.phy with phyState := .idle }))
    (hE : ∀ e t, E e t → E' (e.named name) (t.setPhy { t.phy with phyState := .idle, echoPending := 0 })) :
    Leads (inPhy name x) s Q' E' := by
  cases hr : x s with
  | ok a u => exact leads_ok (inPhy_ok hr) (hQ a u (h.1 a u hr))
  | error e u => exact leads_error (inPhy_error hr) (hE e u (h.2 e u hr))

theorem leads_noData {x : Act Unit} {P : State → Prop} (h : Leads x s (fun _ => P) E) :
    Leads (noData x) s (fun _ => P) E :=
  leads_bind h fun _ _ ht => leads_ok rfl ht

end

/-! ### The entry each byte-port call leaves in the trace -/

/-- `t` comes after `s` by one byte-port call: its entry has the sequencer states of `s`. -/
structure Logs (s t : State) (a : PortAct) (ans : PortAnswer) : Prop where
  trace : t.trace = s.trace ++ [⟨s.phy.phyState, s.dl.dlState, s.nvm.nvmState, a, ans⟩]
  attempt : t.phy.syncAttempt = s.phy.syncAttempt

/-- A failed call. -/
def Fails (s : State) (a : PortAct) (e : Err) (t : State) : Prop := e.code = .transport ∧ Logs s t a .ioerror

theorem listen_syncAttempt (s : State) (d : List Bool) : (s.listen d).phy.syncAttempt = s.phy.syncAttempt := by
  rw [(listen_line d).2.2]

theorem fails_failedAt (s : State) (q a : PortAct) (heard : List Bool) (op : OpName) :
    Fails s a (portError op) (s.failedAt q a heard) :=
  ⟨rfl, by simp [State.failedAt, listen_phyState], by simp [listen_syncAttempt]⟩

/-- A completed call leaves its entry, a failed one an `ioerror`. -/
abbrev LogsCall (x : Act Unit) (a : PortAct) : Prop := ∀ s, Leads x s (fun _ t => Logs s t a .done) (Fails s a)

theorem trOpen_logs (port baud : Nat) : LogsCall (trOpen port baud) (.trOpen port baud) := fun s => by
  cases hio : (s.draw (.trOpen port baud)).ioerror with
  | true => exact leads_error (trOpen_error hio) (fails_failedAt s _ _ _ _)
  | false => exact leads_ok (trOpen_ok hio) ⟨rfl, rfl⟩

theorem trSetBaud_logs (b : Nat) : LogsCall (trSetBaud b) (.trSetBaud b) := fun s => by
  cases hio : (s.draw (.trSetBaud b)).ioerror with
  | true => exact leads_error (trSetBaud_error hio) (fails_failedAt s _ _ _ _)
  | false =>
    exact leads_ok (trSetBaud_ok hio) ⟨by simp [listen_phyState], by simp [listen_syncAttempt]⟩

theorem trWrite_logs (bs : List Byte) : LogsCall (trWrite bs) (.trWrite bs) := fun s => by
  cases hio : (s.draw (.trWrite bs)).ioerror with
  | true => exact leads_error (trWrite_error hio) (fails_failedAt s _ _ _ _)
  | false => exact leads_ok (trWrite_ok hio) ⟨rfl, rfl⟩

theorem trClose_logs : LogsCall trClose .trClose := fun s => by
  cases hio : (s.draw .trClose).ioerror with
  | true => exact leads_error (trClose_error hio) (fails_failedAt s _ _ _ _)
  | false => exact leads_ok (trClose_ok hio) ⟨by simp [listen_phyState], by simp [listen_syncAttempt]⟩

/-- A completed break leaves two entries: the low part, and the guard after it (40_phy.md R137). -/
theorem trBreak_logs (low guardBits : Nat) (s : State) :
    Leads (trBreak low guardBits) s
      (fun _ t => ∃ u, Logs s u (.trBreak low guardBits) .done ∧ Logs u t (.breakGuard guardBits) .done)
      (Fails s (.trBreak low guardBits)) := by
  cases hio : (s.draw (.trBreak low guardBits)).ioerror with
  | true => exact leads_error (trBreak_error hio) (fails_failedAt s _ _ _ _)
  | false =>
    exact leads_ok (trBreak_ok hio)
      ⟨(s.logged (.trBreak low guardBits) .done).setPhy { s.phy with phyState := .guard }, ⟨rfl, rfl⟩, rfl, rfl⟩

/-- How the trace shows what a read returned. -/
def readAnswer : Option (List Byte) → PortAnswer
  | some bs => .bytes bs
  | none => .timeout

theorem readAnswer_eq_bytes_iff {r : Option (List Byte)} {bs : List Byte} :
    readAnswer r = .bytes bs ↔ r = some bs := by
  cases r <;> simp [readAnswer]

theorem readAnswer_got (r : Option (List Byte)) : (readAnswer r).got = gotOf r := by
  cases r with
  | none => rfl
  | some bs => cases bs <;> rfl

theorem trRead_logs (n timeout : Nat) (s : State) :
    Leads (trRead n timeout) s (fun r t => Logs s t (.trRead n timeout) (readAnswer r))
      (Fails s (.trRead n timeout)) := by
  have hphy := (listened_line (s := s) n timeout).2.2
  cases hio : (s.draw (s.readAct n timeout)).ioerror with
  | true => exact leads_error (trRead_error hio) (fails_failedAt s _ _ _ _)
  | false =>
    by_cases hn : n ≤ (s.listened n timeout).phy.line.rxFifo.length
    · exact leads_ok (trRead_bytes hio rfl hn) ⟨by simp [readAnswer]; rw [hphy], by simp; rw [hphy]⟩
    · exact leads_ok (trRead_timeout hio rfl hn) ⟨by simp [readAnswer]; rw [hphy], by simp; rw [hphy]⟩

/-! ### The attempts a trace shows -/

/-- Since the trace `tr`, SYNC's echo was read with these answers and so many breaks were made, each in `P_BREAK`;
`sync_attempt` is `k`. -/
def Tried (tr : List Event) (k : Nat) (reads : List PortAnswer) (breaks : Nat) (s : State) : Prop :=
  s.phy.syncAttempt = k ∧ ∃ ev, s.trace = tr ++ ev ∧ ev.filterMap Event.syncEcho = reads ∧
    ev.countP Event.isBreak = breaks ∧ ∀ e ∈ ev, e.isBreak = true → e.phy = .brk

theorem Tried.start (s : State) : Tried s.trace s.phy.syncAttempt [] 0 s :=
  ⟨rfl, [], (List.append_nil _).symm, rfl, rfl, fun _ he => nomatch he⟩

/-- One further entry. -/
theorem Tried.entry (h : Tried tr k reads breaks s) {a : PortAct} {ans : PortAnswer} (hlogs : Logs s t a ans)
    (hbrk : ∀ d m, Event.isBreak ⟨s.phy.phyState, d, m, a, ans⟩ = true → s.phy.phyState = .brk) :
    Tried tr k
      (reads ++ (Event.syncEcho ⟨s.phy.phyState, s.dl.dlState, s.nvm.nvmState, a, ans⟩).toList)
      (breaks + (Event.isBreak ⟨s.phy.phyState, s.dl.dlState, s.nvm.nvmState, a, ans⟩).toNat) t := by
  obtain ⟨hk, ev, htrace, rfl, rfl, hall⟩ := h
  have htrace' := hlogs.trace
  generalize hentry : (⟨s.phy.phyState, s.dl.dlState, s.nvm.nvmState, a, ans⟩ : Event) = entry at htrace' ⊢
  refine ⟨hlogs.attempt.trans hk, ev ++ [entry], ?_, ?_, ?_, fun e he hb => ?_⟩
  · rw [htrace', htrace, List.append_assoc]
  · rw [List.filterMap_append]
    cases hecho : entry.syncEcho <;> simp [hecho]
  · rw [List.countP_append, List.countP_singleton]
    cases entry.isBreak <;> rfl
  · rcases List.mem_append.mp he with hold | hnew
    · exact hall e hold hb
    · obtain rfl := List.mem_singleton.mp hnew
      subst hentry
      exact hbrk _ _ hb

/-- The call is neither a break nor a read of SYNC's echo. -/
def Aside (p : PhyState) : PortAct → Prop
  | .trBreak _ _ => False
  | .trRead _ _ => p ≠ .syncEcho
  | _ => True

theorem Tried.aside (h : Tried tr k reads breaks s) {a : PortAct} {ans : PortAnswer} (hlogs : Logs s t a ans)
    (ha : Aside s.phy.phyState a) : Tried tr k reads breaks t := by
  have hecho : ∀ d m, Event.syncEcho ⟨s.phy.phyState, d, m, a, ans⟩ = none := fun d m => by
    cases a with
    | trRead n timeout => exact if_neg ha
    | _ => rfl
  have hbreak : ∀ d m, Event.isBreak ⟨s.phy.phyState, d, m, a, ans⟩ = false := fun d m => by
    cases a with
    | trBreak low guardBits => exact ha.elim
    | _ => rfl
  have hentry := h.entry hlogs fun d m hb => absurd (hb.symm.trans (hbreak d m)) Bool.noConfusion
  rw [hecho, hbreak] at hentry
  simpa using hentry

theorem Tried.failedBreak (h : Tried tr k reads breaks s) {low guardBits : Nat}
    (hlogs : Logs s t (.trBreak low guardBits) .ioerror) : Tried tr k reads breaks t := by
  have hentry := h.entry hlogs fun _ _ hb => nomatch hb
  simpa [Event.syncEcho, Event.isBreak] using hentry

theorem Tried.brk (h : Tried tr k reads breaks s) {low guardBits : Nat}
    (hlogs : Logs s t (.trBreak low guardBits) .done) (hp : s.phy.phyState = .brk) :
    Tried tr k reads (breaks + 1) t := by
  have hentry := h.entry hlogs fun _ _ _ => hp
  simpa [Event.syncEcho, Event.isBreak] using hentry

theorem Tried.read (h : Tried tr k reads breaks s) {timeout : Nat} {ans : PortAnswer}
    (hlogs : Logs s t (.trRead n timeout) ans) (hp : s.phy.phyState = .syncEcho) :
    Tried tr k (reads ++ [ans]) breaks t := by
  have hentry := h.entry hlogs fun _ _ hb => nomatch hb
  simpa [Event.syncEcho, Event.isBreak, hp] using hentry

/-! ### What is no attempt -/

theorem staysAt_get_bind {I : State → Prop} {C : Code → Prop} {f : State → Act α} (h : StaysAt I C (f s) s) :
    StaysAt I C (get >>= f) s := h

/-- A call that is no attempt. -/
theorem stays_tried {x : Act Unit} {a : PortAct} (h : LogsCall x a) (ha : ∀ p, Aside p a) :
    Stays (Tried tr k reads breaks) LinkCode x := fun s hs =>
  (h s).mono (fun _ _ hlogs => hs.aside hlogs (ha _)) fun _ _ hfails =>
    ⟨hs.aside hfails.2 (ha _), .inl hfails.1⟩

theorem trRead_tried {timeout : Nat} (hs : Tried tr k reads breaks s) (hp : s.phy.phyState ≠ .syncEcho) :
    StaysAt (Tried tr k reads breaks) LinkCode (trRead n timeout) s :=
  (trRead_logs n timeout s).mono (fun _ _ hlogs => hs.aside hlogs hp) fun _ _ hfails =>
    ⟨hs.aside hfails.2 hp, .inl hfails.1⟩

/-- PHY's send and receive are no attempts. -/
theorem tried_exch : Exch (Tried tr k reads breaks) where
  dl _ _ h := h
  send bs := by
    refine stays_ite (fun _ => stays_pure _) fun _ => stays_inPhy ?_ fun _ _ _ h => h
    refine stays_bind (stays_modify fun _ h => h) fun _ => ?_
    refine stays_bind (stays_tried (trWrite_logs bs) fun _ => trivial) fun _ u hu => ?_
    refine staysAt_modify_bind (staysAt_get_bind (staysAt_bind (trRead_tried hu (by simp)) fun r => ?_))
    refine stays_bind (stays_modify fun _ h => h) fun _ => ?_
    cases r with
    | none => exact stays_raise _ (.inr (.inl rfl))
    | some _ => exact stays_pure _
  recv n timeout := by
    refine stays_ite (fun _ => stays_pure _) fun _ => stays_inPhy ?_ fun _ _ _ h => h
    intro u hu
    refine staysAt_modify_bind (staysAt_bind (trRead_tried hu (by simp)) fun r => ?_)
    cases r with
    | none => exact stays_raise _ (.inr (.inl rfl))
    | some _ => exact stays_pure _

theorem trClose_tried : Stays (Tried tr k reads breaks) LinkCode trClose :=
  stays_tried trClose_logs fun _ => trivial

theorem closeBody_tried (r : Bool) : Stays (Tried tr k reads breaks) LinkCode (closeBody r) := by
  have hwrite : ∀ (a : CsAddr) (v : Byte),
      Stays (Tried tr k reads breaks) LinkCode (attempt (csWrite a.toNat v.toNat)) := fun a v =>
    stays_attempt (tried_exch.csWrite (by have := a.isLt; omega) (by have := v.isLt; omega))
  have hline : Stays (Tried tr k reads breaks) LinkCode (closeLine r) :=
    stays_get_bind fun _ _ => stays_bind (hwrite _ _) fun _ =>
      stays_ite (fun _ => stays_bind (hwrite _ _) fun _ => hwrite _ _) fun _ => stays_pure _
  have hrelease : Stays (Tried tr k reads breaks) LinkCode (modify State.released) :=
    stays_modify fun _ h => h
  have hclose := stays_bind (stays_attempt (C := LinkCode) (trClose_tried (tr := tr) (k := k)
    (reads := reads) (breaks := breaks))) fun _ => hrelease
  refine stays_get_bind fun s _ => stays_ite (fun _ => ?_) fun _ => hrelease
  exact stays_ite (fun _ => stays_bind hline fun _ => hclose) fun _ => hclose

theorem Tried.forcedCleanup (h : Tried tr k reads breaks s) :
    Tried tr k reads breaks s.sequencersIdle.forcedCleanup := by
  have hidle : Tried tr k reads breaks s.sequencersIdle := h
  exact (closeBody_tried s.sequencersIdle.cfg.cleanupReset).effect hidle

/-! ### How the attempts end (40_phy.md R138) -/

/-- No read but the last may have given SYNC, and there was a break for at most one attempt and `more` others. -/
def WithinAttempts (tr : List Event) (more : Nat) (s : State) : Prop :=
  ∃ k reads breaks, Tried tr k reads breaks s ∧ breaks ≤ more + 1 ∧ ∀ r ∈ reads.dropLast, r ≠ .bytes [SYNC]

/-- The last read gave SYNC, no other did. -/
def SyncFound (tr : List Event) (more : Nat) (s : State) : Prop :=
  ∃ failed : List PortAnswer, Tried tr (failed.length + 1) (failed ++ [.bytes [SYNC]]) (failed.length + 1) s ∧
    failed.length ≤ more ∧ ∀ r ∈ failed, r ≠ .bytes [SYNC]

/-- Every attempt was made, none gave SYNC, and the record tells so (60_exceptions.md R282). -/
def Exhausted (tr : List Event) (more : Nat) (b : ErrBase) (s : State) : Prop :=
  ∃ failed : List PortAnswer, Tried tr (more + 1) failed (more + 1) s ∧ failed.length = more + 1 ∧
    (∀ r ∈ failed, r ≠ .bytes [SYNC]) ∧ b.layer = some .phy ∧ b.attempts = some (more + 1) ∧
    b.got = failed.getLast?.map PortAnswer.got

theorem SyncFound.within (h : SyncFound tr more s) : WithinAttempts tr more s := by
  obtain ⟨failed, htried, hlen, hne⟩ := h
  exact ⟨_, _, _, htried, by omega, by simpa using hne⟩

theorem Exhausted.within {b : ErrBase} (h : Exhausted tr more b s) : WithinAttempts tr more s := by
  obtain ⟨failed, htried, -, hne, -⟩ := h
  exact ⟨_, _, _, htried, le_rfl, fun r hr => hne r (List.dropLast_subset _ hr)⟩

/-- How link initialisation fails: a primitive failed, or every attempt was made. -/
def InitFails (tr : List Event) (more : Nat) (e : Err) (s : State) : Prop :=
  (e.code = .transport ∧ WithinAttempts tr more s) ∨ (e.code = .linkInit ∧ Exhausted tr more e.info.base s)

theorem leads_setPhyState_bind {p : PhyState} {f : Unit → Act β} {R : β → State → Prop} {E : Err → State → Prop}
    (hs : Tried tr k reads breaks s)
    (h : ∀ u, Tried tr k reads breaks u → u.phy.phyState = p → Leads (f ()) u R E) :
    Leads (setPhyState p >>= f) s R E := h _ hs rfl

/-- One attempt: a break, then a read of SYNC's echo, each at most once where a primitive fails. -/
theorem syncAttempt_tried (hs : Tried tr k reads breaks s) :
    Leads syncAttempt s (fun r t => Tried tr (k + 1) (reads ++ [readAnswer r]) (breaks + 1) t)
      (fun e t => e.code = .transport ∧ ∃ last breaks', last.length ≤ 1 ∧ breaks' ≤ breaks + 1 ∧
        Tried tr (k + 1) (reads ++ last) breaks' t) := by
  have hnoread : ∀ {b' t}, b' ≤ breaks + 1 → Tried tr (k + 1) reads b' t →
      ∃ last breaks', last.length ≤ 1 ∧ breaks' ≤ breaks + 1 ∧ Tried tr (k + 1) (reads ++ last) breaks' t :=
    fun hb ht => ⟨[], _, Nat.zero_le _, hb, by rwa [List.append_nil]⟩
  refine leads_modify_bind (P := Tried tr (k + 1) reads breaks) ⟨congrArg (· + 1) hs.1, hs.2⟩ fun u hu => ?_
  refine leads_get_bind (leads_setPhyState_bind hu fun u hu _ => ?_)
  refine leads_bind ((trSetBaud_logs _ u).mono (fun _ _ hlogs => hu.aside hlogs trivial) fun _ _ hfails =>
    ⟨hfails.1, hnoread (Nat.le_succ _) (hu.aside hfails.2 trivial)⟩) fun _ u hu => ?_
  refine leads_setPhyState_bind hu fun u hu hp => ?_
  refine leads_bind ((trBreak_logs _ _ u).mono
    (fun _ _ ⟨_, hlow, hguard⟩ => (hu.brk hlow hp).aside hguard trivial) fun _ _ hfails =>
    ⟨hfails.1, hnoread (Nat.le_succ _) (hu.failedBreak hfails.2)⟩) fun _ u hu => ?_
  refine leads_modify_bind (P := Tried tr (k + 1) reads (breaks + 1)) hu fun u hu => ?_
  refine leads_modify_bind (hu.aside ⟨rfl, rfl⟩ trivial) fun u hu => ?_
  refine leads_setPhyState_bind hu fun u hu _ => ?_
  refine leads_bind ((trWrite_logs _ u).mono (fun _ _ hlogs => hu.aside hlogs trivial) fun _ _ hfails =>
    ⟨hfails.1, hnoread le_rfl (hu.aside hfails.2 trivial)⟩) fun _ u hu => ?_
  refine leads_setPhyState_bind hu fun u hu hp => ?_
  exact (trRead_logs _ _ u).mono (fun _ _ hlogs => hu.read hlogs hp) fun _ _ hfails =>
    ⟨hfails.1, _, _, le_rfl, le_rfl, hu.read hfails.2 hp⟩

/-- An attempt that a primitive ended. -/
theorem within_of_cut {failed : List PortAnswer} {last : List PortAnswer} {more : Nat}
    (htried : Tried tr k (failed ++ last) breaks s) (hlast : last.length ≤ 1) (hbreaks : breaks ≤ more + 1)
    (hne : ∀ r ∈ failed, r ≠ .bytes [SYNC]) : WithinAttempts tr more s := by
  refine ⟨_, _, _, htried, hbreaks, fun r hr => hne r ?_⟩
  match last, hlast with
  | [], _ => exact List.dropLast_subset _ (by simpa using hr)
  | [a], _ => simpa using hr

theorem linkFailed_exhausted {r : Option (List Byte)} {failed : List PortAnswer}
    (hs : Tried tr (more + 1) (failed ++ [readAnswer r]) (more + 1) s) (hlen : failed.length = more)
    (hne : ∀ a ∈ failed ++ [readAnswer r], a ≠ .bytes [SYNC]) {Q : Unit → State → Prop} :
    Leads (linkFailed r) s Q (InitFails tr more) := by
  refine leads_error (t := s.setPhy { s.phy with linkUp := false }) rfl (.inr ⟨rfl, _, hs, by simp [hlen], hne, ?_⟩)
  exact ⟨rfl, congrArg some hs.1, by rw [List.getLast?_concat, Option.map_some, readAnswer_got]⟩

/-- One round of the retry loop, after as many attempts as there are answers in `failed`. -/
theorem syncRound_tried {failed : List PortAnswer} {next : Option (List Byte) → Act Unit}
    (hs : Tried tr failed.length failed failed.length s) (hne : ∀ r ∈ failed, r ≠ .bytes [SYNC])
    (hmore : failed.length ≤ more)
    (hnext : ∀ r u, Tried tr (failed.length + 1) (failed ++ [readAnswer r]) (failed.length + 1) u →
      (∀ a ∈ failed ++ [readAnswer r], a ≠ .bytes [SYNC]) →
      Leads (next r) u (fun _ => SyncFound tr more) (InitFails tr more)) :
    Leads (do
      let r ← syncAttempt
      if r = some [SYNC] then linkSynced else next r) s (fun _ => SyncFound tr more) (InitFails tr more) := by
  refine leads_bind ((syncAttempt_tried hs).mono (fun _ _ h => h) ?_) fun r u hu => ?_
  · rintro e t ⟨hcode, last, b, hlast, hb, ht⟩
    exact .inl ⟨hcode, within_of_cut ht hlast (by omega) hne⟩
  · split_ifs with hr
    · subst hr
      exact leads_ok rfl ⟨failed, hu, hmore, hne⟩
    · refine hnext r u hu fun a ha => ?_
      rcases List.mem_append.mp ha with hold | hnew
      · exact hne a hold
      · obtain rfl := List.mem_singleton.mp hnew
        exact fun hsync => hr (readAnswer_eq_bytes_iff.mp hsync)

theorem syncLoop_tried {failed : List PortAnswer}
    (hs : Tried tr failed.length failed failed.length s) (hne : ∀ r ∈ failed, r ≠ .bytes [SYNC])
    (hmore : failed.length + n = more) :
    Leads (syncLoop n) s (fun _ => SyncFound tr more) (InitFails tr more) := by
  induction n generalizing failed s with
  | zero =>
    subst hmore
    exact syncRound_tried hs hne le_rfl fun r u hu hne' => linkFailed_exhausted hu rfl hne'
  | succ n ih =>
    refine syncRound_tried hs hne (by omega) fun r u hu hne' => ?_
    exact ih (failed := failed ++ [readAnswer r]) (by simpa using hu) hne' (by simp; omega)

/-- Link initialisation, from where no attempt has been made (40_phy.md R138). -/
theorem phyInit_tried (hs : Tried tr k [] 0 s) :
    Leads phyInit s (fun _ => SyncFound tr (s.cfg.syncAttempts - 1)) (InitFails tr (s.cfg.syncAttempts - 1)) := by
  refine leads_inPhy (Q := fun _ => SyncFound tr (s.cfg.syncAttempts - 1))
    (E := InitFails tr (s.cfg.syncAttempts - 1)) ?_ (fun _ _ h => h) fun _ _ h => h
  refine leads_modify_bind (P := fun u => Tried tr 0 [] 0 u ∧ u.cfg = s.cfg) ⟨⟨rfl, hs.2⟩, rfl⟩ fun u hu => ?_
  obtain ⟨htried, hcfg⟩ := hu
  refine leads_get_bind ?_
  rw [hcfg]
  exact syncLoop_tried (failed := []) htried (fun _ hr => nomatch hr) (Nat.zero_add _)

/-! ### What follows the attempts -/

/-- What the trace `tr` has shown of attempts up to `s`, it shows up to `t`. -/
def Carries (tr : List Event) (s t : State) : Prop :=
  ∀ {k reads breaks}, Tried tr k reads breaks s → Tried tr k reads breaks t

theorem WithinAttempts.carry (h : WithinAttempts tr more s) (hc : Carries tr s t) : WithinAttempts tr more t := by
  obtain ⟨k, reads, breaks, htried, hrest⟩ := h
  exact ⟨k, reads, breaks, hc htried, hrest⟩

theorem SyncFound.carry (h : SyncFound tr more s) (hc : Carries tr s t) : SyncFound tr more t := by
  obtain ⟨failed, htried, hrest⟩ := h
  exact ⟨failed, hc htried, hrest⟩

theorem Exhausted.carry {b : ErrBase} (h : Exhausted tr more b s) (hc : Carries tr s t) :
    Exhausted tr more b t := by
  obtain ⟨failed, htried, hrest⟩ := h
  exact ⟨failed, hc htried, hrest⟩

theorem openWrites_found {ws : List (CsAddr × Byte)} (h : SyncFound tr more s) :
    Leads (openWrites ws) s (fun _ => SyncFound tr more) fun e t => LinkCode e.code ∧ WithinAttempts tr more t := by
  obtain ⟨failed, htried, hrest⟩ := h
  exact Leads.mono (openWrites_stays tried_exch.over ws s htried) (fun _ _ ht => ⟨failed, ht, hrest⟩) fun _ _ ht =>
    ⟨ht.2, SyncFound.within ⟨failed, ht.1, hrest⟩⟩

/-- How `open` fails: without link initialisation to blame, or as a wrapper of the error that did
(43_session.md R260). -/
def OpenFails (tr : List Event) (more : Nat) (e : Err) (t : State) : Prop :=
  WithinAttempts tr more t ∧ (e.code = .transport ∨ e.code = .refused ∨
    (e.code = .deviceNotResponding ∧ ∃ code b, e.info.cause = some (code, b) ∧
      (code = .linkInit → Exhausted tr more b t ∧ t.phy.linkUp = false)))

/-- `open` releases the transport where the link could not be established. -/
theorem establish_tried {x : Act Unit}
    (h : Leads x s (fun _ => SyncFound tr more)
      fun e t => InitFails tr more e t ∨ (LinkCode e.code ∧ WithinAttempts tr more t)) :
    Leads (establish x) s (fun _ => SyncFound tr more) (OpenFails tr more) := by
  cases hx : x s with
  | ok a u => exact leads_ok (a := ()) (by simp only [establish, hx]) (h.1 a u hx)
  | error e u =>
    generalize ht : State.setPhy ((effect trClose u).setSes { (effect trClose u).ses with trOpen := false })
      { (effect trClose u).phy with linkUp := false } = t
    have hcarry : Carries tr u t := fun hu => by subst ht; exact trClose_tried.effect hu
    have hwithin : WithinAttempts tr more t := by
      rcases h.2 e u hx with (⟨-, hw⟩ | ⟨-, hw⟩) | ⟨-, hw⟩
      · exact hw.carry hcarry
      · exact hw.within.carry hcarry
      · exact hw.carry hcarry
    by_cases hc : e.code = .transport
    · exact leads_error (e := e.named .openSession) (by simp only [establish, hx, hc, if_true, ht])
        ⟨hwithin, .inl hc⟩
    · refine leads_error (e := e.wrapped .deviceNotResponding .openSession)
        (by simp only [establish, hx, hc, if_false, ht])
        ⟨hwithin, .inr (.inr ⟨rfl, e.code, e.info.base, rfl, fun hcode => ⟨?_, ht ▸ rfl⟩⟩)⟩
      rcases h.2 e u hx with (⟨hother, -⟩ | ⟨-, hexh⟩) | ⟨hother, -⟩
      · exact absurd hother hc
      · exact hexh.carry hcarry
      · rw [hcode] at hother
        simp [LinkCode] at hother

theorem acquire_tried {port : Nat} {baud : Nat} (hs : Tried tr k [] 0 s) :
    Leads (acquire port baud) s (fun _ u => Tried tr k [] 0 u ∧ u.cfg = s.cfg) (OpenFails tr more) := by
  cases hio : (s.draw (.trOpen port baud)).ioerror with
  | true =>
    have hfails := fails_failedAt s (.trOpen port baud) (.trOpen port baud) (s.draw (.trOpen port baud)).drive .trOpen
    refine leads_error (by simp only [acquire, trOpen_error hio]; rfl) ?_
    exact ⟨⟨_, _, _, hs.aside hfails.2 trivial, Nat.zero_le _, fun _ hr => nomatch hr⟩, .inl rfl⟩
  | false =>
    have hopen := (trOpen_logs port baud s).1 () _ (trOpen_ok hio)
    refine leads_ok (a := ()) (by simp only [acquire, trOpen_ok hio]) ⟨hs.aside hopen trivial, rfl⟩

theorem openOp_tried (p : Profile) (port : Nat) (hs : Tried tr k [] 0 s) :
    Leads (openOp p port) s (fun _ => SyncFound tr (s.cfg.syncAttempts - 1))
      (OpenFails tr (s.cfg.syncAttempts - 1)) := by
  refine leads_get_bind ?_
  cases hvalid : profileValid s.cfg p with
  | false =>
    exact leads_error (e := { code := .refused, info := {} }) (Act.bind_error (by rw [hvalid]; rfl))
      ⟨⟨_, _, _, hs, Nat.zero_le _, fun _ hr => nomatch hr⟩, .inr (.inl rfl)⟩
  | true =>
    refine leads_bind (Q := fun _ u => s = u) (leads_ok (by rw [hvalid]; rfl) rfl) fun _ u hu => ?_
    subst hu
    refine leads_bind (acquire_tried hs) fun _ u hu => ?_
    refine leads_modify_bind (P := fun u => Tried tr k [] 0 u ∧ u.cfg = s.cfg) hu fun u ⟨htried, hcfg⟩ => ?_
    refine leads_bind (establish_tried ?_) fun _ v hv => leads_ok rfl hv
    have hinit := phyInit_tried htried
    rw [hcfg] at hinit
    exact leads_bind (hinit.mono (fun _ _ h => h) fun _ _ h => .inl h) fun _ v hv =>
      (openWrites_found hv).mono (fun _ _ h => h) fun _ _ h => .inr h

/-! ### The two commands that initialise the link -/

/-- Why a command with link initialisation in it ended in this error: a primitive failed, every attempt was made,
or `open` wrapped such an error (43_session.md R260). -/
def LinkInitBlame (tr : List Event) (more : Nat) (e : Err) (t : State) : Prop :=
  e.code = .transport ∨
    (e.code = .linkInit ∧ Exhausted tr more e.info.base t ∧ t.phy.linkUp = false) ∨
    (e.code = .deviceNotResponding ∧ ∃ code b, e.info.cause = some (code, b) ∧
      (code = .linkInit → Exhausted tr more b t ∧ t.phy.linkUp = false))

/-- How a command with link initialisation in it ended, with at most one attempt and `more` others. -/
inductive LinkInitEnd (tr : List Event) (more : Nat) (t : State) : Prop where
  /-- `OK`. -/
  | found (h : SyncFound tr more t) (hok : t.rsp.rspStatus = 0x00) (hlink : t.phy.linkUp = true)
  | refused (h : WithinAttempts tr more t) (hstatus : t.rsp.rspStatus = 0xFF)
  | failed (e : Err) (h : WithinAttempts tr more t) (hstatus : t.rsp.rspStatus = codeByte e.code)
      (hinfo : t.rsp.rspInfo = e.info) (hblame : LinkInitBlame tr more e t)

/-- A command's ending, from how its body ends. -/
theorem linkInitEnd_of_body {E : Err → State → Prop} (hinv : Inv s)
    (hbody : Leads (bodyOf i) s.accepted (fun _ => SyncFound s.trace more) E)
    (hlink : allowed i s.ses.sesState = true → ∀ data u, bodyOf i s.accepted = .ok data u → u.phy.linkUp = true)
    (hE : ∀ e u, E e u → LinkInitEnd s.trace more (u.deliver (!(isOpen i || isClose i)) e))
    (h : exec i s = .next t) : LinkInitEnd s.trace more t := by
  rw [exec_eq] at h
  rcases runCommand_cases (admOf i) (!(isOpen i || isClose i)) (bodyOf i) s with
    ⟨hbusy, -⟩ | ⟨-, -, hrun⟩ | ⟨-, hadmits, ⟨data, u, hrun', hrun⟩ | ⟨e, u, hrun', hrun⟩⟩
  · exact absurd (hbusy.symm.trans hinv.notBusy) Bool.noConfusion
  · obtain rfl := Host.Outcome.next.inj (h.symm.trans hrun)
    exact .refused ⟨_, _, _, Tried.start s, Nat.zero_le _, fun _ hr => nomatch hr⟩ rfl
  · obtain rfl := Host.Outcome.next.inj (h.symm.trans hrun)
    exact .found (hbody.1 data u hrun') rfl (hlink ((admits_admOf i _).symm.trans hadmits) data u hrun')
  · obtain rfl := Host.Outcome.next.inj (h.symm.trans hrun)
    exact hE e u (hbody.2 e u hrun')

theorem noData_ok_of {x : Act Unit} (h : noData x s = .ok data u) : x s = .ok () u := by
  cases hx : x s with
  | ok a v =>
    obtain ⟨-, rfl⟩ := EStateM.Result.ok.inj ((noData_ok hx).symm.trans h)
    rfl
  | error e v => cases (noData_error hx).symm.trans h

theorem deliver_refused {cleans : Bool} (h : e.code = .refused) :
    s.deliver cleans e = s.sequencersIdle.respondRefused := by
  simp [State.deliver, h]

/-- An error of `open`, delivered: no cleanup follows (60_exceptions.md R288). -/
theorem deliver_of_open (h : e.code ≠ .refused) : s.deliver false e = s.sequencersIdle.respondError e := by
  simp [State.deliver, h]

/-- An error that forces the cleanup, delivered (60_exceptions.md R284, R288). -/
theorem deliver_of_needsCleanup (h : needsCleanup e.code = true) :
    s.deliver true e = s.sequencersIdle.forcedCleanup.respondError e := by
  have hne : e.code ≠ .refused := fun hcode => by simp [hcode, needsCleanup] at h
  simp [State.deliver, hne, h]

theorem exec_initLink_end (hinv : Inv s) (h : exec .initLink s = .next t) :
    LinkInitEnd s.trace (s.cfg.syncAttempts - 1) t := by
  have hinit := phyInit_tried (s := s.accepted) (Tried.start s)
  refine linkInitEnd_of_body (i := .initLink) hinv (leads_noData hinit)
    (fun _ data u hu => (phyInit_ok (noData_ok_of hu)).2) (fun e u hfails => ?_) h
  have hcarry : Carries s.trace u u.sequencersIdle.forcedCleanup := Tried.forcedCleanup
  change LinkInitEnd _ _ (u.deliver true e)
  rcases hfails with ⟨hcode, hwithin⟩ | ⟨hcode, hexh⟩
  · rw [deliver_of_needsCleanup (by rw [hcode]; rfl)]
    exact .failed e (hwithin.carry hcarry) rfl rfl (.inl hcode)
  · rw [deliver_of_needsCleanup (by rw [hcode]; rfl)]
    have hend := hexh.carry hcarry
    exact .failed e hend.within rfl rfl (.inr (.inl ⟨hcode, hend, (forcedCleanup_left _).closed.link⟩))

/-- An `open` that ends `OK` has the link up (43_session.md R260). -/
theorem openOp_linkUp {p : Profile} {port : Nat} (hinv : Inv s) (hclosed : s.ses.sesState = .closed)
    (h : openOp p port s.accepted = .ok () u) : u.phy.linkUp = true := by
  have hshut : s.ses.trOpen = false := hinv.closedIff.mp hclosed
  rcases openOp_cases p port (s := s.accepted) (accepted_idle hinv.idle) hshut (hinv.linkIff.trans hshut) with
    ⟨v, hrun, hopened⟩ | ⟨e, v, hrun, -⟩ | hrun
  · obtain ⟨-, rfl⟩ := EStateM.Result.ok.inj (h.symm.trans hrun)
    exact hopened.linkUp
  · cases h.symm.trans hrun
  · cases h.symm.trans hrun

theorem exec_openSession_end {p : Profile} {port : Nat} (hinv : Inv s)
    (h : exec (.openSession p port) s = .next t) : LinkInitEnd s.trace (s.cfg.syncAttempts - 1) t := by
  have hopen := openOp_tried (s := s.accepted) p port (Tried.start s)
  refine linkInitEnd_of_body (i := .openSession p port) hinv (leads_noData hopen)
    (fun hal data u hu => openOp_linkUp hinv (by simpa [allowed] using hal) (noData_ok_of hu))
    (fun e u hfails => ?_) h
  change LinkInitEnd _ _ (u.deliver false e)
  obtain ⟨hwithin, hcode | hcode | ⟨hcode, hcause⟩⟩ := hfails
  · rw [deliver_of_open (by simp [hcode])]
    exact .failed e hwithin rfl rfl (.inl hcode)
  · rw [deliver_refused hcode]
    exact .refused hwithin rfl
  · rw [deliver_of_open (by simp [hcode])]
    exact .failed e hwithin rfl rfl (.inr (.inr ⟨hcode, hcause⟩))

/-! ### What no other command does (40_phy.md R142) -/

/-- Outside link initialisation no break is made. -/
theorem Ended.no_break (h : Ended i s t) (hopen : isOpen i = false) (hinit : i ≠ .initLink) :
    ∃ ev, t.trace = s.trace ++ ev ∧ ∀ e ∈ ev, e.isBreak = false := by
  have hscope : ¬ (scopeOf i).inits := fun h => hinit (eq_initLink_of_inits h)
  have hsame : ∃ ev, s.trace = s.trace ++ ev ∧ ∀ e ∈ ev, e.isBreak = false :=
    ⟨[], (List.append_nil _).symm, fun _ he => nomatch he⟩
  have hsession : ∀ {k : Scope} {u}, ¬ k.inits → InSession k s.accepted u →
      ∃ ev, u.trace = s.trace ++ ev ∧ ∀ e ∈ ev, e.isBreak = false := fun hk hu => by
    obtain ⟨ev, htrace, hev⟩ := hu.trace
    exact ⟨ev, htrace, hev.resolve_left hk⟩
  cases h with
  | refused ht => exact ht ▸ hsame
  | caller e _ _ ht => exact ht ▸ hsame
  | done data u _ _ _ hu _ _ ht => subst ht; exact hsession (u := u) hscope hu
  | failed e u v _ _ _ hu hv ht =>
    obtain ⟨ev, htrace, hev⟩ := hsession hscope hu
    obtain ⟨ev', htrace', hev'⟩ := hv.trace
    refine ⟨ev ++ ev', ?_, fun e he => (List.mem_append.mp he).elim (hev e) (hev' e)⟩
    rw [← List.append_assoc, ← htrace, ht]
    exact htrace'
  | entered u _ hu _ ht => subst ht; exact hsession (u := u) id hu.1.session
  | locked e u _ _ hu _ ht => subst ht; exact hsession (u := u) id hu.1.session
  | closed u _ hu ht => exact ht ▸ hu.trace
  | opened p port u hi => subst hi; cases hopen
  | unopened e u hi => exact absurd (hi.symm.trans hopen) Bool.noConfusion

/-! ### What the trace shows of a command with link initialisation in it -/

/-- A state's attempts, read off the part of the trace that is new. -/
theorem Tried.shown {ev : List Event} (h : Tried tr k reads breaks t) (htrace : t.trace = tr ++ ev) :
    t.phy.syncAttempt = k ∧ ev.filterMap Event.syncEcho = reads ∧
      t.breaks = tr.countP Event.isBreak + breaks ∧ ∀ e ∈ ev, e.isBreak = true → e.phy = .brk := by
  obtain ⟨hk, ev', htrace', hreads, rfl, hall⟩ := h
  obtain rfl := List.append_cancel_left (htrace.symm.trans htrace')
  exact ⟨hk, hreads, by rw [State.breaks, htrace, List.countP_append], hall⟩

theorem Tried.trace_grows (h : Tried tr k reads breaks t) : ∃ ev, t.trace = tr ++ ev := by
  obtain ⟨-, ev, htrace, -⟩ := h
  exact ⟨ev, htrace⟩

theorem LinkInitEnd.within (h : LinkInitEnd tr more t) : WithinAttempts tr more t := by
  cases h with
  | found h _ _ => exact h.within
  | refused h _ => exact h
  | failed e h _ _ _ => exact h

theorem LinkInitEnd.found_of_ok (h : LinkInitEnd tr more t) (hok : t.rsp.rspStatus = 0x00) :
    SyncFound tr more t ∧ t.phy.linkUp = true := by
  cases h with
  | found h _ hlink => exact ⟨h, hlink⟩
  | refused _ hstatus => exact absurd (hok.symm.trans hstatus) (by decide)
  | failed e _ hstatus _ hblame =>
    have hcode := hok.symm.trans hstatus
    rcases hblame with h | ⟨h, -⟩ | ⟨h, -⟩ <;> rw [h] at hcode <;> exact absurd hcode (by decide)

theorem LinkInitEnd.exhausted_of_linkInit (h : LinkInitEnd tr more t) (hstatus : t.rsp.rspStatus = 0x02) :
    Exhausted tr more t.rsp.rspInfo.base t ∧ t.phy.linkUp = false := by
  cases h with
  | found _ hok _ => exact absurd (hstatus.symm.trans hok) (by decide)
  | refused _ hrefused => exact absurd (hstatus.symm.trans hrefused) (by decide)
  | failed e _ hfailed hinfo hblame =>
    have hcode := hstatus.symm.trans hfailed
    rcases hblame with h | ⟨-, hexh⟩ | ⟨h, -⟩
    · exact absurd (h ▸ hcode) (by decide)
    · rw [hinfo]
      exact hexh
    · exact absurd (h ▸ hcode) (by decide)

theorem LinkInitEnd.cause_of_deviceNotResponding (h : LinkInitEnd tr more t) (hstatus : t.rsp.rspStatus = 0x0A) :
    ∃ code b, t.rsp.rspInfo.cause = some (code, b) ∧
      (code = .linkInit → Exhausted tr more b t ∧ t.phy.linkUp = false) := by
  cases h with
  | found _ hok _ => exact absurd (hstatus.symm.trans hok) (by decide)
  | refused _ hrefused => exact absurd (hstatus.symm.trans hrefused) (by decide)
  | failed e _ hfailed hinfo hblame =>
    have hcode := hstatus.symm.trans hfailed
    rcases hblame with h | ⟨h, -⟩ | ⟨-, hcause⟩
    · exact absurd (h ▸ hcode) (by decide)
    · exact absurd (h ▸ hcode) (by decide)
    · rw [hinfo]
      exact hcause

theorem exec_linkInitEnd (hinv : Inv s) (hi : i = .initLink ∨ isOpen i = true) (h : exec i s = .next t) :
    LinkInitEnd s.trace (s.cfg.syncAttempts - 1) t := by
  rcases hi with rfl | hopen
  · exact exec_initLink_end hinv h
  · cases i with
    | openSession p port => exact exec_openSession_end hinv h
    | _ => cases hopen

/-- No other command makes a break. -/
theorem exec_no_break (hinv : Inv s) (hi : ¬ (isOpen i = true ∨ i = .initLink)) (h : exec i s = .next t) :
    ∃ ev, t.trace = s.trace ++ ev ∧ ∀ e ∈ ev, e.isBreak = false := by
  obtain ⟨hopen, hinit⟩ := not_or.mp hi
  rcases exec_refused_or_ended hinv h with rfl | ⟨-, hended⟩
  · exact ⟨[], (List.append_nil _).symm, fun _ he => nomatch he⟩
  · exact hended.no_break (Bool.eq_false_iff.mpr hopen) hinit

end Sys2Proof.Machine

namespace Sys2Proof.Proofs

open Sys2Proof.Machine

/-- Settles O59, by induction on the retry loop: what the trace shows of the attempts at the end of each. -/
theorem linkInitRetries : Obligations.LinkInitRetries := by
  intro s t i ev hinv hi h htrace
  have hend := exec_linkInitEnd hinv hi h
  have htries : max 1 s.cfg.syncAttempts = s.cfg.syncAttempts - 1 + 1 := by omega
  intro reads tries exhausted
  have hrecord : ∀ code b, (code = .linkInit → Exhausted s.trace (s.cfg.syncAttempts - 1) b t ∧
      t.phy.linkUp = false) → exhausted code b := fun code b hcode hlink => by
    obtain ⟨⟨failed, htried, hlen, hne, hlayer, hattempts, hgot⟩, hdown⟩ := hcode hlink
    obtain ⟨hk, rfl, hbreaks, -⟩ := htried.shown htrace
    rw [← htries] at hk hlen hbreaks hattempts
    exact ⟨hk, hlen, hne, hbreaks, hdown, hlayer, hattempts, hgot⟩
  refine ⟨fun hok => ?_, fun hstatus => ?_, fun hstatus => ?_, ?_⟩
  · obtain ⟨⟨failed, htried, hlen, hne⟩, hlink⟩ := hend.found_of_ok hok
    obtain ⟨hk, hreads, hbreaks, -⟩ := htried.shown htrace
    exact ⟨⟨failed, hreads, hk.symm, hne⟩, by omega, by rw [hk]; exact hbreaks, hlink⟩
  · exact hrecord _ _ fun _ => hend.exhausted_of_linkInit hstatus
  · obtain ⟨code, b, hcause, hexh⟩ := hend.cause_of_deviceNotResponding hstatus
    exact ⟨code, b, hcause, hrecord code b hexh⟩
  · obtain ⟨k, _, breaks, htried, hle, hne⟩ := hend.within
    obtain ⟨-, rfl, hbreaks, -⟩ := htried.shown htrace
    refine ⟨?_, hne⟩
    rw [hbreaks]
    exact Nat.add_le_add_left (hle.trans_eq htries.symm) _

/-- Settles O25: where link initialisation runs, from the attempts the trace shows; elsewhere no break is made. -/
theorem breaksOnlyInPhyInit : Obligations.BreaksOnlyInPhyInit := by
  intro s t i hinv h
  refine ⟨fun hne => ?_, fun hopen hok => ?_, fun ev htrace => ?_⟩
  · by_contra hi
    obtain ⟨ev, htrace, hev⟩ := exec_no_break hinv hi h
    have hcount : ev.countP Event.isBreak = 0 := List.countP_eq_zero.mpr fun e he => by simp [hev e he]
    exact hne (by rw [State.breaks, htrace, List.countP_append, hcount, State.breaks, Nat.add_zero])
  · obtain ⟨⟨failed, htried, -⟩, -⟩ := (exec_linkInitEnd hinv (.inr hopen) h).found_of_ok hok
    obtain ⟨ev, htrace⟩ := htried.trace_grows
    obtain ⟨-, -, hbreaks, -⟩ := htried.shown htrace
    change s.trace.countP Event.isBreak < t.breaks
    omega
  · by_cases hi : isOpen i = true ∨ i = .initLink
    · obtain ⟨_, _, _, htried, -⟩ := (exec_linkInitEnd hinv hi.symm h).within
      obtain ⟨-, -, -, hall⟩ := htried.shown htrace
      exact hall
    · obtain ⟨ev', htrace', hev⟩ := exec_no_break hinv hi h
      obtain rfl := List.append_cancel_left (htrace.symm.trans htrace')
      exact fun e he hb => absurd (hb.symm.trans (hev e he)) Bool.noConfusion

end Sys2Proof.Proofs
end

section
/-! PROOFS. The datalink commands and wire instructions (41_datalink.md): which arguments are refused, and what
each instruction leaves when its exchange is answered. The exchanges of DL's operations are those of
Laws/Datalink.lean; here they become commands. -/

namespace Sys2Proof.Machine

variable {β : Type} {i : Instr} {s t u : State} {xs : List Xfer} {w : World} {data : List Byte}

/-! ### Arguments (41_datalink.md R174, R175, R205) -/

theorem addrOk_iff_bounds {a n : Nat} : addrOk a n = true ↔ 1 ≤ n ∧ n ≤ 3 ∧ a < 2 ^ (8 * n) := by
  simp only [addrOk_iff, sizeOk, Bool.and_eq_true, decide_eq_true_eq, and_assoc]

/-- The address of a wire instruction fits the instruction's own size. -/
theorem addrOk_toNat {n : Nat} (hn : sizeOk n = true) (a : BitVec (8 * n)) : addrOk a.toNat n = true :=
  addrOk_iff.mpr ⟨hn, a.isLt⟩

/-- A demand that fails at the head of an operation refuses it with nothing done. -/
theorem demand_bind_refused {b : Bool} (h : ¬ b = true) (k : Unit → Act β) :
    (demand b >>= k) s = .error refusedError s := by
  rw [Bool.not_eq_true] at h
  subst h
  rfl

theorem csRead_refused {a : Nat} (h : 0x0F < a) : csRead a s = .error refusedError s :=
  demand_bind_refused (by simpa using h) _

theorem csWrite_refused {a v : Nat} (h : 0x0F < a ∨ 0xFF < v) : csWrite a v s = .error refusedError s :=
  demand_bind_refused (by simp; omega) _

theorem ldsOp_refused {a n : Nat} (h : ¬(1 ≤ n ∧ n ≤ 3 ∧ a < 2 ^ (8 * n))) :
    ldsOp a n s = .error refusedError s :=
  demand_bind_refused (mt addrOk_iff_bounds.mp h) _

theorem stsOp_refused {a v n : Nat} (h : ¬(1 ≤ n ∧ n ≤ 3 ∧ a < 2 ^ (8 * n) ∧ v ≤ 0xFF)) :
    stsOp a v n s = .error refusedError s := by
  refine demand_bind_refused (fun hok => h ?_) _
  obtain ⟨ha, hv⟩ := Bool.and_eq_true_iff.mp hok
  obtain ⟨hlow, hhigh, hfit⟩ := addrOk_iff_bounds.mp ha
  exact ⟨hlow, hhigh, hfit, of_decide_eq_true hv⟩

theorem stPtrOp_refused {w p : Nat} (h : ¬(1 ≤ w ∧ w ≤ 3 ∧ p < 2 ^ (8 * w))) :
    stPtrOp w p s = .error refusedError s :=
  demand_bind_refused (mt addrOk_iff_bounds.mp h) _

theorem stPtrIncOp_refused {block : List Byte} (h : repeatMax < block.length) :
    stPtrIncOp block true s = .error refusedError s :=
  demand_bind_refused (by simpa using h) _

theorem ldPtrIncOp_refused {n : Nat} (h : repeatMax < n) : ldPtrIncOp n true s = .error refusedError s :=
  demand_bind_refused (by simpa using h) _

theorem keyWriteOp_refused {k : List Byte} (h : k.length ≠ s.cfg.keyLen) :
    keyWriteOp k s = .error refusedError s :=
  demand_bind_refused (by simpa using h) _

theorem stIncWire_refused {v : Byte} {more : List Byte} (h : repeatMax ≤ more.length) :
    stIncWire v more s = .error refusedError s :=
  demand_bind_refused (by simpa using h) _

theorem ldIncWire_refused {more : Nat} (h : repeatMax ≤ more) : ldIncWire more s = .error refusedError s :=
  demand_bind_refused (by simpa using h) _

theorem repeatWire_refused {n : Nat} (h : n = 0 ∨ repeatMax < n) : repeatWire n s = .error refusedError s :=
  demand_bind_refused (by simp; omega) _

/-- A body that fails its check with nothing done is a refused command, in every mode (60_exceptions.md R283). -/
theorem exec_refused_of_check (hb : s.rsp.busy = false) (hidle : SequencersIdle s)
    (hbody : bodyOf i s.accepted = .error refusedError s.accepted) : exec i s = .next s.refusal :=
  exec_refused_of_body hb hidle rfl hbody rfl

/-! ### An admitted exchange is not refused -/

theorem codeByte_eq_refused_iff {code : Code} : codeByte code = 0xFF ↔ code = .refused := by
  cases code <;> decide

theorem linkCode_ne_refused {code : Code} (h : LinkCode code) : code ≠ .refused := by
  rintro rfl
  simp [LinkCode] at h

/-- Whatever the environment answers, a body with no errors but those of an exchange does not end `REFUSED`. -/
theorem exec_not_refused {I : State → Prop} (hb : s.rsp.busy = false) (hal : allowed i s.ses.sesState = true)
    (hbody : StaysAt I LinkCode (bodyOf i) s.accepted) :
    ∃ t, exec i s = .next t ∧ t.rsp.rspStatus ≠ 0xFF := by
  cases hrun : bodyOf i s.accepted with
  | ok data u => exact ⟨_, exec_of_body_ok hb hal hrun, show codeByte .ok ≠ 0xFF by decide⟩
  | error e u =>
    refine ⟨_, exec_of_body_error hb hal hrun, ?_⟩
    rw [deliver_rspStatus, Ne, codeByte_eq_refused_iff]
    exact linkCode_ne_refused (hbody.2 e u hrun).2

/-- DL's commands are admitted in every session (60_exceptions.md R292). -/
theorem allowed_in_session (hi : admOf i = .inSession) (hmode : s.ses.sesState ≠ .closed) :
    allowed i s.ses.sesState = true := by
  rw [← admits_admOf, hi]
  cases hm : s.ses.sesState with
  | closed => exact absurd hm hmode
  | _ => rfl

/-- A command is refused exactly outside its domain, if its check refuses it there and its exchange runs inside. -/
theorem exec_refused_iff {I : State → Prop} {outside : Prop} (hinv : Inv s)
    (hal : allowed i s.ses.sesState = true)
    (hout : outside → bodyOf i s.accepted = .error refusedError s.accepted)
    (hin : ¬ outside → StaysAt I LinkCode (bodyOf i) s.accepted) :
    ∃ t, exec i s = .next t ∧ (t.rsp.rspStatus = 0xFF ↔ outside) := by
  by_cases h : outside
  · exact ⟨_, exec_refused_of_check hinv.notBusy hinv.idle (hout h), iff_of_true rfl h⟩
  · obtain ⟨t, hexec, hstatus⟩ := exec_not_refused hinv.notBusy hal (hin h)
    exact ⟨t, hexec, iff_of_false hstatus h⟩

/-! ### A completed exchange is a finished command -/

theorem Dl.idled_eq {d : Dl} (h : d.dlState = .idle) : { d with dlState := .idle } = d := by
  rw [← h]

/-- A command in whose body DL's registers become `d` and the exchange is answered ends `OK`, with all else kept. -/
theorem Ready.finishes {d : Dl} (hr : Ready s) (hi : admOf i = .inSession) (hd : d.dlState = .idle)
    (hbody : ∃ u, bodyOf i s.accepted = .ok data u ∧
      Moved (s.accepted.setDl { d with dlState := .idle }) u xs ∧ Plays s.cfg [] u.world w) :
    ∃ t, exec i s = .next t ∧ Finished s t data xs w s.ses d s.nvm := by
  obtain ⟨u, hrun, hmoved, hworld⟩ := hbody
  rw [Dl.idled_eq hd] at hmoved
  have hdone := Moved.finished (s := s.setDl d) hmoved hworld.symm data
  exact ⟨_, exec_of_body_ok hr.notBusy (hr.allowed_of_session hi) hrun,
    { hdone with exchanged := { hdone.exchanged with } }⟩

/-- As the operations' laws take a world that answers an exchange and nothing after it. -/
theorem plays_accepted (h : Plays s.cfg xs s.world w) : Plays s.cfg (xs ++ []) s.accepted.world w := by
  rw [List.append_nil]
  exact h

theorem noData_finishes {x : Act Unit} {P : State → Prop} (h : ∃ u, x s = .ok () u ∧ P u) :
    ∃ u, noData x s = .ok [] u ∧ P u := h.imp fun _ => And.imp_left noData_ok

theorem oneByte_finishes {x : Act Byte} {b : Byte} {P : State → Prop} (h : ∃ u, x s = .ok b u ∧ P u) :
    ∃ u, oneByte x s = .ok [b] u ∧ P u := h.imp fun _ => And.imp_left oneByte_ok

theorem exec_csRead_finishes {a : CsAddr} {v : Byte} (hr : Ready s) (hi : admOf i = .inSession)
    (hbody : bodyOf i = oneByte (csRead a.toNat))
    (hp : Plays s.cfg [.tx [SYNC, opLdcs s.cfg a], .rx [v]] s.world w) :
    ∃ t, exec i s = .next t ∧ Finished s t [v] [.tx [SYNC, opLdcs s.cfg a], .rx [v]] w s.ses
      { s.dl with opAddr := BitVec.ofNat 24 a.toNat } s.nvm := by
  have haddr : BitVec.ofNat 4 a.toNat = a := by simp
  have hrun := csRead_plays (s := s.accepted) (a := a.toNat) (b := v) (rest := []) (w' := w) rfl hr.live.accepted
    (Nat.le_of_lt_succ a.isLt)
  rw [haddr] at hrun
  exact hr.finishes hi hr.idle.dlIdle (hbody ▸ oneByte_finishes (hrun hp))

theorem exec_csWrite_finishes {a : CsAddr} {v : Byte} (hr : Ready s) (hi : admOf i = .inSession)
    (hbody : bodyOf i = noData (csWrite a.toNat v.toNat))
    (hp : Plays s.cfg [.tx [SYNC, opStcs s.cfg a, v]] s.world w) :
    ∃ t, exec i s = .next t ∧ Finished s t [] [.tx [SYNC, opStcs s.cfg a, v]] w s.ses
      { s.dl with opAddr := BitVec.ofNat 24 a.toNat } s.nvm := by
  have haddr : BitVec.ofNat 4 a.toNat = a := by simp
  have hvalue : BitVec.ofNat 8 v.toNat = v := by simp
  have hrun := csWrite_plays (s := s.accepted) (a := a.toNat) (v := v.toNat) (rest := []) (w' := w) rfl
    hr.live.accepted (Nat.le_of_lt_succ a.isLt) (Nat.le_of_lt_succ v.isLt)
  rw [haddr, hvalue] at hrun
  exact hr.finishes hi hr.idle.dlIdle (hbody ▸ noData_finishes (hrun hp))

theorem exec_load_finishes {a n : Nat} {b : Byte} (hr : Ready s) (hi : admOf i = .inSession)
    (hbody : bodyOf i = ldsOp a n) (ha : addrOk a n = true)
    (hp : Plays s.cfg (ldsXfers s.cfg a n b) s.world w) :
    ∃ t, exec i s = .next t ∧ Finished s t [b] (ldsXfers s.cfg a n b) w s.ses
      { s.dl with
        opAddr := BitVec.ofNat 24 a, opSize := BitVec.ofNat 2 n, opLen := 1, respBuf := [b] } s.nvm :=
  hr.finishes hi hr.idle.dlIdle (hbody ▸ ldsOp_plays (s := s.accepted) rfl hr.live.accepted ha (plays_accepted hp))

theorem exec_store_finishes {a n : Nat} {v : Byte} (hr : Ready s) (hi : admOf i = .inSession)
    (hbody : bodyOf i = noData (stsOp a v.toNat n)) (ha : addrOk a n = true)
    (hp : Plays s.cfg (stsXfers s.cfg a v n) s.world w) :
    ∃ t, exec i s = .next t ∧ Finished s t [] (stsXfers s.cfg a v n) w s.ses
      { s.dl with
        opAddr := BitVec.ofNat 24 a, opSize := BitVec.ofNat 2 n, opLen := 1, dataBuf := [v]
        ackLast := s.cfg.ack } s.nvm := by
  have hvalue : BitVec.ofNat 8 v.toNat = v := by simp
  have hrun := stsOp_plays (s := s.accepted) (v := v.toNat) (rest := []) (w' := w) rfl hr.live.accepted ha
    (Nat.le_of_lt_succ v.isLt)
  rw [hvalue] at hrun
  exact hr.finishes hi hr.idle.dlIdle (hbody ▸ noData_finishes (hrun (plays_accepted hp)))

theorem exec_stPtr_finishes {n p : Nat} (hr : Ready s) (hi : admOf i = .inSession)
    (hbody : bodyOf i s.accepted = noData (stPtrOp n p) s.accepted) (ha : addrOk p n = true)
    (hp : Plays s.cfg (stPtrXfers s.cfg n p) s.world w) :
    ∃ t, exec i s = .next t ∧ Finished s t [] (stPtrXfers s.cfg n p) w s.ses
      { s.dl with opAddr := BitVec.ofNat 24 p, opSize := BitVec.ofNat 2 n, ackLast := s.cfg.ack } s.nvm :=
  hr.finishes hi hr.idle.dlIdle
    (hbody ▸ noData_finishes (stPtrOp_plays (s := s.accepted) rfl hr.live.accepted ha (plays_accepted hp)))

theorem exec_ldPtr_finishes {n : Nat} {answer : List Byte} (hr : Ready s) (hi : admOf i = .inSession)
    (hbody : bodyOf i s.accepted = ldPtrOp n s.accepted) (hn : sizeOk n = true) (hlen : answer.length = n)
    (hp : Plays s.cfg (ldPtrXfers s.cfg n answer) s.world w) :
    ∃ t, exec i s = .next t ∧ Finished s t answer (ldPtrXfers s.cfg n answer) w s.ses
      { s.dl with opSize := BitVec.ofNat 2 n, respBuf := answer } s.nvm := by
  have hne : answer ≠ [] := by
    rintro rfl
    subst hlen
    cases hn
  exact hr.finishes hi hr.idle.dlIdle
    (hbody ▸ ldPtrOp_plays (s := s.accepted) rfl hr.live.accepted hlen hne (plays_accepted hp))

theorem exec_keyWrite_finishes {k : List Byte} (hr : Ready s) (hi : admOf i = .inSession)
    (hbody : bodyOf i = noData (keyWriteOp k)) (hk : k.length = s.cfg.keyLen)
    (hp : Plays s.cfg (keyXfers s.cfg k) s.world w) :
    ∃ t, exec i s = .next t ∧ Finished s t [] (keyXfers s.cfg k) w s.ses
      { s.dl with dataBuf := keyOrd s.cfg k, opLen := s.cfg.keyLen } s.nvm :=
  hr.finishes hi hr.idle.dlIdle
    (hbody ▸ noData_finishes (keyWriteOp_plays (s := s.accepted) rfl hr.live.accepted hk (plays_accepted hp)))

end Sys2Proof.Machine

namespace Sys2Proof.Proofs

open Sys2Proof.Machine

/-- Settles O13: each operation's check stands before anything it does, and wire instructions run the same
operations. -/
theorem datalinkArgumentsChecked : Obligations.DatalinkArgumentsChecked := by
  intro s hb hidle
  have refused {i : Instr} := exec_refused_of_check (i := i) hb hidle
  refine ⟨?_, ?_, ?_, ?_, ?_, ?_, ?_, ?_, ?_, ?_, ?_⟩
  · exact fun a ha => refused (oneByte_error (csRead_refused ha))
  · exact fun a v h => refused (noData_error (csWrite_refused h))
  · exact fun a n h => refused (ldsOp_refused h)
  · exact fun a v n h => refused (noData_error (stsOp_refused h))
  · exact fun a h => refused (noData_error (stPtrOp_refused h))
  · exact fun b h => refused (noData_error (stPtrIncOp_refused h))
  · exact fun n h => refused (ldPtrIncOp_refused h)
  · intro k h
    exact ⟨refused (noData_error (keyWriteOp_refused h)), refused (noData_error (keyWriteOp_refused h))⟩
  · exact fun v more h => refused (noData_error (stIncWire_refused h))
  · exact fun more h => refused (ldIncWire_refused h)
  · exact fun n h => refused (noData_error (repeatWire_refused h))

/-- Settles O14: outside the domain the check refuses, inside it the errors are those of an exchange
(`quiet_over`). -/
theorem csAddressChecked : Obligations.CsAddressChecked := by
  intro s hinv hmode
  have hover := quiet_over plainScope s.accepted
  have hquiet := Quiet.refl plainScope (accepted_idle hinv.idle)
  refine ⟨fun a => ?_, fun a v => ?_⟩
  · refine exec_refused_iff (I := Quiet plainScope s.accepted) hinv (allowed_in_session rfl hmode)
      (fun h => oneByte_error (csRead_refused h)) fun h => ?_
    exact stays_oneByte (hover.csRead (not_lt.mp h)) _ hquiet
  · refine exec_refused_iff (I := Quiet plainScope s.accepted) hinv (allowed_in_session rfl hmode)
      (fun h => noData_error (csWrite_refused h)) fun h => ?_
    obtain ⟨ha, hv⟩ := not_or.mp h
    exact stays_drop (hover.csWrite (not_lt.mp ha) (not_lt.mp hv)) _ hquiet

/-- Settles O33, by the exchanges of `cs_read` and `cs_write`. -/
theorem csExchanges : Obligations.CsExchanges := by
  intro s a v w hr
  exact ⟨exec_csRead_finishes hr rfl rfl, exec_csRead_finishes hr rfl rfl, exec_csWrite_finishes hr rfl rfl,
    exec_csWrite_finishes hr rfl rfl⟩

/-- Settles O34, by the exchange of `lds`. -/
theorem directLoads : Obligations.DirectLoads := by
  intro s b w hr
  exact ⟨fun a => exec_load_finishes hr rfl rfl (addrOk_toNat (n := 1) rfl a),
    fun a => exec_load_finishes hr rfl rfl (addrOk_toNat (n := 2) rfl a),
    fun a => exec_load_finishes hr rfl rfl (addrOk_toNat (n := 3) rfl a),
    fun a n ha => exec_load_finishes hr rfl rfl ha⟩

/-- Settles O35, by the exchange of `sts`. -/
theorem directStores : Obligations.DirectStores := by
  intro s v w hr
  exact ⟨fun a => exec_store_finishes hr rfl rfl (addrOk_toNat (n := 1) rfl a),
    fun a => exec_store_finishes hr rfl rfl (addrOk_toNat (n := 2) rfl a),
    fun a => exec_store_finishes hr rfl rfl (addrOk_toNat (n := 3) rfl a),
    fun a n ha => exec_store_finishes hr rfl rfl ha⟩

/-- Settles O36, by the exchange of `st_ptr`. -/
theorem pointerStores : Obligations.PointerStores := by
  intro s w hr
  exact ⟨fun p => exec_stPtr_finishes hr rfl rfl (addrOk_toNat (n := 1) rfl p),
    fun p => exec_stPtr_finishes hr rfl rfl (addrOk_toNat (n := 2) rfl p),
    fun p => exec_stPtr_finishes hr rfl rfl (addrOk_toNat (n := 3) rfl p),
    fun p hp => exec_stPtr_finishes hr rfl rfl hp⟩

/-- Settles O37, by the exchange of `ld_ptr`. -/
theorem pointerLoads : Obligations.PointerLoads := by
  intro s w answer hr
  exact ⟨exec_ldPtr_finishes hr rfl rfl rfl, exec_ldPtr_finishes hr rfl rfl rfl,
    exec_ldPtr_finishes hr rfl rfl rfl, fun hn => exec_ldPtr_finishes hr rfl rfl hn⟩

/-- Settles O38, by the exchanges of STINC and `st_ptr_inc`. -/
theorem pointerBlockStores : Obligations.PointerBlockStores := by
  intro s w hr
  refine ⟨fun v more hlen hp => ?_, fun block rep hlen hp => ?_⟩
  · exact hr.finishes rfl hr.idle.dlIdle
      (noData_finishes (stIncWire_plays (s := s.accepted) rfl hr.live.accepted hlen (plays_accepted hp)))
  · exact hr.finishes rfl hr.idle.dlIdle (noData_finishes
      (stPtrIncOp_plays (s := s.accepted) rfl hr.live.accepted hr.idle.dlIdle hlen (plays_accepted hp)))

/-- Settles O39, by the exchanges of LDINC and `ld_ptr_inc`. -/
theorem pointerBlockLoads : Obligations.PointerBlockLoads := by
  intro s w answer hr
  refine ⟨fun more hlen hmax hp => ?_, fun rep hlen hp => ?_⟩
  · rw [hlen]
    exact hr.finishes rfl hr.idle.dlIdle
      (ldIncWire_plays (s := s.accepted) rfl hr.live.accepted hlen hmax (plays_accepted hp))
  · exact hr.finishes rfl hr.idle.dlIdle
      (ldPtrIncOp_plays (s := s.accepted) rfl hr.live.accepted hr.idle.dlIdle hlen (plays_accepted hp))

/-- Settles O40, by the exchanges of REPEAT and `key_write`. -/
theorem repeatAndKey : Obligations.RepeatAndKey := by
  intro s w hr
  refine ⟨fun n hpos hmax hp => ?_, ?_⟩
  · exact hr.finishes rfl hr.idle.dlIdle
      (noData_finishes (repeatWire_plays (s := s.accepted) rfl hr.live.accepted hpos hmax (plays_accepted hp)))
  · rintro k i (rfl | rfl) hk hp
    · exact exec_keyWrite_finishes hr rfl rfl hk hp
    · exact exec_keyWrite_finishes hr rfl rfl hk hp

end Sys2Proof.Proofs
end

section
/-! PROOFS. A wrong acknowledge ends `sts` (41_datalink.md R173, R183), and after it only the forced cleanup's own CS
writes go over the line (60_exceptions.md R288), whatever the environment answers. -/

namespace Sys2Proof.Machine

variable {α β : Type} {s t u : State} {c : Config} {xs ys rest : List Xfer} {w : World}

/-! ### A wrong acknowledge (41_datalink.md R173, R183) -/

/-- The error that a byte in place of the acknowledge raises. -/
def wrongAck (c : Config) (phase : Phase) (b : Byte) : Err where
  code := .protocolAck
  info := { base := { layer := some .dl, phase := some phase, expected := some c.ack, got := some (.byte b) } }

theorem expectAck_wrong {b : Byte} {phase : Phase} (hc : s.cfg = c) (hl : Live s) (hb : b ≠ c.ack)
    (h : Plays c (.rx [b] :: rest) s.world w) :
    ∃ u, expectAck phase s = .error (wrongAck c phase b) u ∧
      Moved (s.setDl { s.dl with ackLast := b }) u [.rx [b]] := by
  obtain ⟨u, hrecv, hmoved, -⟩ := recvByte_plays hc hl h
  refine ⟨u.setDl { u.dl with ackLast := b }, ?_, ?_⟩
  · rw [expectAck, Act.bind_ok hrecv]
    simp [hmoved.cfg, hc, hb, wrongAck]
  · rw [hmoved.dl]
    exact hmoved.setDl _

/-- `sts` whose address is not acknowledged stops there: address and answer are its only transfers. -/
theorem stsOp_wrongAck {a v n : Nat} {b : Byte} (hc : s.cfg = c) (hl : Live s) (ha : addrOk a n = true)
    (hv : v ≤ 0xFF) (hb : b ≠ c.ack) (h : Plays c [.tx ([SYNC, opSts c n] ++ le a n), .rx [b]] s.world w) :
    ∃ u, stsOp a v n s = .error (((wrongAck c .address b).named .sts).placed (some a)) u ∧
      Moved (s.setDl
        { s.dl with
          opAddr := BitVec.ofNat 24 a, opSize := BitVec.ofNat 2 n, opLen := 1
          dataBuf := [BitVec.ofNat 8 v], ackLast := b, dlState := .idle }) u
        [.tx ([SYNC, opSts c n] ++ le a n), .rx [b]] := by
  let d : Dl :=
    { s.dl with
      opAddr := BitVec.ofNat 24 a, opSize := BitVec.ofNat 2 n, opLen := 1
      dataBuf := [BitVec.ofNat 8 v], dlState := .txInstr }
  have hl0 := hl.setDl d
  obtain ⟨t, hsend, hsent, hp⟩ := phySend_plays (s := s.setDl d) hc (by simp) hl0.transport hl0.quiet h
  have hl1 := (hsent.live hl0).setDl { t.dl with dlState := .rxAckAddr }
  obtain ⟨u, hack, hacked⟩ := expectAck_wrong (phase := .address)
    (s := t.setDl { t.dl with dlState := .rxAckAddr }) (hsent.cfg.trans hc) hl1 hb hp
  refine ⟨u.setDl { u.dl with dlState := .idle }, ?_, ?_⟩
  · rw [stsOp, ha, decide_eq_true hv, Bool.and_self, demand_true_bind_run]
    refine inDl_error (s' := u) ?_
    simp only [Act.get_bind_run, setOpAddr_bind_run, setOpSize_bind_run, setOpLen_bind_run, setDataBuf_bind_run,
      setDlState_bind_run, State.setDl_setDl, State.setDl_dl, hc]
    rw [Act.bind_ok hsend, setDlState_bind_run]
    exact Act.bind_error hack
  · have hboth := (hsent.andThen _ hacked).setDl { u.dl with dlState := .idle }
    simpa [hacked.dl, hsent.dl, d] using hboth

/-! ### What may go over the line while a session is closed (43_session.md R266, 60_exceptions.md R288) -/

/-- From `s` to `t` exactly these transfers were made. -/
def Makes (xs : List Xfer) (s t : State) : Prop := t.traffic = s.traffic ++ xs

/-- From `s` to `t` some of these transfers were made, in this order, and no others. -/
def MakesSome (xs : List Xfer) (s t : State) : Prop := ∃ zs, zs.Sublist xs ∧ Makes zs s t

theorem MakesSome.trans (h : MakesSome xs s t) (h' : MakesSome ys t u) : MakesSome (xs ++ ys) s u := by
  obtain ⟨zs, hzs, htraffic⟩ := h
  obtain ⟨zs', hzs', htraffic'⟩ := h'
  exact ⟨zs ++ zs', hzs.append hzs', by rw [Makes, htraffic', htraffic, List.append_assoc]⟩

theorem makesSome_none (h : t.traffic = s.traffic) : MakesSome xs s t :=
  ⟨[], List.nil_sublist _, h.trans (List.append_nil _).symm⟩

theorem Makes.some (h : Makes xs s t) : MakesSome xs s t := ⟨xs, List.Sublist.refl _, h⟩

/-- The transfer a byte-port call shows, if it shows one. -/
theorem Logs.traffic {a : PortAct} {ans : PortAnswer} (h : Logs s t a ans) : t.traffic = s.traffic ++
    (Event.xfer ⟨s.phy.phyState, s.dl.dlState, s.nvm.nvmState, a, ans⟩).toList := by
  rw [← traffic_logged, State.traffic, h.trace]
  rfl

theorem Logs.traffic_of_ioerror {a : PortAct} (h : Logs s t a .ioerror) : t.traffic = s.traffic := by
  rw [h.traffic]
  cases a <;> exact List.append_nil _

/-- Only a read in `P_RX` is a transfer; the read of an echo is none. -/
theorem Logs.traffic_of_echo {n timeout : Nat} {ans : PortAnswer} (h : Logs s t (.trRead n timeout) ans)
    (hp : s.phy.phyState = .echo) : t.traffic = s.traffic := by
  rw [h.traffic, hp]
  cases ans <;> exact List.append_nil _

theorem leads_demand_bind {b : Bool} {k : Unit → Act β} {Q : β → State → Prop} {E : Err → State → Prop}
    (hb : b = true) (h : Leads (k ()) s Q E) : Leads (demand b >>= k) s Q E := by
  subst hb
  exact h

theorem leads_inDl {x : Act α} {name : OpName} {addr : State → Option Nat} {P : State → Prop}
    (h : Leads x s (fun _ => P) fun _ => P) (hP : ∀ t d, P t → P (t.setDl d)) :
    Leads (inDl name addr x) s (fun _ => P) fun _ => P := by
  cases hr : x s with
  | ok a u => exact leads_ok (inDl_ok hr) (hP u _ (h.1 a u hr))
  | error e u => exact leads_error (inDl_error hr) (hP u _ (h.2 e u hr))

theorem leads_attempt {x : Act α} {P : State → Prop} {E : Err → State → Prop}
    (h : Leads x s (fun _ => P) fun _ => P) : Leads (attempt x) s (fun _ => P) E := by
  refine leads_ok (attempt_run x s) ?_
  cases hr : x s with
  | ok a u => exact effect_ok hr ▸ h.1 a u hr
  | error e u => exact effect_error hr ▸ h.2 e u hr

/-- PHY's send is its one transmission, or fails before it is complete. -/
theorem phySend_makesSome (bs : List Byte) (s : State) :
    Leads (phySend bs) s (fun _ => MakesSome [.tx bs] s) fun _ => MakesSome [.tx bs] s := by
  rw [phySend]
  split
  · exact leads_ok rfl (makesSome_none rfl)
  · refine leads_inPhy (Q := fun _ => MakesSome [.tx bs] s) (E := fun _ => MakesSome [.tx bs] s) ?_
      (fun _ _ h => h) fun _ _ h => h
    refine leads_modify_bind (P := fun t => t.traffic = s.traffic) rfl fun t ht => ?_
    refine leads_bind ((trWrite_logs bs t).mono (Q' := fun _ => Makes [.tx bs] s)
      (fun _ u hlogs => hlogs.traffic.trans (congrArg (· ++ [Xfer.tx bs]) ht))
      fun _ u hfails => makesSome_none (hfails.2.traffic_of_ioerror.trans ht)) fun _ u hu => ?_
    refine leads_modify_bind (P := fun v => v.phy.phyState = .echo ∧ Makes [.tx bs] s v)
      ⟨rfl, hu⟩ fun v ⟨hecho, hv⟩ => leads_get_bind ?_
    refine leads_bind ((trRead_logs bs.length v.cfg.tEcho v).mono (Q' := fun _ => Makes [.tx bs] s)
      (fun _ w hlogs => (hlogs.traffic_of_echo hecho).trans hv)
      fun _ w hfails => Makes.some ((hfails.2.traffic_of_echo hecho).trans hv)) fun r w hw => ?_
    refine leads_modify_bind (P := Makes [.tx bs] s) hw fun x hx => ?_
    cases r with
    | some _ => exact leads_ok rfl hx.some
    | none => exact leads_error rfl hx.some

/-- A CS write makes its transmission or nothing (41_datalink.md R178). -/
theorem csWrite_makesSome (a : CsAddr) (v : Byte) (s : State) :
    Leads (csWrite a.toNat v.toNat) s (fun _ => MakesSome [.tx [SYNC, opStcs s.cfg a, v]] s)
      fun _ => MakesSome [.tx [SYNC, opStcs s.cfg a, v]] s := by
  have haddr : BitVec.ofNat 4 a.toNat = a := by simp
  have hvalue : BitVec.ofNat 8 v.toNat = v := by simp
  have hdomain : (decide (a.toNat ≤ 0x0F) && decide (v.toNat ≤ 0xFF)) = true := by
    simp only [Bool.and_eq_true, decide_eq_true_eq]
    exact ⟨Nat.le_of_lt_succ a.isLt, Nat.le_of_lt_succ v.isLt⟩
  have hsend := phySend_makesSome [SYNC, opStcs s.cfg a, v]
    (s.setDl { s.dl with opAddr := BitVec.ofNat 24 a.toNat, dlState := .txInstr })
  rw [csWrite, haddr, hvalue]
  exact leads_demand_bind hdomain (leads_inDl (leads_get_bind hsend) fun _ _ h => h)

/-- A CS write of `close`, attempted: the parameters stay, so the next one is encoded with the same ones. -/
theorem attempt_csWrite_makesSome (hc : s.cfg = c) (a : CsAddr) (v : Byte) {E : Err → State → Prop} :
    Leads (attempt (csWrite a.toNat v.toNat)) s
      (fun _ t => t.cfg = c ∧ MakesSome [.tx [SYNC, opStcs c a, v]] s t) E := by
  subst hc
  have hstays := (inSession_inert plainScope s).exch.csWrite (Nat.le_of_lt_succ a.isLt) (Nat.le_of_lt_succ v.isLt)
    s (InSession.refl _ s)
  obtain ⟨hok, herror⟩ := csWrite_makesSome a v s
  exact leads_attempt ⟨fun b t h => ⟨(hstays.1 b t h).cfg, hok b t h⟩,
    fun e t h => ⟨(hstays.2 e t h).1.cfg, herror e t h⟩⟩

theorem closeLine_makesSome (r : Bool) (s : State) {E : Err → State → Prop} :
    Leads (closeLine r) s (fun _ => MakesSome (closeXfers s.cfg r) s) E := by
  refine leads_get_bind (leads_bind (attempt_csWrite_makesSome rfl _ _) fun _ t ⟨hcfg, ht⟩ => ?_)
  cases r with
  | false => exact leads_ok rfl ht
  | true =>
    refine leads_bind (attempt_csWrite_makesSome hcfg _ _) fun _ u ⟨hcfg', hu⟩ => ?_
    exact (attempt_csWrite_makesSome hcfg' _ _).mono (fun _ v hv => (ht.trans hu).trans hv.2) fun _ _ h => h

theorem attempt_trClose_makesSome (s : State) {E : Err → State → Prop} :
    Leads (attempt trClose) s (fun _ => MakesSome [] s) E :=
  leads_attempt ((trClose_logs s).mono
    (fun _ _ hlogs => makesSome_none (hlogs.traffic.trans (List.append_nil _)))
    fun _ _ hfails => makesSome_none hfails.2.traffic_of_ioerror)

/-- The body of `close` makes no transfers but its own CS writes, in their order (43_session.md R266). -/
theorem closeBody_makesSome (r : Bool) (s : State) {E : Err → State → Prop} :
    Leads (closeBody r) s (fun _ => MakesSome (closeXfers s.cfg r) s) E := by
  have hrelease {xs : List Xfer} {t : State} (ht : MakesSome xs s t) :
      Leads (modify State.released) t (fun _ => MakesSome xs s) E := leads_ok rfl ht
  have hclose {xs : List Xfer} {t : State} (ht : MakesSome xs s t) :
      Leads (attempt trClose >>= fun _ => modify State.released) t (fun _ => MakesSome xs s) E :=
    leads_bind (attempt_trClose_makesSome t) fun _ u hu => hrelease (List.append_nil xs ▸ ht.trans hu)
  refine leads_get_bind ?_
  split
  · split
    · exact leads_bind (closeLine_makesSome r s) fun _ t ht => hclose ht
    · exact hclose (makesSome_none rfl)
  · exact hrelease (makesSome_none rfl)

theorem forcedCleanup_makesSome (s : State) :
    MakesSome (closeXfers s.cfg s.cfg.cleanupReset) s s.forcedCleanup := by
  obtain ⟨t, hrun, -⟩ := closeBody_left s.cfg.cleanupReset s
  have hsome := (closeBody_makesSome s.cfg.cleanupReset s (E := fun _ _ => True)).1 () t hrun
  rw [State.forcedCleanup, effect_ok hrun]
  exact hsome

/-- The command `sts` whose address is not acknowledged, its error taken and the cleanup run. -/
theorem exec_sts_wrongAck {a v n : Nat} {b : Byte} (hr : Ready s) (ha : addrOk a n = true) (hv : v ≤ 0xFF)
    (hb : b ≠ s.cfg.ack) (hp : Plays s.cfg [.tx ([SYNC, opSts s.cfg n] ++ le a n), .rx [b]] s.world w) :
    ∃ u, exec (.sts a v n) s = .next (u.sequencersIdle.forcedCleanup.respondError
        (((wrongAck s.cfg .address b).named .sts).placed (some a))) ∧
      Moved (s.accepted.setDl
        { s.dl with
          opAddr := BitVec.ofNat 24 a, opSize := BitVec.ofNat 2 n, opLen := 1
          dataBuf := [BitVec.ofNat 8 v], ackLast := b, dlState := .idle }) u
        [.tx ([SYNC, opSts s.cfg n] ++ le a n), .rx [b]] := by
  obtain ⟨u, hrun, hmoved⟩ := stsOp_wrongAck (s := s.accepted) rfl hr.live.accepted ha hv hb hp
  refine ⟨u, ?_, hmoved⟩
  rw [exec_of_body_error (i := .sts a v n) hr.notBusy (hr.allowed_of_session rfl) (noData_error hrun)]
  exact congrArg Host.Outcome.next (deliver_of_needsCleanup rfl)

end Sys2Proof.Machine

namespace Sys2Proof.Proofs

open Sys2Proof.Machine

/-- Settles O21: the exchange ends in `wrongAck`, and the forced cleanup is the body of `close`, which leaves no
session and makes only its own transfers. -/
theorem wrongAcknowledgeStopsTheStore : Obligations.WrongAcknowledgeStopsTheStore := by
  intro s a v n b w hr ha hv hb hp
  obtain ⟨u, hexec, hmoved⟩ := exec_sts_wrongAck hr ha hv hb hp
  have hleft := forcedCleanup_left u.sequencersIdle
  obtain ⟨zs, hzs, htraffic⟩ := forcedCleanup_makesSome u.sequencersIdle
  have hcfg : u.sequencersIdle.cfg = s.cfg := hmoved.cfg
  rw [hcfg] at hzs
  refine ⟨_, zs, hexec, rfl, ?_, ⟨hleft.closed.mode, hleft.closed.transport, hleft.closed.link, hleft.closed.key⟩,
    ⟨hleft.idle.phyIdle, hleft.idle.dlIdle, hleft.idle.nvmIdle, hleft.idle.noEcho⟩, hzs, ?_⟩
  · show { u.dl with dlState := .idle } = _
    rw [hmoved.dl, ← hr.idle.dlIdle]
    rfl
  · calc u.sequencersIdle.forcedCleanup.traffic = u.traffic ++ zs := htraffic
      _ = s.traffic ++ [.tx ([SYNC, opSts s.cfg n] ++ le a n), .rx [b]] ++ zs :=
        congrArg (· ++ zs) hmoved.traffic

end Sys2Proof.Proofs
end

section
/-! PROOFS. The argument checks of the NVM commands and of `open` (42_nvm.md R220, R222, 43_session.md R262): a body
that raises `REFUSED` or a caller error has done nothing, so the command ends with its response alone changed. -/

namespace Sys2Proof.Machine

variable {α β : Type} {i : Instr} {s : State} {P : Err → Prop}

/-! ### Pieces of a command that end at a check -/

/-- The piece ends in an error of which `P` holds, with no register written but the sequencers'. -/
def Stops (x : Act α) (s : State) (P : Err → Prop) : Prop :=
  ∃ e t, x s = .error e t ∧ P e ∧ t.sequencersIdle = s.sequencersIdle

theorem stops_error {x : Act α} {e : Err} (h : x s = .error e s) (hP : P e) : Stops x s P := ⟨e, s, h, hP, rfl⟩

theorem stops_bind {x : Act α} {k : α → Act β} (h : Stops x s P) : Stops (x >>= k) s P := by
  obtain ⟨e, t, hx, he, ht⟩ := h
  exact ⟨e, t, Act.bind_error hx, he, ht⟩

/-- What follows a piece that changed nothing. -/
theorem stops_after {x : Act α} {k : α → Act β} {a : α} (hx : x s = .ok a s) (h : Stops (k a) s P) :
    Stops (x >>= k) s P := by
  unfold Stops
  rw [Act.bind_ok hx]
  exact h

theorem stops_get {k : State → Act β} (h : Stops (k s) s P) : Stops (get >>= k) s P := stops_after rfl h

theorem stops_demand {b : Bool} {k : Unit → Act β} (hP : P refusedError) (h : b = true → Stops (k ()) s P) :
    Stops (demand b >>= k) s P := by
  cases b with
  | true => exact h rfl
  | false => exact ⟨refusedError, s, rfl, hP, rfl⟩

theorem stops_demandRegs {regs : Config → Profile → List Nat} {k : Unit → Act β} (hP : P refusedError)
    (h : allFit s.ses.profile (regs s.cfg s.ses.profile) = true → Stops (k ()) s P) :
    Stops (demandRegs regs >>= k) s P :=
  stops_demand (k := k) hP h

theorem stops_demandKey {k : Unit → Act β} (hP : P refusedError)
    (h : s.nvm.eraseKeySent = true → Stops (k ()) s P) : Stops (demandKey >>= k) s P :=
  stops_demand (k := k) hP h

/-- An NVM operation enters `N_CHECK` before its checks. -/
theorem stops_inNvm {name : OpName} {k : Unit → Act α}
    (h : Stops (k ()) (s.setNvm { s.nvm with nvmState := .check }) fun e => P (e.named name)) :
    Stops (inNvm name (setNvmState .check >>= k)) s P := by
  obtain ⟨e, t, hk, he, ht⟩ := h
  exact ⟨e.named name, _, inNvm_error hk, he, ht⟩

theorem stops_noData {x : Act Unit} (h : Stops x s P) : Stops (noData x) s P := stops_bind h

/-! ### What the checks let pass -/

variable {r : Region} {region offset page : Nat}

theorem pagedRegion_run (hr : regionOfCode region = some r) (hpage : regionPage s.ses.profile r = some page) :
    pagedRegion region s = .ok (r, page) s := by
  simp only [pagedRegion, Act.get_bind_run, hr, hpage, Act.pure_run]

theorem pagedRegion_unpaged (hr : regionOfCode region = some r) (hpage : regionPage s.ses.profile r = none) :
    pagedRegion region s = .error refusedError s := by
  simp only [pagedRegion, Act.get_bind_run, hr, hpage, raise_run]
  rfl

theorem regionPage_eq_none (p : Profile) (h : r = .fuse ∨ r = .lock ∨ r = .userRow) : regionPage p r = none := by
  rcases h with rfl | rfl | rfl <;> rfl

theorem checkAligned_run (h : offset % page = 0) : checkAligned region offset page s = .ok () s := by
  rw [checkAligned, if_pos h, Act.pure_run]

theorem checkPageSize_run {n : Nat} (h : n = page) : checkPageSize region n page s = .ok () s := by
  rw [checkPageSize, if_pos h, Act.pure_run]

theorem checkFuseIndex_run {n : Nat} (h : n < s.ses.profile.fuseCount) : checkFuseIndex n s = .ok () s := by
  rw [checkFuseIndex, Act.get_bind_run, if_pos h, Act.pure_run]

theorem demandKey_run (h : s.nvm.eraseKeySent = true) : demandKey s = .ok () s := by
  rw [demandKey, Act.get_bind_run, h, demand_true_run]

/-! The caller errors (42_nvm.md R220 (3), 60_exceptions.md R282), with the operations that enclose the check. -/

def alignmentError (region offset page : Nat) (op : List OpName) : Err where
  code := .alignment
  info := { base :=
    { layer := some .nvm, op := op, region := some region, offset := some offset, page := some page } }

def pageSizeError (region length page : Nat) (op : List OpName) : Err where
  code := .invalidPageSize
  info := { base :=
    { layer := some .nvm, op := op, region := some region, length := some length, page := some page } }

def fuseIndexError (index count : Nat) (op : List OpName) : Err where
  code := .invalidFuseIndex
  info := { base := { layer := some .nvm, op := op, index := some index, count := some count } }

theorem checkAligned_error (h : offset % page ≠ 0) :
    checkAligned region offset page s = .error (alignmentError region offset page []) s := by
  rw [checkAligned, if_neg h, raise_run]
  rfl

theorem checkPageSize_error {n : Nat} (h : n ≠ page) :
    checkPageSize region n page s = .error (pageSizeError region n page []) s := by
  rw [checkPageSize, if_neg h, raise_run]
  rfl

theorem checkFuseIndex_error {n : Nat} (h : s.ses.profile.fuseCount ≤ n) :
    checkFuseIndex n s = .error (fuseIndexError n s.ses.profile.fuseCount []) s := by
  rw [checkFuseIndex, Act.get_bind_run, if_neg (not_lt.mpr h), raise_run]
  rfl

/-! ### A command whose body stops -/

/-- A body that stops in `REFUSED` is a refused command, in every mode (60_exceptions.md R283). -/
theorem exec_refused_of_stops (hb : s.rsp.busy = false) (hidle : SequencersIdle s)
    (h : Stops (bodyOf i) s.accepted (·.code = .refused)) : exec i s = .next s.refusal := by
  obtain ⟨e, t, hbody, he, ht⟩ := h
  exact exec_refused_of_body hb hidle he hbody ht

theorem needsCleanup_of_callCode {c : Code} (h : CallCode c) : needsCleanup c = false := by
  rcases h with rfl | rfl | rfl | rfl <;> rfl

/-- An error of the caller, delivered where nothing was done (60_exceptions.md R283, R284, R286). -/
theorem deliver_of_callCode {t : State} {e : Err} (cleans : Bool) (hb : s.rsp.busy = false)
    (hidle : SequencersIdle s) (hcode : CallCode e.code) (ht : t.sequencersIdle = s.accepted.sequencersIdle) :
    t.deliver cleans e = if e.code = .refused then s.refusal else s.respondError e := by
  simp only [State.deliver, needsCleanup_of_callCode hcode, Bool.and_false, Bool.false_eq_true, if_false,
    refused_of_accepted hidle hb ht, respondError_of_accepted hidle e ht]

/-- A body that stops in an error of the caller, in a mode that admits the command. -/
theorem exec_of_stops (hb : s.rsp.busy = false) (hidle : SequencersIdle s) (hal : allowed i s.ses.sesState = true)
    (hP : ∀ e, P e → CallCode e.code) (h : Stops (bodyOf i) s.accepted P) :
    ∃ e, P e ∧ exec i s = .next (if e.code = .refused then s.refusal else s.respondError e) := by
  obtain ⟨e, t, hbody, he, ht⟩ := h
  refine ⟨e, he, ?_⟩
  rw [exec_of_body_error hb hal hbody, deliver_of_callCode _ hb hidle (hP e he) ht]

/-! ### Each command at its checks -/

/-- `write_page` on a paged region: alignment is checked first, then the length of the data, then what is refused
(42_nvm.md R220, R222, R232, 60_exceptions.md R289). -/
theorem writePageOp_stops {data : List Byte} (hr : regionOfCode region = some r)
    (hpage : regionPage s.ses.profile r = some page)
    (halign : offset % page ≠ 0 → P (alignmentError region offset page [.writePage]))
    (hsize : offset % page = 0 → data.length ≠ page → P (pageSizeError region data.length page [.writePage]))
    (hrest : offset % page = 0 → data.length = page → P (refusedError.named .writePage) ∧
      ¬(offset + page ≤ regionSize s.ses.profile r ∧
        addrOk (regionBase s.ses.profile r + offset + page - 1) s.ses.profile.addrBytes = true ∧
        allFit s.ses.profile (codeRegs s.cfg s.ses.profile) = true ∧ s.nvm.eraseKeySent = true)) :
    Stops (writePageOp region offset data) s P := by
  refine stops_inNvm (stops_after (pagedRegion_run hr hpage) (stops_get ?_))
  by_cases ha : offset % page = 0
  · refine stops_after (checkAligned_run ha) ?_
    by_cases hlen : data.length = page
    · obtain ⟨hrefused, hnot⟩ := hrest ha hlen
      refine stops_after (checkPageSize_run hlen) (stops_demand hrefused fun hrange => ?_)
      refine stops_demandRegs hrefused fun hregs => stops_demandKey hrefused fun hkey => ?_
      obtain ⟨hin, hfit⟩ := Bool.and_eq_true_iff.mp hrange
      exact absurd ⟨of_decide_eq_true hin, hfit, hregs, hkey⟩ hnot
    · exact stops_bind (stops_error (checkPageSize_error hlen) (hsize ha hlen))
  · exact stops_bind (stops_error (checkAligned_error ha) (halign ha))

/-- `erase_page` on a paged region (42_nvm.md R245). -/
theorem erasePageOp_stops (hr : regionOfCode region = some r) (hpage : regionPage s.ses.profile r = some page)
    (halign : offset % page ≠ 0 → P (alignmentError region offset page [.erasePage]))
    (hrest : offset % page = 0 → P (refusedError.named .erasePage) ∧
      ¬(offset + page ≤ regionSize s.ses.profile r ∧
        addrOk (regionBase s.ses.profile r + offset) s.ses.profile.addrBytes = true ∧
        allFit s.ses.profile (codeRegs s.cfg s.ses.profile) = true ∧ s.nvm.eraseKeySent = true)) :
    Stops (erasePageOp region offset) s P := by
  refine stops_inNvm (stops_after (pagedRegion_run hr hpage) (stops_get ?_))
  by_cases ha : offset % page = 0
  · obtain ⟨hrefused, hnot⟩ := hrest ha
    refine stops_after (checkAligned_run ha) (stops_demand hrefused fun hrange => ?_)
    refine stops_demandRegs hrefused fun hregs => stops_demandKey hrefused fun hkey => ?_
    obtain ⟨hin, hfit⟩ := Bool.and_eq_true_iff.mp hrange
    exact absurd ⟨of_decide_eq_true hin, hfit, hregs, hkey⟩ hnot
  · exact stops_bind (stops_error (checkAligned_error ha) (halign ha))

/-- `write_fuse`: the value is checked before the index, the index before the rest (42_nvm.md R242, R243). -/
theorem writeFuseOp_stops {n v : Nat} (hvalue : 0xFF < v → P (refusedError.named .writeFuse))
    (hindex : v ≤ 0xFF → s.ses.profile.fuseCount ≤ n → P (fuseIndexError n s.ses.profile.fuseCount [.writeFuse]))
    (hrest : v ≤ 0xFF → n < s.ses.profile.fuseCount → P (refusedError.named .writeFuse) ∧
      ¬(s.ses.profile.fuseBase + n < 2 ^ 16 ∧ allFit s.ses.profile (fuseRegs s.cfg s.ses.profile) = true ∧
        s.nvm.eraseKeySent = true)) :
    Stops (writeFuseOp n v) s P := by
  refine stops_inNvm ?_
  by_cases hv : v ≤ 0xFF
  · refine stops_after ((demand_run _ _).trans (if_pos (decide_eq_true hv))) ?_
    by_cases hn : n < s.ses.profile.fuseCount
    · obtain ⟨hrefused, hnot⟩ := hrest hv hn
      refine stops_after (checkFuseIndex_run hn) (stops_get (stops_demand hrefused fun hfit => ?_))
      refine stops_demandRegs hrefused fun hregs => stops_demandKey hrefused fun hkey => ?_
      exact absurd ⟨of_decide_eq_true hfit, hregs, hkey⟩ hnot
    · exact stops_bind (stops_error (checkFuseIndex_error (not_lt.mp hn)) (hindex hv (not_lt.mp hn)))
  · exact stops_demand (hvalue (not_le.mp hv)) fun hle => absurd (of_decide_eq_true hle) hv

/-- `read_fuse` (42_nvm.md R240). -/
theorem readFuseOp_stops {n : Nat}
    (hindex : s.ses.profile.fuseCount ≤ n → P (fuseIndexError n s.ses.profile.fuseCount [.readFuse]))
    (hrest : n < s.ses.profile.fuseCount → P (refusedError.named .readFuse) ∧
      ¬ addrOk (s.ses.profile.fuseBase + n) s.ses.profile.addrBytes = true) :
    Stops (readFuseOp n) s P := by
  refine stops_inNvm ?_
  by_cases hn : n < s.ses.profile.fuseCount
  · obtain ⟨hrefused, hnot⟩ := hrest hn
    exact stops_after (checkFuseIndex_run hn) (stops_get (stops_demand hrefused fun hfit => absurd hfit hnot))
  · exact stops_bind (stops_error (checkFuseIndex_error (not_lt.mp hn)) (hindex (not_lt.mp hn)))

/-- `read_bytes` of a known region (42_nvm.md R237). -/
theorem readBytesOp_stops {n : Nat} (hr : regionOfCode region = some r) (hP : P (refusedError.named .readBytes))
    (h : ¬(offset + n ≤ regionSize s.ses.profile r ∧
      (n = 0 ∨ addrOk (regionBase s.ses.profile r + offset + n - 1) s.ses.profile.addrBytes = true))) :
    Stops (readBytesOp region offset n) s P := by
  unfold readBytesOp
  refine stops_inNvm (stops_get ?_)
  rw [hr]
  refine stops_demand hP fun hrange => ?_
  obtain ⟨hin, hfit⟩ := Bool.and_eq_true_iff.mp hrange
  exact absurd ⟨of_decide_eq_true hin, (Bool.or_eq_true_iff.mp hfit).imp_left of_decide_eq_true⟩ h

/-- `chip_erase` and `eeprom_erase` (42_nvm.md R220 (4), R222). -/
theorem eraseWhole_stops {name : OpName} {code : Config → Byte} (hP : P (refusedError.named name))
    (h : ¬(allFit s.ses.profile (codeRegs s.cfg s.ses.profile) = true ∧ s.nvm.eraseKeySent = true)) :
    Stops (eraseWhole name code) s P :=
  stops_inNvm (stops_demandRegs hP fun hregs => stops_demandKey hP fun hkey => absurd ⟨hregs, hkey⟩ h)

/-- `wait_nvm_ready` (42_nvm.md R220 (4)). -/
theorem waitCommand_stops (hP : P refusedError)
    (h : ¬ allFit s.ses.profile (pollRegs s.cfg s.ses.profile) = true) : Stops waitCommand s P :=
  stops_demandRegs (s := s.setNvm { s.nvm with nvmState := .check }) hP fun hregs => absurd hregs h

/-- `open` (43_session.md R262). -/
theorem openOp_stops {p : Profile} {port : Nat} (hP : P refusedError) (h : ¬ profileValid s.cfg p = true) :
    Stops (openOp p port) s P :=
  stops_get (stops_demand hP fun hvalid => absurd hvalid h)

theorem exec_unpaged (hb : s.rsp.busy = false) (hidle : SequencersIdle s) (hr : regionOfCode region = some r)
    (hpage : regionPage s.ses.profile r = none) (data : List Byte) :
    exec (.writePage region offset data) s = .next s.refusal ∧ exec (.erasePage region offset) s = .next s.refusal :=
  ⟨exec_refused_of_stops hb hidle
      (stops_noData (stops_inNvm (stops_bind (stops_error (pagedRegion_unpaged hr hpage) rfl)))),
    exec_refused_of_stops hb hidle
      (stops_noData (stops_inNvm (stops_bind (stops_error (pagedRegion_unpaged hr hpage) rfl))))⟩

/-! ### Address fit (42_nvm.md R220 (4)) -/

theorem not_addrOk {a n : Nat} (h : 2 ^ (8 * n) ≤ a) : ¬ addrOk a n = true := fun hok =>
  absurd (addrOk_iff.mp hok).2 (not_lt.mpr h)

theorem not_allFit {p : Profile} {addrs : List Nat} (h : ∃ a ∈ addrs, 2 ^ (8 * p.addrBytes) ≤ a) :
    ¬ allFit p addrs = true := by
  obtain ⟨a, hmem, ha⟩ := h
  exact fun hfit => not_addrOk ha (allFit_mem hfit hmem)

theorem profileValid_iff {c : Config} {p : Profile} : profileValid c p = true ↔
    1 ≤ p.addrBytes ∧ p.addrBytes ≤ 3 ∧ 0 < p.flashPage ∧ 0 < p.eepromPage ∧ p.flashSize % p.flashPage = 0 ∧
      p.eepromSize % p.eepromPage = 0 ∧ p.keyProg.length = c.keyLen ∧ p.keyErase.length = c.keyLen ∧
      p.nvmBase + c.nvmAddrOff + 1 < 2 ^ (8 * p.addrBytes) := by
  simp only [profileValid, sizeOk, fits, Bool.and_eq_true, decide_eq_true_eq, and_assoc]

/-- The commands that may change memory: without the key each ends at a check (42_nvm.md R222). -/
def ChangesMemory (i : Instr) : Prop :=
  (∃ r o d, i = .writePage r o d) ∨ (∃ r o, i = .erasePage r o) ∨ ∃ n v, i = .writeFuse n v

/-- A command that is refused, or whose body stops in an error of the caller, changes the response alone. -/
def EndsAtCheck (i : Instr) (s : State) : Prop :=
  exec i s = .next s.refusal ∨ ∃ e, CallCode e.code ∧ exec i s = .next (s.respondError e)

theorem endsAtCheck_of_stops (hb : s.rsp.busy = false) (hidle : SequencersIdle s)
    (h : Stops (bodyOf i) s.accepted (CallCode ·.code)) : EndsAtCheck i s := by
  cases hal : allowed i s.ses.sesState with
  | false => exact .inl ((exec_eq i s).trans (runCommand_refused hb ((admits_admOf i _).trans hal)))
  | true =>
    obtain ⟨e, hcode, hexec⟩ := exec_of_stops hb hidle hal (fun _ he => he) h
    split at hexec
    · exact .inl hexec
    · exact .inr ⟨e, hcode, hexec⟩

theorem endsAtCheck_without_key (hb : s.rsp.busy = false) (hidle : SequencersIdle s)
    (hkey : s.nvm.eraseKeySent = false) (hi : ChangesMemory i) : EndsAtCheck i s := by
  have nokey : ¬ s.nvm.eraseKeySent = true := by simp [hkey]
  rcases hi with ⟨region, offset, data, rfl⟩ | ⟨region, offset, rfl⟩ | ⟨n, v, rfl⟩
  · cases hr : regionOfCode region with
    | none => exact .inl (exec_writePage_unknown hr hb hidle offset data)
    | some r =>
      cases hpage : regionPage s.ses.profile r with
      | none => exact .inl (exec_unpaged hb hidle hr hpage data).1
      | some page =>
        exact endsAtCheck_of_stops hb hidle (stops_noData (writePageOp_stops hr hpage (fun _ => .inr (.inl rfl))
          (fun _ _ => .inr (.inr (.inl rfl))) fun _ _ => ⟨.inl rfl, fun h => nokey h.2.2.2⟩))
  · cases hr : regionOfCode region with
    | none => exact .inl (exec_erasePage_unknown hr hb hidle offset)
    | some r =>
      cases hpage : regionPage s.ses.profile r with
      | none => exact .inl (exec_unpaged hb hidle hr hpage []).2
      | some page =>
        exact endsAtCheck_of_stops hb hidle (stops_noData (erasePageOp_stops hr hpage (fun _ => .inr (.inl rfl))
          fun _ => ⟨.inl rfl, fun h => nokey h.2.2.2⟩))
  · exact endsAtCheck_of_stops hb hidle (stops_noData (writeFuseOp_stops (fun _ => .inl rfl)
      (fun _ _ => .inr (.inr (.inr rfl))) fun _ _ => ⟨.inl rfl, fun h => nokey h.2.2⟩))

end Sys2Proof.Machine

namespace Sys2Proof.Proofs

open Sys2Proof.Machine

/-- Settles O15: no mode admits `crc_check` (60_exceptions.md R292). -/
theorem crcCheckRefused : Obligations.CrcCheckRefused :=
  ⟨fun _ => rfl, fun s hb => (exec_eq .crcCheck s).trans (runCommand_refused hb rfl)⟩

/-- Settles O17: alignment is checked before the page size, the index before what may be refused. -/
theorem callerErrors : Obligations.CallerErrors := by
  intro s r region page offset hb hidle hmode hr hpage
  have ends {i : Instr} {e : Err} (hi : admOf i = .nvmMode) (hcode : CallCode e.code) (hne : e.code ≠ .refused)
      (h : Stops (bodyOf i) s.accepted (· = e)) : exec i s = .next (s.respondError e) := by
    have hal : allowed i s.ses.sesState = true := by
      rw [← admits_admOf, hi]
      rcases hmode with hm | hm <;> rw [hm] <;> rfl
    obtain ⟨_, rfl, hexec⟩ := exec_of_stops hb hidle hal (P := (· = e)) (fun _ he => by rw [he]; exact hcode) h
    rwa [if_neg hne] at hexec
  refine ⟨fun d ha => ?_, fun ha => ?_, fun d ha hlen => ?_, fun n hn => ⟨?_, fun v hv => ?_⟩⟩
  · exact ends (e := alignmentError region offset page [.writePage]) rfl (.inr (.inl rfl)) nofun
      (stops_noData (writePageOp_stops hr hpage (fun _ => rfl) (fun h => absurd h ha) fun h => absurd h ha))
  · exact ends (e := alignmentError region offset page [.erasePage]) rfl (.inr (.inl rfl)) nofun
      (stops_noData (erasePageOp_stops hr hpage (fun _ => rfl) fun h => absurd h ha))
  · exact ends (e := pageSizeError region d.length page [.writePage]) rfl (.inr (.inr (.inl rfl))) nofun
      (stops_noData (writePageOp_stops hr hpage (absurd ha) (fun _ _ => rfl) fun _ h => absurd h hlen))
  · exact ends (e := fuseIndexError n s.ses.profile.fuseCount [.readFuse]) rfl (.inr (.inr (.inr rfl))) nofun
      (readFuseOp_stops (fun _ => rfl) fun h => absurd h (not_lt.mpr hn))
  · exact ends (e := fuseIndexError n s.ses.profile.fuseCount [.writeFuse]) rfl (.inr (.inr (.inr rfl))) nofun
      (stops_noData (writeFuseOp_stops (fun h => absurd hv (not_le.mpr h)) (fun _ _ => rfl)
        fun _ h => absurd h (not_lt.mpr hn)))

/-- Settles O18: the key is the last check, and every check before it ends `REFUSED` or in a caller error. -/
theorem mutatingCommandsNeedTheKey : Obligations.MutatingCommandsNeedTheKey := by
  intro s hb hidle hkey
  have nokey : ¬ s.nvm.eraseKeySent = true := by simp [hkey]
  refine ⟨?_, ?_, fun i hi => ?_⟩
  · exact exec_refused_of_stops hb hidle (stops_noData (eraseWhole_stops rfl fun h => nokey h.2))
  · exact exec_refused_of_stops hb hidle (stops_noData (eraseWhole_stops rfl fun h => nokey h.2))
  · rcases endsAtCheck_without_key hb hidle hkey hi with hexec | ⟨e, hcode, hexec⟩
    · exact ⟨_, hexec, rfl, .inl rfl⟩
    · refine ⟨_, hexec, rfl, ?_⟩
      show codeByte e.code = 0xFF ∨ codeByte e.code = 0x06 ∨ codeByte e.code = 0x07 ∨ codeByte e.code = 0x08
      rcases hcode with h | h | h | h <;> rw [h] <;> decide

/-- Settles O60: each argument out of its domain fails the check that stands for it, if none before it has. -/
theorem nvmAndOpenArgumentsChecked : Obligations.NvmAndOpenArgumentsChecked := by
  intro s hb hidle p
  have refused {i : Instr} := exec_refused_of_stops (i := i) hb hidle
  refine ⟨?_, ?_, ?_, ?_, ?_, ?_, ?_, ?_, ?_⟩
  · exact fun q port h => refused (stops_noData (openOp_stops rfl (mt profileValid_iff.mp h)))
  · exact fun r region offset d hr h => exec_unpaged hb hidle hr (regionPage_eq_none p h) d
  · intro r region offset page hr hpage ha
    refine ⟨fun d hlen h => ?_, fun h => ?_⟩
    · refine refused (stops_noData (writePageOp_stops hr hpage (absurd ha) (fun _ h => absurd hlen h)
        fun _ _ => ⟨rfl, fun ⟨hin, hfit, hregs, _⟩ => ?_⟩))
      rcases h with h | h | h
      · exact absurd hin (not_le.mpr h)
      · exact not_addrOk h hfit
      · exact not_allFit h hregs
    · refine refused (stops_noData (erasePageOp_stops hr hpage (absurd ha)
        fun _ => ⟨rfl, fun ⟨hin, hfit, hregs, _⟩ => ?_⟩))
      rcases h with h | h | h
      · exact absurd hin (not_le.mpr h)
      · exact not_addrOk h hfit
      · exact not_allFit h hregs
  · intro r region offset n hr h
    refine refused (readBytesOp_stops hr rfl fun ⟨hin, hfit⟩ => ?_)
    rcases h with h | ⟨hpos, h⟩
    · exact absurd hin (not_le.mpr h)
    · exact not_addrOk h (hfit.resolve_left hpos.ne')
  · exact fun n hn h => refused (readFuseOp_stops (fun hge => absurd hn (not_lt.mpr hge))
      fun _ => ⟨rfl, not_addrOk h⟩)
  · exact fun n v hv => refused (stops_noData (writeFuseOp_stops (fun _ => rfl)
      (fun h => absurd hv (not_lt.mpr h)) fun h => absurd hv (not_lt.mpr h)))
  · intro n v hn h
    refine refused (stops_noData (writeFuseOp_stops (fun _ => rfl) (fun _ hge => absurd hn (not_lt.mpr hge))
      fun _ _ => ⟨rfl, fun ⟨hfit, hregs, _⟩ => ?_⟩))
    rcases h with h | h
    · exact absurd hfit (not_lt.mpr h)
    · exact not_allFit h hregs
  · exact fun h => refused (stops_noData (waitCommand_stops rfl (not_allFit h)))
  · intro h
    have hstops {name : OpName} {code : Config → Byte} :
        Stops (noData (eraseWhole name code)) s.accepted (·.code = .refused) :=
      stops_noData (eraseWhole_stops rfl fun hok => not_allFit h hok.1)
    exact ⟨refused hstops, refused hstops⟩

end Sys2Proof.Proofs
end

section
/-! PROOFS. The NVM commands in a world that answers them (42_nvm.md): each command is its checks, which pass, and
then a sequence of pieces, each with its transfers and the registers it leaves. -/

namespace Sys2Proof.Machine

variable {α β : Type} {i : Instr} {s s0 u : State} {xs ys rest : List Xfer} {x : Ses} {d : Dl} {n : Nvm} {w : World}
  {a : α} {b : β} {Q R : State → Prop}

/-! ### Pieces that end well -/

/-- The piece ends well with this result, in a state of which `Q` holds. -/
def Reaches (m : Act α) (s : State) (a : α) (Q : State → Prop) : Prop := ∃ u, m s = .ok a u ∧ Q u

theorem reaches_run {m : Act α} (h : m s = .ok a u) (hQ : Q u) : Reaches m s a Q := ⟨u, h, hQ⟩

/-- The same run, from what it is equal to. -/
theorem Reaches.of_eq {m m' : Act α} {s s' : State} (h : Reaches m' s' a Q) (heq : m s = m' s') : Reaches m s a Q := by
  unfold Reaches
  rw [heq]
  exact h

theorem reaches_bind {m : Act α} {k : α → Act β} (h : Reaches m s a Q) (hk : ∀ u, Q u → Reaches (k a) u b R) :
    Reaches (m >>= k) s b R := by
  obtain ⟨u, hm, hQ⟩ := h
  unfold Reaches
  rw [Act.bind_ok hm]
  exact hk u hQ

/-- What follows a piece that ended well. -/
theorem reaches_after {m : Act α} {k : α → Act β} (hm : m s = .ok a u) (hk : Reaches (k a) u b R) :
    Reaches (m >>= k) s b R :=
  reaches_bind (Q := (· = u)) (reaches_run hm rfl) fun _ hu => hu ▸ hk

theorem reaches_atPlace {m : Act α} {addr region : Nat} (h : Reaches m s a Q) :
    Reaches (atPlace addr region m) s a Q :=
  h.imp fun _ => And.imp_left atPlace_ok

theorem reaches_noData {m : Act Unit} (h : Reaches m s () Q) : Reaches (noData m) s [] Q :=
  h.imp fun _ => And.imp_left noData_ok

/-! ### Along a command -/

theorem Moved.setSes (h : Moved s u xs) (x : Ses) : Moved (s.setSes x) (u.setSes x) xs :=
  { h with ses := rfl }

/-- On the way of a command begun at `s0`: these transfers have been made, the three blocks are as given, and the
world answers the rest, until it is `w`. -/
structure Along (s0 : State) (xs : List Xfer) (x : Ses) (d : Dl) (n : Nvm) (rest : List Xfer) (w : World)
    (u : State) : Prop where
  live : Live u
  moved : Moved (((s0.setSes x).setDl d).setNvm n) u xs
  plays : Plays s0.cfg rest u.world w

theorem along_start (hl : Live s) (h : Plays s.cfg xs s.world w) : Along s [] s.ses s.dl s.nvm xs w s :=
  ⟨hl, Moved.refl hl, h⟩

theorem Along.cfg (h : Along s0 xs x d n rest w u) : u.cfg = s0.cfg := h.moved.cfg
theorem Along.ses (h : Along s0 xs x d n rest w u) : u.ses = x := h.moved.ses
theorem Along.dl (h : Along s0 xs x d n rest w u) : u.dl = d := h.moved.dl
theorem Along.nvm (h : Along s0 xs x d n rest w u) : u.nvm = n := h.moved.nvm

/-- NVM's registers are written. -/
theorem Along.setNvm (h : Along s0 xs x d n rest w u) (n' : Nvm) : Along s0 xs x d n' rest w (u.setNvm n') :=
  ⟨h.live.setNvm n', h.moved.setNvm n', h.plays⟩

/-- The mode register is written, the session's transport kept. -/
theorem Along.setSes (h : Along s0 xs x d n rest w u) {x' : Ses} (ho : x'.trOpen = u.ses.trOpen) :
    Along s0 xs x' d n rest w (u.setSes x') :=
  ⟨⟨ho.trans h.live.transport, h.live.quiet, h.live.phyIdle, h.live.noEcho⟩, h.moved.setSes x', h.plays⟩

/-- A piece that makes transfers, with what it leaves in the registers of DL and NVM. -/
theorem Along.step {v : State} {d' : Dl} {n' : Nvm} (h : Along s0 xs x d n rest w u)
    (hm : Moved ((u.setDl d').setNvm n') v ys) {rest' : List Xfer} {w' : World} (hp : Plays s0.cfg rest' v.world w') :
    Along s0 (xs ++ ys) x d' n' rest' w' v :=
  ⟨hm.live ((h.live.setDl _).setNvm _), ((h.moved.setDl d').setNvm n').trans hm, hp⟩

theorem Along.stepDl {v : State} {d' : Dl} (h : Along s0 xs x d n rest w u) (hm : Moved (u.setDl d') v ys)
    {rest' : List Xfer} (hp : Plays s0.cfg rest' v.world w) : Along s0 (xs ++ ys) x d' n rest' w v := by
  have hn : (u.setDl d').setNvm n = u.setDl d' := by rw [← h.nvm]; rfl
  exact h.step (hn.symm ▸ hm) hp

/-! ### The pieces -/

theorem noteNvmOp_run (h : s.ses.sesState = .unlocked ∨ s.ses.sesState = .programming) :
    noteNvmOp s = .ok () (s.setSes s.ses.noted) := by
  rw [noteNvmOp, Act.modify_run]
  rcases h with h | h
  · rw [if_pos h]
    rfl
  · have hsame : s.ses.noted = s.ses := by rw [Ses.noted, ← h]
    rw [if_neg (by simp [h]), hsame]
    rfl

theorem Along.nvmState (h : Along s0 xs x d n rest w u) (q : NvmState) :
    Reaches (setNvmState q) u () (Along s0 xs x d { n with nvmState := q } rest w) :=
  reaches_run (u := u.setNvm { u.nvm with nvmState := q }) rfl (by rw [h.nvm]; exact h.setNvm _)

theorem Along.note (h : Along s0 xs x d n rest w u) (hm : x.sesState = .unlocked ∨ x.sesState = .programming) :
    Reaches noteNvmOp u () (Along s0 xs x.noted d n rest w) :=
  reaches_run (noteNvmOp_run (by rwa [h.ses])) (by rw [h.ses]; exact h.setSes (by rw [h.ses]; rfl))

theorem Along.lds {address size : Nat} {v : Byte} (h : Along s0 xs x d n (ldsXfers s0.cfg address size v ++ rest) w u)
    (ha : addrOk address size = true) :
    Reaches (ldsOp address size) u [v] (Along s0 (xs ++ ldsXfers s0.cfg address size v) x
      { d with
        opAddr := BitVec.ofNat 24 address, opSize := BitVec.ofNat 2 size, opLen := 1, respBuf := [v]
        dlState := .idle } n rest w) := by
  obtain ⟨v, hrun, hmoved, hplays⟩ := ldsOp_plays h.cfg h.live ha h.plays
  rw [h.dl] at hmoved
  exact ⟨v, hrun, h.stepDl hmoved hplays⟩

theorem Along.sts {address v size : Nat}
    (h : Along s0 xs x d n (stsXfers s0.cfg address (BitVec.ofNat 8 v) size ++ rest) w u)
    (ha : addrOk address size = true) (hv : v ≤ 0xFF) :
    Reaches (stsOp address v size) u () (Along s0 (xs ++ stsXfers s0.cfg address (BitVec.ofNat 8 v) size) x
      { d with
        opAddr := BitVec.ofNat 24 address, opSize := BitVec.ofNat 2 size, opLen := 1
        dataBuf := [BitVec.ofNat 8 v], ackLast := s0.cfg.ack, dlState := .idle } n rest w) := by
  obtain ⟨v, hrun, hmoved, hplays⟩ := stsOp_plays h.cfg h.live ha hv h.plays
  rw [h.dl] at hmoved
  exact ⟨v, hrun, h.stepDl hmoved hplays⟩

theorem Along.stsByte {address size : Nat} {v : Byte}
    (h : Along s0 xs x d n (stsXfers s0.cfg address v size ++ rest) w u) (ha : addrOk address size = true) :
    Reaches (stsOp address v.toNat size) u () (Along s0 (xs ++ stsXfers s0.cfg address v size) x
      { d with
        opAddr := BitVec.ofNat 24 address, opSize := BitVec.ofNat 2 size, opLen := 1, dataBuf := [v]
        ackLast := s0.cfg.ack, dlState := .idle } n rest w) := by
  have hv : BitVec.ofNat 8 v.toNat = v := BitVec.ofNat_toNat ..
  have hsts := Along.sts (v := v.toNat) (by rwa [hv]) ha (Nat.le_of_lt_succ v.isLt)
  rwa [hv] at hsts

theorem Along.stPtr {width p : Nat} (h : Along s0 xs x d n (stPtrXfers s0.cfg width p ++ rest) w u)
    (ha : addrOk p width = true) :
    Reaches (stPtrOp width p) u () (Along s0 (xs ++ stPtrXfers s0.cfg width p) x
      { d with
        opAddr := BitVec.ofNat 24 p, opSize := BitVec.ofNat 2 width, ackLast := s0.cfg.ack
        dlState := .idle } n rest w) := by
  obtain ⟨v, hrun, hmoved, hplays⟩ := stPtrOp_plays h.cfg h.live ha h.plays
  rw [h.dl] at hmoved
  exact ⟨v, hrun, h.stepDl hmoved hplays⟩

theorem Along.keyWrite {k : List Byte} (h : Along s0 xs x d n (keyXfers s0.cfg k ++ rest) w u)
    (hk : k.length = s0.cfg.keyLen) :
    Reaches (keyWriteOp k) u () (Along s0 (xs ++ keyXfers s0.cfg k) x
      { d with dataBuf := keyOrd s0.cfg k, opLen := s0.cfg.keyLen, dlState := .idle } n rest w) := by
  obtain ⟨v, hrun, hmoved, hplays⟩ := keyWriteOp_plays h.cfg h.live hk h.plays
  rw [h.dl] at hmoved
  exact ⟨v, hrun, h.stepDl hmoved hplays⟩

theorem mem_chunks {data : List Byte} : ∀ b ∈ chunks data, b ≠ [] ∧ b.length ≤ repeatMax :=
  fun b hb => ⟨chunks_ne_nil data b hb, chunks_le data b hb⟩

theorem Along.storeChunks {data : List Byte} (h : Along s0 xs x d n (pageXfers s0.cfg data ++ rest) w u)
    (hd : d.dlState = .idle) :
    Reaches (storeChunks (chunks data)) u () (Along s0 (xs ++ pageXfers s0.cfg data) x
      (d.afterStores s0.cfg.ack (chunks data)) n rest w) := by
  obtain ⟨v, hrun, hmoved, hplays⟩ := storeChunks_plays h.cfg h.live (h.dl ▸ hd) mem_chunks h.plays
  rw [h.dl] at hmoved
  exact ⟨v, hrun, h.stepDl hmoved hplays⟩

theorem Along.loadChunks {answer : List Byte} (h : Along s0 xs x d n (loadXfers s0.cfg answer ++ rest) w u)
    (hd : d.dlState = .idle) :
    Reaches (loadChunks (chunkLens answer.length)) u answer (Along s0 (xs ++ loadXfers s0.cfg answer) x
      (d.afterLoads (chunks answer)) n rest w) := by
  obtain ⟨v, hrun, hmoved, hplays⟩ :=
    loadChunks_plays h.cfg h.live (h.dl ▸ hd) (fun b hb => (mem_chunks b hb).2) h.plays
  rw [h.dl] at hmoved
  rw [chunks_lengths, chunks_flatten] at hrun
  exact ⟨v, hrun, h.stepDl hmoved hplays⟩

theorem Along.exec {code : Config → Byte}
    (h : Along s0 xs x d n (execXfers s0.cfg x.profile (code s0.cfg) ++ rest) w u)
    (ha : addrOk (ctrlAddr s0.cfg x.profile) x.profile.addrBytes = true) :
    Reaches (nvmExec code) u () (Along s0 (xs ++ execXfers s0.cfg x.profile (code s0.cfg)) x
      { d with
        opAddr := BitVec.ofNat 24 (ctrlAddr s0.cfg x.profile), opSize := BitVec.ofNat 2 x.profile.addrBytes
        opLen := 1, dataBuf := [code s0.cfg], ackLast := s0.cfg.ack, dlState := .idle }
      { n with nvmState := .cmd } rest w) := by
  obtain ⟨v, hrun, hmoved, hplays⟩ := nvmExec_plays h.cfg h.live (by rwa [h.ses]) (by rw [h.ses]; exact h.plays)
  rw [h.dl, h.nvm, h.ses] at hmoved
  exact ⟨v, hrun, h.step hmoved hplays⟩

/-- The ready check, in a world `m` that answers its polls (42_nvm.md R225). -/
theorem Along.ready {m : World} {last : Byte} {busy : List Byte} (h : Along s0 xs x d n [] m u)
    (ha : addrOk (statAddr s0.cfg x.profile) x.profile.addrBytes = true)
    (hpolls : PollsIdle s0.cfg x.profile (m.now + s0.cfg.tNvm) last busy m w) :
    Reaches waitReadyNvm u () (Along s0 (xs ++ pollXfers s0.cfg x.profile busy last) x
      { d with
        opAddr := BitVec.ofNat 24 (statAddr s0.cfg x.profile), opSize := BitVec.ofNat 2 x.profile.addrBytes
        opLen := 1, respBuf := [last], dlState := .idle } (n.afterReady s0.cfg m.now last) [] w) := by
  obtain rfl : m = u.world := h.plays
  obtain ⟨v, hrun, hmoved, hworld⟩ := waitReadyNvm_plays h.cfg h.live (by rwa [h.ses]) (by rw [h.ses]; exact hpolls)
  rw [h.dl, h.nvm, h.ses] at hmoved
  exact ⟨v, hrun, h.step hmoved hworld.symm⟩

/-! ### A command from its pieces -/

theorem NvmReady.allowed_of_nvmMode (h : NvmReady s) (hi : admOf i = .nvmMode) : allowed i s.ses.sesState = true := by
  rw [← admits_admOf, hi]
  rcases h.nvmMode with hm | hm <;> rw [hm] <;> rfl

theorem NvmReady.live (h : NvmReady s) : Live s.accepted := h.ready.live.accepted

theorem NvmReady.nvmIdle (h : NvmReady s) : { s.nvm with nvmState := .idle } = s.nvm := by
  rw [← h.ready.idle.nvmIdle]

/-- A command whose body comes to its end along its transfers ends `OK` with those registers. -/
theorem NvmReady.finishes {data : List Byte} {x' : Ses} {d' : Dl} {n' : Nvm} (h : NvmReady s) (hi : admOf i = .nvmMode)
    (hbody : Reaches (bodyOf i) s.accepted data (Along s.accepted xs x d n [] w)) (hx : x = x') (hd : d = d')
    (hn : n = n') : ∃ t, exec i s = .next t ∧ Finished s t data xs w x' d' n' := by
  subst hx hd hn
  obtain ⟨u, hrun, hend⟩ := hbody
  have hmoved := hend.moved
  refine ⟨_, exec_of_body_ok h.ready.notBusy (h.allowed_of_nvmMode hi) hrun, ⟨rfl, rfl, rfl⟩,
    ⟨hmoved.cfg, hmoved.inputs, hmoved.linkUp, hmoved.syncAttempt, hmoved.baudCur, hmoved.frameErr, hmoved.phyIdle,
      hmoved.noEcho, hmoved.quiet, hmoved.traffic, ?_⟩, hmoved.ses, hmoved.dl, hmoved.nvm⟩
  exact hend.plays.symm

theorem along_inNvm {name : OpName} {m : Act α} (h : Reaches m u a (Along s0 xs x d n rest w)) :
    Reaches (inNvm name m) u a (Along s0 xs x d { n with nvmState := .idle } rest w) := by
  obtain ⟨v, hm, hv⟩ := h
  refine reaches_run (inNvm_ok hm) ?_
  rw [hv.nvm]
  exact hv.setNvm _

/-! ### The commands' bodies -/

variable {data answer busy : List Byte} {last v : Byte} {m : World} {r : Region} {region page offset idx : Nat}

theorem unlockEraseKey_unlocked (hl : Live s) (hkey : s.nvm.eraseKeySent = true) :
    Reaches unlockEraseKey s () (Along s [] s.ses s.dl { s.nvm with nvmState := .idle } [] s.world) := by
  refine along_inNvm (n := { s.nvm with nvmState := .check })
    (reaches_bind ((along_start (xs := []) hl rfl).nvmState _) fun u h => reaches_after (Act.get_run u) ?_)
  rw [if_pos (by rw [h.nvm]; exact hkey)]
  exact reaches_run rfl h

theorem unlockEraseKey_reaches (hl : Live s) (hm : s.ses.sesState = .unlocked ∨ s.ses.sesState = .programming)
    (hlen : s.ses.profile.keyErase.length = s.cfg.keyLen) (hkey : s.nvm.eraseKeySent = false)
    (hp : Plays s.cfg (keyXfers s.cfg s.ses.profile.keyErase) s.world w) :
    Reaches unlockEraseKey s () (Along s (keyXfers s.cfg s.ses.profile.keyErase) s.ses.noted
      { s.dl with dataBuf := keyOrd s.cfg s.ses.profile.keyErase, opLen := s.cfg.keyLen, dlState := .idle }
      { s.nvm with nvmState := .idle, eraseKeySent := true } [] w) := by
  have hstart := along_start hl (xs := keyXfers s.cfg s.ses.profile.keyErase ++ []) (by simpa using hp)
  refine along_inNvm (n := { s.nvm with nvmState := .check, eraseKeySent := true })
    (reaches_bind (hstart.nvmState _) fun u h => reaches_after (Act.get_run u) ?_)
  rw [if_neg (by rw [h.nvm]; simp [hkey]), h.ses]
  refine reaches_bind (h.note hm) fun u h => reaches_bind (h.keyWrite hlen) fun u h => ?_
  refine reaches_run (u := u.setNvm { u.nvm with eraseKeySent := true }) rfl ?_
  rw [h.nvm]
  exact h.setNvm _

theorem waitCommand_reaches (hl : Live s) (hm : s.ses.sesState = .unlocked ∨ s.ses.sesState = .programming)
    (hregs : allFit s.ses.profile (pollRegs s.cfg s.ses.profile) = true)
    (hpolls : PollsIdle s.cfg s.ses.profile (s.now + s.cfg.tNvm) last busy s.world w) :
    Reaches waitCommand s () (Along s (pollXfers s.cfg s.ses.profile busy last) s.ses.noted
      { s.dl with
        opAddr := BitVec.ofNat 24 (statAddr s.cfg s.ses.profile), opSize := BitVec.ofNat 2 s.ses.profile.addrBytes
        opLen := 1, respBuf := [last], dlState := .idle } (s.nvm.afterReady s.cfg s.now last) [] w) := by
  have hstat : addrOk (statAddr s.cfg s.ses.profile) s.ses.profile.addrBytes = true :=
    allFit_mem hregs (List.mem_singleton.mpr rfl)
  refine reaches_bind ((along_start (xs := []) hl rfl).nvmState _) fun u h => ?_
  refine reaches_after (demandRegs_run (by rwa [h.ses, h.cfg])) (reaches_bind (h.note hm) fun u h => ?_)
  exact h.ready hstat hpolls

theorem allFit_codeRegs {c : Config} {p : Profile} (h : allFit p (codeRegs c p) = true) :
    addrOk (ctrlAddr c p) p.addrBytes = true ∧ addrOk (statAddr c p) p.addrBytes = true :=
  ⟨allFit_mem h (by simp [codeRegs]), allFit_mem h (by simp [codeRegs])⟩

theorem eraseWhole_reaches {name : OpName} {code : Config → Byte} (hl : Live s)
    (hm : s.ses.sesState = .unlocked ∨ s.ses.sesState = .programming) (hkey : s.nvm.eraseKeySent = true)
    (hregs : allFit s.ses.profile (codeRegs s.cfg s.ses.profile) = true)
    (hp : Plays s.cfg (execXfers s.cfg s.ses.profile (code s.cfg)) s.world m)
    (hpolls : PollsIdle s.cfg s.ses.profile (m.now + s.cfg.tNvm) last busy m w) :
    Reaches (eraseWhole name code) s () (Along s
      (execXfers s.cfg s.ses.profile (code s.cfg) ++ pollXfers s.cfg s.ses.profile busy last) s.ses.noted
      { s.dl with
        opAddr := BitVec.ofNat 24 (statAddr s.cfg s.ses.profile), opSize := BitVec.ofNat 2 s.ses.profile.addrBytes
        opLen := 1, dataBuf := [code s.cfg], respBuf := [last], ackLast := s.cfg.ack, dlState := .idle }
      (s.nvm.afterReady s.cfg m.now last) [] w) := by
  obtain ⟨hctrl, hstat⟩ := allFit_codeRegs hregs
  have hstart := along_start hl (xs := execXfers s.cfg s.ses.profile (code s.cfg) ++ []) (by simpa using hp)
  refine along_inNvm (n := s.nvm.afterReady s.cfg m.now last) (reaches_bind (hstart.nvmState _) fun u h => ?_)
  refine reaches_after (demandRegs_run (by rwa [h.ses, h.cfg])) (reaches_after (demandKey_run (by rwa [h.nvm])) ?_)
  refine reaches_bind (h.note hm) fun u h => reaches_bind (h.exec hctrl) fun u h => ?_
  exact h.ready hstat hpolls

/-- What `write_page` does after its checks (42_nvm.md R232). -/
def pageSteps (width addr : Nat) (data : List Byte) : Act Unit := do
  setNvmState .setPtr
  stPtrOp width addr
  setNvmState .load
  storeChunks (chunks data)
  nvmExec (·.cmdWritePage)
  waitReadyNvm

/-- What `read_bytes` of at least one byte does after its checks (42_nvm.md R237). -/
def readSteps (width addr n : Nat) : Act (List Byte) := do
  setNvmState .setPtr
  stPtrOp width addr
  setNvmState .read
  loadChunks (chunkLens n)

/-- What `erase_page` does after its checks (42_nvm.md R245). -/
def eraseSteps (width addr : Nat) : Act Unit := do
  setNvmState .addr
  stsOp addr 0xFF width
  nvmExec (·.cmdErasePage)
  waitReadyNvm

/-- What `write_fuse` does after its checks (42_nvm.md R242). -/
def fuseSteps (c : Config) (p : Profile) (addr value : Nat) : Act Unit := do
  setNvmState .addr
  stsOp (aregAddr c p) (addr % 256) p.addrBytes
  stsOp (aregAddr c p + 1) (addr / 256) p.addrBytes
  stsOp (dregAddr c p) value p.addrBytes
  nvmExec (·.cmdWriteFuse)
  waitReadyNvm

/-- The state in which an NVM command begins what it does, its checks passed and `NoteNvmOp` made. -/
def State.checked (s : State) : State := (s.setNvm { s.nvm with nvmState := .check }).setSes s.ses.noted

/-- `NoteNvmOp` after the checks, which changed nothing but NVM's sequencer. -/
theorem noteNvmOp_checked (hm : s.ses.sesState = .unlocked ∨ s.ses.sesState = .programming) :
    noteNvmOp (s.setNvm { s.nvm with nvmState := .check }) = .ok () s.checked :=
  noteNvmOp_run (s := s.setNvm { s.nvm with nvmState := .check }) hm

/-- An operation whose checks pass is what follows them. -/
theorem inNvm_checked {name : OpName} {k : Unit → Act α} {y : Act α}
    (h : k () (s.setNvm { s.nvm with nvmState := .check }) = y u) :
    inNvm name (setNvmState .check >>= k) s = inNvm name y u := by
  unfold inNvm
  rw [setNvmState_bind_run, h]

/-- What follows a piece that ended well, as a run. -/
theorem run_after {m : Act α} {k : α → Act β} {res : Act.Result β} (hm : m s = .ok a u) (hk : k a u = res) :
    (m >>= k) s = res := (Act.bind_ok hm).trans hk

theorem demand_run_of {c : Bool} (h : c = true) : demand c s = .ok () s := by
  rw [h, demand_true_run]

/-- `write_page` whose checks pass (42_nvm.md R220, R222, R232). -/
theorem writePageOp_checked (hm : s.ses.sesState = .unlocked ∨ s.ses.sesState = .programming)
    (hr : regionOfCode region = some r) (hpage : regionPage s.ses.profile r = some page) (ha : offset % page = 0)
    (hlen : data.length = page) (hin : offset + page ≤ regionSize s.ses.profile r)
    (hfit : addrOk (regionBase s.ses.profile r + offset + page - 1) s.ses.profile.addrBytes = true)
    (hregs : allFit s.ses.profile (codeRegs s.cfg s.ses.profile) = true) (hkey : s.nvm.eraseKeySent = true) :
    writePageOp region offset data s = inNvm .writePage (atPlace (regionBase s.ses.profile r + offset) region
      (pageSteps s.ses.profile.addrBytes (regionBase s.ses.profile r + offset) data)) s.checked := by
  refine inNvm_checked ?_
  have hrange := Bool.and_eq_true_iff.mpr ⟨decide_eq_true hin, hfit⟩
  refine run_after (pagedRegion_run hr hpage) (run_after (Act.get_run _) (run_after (checkAligned_run ha) ?_))
  refine run_after (checkPageSize_run hlen) (run_after (demand_run_of hrange) (run_after (demandRegs_run hregs) ?_))
  exact run_after (demandKey_run hkey) (run_after (noteNvmOp_checked hm) rfl)

/-- `erase_page` whose checks pass (42_nvm.md R245). -/
theorem erasePageOp_checked (hm : s.ses.sesState = .unlocked ∨ s.ses.sesState = .programming)
    (hr : regionOfCode region = some r) (hpage : regionPage s.ses.profile r = some page) (ha : offset % page = 0)
    (hin : offset + page ≤ regionSize s.ses.profile r)
    (hfit : addrOk (regionBase s.ses.profile r + offset) s.ses.profile.addrBytes = true)
    (hregs : allFit s.ses.profile (codeRegs s.cfg s.ses.profile) = true) (hkey : s.nvm.eraseKeySent = true) :
    erasePageOp region offset s = inNvm .erasePage (atPlace (regionBase s.ses.profile r + offset) region
      (eraseSteps s.ses.profile.addrBytes (regionBase s.ses.profile r + offset))) s.checked := by
  refine inNvm_checked ?_
  have hrange := Bool.and_eq_true_iff.mpr ⟨decide_eq_true hin, hfit⟩
  refine run_after (pagedRegion_run hr hpage) (run_after (Act.get_run _) (run_after (checkAligned_run ha) ?_))
  refine run_after (demand_run_of hrange) (run_after (demandRegs_run hregs) ?_)
  exact run_after (demandKey_run hkey) (run_after (noteNvmOp_checked hm) rfl)

/-- `write_fuse` whose checks pass (42_nvm.md R242). -/
theorem writeFuseOp_checked {value : Nat} (hm : s.ses.sesState = .unlocked ∨ s.ses.sesState = .programming)
    (hv : value ≤ 0xFF) (hi : idx < s.ses.profile.fuseCount) (hfit : s.ses.profile.fuseBase + idx < 2 ^ 16)
    (hregs : allFit s.ses.profile (fuseRegs s.cfg s.ses.profile) = true) (hkey : s.nvm.eraseKeySent = true) :
    writeFuseOp idx value s = inNvm .writeFuse (atPlace (s.ses.profile.fuseBase + idx) fuseRegion
      (fuseSteps s.cfg s.ses.profile (s.ses.profile.fuseBase + idx) value)) s.checked := by
  refine inNvm_checked ?_
  refine run_after (demand_run_of (decide_eq_true hv)) (run_after (checkFuseIndex_run hi) ?_)
  refine run_after (Act.get_run _) (run_after (demand_run_of (decide_eq_true hfit)) ?_)
  refine run_after (demandRegs_run hregs) (run_after (demandKey_run hkey) ?_)
  exact run_after (noteNvmOp_checked hm) rfl

/-- `read_bytes` of at least one byte whose checks pass (42_nvm.md R237). -/
theorem readBytesOp_checked {len : Nat} (hm : s.ses.sesState = .unlocked ∨ s.ses.sesState = .programming)
    (hr : regionOfCode region = some r) (hlen : len ≠ 0) (hin : offset + len ≤ regionSize s.ses.profile r)
    (hfit : addrOk (regionBase s.ses.profile r + offset + len - 1) s.ses.profile.addrBytes = true) :
    readBytesOp region offset len s = inNvm .readBytes (atPlace (regionBase s.ses.profile r + offset) region
      (readSteps s.ses.profile.addrBytes (regionBase s.ses.profile r + offset) len)) s.checked := by
  unfold readBytesOp
  refine inNvm_checked ?_
  rw [Act.get_bind_run, hr]
  simp only [State.setNvm_ses, hfit, hlen, hin, decide_true, Bool.or_true, Bool.and_self,
    demand_true_bind_run, if_false]
  rw [Act.bind_ok (noteNvmOp_checked hm)]
  rfl

/-- `read_bytes` of no byte (42_nvm.md R237). -/
theorem readBytesOp_zero (hr : regionOfCode region = some r) (hin : offset ≤ regionSize s.ses.profile r) :
    readBytesOp region offset 0 s = .ok [] (s.setNvm { s.nvm with nvmState := .idle }) := by
  unfold readBytesOp
  refine inNvm_ok (s' := s.setNvm { s.nvm with nvmState := .check }) ?_
  rw [setNvmState_bind_run, Act.get_bind_run, hr]
  simp [hin]

/-- `read_fuse` whose checks pass (42_nvm.md R240). -/
theorem readFuseOp_checked (hm : s.ses.sesState = .unlocked ∨ s.ses.sesState = .programming)
    (hi : idx < s.ses.profile.fuseCount)
    (hfit : addrOk (s.ses.profile.fuseBase + idx) s.ses.profile.addrBytes = true) :
    readFuseOp idx s = inNvm .readFuse (atPlace (s.ses.profile.fuseBase + idx) fuseRegion do
      setNvmState .read
      ldsOp (s.ses.profile.fuseBase + idx) s.ses.profile.addrBytes) s.checked := by
  refine inNvm_checked ?_
  refine run_after (checkFuseIndex_run hi) (run_after (Act.get_run _) ?_)
  exact run_after (demand_run_of hfit) (run_after (noteNvmOp_checked hm) rfl)

/-- After its checks the command is on its way, in `Programming`. -/
theorem along_checked (hl : Live s) (hp : Plays s.cfg xs s.world w) :
    Along s [] s.ses.noted s.dl { s.nvm with nvmState := .check } xs w s.checked :=
  ((along_start hl hp).setNvm { s.nvm with nvmState := .check }).setSes (x' := s.ses.noted) rfl

/-- `write_page` after its checks, in a world that answers (42_nvm.md R232). -/
theorem pageSteps_reaches {addr : Nat}
    (h : Along s0 [] x d n (stPtrXfers s0.cfg x.profile.addrBytes addr ++ (pageXfers s0.cfg data ++
      (execXfers s0.cfg x.profile s0.cfg.cmdWritePage ++ []))) m u)
    (haddr : addrOk addr x.profile.addrBytes = true) (hregs : allFit x.profile (codeRegs s0.cfg x.profile) = true)
    (hpolls : PollsIdle s0.cfg x.profile (m.now + s0.cfg.tNvm) last busy m w) :
    Reaches (pageSteps x.profile.addrBytes addr data) u () (Along s0
      (stPtrXfers s0.cfg x.profile.addrBytes addr ++ pageXfers s0.cfg data ++
        execXfers s0.cfg x.profile s0.cfg.cmdWritePage ++ pollXfers s0.cfg x.profile busy last) x
      { ({ d with
          opAddr := BitVec.ofNat 24 addr, opSize := BitVec.ofNat 2 x.profile.addrBytes, ackLast := s0.cfg.ack
          dlState := .idle } : Dl).afterStores s0.cfg.ack (chunks data) with
        opAddr := BitVec.ofNat 24 (statAddr s0.cfg x.profile), opSize := BitVec.ofNat 2 x.profile.addrBytes, opLen := 1
        dataBuf := [s0.cfg.cmdWritePage], respBuf := [last], ackLast := s0.cfg.ack, dlState := .idle }
      (n.afterReady s0.cfg m.now last) [] w) := by
  obtain ⟨hctrl, hstat⟩ := allFit_codeRegs hregs
  refine reaches_bind (h.nvmState _) fun u h => reaches_bind (h.stPtr haddr) fun u h => ?_
  refine reaches_bind (h.nvmState _) fun u h => reaches_bind (h.storeChunks rfl) fun u h => ?_
  refine reaches_bind (h.exec (code := (·.cmdWritePage)) hctrl) fun u h => ?_
  exact h.ready hstat hpolls

/-- `read_bytes` after its checks, in a world that answers (42_nvm.md R237). -/
theorem readSteps_reaches {addr : Nat}
    (h : Along s0 [] x d n (stPtrXfers s0.cfg x.profile.addrBytes addr ++ (loadXfers s0.cfg answer ++ [])) w u)
    (haddr : addrOk addr x.profile.addrBytes = true) :
    Reaches (readSteps x.profile.addrBytes addr answer.length) u answer (Along s0
      (stPtrXfers s0.cfg x.profile.addrBytes addr ++ loadXfers s0.cfg answer) x
      (({ d with
          opAddr := BitVec.ofNat 24 addr, opSize := BitVec.ofNat 2 x.profile.addrBytes, ackLast := s0.cfg.ack
          dlState := .idle } : Dl).afterLoads (chunks answer))
      { n with nvmState := .read } [] w) := by
  refine reaches_bind (h.nvmState _) fun u h => reaches_bind (h.stPtr haddr) fun u h => ?_
  exact reaches_bind (h.nvmState _) fun u h => h.loadChunks rfl

/-- `erase_page` after its checks, in a world that answers (42_nvm.md R245). -/
theorem eraseSteps_reaches {addr : Nat}
    (h : Along s0 [] x d n (stsXfers s0.cfg addr 0xFF x.profile.addrBytes ++
      (execXfers s0.cfg x.profile s0.cfg.cmdErasePage ++ [])) m u)
    (haddr : addrOk addr x.profile.addrBytes = true) (hregs : allFit x.profile (codeRegs s0.cfg x.profile) = true)
    (hpolls : PollsIdle s0.cfg x.profile (m.now + s0.cfg.tNvm) last busy m w) :
    Reaches (eraseSteps x.profile.addrBytes addr) u () (Along s0
      (stsXfers s0.cfg addr 0xFF x.profile.addrBytes ++ execXfers s0.cfg x.profile s0.cfg.cmdErasePage ++
        pollXfers s0.cfg x.profile busy last) x
      { d with
        opAddr := BitVec.ofNat 24 (statAddr s0.cfg x.profile), opSize := BitVec.ofNat 2 x.profile.addrBytes, opLen := 1
        dataBuf := [s0.cfg.cmdErasePage], respBuf := [last], ackLast := s0.cfg.ack, dlState := .idle }
      (n.afterReady s0.cfg m.now last) [] w) := by
  obtain ⟨hctrl, hstat⟩ := allFit_codeRegs hregs
  refine reaches_bind (h.nvmState _) fun u h => reaches_bind (h.sts (v := 0xFF) haddr (le_refl _)) fun u h => ?_
  refine reaches_bind (h.exec (code := (·.cmdErasePage)) hctrl) fun u h => ?_
  exact h.ready hstat hpolls

/-- `write_fuse` after its checks, in a world that answers (42_nvm.md R242). -/
theorem fuseSteps_reaches {addr : Nat}
    (h : Along s0 [] x d n
      (stsXfers s0.cfg (aregAddr s0.cfg x.profile) (BitVec.ofNat 8 (addr % 256)) x.profile.addrBytes ++
      (stsXfers s0.cfg (aregAddr s0.cfg x.profile + 1) (BitVec.ofNat 8 (addr / 256)) x.profile.addrBytes ++
      (stsXfers s0.cfg (dregAddr s0.cfg x.profile) v x.profile.addrBytes ++
      (execXfers s0.cfg x.profile s0.cfg.cmdWriteFuse ++ [])))) m u)
    (haddr : addr < 2 ^ 16) (hregs : allFit x.profile (fuseRegs s0.cfg x.profile) = true)
    (hpolls : PollsIdle s0.cfg x.profile (m.now + s0.cfg.tNvm) last busy m w) :
    Reaches (fuseSteps s0.cfg x.profile addr v.toNat) u () (Along s0
      (stsXfers s0.cfg (aregAddr s0.cfg x.profile) (BitVec.ofNat 8 (addr % 256)) x.profile.addrBytes ++
        stsXfers s0.cfg (aregAddr s0.cfg x.profile + 1) (BitVec.ofNat 8 (addr / 256)) x.profile.addrBytes ++
        stsXfers s0.cfg (dregAddr s0.cfg x.profile) v x.profile.addrBytes ++
        execXfers s0.cfg x.profile s0.cfg.cmdWriteFuse ++ pollXfers s0.cfg x.profile busy last) x
      { d with
        opAddr := BitVec.ofNat 24 (statAddr s0.cfg x.profile), opSize := BitVec.ofNat 2 x.profile.addrBytes, opLen := 1
        dataBuf := [s0.cfg.cmdWriteFuse], respBuf := [last], ackLast := s0.cfg.ack, dlState := .idle }
      (n.afterReady s0.cfg m.now last) [] w) := by
  have fit {a : Nat} (ha : a ∈ fuseRegs s0.cfg x.profile) := allFit_mem hregs ha
  refine reaches_bind (h.nvmState _) fun u h => ?_
  refine reaches_bind (h.sts (fit (by simp [fuseRegs])) (by omega)) fun u h => ?_
  refine reaches_bind (h.sts (fit (by simp [fuseRegs])) (by omega)) fun u h => ?_
  refine reaches_bind (h.stsByte (fit (by simp [fuseRegs]))) fun u h => ?_
  refine reaches_bind (h.exec (code := (·.cmdWriteFuse)) (fit (by simp [fuseRegs]))) fun u h => ?_
  exact h.ready (fit (by simp [fuseRegs])) hpolls

theorem addrOk_of_le {j k size : Nat} (h : addrOk k size = true) (hjk : j ≤ k) : addrOk j size = true := by
  rw [addrOk_iff] at h ⊢
  exact h.imp_right (lt_of_le_of_lt hjk)

/-- A page that ends inside the address range begins there. -/
theorem addrOk_of_last {base len size : Nat} (hpos : 0 < len) (h : addrOk (base + len - 1) size = true) :
    addrOk base size = true := addrOk_of_le h (by omega)

theorem NvmReady.keyErase_length (h : NvmReady s) : s.ses.profile.keyErase.length = s.cfg.keyLen := by
  obtain ⟨-, -, -, -, -, -, -, hlen, -⟩ := profileValid_iff.mp h.profileOk
  exact hlen

theorem NvmReady.dlIdle (h : NvmReady s) : s.dl.dlState = .idle := h.ready.idle.dlIdle

/-- Storing chunks keeps DL's sequencer, and its index does not depend on the pointer set before. -/
theorem afterStores_setup (hd : d.dlState = .idle) (ack : Byte) (bs : List (List Byte)) (address : BitVec 24)
    (size : BitVec 2) :
    (({ d with opAddr := address, opSize := size, ackLast := ack, dlState := .idle } : Dl).afterStores ack bs).opIdx =
      (d.afterStores ack bs).opIdx ∧ (d.afterStores ack bs).dlState = .idle := by
  unfold Dl.afterStores
  cases bs.getLast? <;> exact ⟨rfl, hd⟩

theorem afterLoads_setup (hd : d.dlState = .idle) (ack : Byte) {bs : List (List Byte)} (address : BitVec 24)
    (size : BitVec 2) :
    ({ d with opAddr := address, opSize := size, ackLast := ack, dlState := .idle } : Dl).afterLoads bs =
      { d.afterLoads bs with opAddr := address, opSize := size, ackLast := ack } := by
  unfold Dl.afterLoads
  cases bs.getLast? <;> simp [hd]

end Sys2Proof.Machine

namespace Sys2Proof.Proofs

open Sys2Proof.Machine

/-- Settles O48: with the flag set the body is its test alone; with it clear, the note, the key and the flag. -/
theorem unlockChipEraseKey : Obligations.UnlockChipEraseKey := by
  intro s h
  refine ⟨fun hkey => ?_, fun hkey w hp => ?_⟩
  · exact h.finishes rfl (reaches_noData (unlockEraseKey_unlocked h.live hkey)) rfl rfl h.nvmIdle
  · have hbody := unlockEraseKey_reaches h.live h.nvmMode h.keyErase_length hkey hp
    exact h.finishes rfl (reaches_noData hbody) rfl (by rw [← h.dlIdle]; rfl) (by rw [← h.ready.idle.nvmIdle]; rfl)

/-- Settles O49: the checks pass, and what follows is a command code, or none, and the ready check. -/
theorem waitAndWholeErases : Obligations.WaitAndWholeErases := by
  intro s m w last busy h
  refine ⟨fun hregs hpolls => ?_, fun i code hi hkey hregs hp hpolls => ?_⟩
  · have hbody := waitCommand_reaches h.live h.nvmMode hregs hpolls
    exact h.finishes rfl (reaches_noData hbody) rfl (by rw [← h.dlIdle]; rfl) rfl
  · have ends {i : Instr} {name : OpName} {code : Config → Byte} (hi : admOf i = .nvmMode)
        (hbody : bodyOf i = noData (eraseWhole name code))
        (hp : Plays s.cfg (execXfers s.cfg s.ses.profile (code s.cfg)) s.world m) :=
      h.finishes hi (hbody ▸ reaches_noData (eraseWhole_reaches h.live h.nvmMode hkey hregs hp hpolls)) rfl
        (Dl.idled_eq (d := { s.dl with
          opAddr := BitVec.ofNat 24 (statAddr s.cfg s.ses.profile), opSize := BitVec.ofNat 2 s.ses.profile.addrBytes
          opLen := 1, dataBuf := [code s.cfg], respBuf := [last], ackLast := s.cfg.ack }) h.dlIdle) rfl
    rcases hi with ⟨rfl, rfl⟩ | ⟨rfl, rfl⟩
    · exact ends rfl rfl hp
    · exact ends (code := (·.cmdEepromErase)) rfl rfl hp

/-- Settles O50: the checks pass, and each piece after them finds its transfers answered. -/
theorem writePage : Obligations.WritePage := by
  intro s m w last busy data region page offset r h hkey hr hpage ha hlen hin hfit hregs c p xs hp hpolls
  have haddr := addrOk_of_last (regionPage_pos h.profileOk hpage) hfit
  have hstart := along_checked h.live (s := s.accepted) (xs := stPtrXfers c p.addrBytes (regionBase p r + offset) ++
    (pageXfers c data ++ (execXfers c p c.cmdWritePage ++ [])))
    (by simp only [xs, List.append_assoc, List.append_nil] at hp ⊢; exact hp)
  have hbody := along_inNvm (name := .writePage) (reaches_atPlace (addr := regionBase p r + offset) (region := region)
    (pageSteps_reaches hstart haddr hregs hpolls))
  have hchecks := writePageOp_checked (s := s.accepted) h.nvmMode hr hpage ha hlen hin hfit hregs hkey
  obtain ⟨hidx, hidle⟩ := afterStores_setup h.dlIdle c.ack (chunks data) (BitVec.ofNat 24 (regionBase p r + offset))
    (BitVec.ofNat 2 p.addrBytes)
  exact h.finishes rfl (reaches_noData (hbody.of_eq hchecks)) rfl
    ((Dl.mk.injEq ..).mpr ⟨hidle.symm, rfl, rfl, rfl, hidx, rfl, rfl, rfl⟩) rfl

/-- Settles O51, as `writePage`, with one store in place of pointer and chunks. -/
theorem erasePage : Obligations.ErasePage := by
  intro s m w last busy region page offset r h hkey hr hpage ha hin hfit hregs c p xs hp hpolls
  have hstart := along_checked h.live (s := s.accepted) (xs := stsXfers c (regionBase p r + offset) 0xFF p.addrBytes ++
    (execXfers c p c.cmdErasePage ++ [])) (by rwa [List.append_nil])
  have hbody := along_inNvm (name := .erasePage) (reaches_atPlace (addr := regionBase p r + offset) (region := region)
    (eraseSteps_reaches hstart hfit hregs hpolls))
  have hchecks := erasePageOp_checked (s := s.accepted) h.nvmMode hr hpage ha hin hfit hregs hkey
  exact h.finishes rfl (reaches_noData (hbody.of_eq hchecks)) rfl (by rw [← h.dlIdle]; rfl) rfl

/-- Settles O52: a read of no byte ends at its check; neither read asks for the key. -/
theorem nvmReads : Obligations.NvmReads := by
  intro s w h
  refine ⟨fun region r offset hr hin => ?_, fun region r offset answer hr hne hin hfit hp => ?_,
    fun i b hi hfit hp => ?_⟩
  · refine h.finishes rfl (reaches_run (readBytesOp_zero hr hin) ?_) rfl rfl h.nvmIdle
    exact (along_start (xs := []) h.live rfl).setNvm _
  · have hpos : 0 < answer.length := List.length_pos_iff.mpr hne
    have hstart := along_checked h.live (s := s.accepted)
      (xs := stPtrXfers s.cfg s.ses.profile.addrBytes (regionBase s.ses.profile r + offset) ++
        (loadXfers s.cfg answer ++ [])) (by rwa [List.append_nil])
    have hbody := along_inNvm (name := .readBytes) (reaches_atPlace (addr := regionBase s.ses.profile r + offset)
      (region := region) (readSteps_reaches hstart (addrOk_of_last hpos hfit)))
    have hchecks := readBytesOp_checked (s := s.accepted) h.nvmMode hr hpos.ne' hin hfit
    exact h.finishes rfl (hbody.of_eq hchecks) rfl (afterLoads_setup h.dlIdle ..) h.nvmIdle
  · have hstart := along_checked h.live (s := s.accepted)
      (xs := ldsXfers s.cfg (s.ses.profile.fuseBase + i) s.ses.profile.addrBytes b ++ []) (by rwa [List.append_nil])
    have hbody := along_inNvm (name := .readFuse) (reaches_atPlace (addr := s.ses.profile.fuseBase + i)
      (region := fuseRegion) (reaches_bind (k := fun _ => ldsOp (s.ses.profile.fuseBase + i) s.ses.profile.addrBytes)
        (hstart.nvmState .read) fun _ hread => hread.lds hfit))
    have hchecks := readFuseOp_checked (s := s.accepted) h.nvmMode hi hfit
    exact h.finishes rfl (hbody.of_eq hchecks) rfl (by rw [← h.dlIdle]; rfl) h.nvmIdle

/-- Settles O53, as `writePage`, with three stores in place of pointer and chunks. -/
theorem writeFuse : Obligations.WriteFuse := by
  intro s m w last busy i v h hkey hi hfit hregs c p n xs hp hpolls
  have hstart := along_checked h.live (s := s.accepted)
    (xs := stsXfers c (aregAddr c p) (BitVec.ofNat 8 ((p.fuseBase + i) % 256)) n ++
      (stsXfers c (aregAddr c p + 1) (BitVec.ofNat 8 ((p.fuseBase + i) / 256)) n ++
      (stsXfers c (dregAddr c p) v n ++ (execXfers c p c.cmdWriteFuse ++ []))))
    (by simp only [xs, List.append_assoc, List.append_nil] at hp ⊢; exact hp)
  have hbody := along_inNvm (name := .writeFuse) (reaches_atPlace (addr := p.fuseBase + i) (region := fuseRegion)
    (fuseSteps_reaches hstart hfit hregs hpolls))
  have hchecks := writeFuseOp_checked (s := s.accepted) (value := v.toNat) h.nvmMode (Nat.le_of_lt_succ v.isLt) hi hfit
    hregs hkey
  exact h.finishes rfl (reaches_noData (hbody.of_eq hchecks)) rfl (by rw [← h.dlIdle]; rfl) rfl

end Sys2Proof.Proofs
end

section
/-! PROOFS. The ready check whatever the environment answers (42_nvm.md R225, R226): it ends well only after an idle
status read, in `NvmBusyTimeoutError` only after one that was not idle, at or past the deadline; and nothing else ends
in that error. -/

namespace Sys2Proof.Machine

variable {α β : Type} {I : State → Prop} {C : Code → Prop} {i : Instr} {s s0 t u : State} {e : Err} {n : Nvm}

/-! ### What only grows -/

theorem RunsOn.traffic_length (h : RunsOn s t) : s.traffic.length ≤ t.traffic.length := by
  obtain ⟨ev, htrace⟩ := h.trace
  rw [State.traffic, State.traffic, htrace, List.filterMap_append, List.length_append]
  exact Nat.le_add_right _ _

/-- A piece that stays in a session's operation stays in whatever passing time keeps. -/
theorem stays_of_inSession {k : Scope} {x : Act α} (hI : ∀ s t, I s → RunsOn s t → I t)
    (h : ∀ s, Stays (InSession k s) C x) : Stays I C x := fun s hs =>
  ⟨fun _ _ hok => hI _ _ hs ((h s).ok (InSession.refl k s) hok).runsOn, fun _ _ he =>
    ((h s).error (InSession.refl k s) he).imp_left fun hu => hI _ _ hs hu.runsOn⟩

theorem RunsOn.registers (hcfg : t.cfg = s.cfg) (hinputs : t.inputs = s.inputs) (hnow : t.now = s.now)
    (htrace : t.trace = s.trace) : RunsOn s t :=
  ⟨hcfg, hinputs, hnow.ge, [], htrace.trans (List.append_nil _).symm⟩

theorem inert_of_runsOn (hI : ∀ s t, I s → RunsOn s t → I t) : Inert I where
  seq := fun _ _ _ hs => hI _ _ hs (.registers rfl rfl rfl rfl)
  write := fun bs => stays_of_inSession hI fun s => inSession_write plainScope s bs
  read := fun m t => stays_of_inSession hI fun s => inSession_read plainScope s m t
  dl := fun _ _ hs => hI _ _ hs (.registers rfl rfl rfl rfl)

theorem nvmInert_of_runsOn (hI : ∀ s t, I s → RunsOn s t → I t) : NvmInert I where
  toOver := (inert_of_runsOn hI).exch.over
  nvm := fun _ _ _ _ _ hs => hI _ _ hs (.registers rfl rfl rfl rfl)
  wait := fun d => stays_of_inSession hI fun s => inSession_wait plainScope s d

theorem runsOn_nvmInert (s0 : State) : NvmInert (RunsOn s0) := nvmInert_of_runsOn fun _ _ => RunsOn.trans

/-! ### Pieces that do not end in `NvmBusyTimeoutError` -/

/-- Any code but `NvmBusyTimeoutError`'s. -/
def NotBusy (c : Code) : Prop := c ≠ .nvmBusyTimeout

theorem notBusy_of_linkCode {c : Code} (h : LinkCode c) : NotBusy c := by
  rcases h with rfl | rfl | rfl <;> exact nofun

theorem notBusy_of_callCode {c : Code} (h : CallCode c) : NotBusy c := by
  rcases h with rfl | rfl | rfl | rfl <;> exact nofun

theorem IsCheck.notBusy {x : Act α} {Q : α → State → Prop} (h : IsCheck x Q) : Stays I NotBusy x := by
  intro s hs
  rcases h s with ⟨a, hok, -⟩ | ⟨e, herror, hcode⟩
  · exact staysAt_ok hok hs
  · exact staysAt_error herror hs (notBusy_of_callCode hcode)

/-- An operation that fails its demand is refused; one that passes it raises what an exchange raises. -/
theorem notBusy_of_demand {b : Bool} {k : Unit → Act β} {x : Act β} (hx : x = demand b >>= k)
    (h : b = true → Stays I LinkCode x) : Stays I NotBusy x := by
  cases b with
  | true => exact (h rfl).mono fun _ => notBusy_of_linkCode
  | false =>
    subst hx
    exact fun s hs => staysAt_error (demand_false_bind_run k s) hs nofun

section
variable (o : Over I)
include o

theorem ldsOp_notBusy (a size : Nat) : Stays I NotBusy (ldsOp a size) := notBusy_of_demand rfl o.ldsOp

theorem stsOp_notBusy (a v size : Nat) : Stays I NotBusy (stsOp a v size) :=
  notBusy_of_demand rfl fun hb => by
    obtain ⟨ha, hv⟩ := Bool.and_eq_true_iff.mp hb
    exact o.stsOp ha (of_decide_eq_true hv)

theorem stPtrOp_notBusy (w p : Nat) : Stays I NotBusy (stPtrOp w p) := notBusy_of_demand rfl o.stPtrOp

theorem keyWriteOp_notBusy (k : List Byte) : Stays I NotBusy (keyWriteOp k) := fun s hs => by
  by_cases hk : k.length = s.cfg.keyLen
  · exact (o.keyWriteOp hs hk).mono fun _ => notBusy_of_linkCode
  · exact staysAt_error (keyWriteOp_refused hk) hs nofun

theorem storeChunks_notBusy (bs : List (List Byte)) : Stays I NotBusy (storeChunks bs) := by
  induction bs with
  | nil => exact stays_pure _
  | cons b bs ih =>
    exact stays_get_bind fun s _ => stays_bind (notBusy_of_demand rfl o.stPtrIncOp) fun _ => ih

theorem loadChunks_notBusy (ks : List Nat) : Stays I NotBusy (loadChunks ks) := by
  induction ks with
  | nil => exact stays_pure _
  | cons k ks ih =>
    refine stays_get_bind fun s _ => stays_bind (notBusy_of_demand rfl o.ldPtrIncOp) fun _ => ?_
    exact stays_bind ih fun _ => stays_pure _

end

theorem nvmExec_notBusy (o : NvmInert I) (code : Config → Byte) : Stays I NotBusy (nvmExec code) :=
  stays_get_bind fun _ _ => stays_bind (o.nvmState _) fun _ => stsOp_notBusy o.toOver _ _ _

theorem noteNvmOp_runsOn (s0 : State) : Stays (RunsOn s0) NotBusy noteNvmOp :=
  stays_modify fun s h => by
    split
    · exact h.inMode _
    · exact h

/-- The bodies of the NVM commands that end without the ready check. -/
theorem nvmBody_notBusy (hi : admOf i = .nvmMode) (hend : endsReady i = false) :
    Stays (RunsOn s0) NotBusy (bodyOf i) := by
  have o := runsOn_nvmInert s0
  cases i with
  | unlockChipEraseKey =>
    refine stays_drop (o.inNvm (stays_bind (o.nvmState _) fun _ => stays_get_bind fun s _ => ?_))
    refine stays_ite (fun _ => stays_pure _) fun _ => stays_bind (noteNvmOp_runsOn s0) fun _ => ?_
    refine stays_bind (keyWriteOp_notBusy o.toOver _) fun _ => stays_modify fun s h => ?_
    exact h.trans (.registers rfl rfl rfl rfl)
  | readBytes region offset len =>
    refine o.inNvm (stays_bind (o.nvmState _) fun _ => stays_get_bind fun s _ => ?_)
    cases regionOfCode region with
    | none => exact stays_raise _ nofun
    | some r =>
      refine stays_demand nofun fun _ => stays_ite (fun _ => stays_pure _) fun _ => ?_
      refine stays_bind (noteNvmOp_runsOn s0) fun _ => stays_atPlace (stays_bind (o.nvmState _) fun _ => ?_)
      refine stays_bind (stPtrOp_notBusy o.toOver _ _) fun _ => stays_bind (o.nvmState _) fun _ => ?_
      exact loadChunks_notBusy o.toOver _
  | readFuse idx =>
    refine o.inNvm (stays_bind (o.nvmState _) fun _ => ?_)
    refine stays_bind (isCheck_checkFuseIndex idx).notBusy fun _ => stays_get_bind fun s _ => ?_
    refine stays_demand nofun fun _ => stays_bind (noteNvmOp_runsOn s0) fun _ => stays_atPlace ?_
    exact stays_bind (o.nvmState _) fun _ => ldsOp_notBusy o.toOver _ _
  | waitNvmReady | chipErase | writePage | writeFuse | erasePage | eepromErase => cases hend
  | _ => cases hi

/-- The bodies of PHY's and DL's commands and of the wire instructions. -/
theorem linkBody_notBusy (hidle : SequencersIdle s) (hi : admOf i = .inSession) (h : bodyOf i s = .error e u) :
    NotBusy e.code := by
  by_cases hinit : i = .initLink
  · subst hinit
    have hstart : Initing s s := ⟨⟨InSession.refl _ _, hidle.noEcho⟩, ⟨rfl, rfl⟩, rfl⟩
    obtain ⟨-, hcode⟩ := (stays_drop (initing_phyInit s)).error hstart h
    rcases hcode with hcode | hcode <;> exact hcode ▸ nofun
  · rcases (linkBody_checked plainScope hidle hi hinit).2 e u h with ⟨-, hcode⟩ | ⟨hcode, -⟩
    · exact notBusy_of_linkCode hcode
    · exact notBusy_of_callCode hcode

theorem openBody_notBusy {p : Profile} {port : Nat} (hidle : SequencersIdle s) (ho : s.ses.trOpen = false)
    (hl : s.phy.linkUp = false) (h : openOp p port s = .error e u) : NotBusy e.code := by
  rcases openOp_cases p port hidle ho hl with ⟨t, hok, -⟩ | ⟨e', t, herror, -, hcode⟩ | hrefused
  · cases hok.symm.trans h
  · cases herror.symm.trans h
    rcases hcode with hcode | hcode <;> exact hcode ▸ nofun
  · cases hrefused.symm.trans h
    exact nofun

theorem enterBody_notBusy (hidle : SequencersIdle s) (hk : s.ses.profile.keyProg.length = s.cfg.keyLen)
    (h : enterOp s = .error e u) : NotBusy e.code := by
  rcases enterOp_cases hidle hk with ⟨t, hok, -⟩ | ⟨e', t, herror, -, hcode⟩
  · cases hok.symm.trans h
  · cases herror.symm.trans h
    rcases hcode with hcode | hcode <;> exact hcode ▸ nofun

theorem admOf_cases (i : Instr) : admOf i = .inSession ∨ admOf i = .nvmMode ∨ i = .getStatus ∨ i = .crcCheck ∨
    i = .enterProgrammingMode ∨ (∃ r, i = .closeSession r) ∨ ∃ p port, i = .openSession p port := by
  cases i <;> simp [admOf]

theorem noData_error_of {x : Act Unit} (h : noData x s = .error e u) : x s = .error e u := by
  cases hx : x s with
  | ok a v => cases (noData_ok hx).symm.trans h
  | error e' v =>
    cases (noData_error hx).symm.trans h
    rfl

theorem Inv.profileOk_of_mode (hinv : Inv s) (hmode : s.ses.sesState ≠ .closed) :
    profileValid s.cfg s.ses.profile = true := hinv.profileOk (trOpen_of_mode hinv hmode)

/-- Only the commands that end with the ready check end in `NvmBusyTimeoutError` (60_exceptions.md R282). -/
theorem body_notBusy (hinv : Inv s) (hal : allowed i s.ses.sesState = true) (hend : endsReady i = false)
    (h : bodyOf i s.accepted = .error e u) : NotBusy e.code := by
  have hidle := accepted_idle hinv.idle
  rcases admOf_cases i with hadm | hadm | rfl | rfl | rfl | ⟨r, rfl⟩ | ⟨p, port, rfl⟩
  · exact linkBody_notBusy hidle hadm h
  · exact ((nvmBody_notBusy hadm hend).error (RunsOn.refl _) h).2
  · cases h
  · cases hal
  · have hmode : s.ses.sesState = .linkEstablished := by
      cases hm : s.ses.sesState with
      | linkEstablished => rfl
      | _ => rw [hm] at hal; cases hal
    obtain ⟨-, -, -, -, -, -, hk, -⟩ := profileValid_iff.mp (hinv.profileOk_of_mode (by rw [hmode]; exact nofun))
    exact enterBody_notBusy hidle hk (noData_error_of h)
  · obtain ⟨v, hclose, -⟩ := closeBody_left r s.accepted
    cases hclose.symm.trans (noData_error_of h)
  · have hmode : s.ses.sesState = .closed := by
      cases hm : s.ses.sesState with
      | closed => rfl
      | _ => rw [hm] at hal; cases hal
    have htr : s.ses.trOpen = false := hinv.closedIff.mp hmode
    exact openBody_notBusy (s := s.accepted) hidle htr (hinv.linkIff.trans htr) (noData_error_of h)

/-! ### A status read -/

/-- Time has passed and at least one transfer was made. -/
structure Grown (s t : State) : Prop where
  runsOn : RunsOn s t
  now : s.now < t.now
  traffic : s.traffic.length < t.traffic.length

theorem RunsOn.grown (h : RunsOn s t) (hu : Grown t u) : Grown s u :=
  ⟨h.trans hu.runsOn, h.now.trans_lt hu.now, h.traffic_length.trans_lt hu.traffic⟩

theorem Grown.runs (h : Grown s t) (hu : RunsOn t u) : Grown s u :=
  ⟨h.runsOn.trans hu, h.now.trans_le hu.now, h.traffic.trans_le hu.traffic_length⟩

/-- A transmission takes time and is a transfer (60_exceptions.md R296). -/
theorem trWrite_grown (bs : List Byte) (s : State) : Leads (trWrite bs) s (fun _ => Grown s) fun _ _ => True := by
  refine ⟨fun _ t hok => ?_, fun _ _ _ => trivial⟩
  have hruns : RunsOn s t := ((inSession_write plainScope s bs).ok (InSession.refl _ s) hok).runsOn
  have hlogs := (trWrite_logs bs s).1 _ t hok
  refine ⟨hruns, ?_, ?_⟩
  · cases hio : (s.draw (.trWrite bs)).ioerror with
    | true => cases (trWrite_error hio).symm.trans hok
    | false =>
      cases (trWrite_ok hio).symm.trans hok
      simp only [State.logged_now, State.setNow_now]
      omega
  · rw [hlogs.traffic]
    simp [Event.xfer]

theorem grown_inert (s : State) : Inert (Grown s) := inert_of_runsOn fun _ _ => Grown.runs

theorem leads_of_stays {x : Act α} (h : Stays I C x) (hs : I s) : Leads x s (fun _ => I) fun _ _ => True :=
  ⟨fun _ _ hok => h.ok hs hok, fun _ _ _ => trivial⟩

/-- A transmission of some bytes, its echo read (40_phy.md R143). -/
theorem phySend_grown {bs : List Byte} (hbs : bs ≠ []) (s : State) :
    Leads (phySend bs) s (fun _ => Grown s) fun _ _ => True := by
  have p := (grown_inert s).toPrim
  rw [phySend, if_neg hbs]
  refine leads_inPhy (Q := fun _ => Grown s) (E := fun _ _ => True) ?_
    (fun _ t h => p.seq t .idle t.phy.echoPending h) fun _ _ _ => trivial
  refine leads_modify_bind (P := RunsOn s) (.registers rfl rfl rfl rfl) fun t ht => ?_
  refine leads_bind ((trWrite_grown bs t).mono (Q' := fun _ => Grown s) (fun _ _ => ht.grown) fun _ _ h => h)
    fun _ u hu => leads_of_stays (C := LinkCode) ?_ hu
  refine stays_bind (p.phyState _) fun _ => stays_get_bind fun v _ => stays_bind (p.read _ _) fun r => ?_
  refine stays_bind (stays_modify fun w hw => p.seq w _ _ hw) fun _ => ?_
  cases r with
  | some _ => exact stays_pure _
  | none => exact stays_raise _ (.inr (.inl rfl))

theorem leads_inDl_ok {x : Act α} {name : OpName} {addr : State → Option Nat} {P : State → Prop}
    (h : Leads x s (fun _ => P) fun _ _ => True) (hP : ∀ t d, P t → P (t.setDl d)) :
    Leads (inDl name addr x) s (fun _ => P) fun _ _ => True := by
  cases hr : x s with
  | ok a u => exact leads_ok (inDl_ok hr) (hP u _ (h.1 a u hr))
  | error e u => exact leads_error (inDl_error hr) trivial

/-- A load that ends well. -/
theorem ldsOp_grown (a size : Nat) (s : State) : Leads (ldsOp a size) s (fun _ => Grown s) fun _ _ => True := by
  have x := (grown_inert s).exch
  by_cases ha : addrOk a size = true
  · refine leads_demand_bind ha ?_
    refine leads_inDl_ok (leads_get_bind ?_) x.dl
    refine leads_modify_bind (P := RunsOn s) (.registers rfl rfl rfl rfl) fun t ht => ?_
    refine leads_modify_bind (P := RunsOn s) (ht.trans (.registers rfl rfl rfl rfl)) fun t ht => ?_
    refine leads_modify_bind (P := RunsOn s) (ht.trans (.registers rfl rfl rfl rfl)) fun t ht => ?_
    refine leads_modify_bind (P := RunsOn s) (ht.trans (.registers rfl rfl rfl rfl)) fun t ht => ?_
    refine leads_bind ((phySend_grown (by simp) t).mono (Q' := fun _ => Grown s) (fun _ _ => ht.grown) fun _ _ h => h)
      fun _ u hu => leads_of_stays (C := LinkCode) ?_ hu
    refine stays_bind (x.dlState _) fun _ => stays_bind (x.recv _ _) fun _ => ?_
    exact stays_bind (x.modifyDl _) fun _ => stays_pure _
  · exact leads_error (demand_bind_refused ha _) trivial

/-- A load, by what the ready check needs of it. -/
theorem ldsOp_leads (a size : Nat) (s : State) :
    Leads (ldsOp a size) s (fun _ t => Grown s t ∧ t.nvm = s.nvm) fun e _ => NotBusy e.code :=
  ⟨fun r t hok => ⟨(ldsOp_grown a size s).1 r t hok,
    ((ldsOp_notBusy (blocks_exch s.nvm s.ses).over a size).ok ⟨rfl, rfl⟩ hok).1⟩, fun _ _ he =>
      ((ldsOp_notBusy (runsOn_nvmInert s).toOver a size).error (.refl s) he).2⟩

/-! ### The polling loop -/

/-- What a status read leaves in NVM's registers. -/
def Nvm.afterRead (n : Nvm) (status : Byte) : Nvm :=
  { n with nvmState := .pollEval, lastStatus := status, statusValid := true }

theorem pollOnce_leads (s : State) :
    Leads pollOnce s (fun b t => Grown s t ∧ t.nvm = s.nvm.afterRead b) fun e _ => NotBusy e.code := by
  have hstart : RunsOn s (s.setNvm { s.nvm with nvmState := .pollRead }) := .registers rfl rfl rfl rfl
  refine leads_get_bind (leads_bind (x := ldsOp _ _) (ldsOp_leads _ _ _) fun r t ⟨hgrown, hnvm⟩ => ?_)
  refine leads_ok rfl ⟨(hstart.grown hgrown).runs (.registers rfl rfl rfl rfl), ?_⟩
  simp only [State.setNvm_nvm, hnvm]
  rfl

/-- The ready check begun after `s0` ended in an idle read. -/
structure ReadIdle (s0 t : State) : Prop where
  idle : nvmIdle s0.cfg t.nvm.lastStatus = true
  valid : t.nvm.statusValid = true
  traffic : s0.traffic.length < t.traffic.length

/-- It ended at or past its deadline, in a read that was not idle. -/
structure ReadBusy (s0 t : State) : Prop where
  busy : nvmIdle s0.cfg t.nvm.lastStatus = false
  valid : t.nvm.statusValid = true
  waited : s0.now + s0.cfg.tNvm ≤ t.nvm.pollDeadline
  past : t.nvm.pollDeadline ≤ t.now

/-- The piece ends well after an idle read, and in `NvmBusyTimeoutError` only as `ReadBusy` says. -/
def ReadyEndsAt (s0 : State) (x : Act α) (s : State) : Prop :=
  Leads x s (fun _ => ReadIdle s0) fun e t => e.code = .nvmBusyTimeout → ReadBusy s0 t

theorem nvmBusy_leads {b : Byte} (h : ReadBusy s0 s) : ReadyEndsAt s0 (nvmBusy b) s :=
  leads_get_bind (leads_error rfl fun _ => h)

/-- After a status read that was idle, or at which the deadline had passed. -/
theorem readyEndsAt_read {b : Byte} {more : Act Unit} (hs : RunsOn s0 s) (hgrown : Grown s t)
    (hnvm : t.nvm = s.nvm.afterRead b)
    (hmore : nvmIdle t.cfg b = false → ReadyEndsAt s0 more t) :
    ReadyEndsAt s0 (if nvmIdle t.cfg b then pure () else more) t := by
  have hcfg : t.cfg = s0.cfg := hgrown.runsOn.cfg.trans hs.cfg
  cases hidle : nvmIdle t.cfg b with
  | true =>
    refine leads_ok rfl ⟨?_, ?_, (hs.grown hgrown).traffic⟩
    · rw [hnvm, ← hcfg]
      exact hidle
    · rw [hnvm]
      rfl
  | false => exact hmore hidle

theorem waitFor_leads (d : Nat) (s : State) :
    Leads (waitFor d) s (fun _ t => RunsOn s t ∧ t.nvm = s.nvm) fun e _ => NotBusy e.code :=
  leads_ok (waitFor_run d s)
    ⟨((inSession_wait plainScope s d).ok (.refl _ s) (waitFor_run d s)).runsOn, by simp⟩

/-- The loop, its fuel enough for the time left to the deadline (log entry 25). -/
theorem pollLoop_ends (fuel : Nat) : ∀ {s : State}, RunsOn s0 s → s0.now + s0.cfg.tNvm ≤ s.nvm.pollDeadline →
    s.nvm.pollDeadline ≤ s.now + fuel → ReadyEndsAt s0 (pollLoop fuel) s := by
  have past {s t : State} {b : Byte} (hs : RunsOn s0 s) (hwait : s0.now + s0.cfg.tNvm ≤ s.nvm.pollDeadline)
      (hgrown : Grown s t) (hnvm : t.nvm = s.nvm.afterRead b) (hbusy : nvmIdle t.cfg b = false)
      (hpast : s.nvm.pollDeadline ≤ t.now) : ReadBusy s0 t := by
    refine ⟨?_, ?_, ?_, ?_⟩ <;> rw [hnvm]
    · rw [← hs.cfg, ← hgrown.runsOn.cfg]
      exact hbusy
    · rfl
    · exact hwait
    · exact hpast
  induction fuel with
  | zero =>
    intro s hs hwait hfuel
    refine leads_bind ((pollOnce_leads s).mono (fun _ _ h => h) fun _ _ hcode hbusy => absurd hbusy hcode)
      fun b t ⟨hgrown, hnvm⟩ => leads_get_bind (readyEndsAt_read hs hgrown hnvm fun hbusy => ?_)
    exact nvmBusy_leads (past hs hwait hgrown hnvm hbusy (hfuel.trans hgrown.now.le))
  | succ fuel ih =>
    intro s hs hwait hfuel
    refine leads_bind ((pollOnce_leads s).mono (fun _ _ h => h) fun _ _ hcode hbusy => absurd hbusy hcode)
      fun b t ⟨hgrown, hnvm⟩ => leads_get_bind (readyEndsAt_read hs hgrown hnvm fun hbusy => ?_)
    have hdeadline : t.nvm.pollDeadline = s.nvm.pollDeadline := by rw [hnvm]; rfl
    by_cases hpast : t.nvm.pollDeadline ≤ t.now
    · rw [if_pos hpast]
      exact nvmBusy_leads (past hs hwait hgrown hnvm hbusy (hdeadline ▸ hpast))
    · rw [if_neg hpast]
      refine leads_modify_bind (P := fun v => RunsOn t v ∧ v.nvm.pollDeadline = s.nvm.pollDeadline)
        ⟨.registers rfl rfl rfl rfl, hdeadline⟩ fun v ⟨hv, hvd⟩ => ?_
      refine leads_bind ((waitFor_leads _ v).mono (fun _ _ h => h) fun _ _ hcode hbusy => absurd hbusy hcode)
        fun _ w ⟨hw, hnvmw⟩ => ?_
      have hd : w.nvm.pollDeadline = s.nvm.pollDeadline := by rw [hnvmw, hvd]
      have hnow := hgrown.now
      have hlater := (hv.trans hw).now
      exact ih (hs.trans (hgrown.runsOn.trans (hv.trans hw))) (hd ▸ hwait) (by omega)

theorem readyEndsAt_inNvm {name : OpName} {x : Act Unit} (h : ReadyEndsAt s0 x s) :
    ReadyEndsAt s0 (inNvm name x) s := by
  cases hr : x s with
  | ok a t =>
    obtain ⟨hidle, hvalid, htraffic⟩ := h.1 a t hr
    exact leads_ok (inNvm_ok hr) ⟨hidle, hvalid, htraffic⟩
  | error e t =>
    refine leads_error (inNvm_error hr) fun hcode => ?_
    obtain ⟨hbusy, hvalid, hwaited, hpast⟩ := h.2 e t hr hcode
    exact ⟨hbusy, hvalid, hwaited, hpast⟩

theorem readyEndsAt_atPlace {addr region : Nat} {x : Act Unit} (h : ReadyEndsAt s0 x s) :
    ReadyEndsAt s0 (atPlace addr region x) s := by
  cases hr : x s with
  | ok a t => exact leads_ok (atPlace_ok hr) (h.1 a t hr)
  | error e t =>
    refine leads_error (atPlace_error hr) fun hcode => h.2 e t hr ?_
    split at hcode <;> exact hcode

/-! ### The commands that end with it -/

/-- From every state after `s0` the piece ends with the ready check. -/
def ReadyEnds (s0 : State) (x : Act Unit) : Prop := ∀ s, RunsOn s0 s → ReadyEndsAt s0 x s

/-- `WaitReady(T_NVM)` (42_nvm.md R225). -/
theorem readyEnds_wait (s0 : State) : ReadyEnds s0 waitReadyNvm := fun s hs => by
  refine leads_get_bind (readyEndsAt_inNvm ?_)
  have hwait : s0.now + s0.cfg.tNvm ≤ s.now + s.cfg.tNvm := by
    rw [hs.cfg]
    exact Nat.add_le_add_right hs.now _
  exact pollLoop_ends _ (hs.trans (.registers rfl rfl rfl rfl)) hwait le_rfl

theorem readyEnds_bind {x : Act α} {k : α → Act Unit} (hx : Stays (RunsOn s0) NotBusy x)
    (hk : ∀ a, ReadyEnds s0 (k a)) : ReadyEnds s0 (x >>= k) := fun _ hs =>
  leads_bind (Q := fun _ => RunsOn s0) ⟨fun _ _ hok => hx.ok hs hok, fun _ _ he hbusy =>
    absurd hbusy (hx.error hs he).2⟩ fun a t ht => hk a t ht

theorem readyEnds_get {k : State → Act Unit} (hk : ∀ s, ReadyEnds s0 (k s)) : ReadyEnds s0 (get >>= k) :=
  fun _ hs => hk _ _ hs

theorem readyEnds_demand {b : Bool} {k : Unit → Act Unit} (hk : ReadyEnds s0 (k ())) :
    ReadyEnds s0 (demand b >>= k) := fun s hs => by
  cases b with
  | true => exact hk s hs
  | false => exact leads_error (demand_false_bind_run k s) nofun

theorem readyEnds_inNvm {name : OpName} {x : Act Unit} (h : ReadyEnds s0 x) : ReadyEnds s0 (inNvm name x) :=
  fun s hs => readyEndsAt_inNvm (h s hs)

theorem readyEnds_atPlace {addr region : Nat} {x : Act Unit} (h : ReadyEnds s0 x) :
    ReadyEnds s0 (atPlace addr region x) := fun s hs => readyEndsAt_atPlace (h s hs)

theorem readyEnds_nvmState {p : NvmState} {k : Unit → Act Unit} (hk : ReadyEnds s0 (k ())) :
    ReadyEnds s0 (setNvmState p >>= k) := readyEnds_bind ((runsOn_nvmInert s0).nvmState p) fun _ => hk

/-- The checks of a page command, whatever follows them. -/
theorem readyEnds_check {x : Act α} {P : α → State → Prop} {k : α → Act Unit} (hx : IsCheck x P)
    (hk : ∀ a, ReadyEnds s0 (k a)) : ReadyEnds s0 (x >>= k) := readyEnds_bind hx.notBusy hk

theorem readyEnds_note {k : Unit → Act Unit} (hk : ReadyEnds s0 (k ())) : ReadyEnds s0 (noteNvmOp >>= k) :=
  readyEnds_bind (noteNvmOp_runsOn s0) fun _ => hk

/-- The command code and the ready check, the end of every mutating command (42_nvm.md R226, R228). -/
theorem readyEnds_exec (s0 : State) (code : Config → Byte) :
    ReadyEnds s0 (nvmExec code >>= fun _ => waitReadyNvm) :=
  readyEnds_bind (nvmExec_notBusy (runsOn_nvmInert s0) code) fun _ => readyEnds_wait s0

theorem waitCommand_ends (s0 : State) : ReadyEnds s0 waitCommand :=
  readyEnds_nvmState (readyEnds_check (isCheck_demandRegs _) fun _ => readyEnds_note (readyEnds_wait s0))

theorem eraseWhole_ends (s0 : State) (name : OpName) (code : Config → Byte) :
    ReadyEnds s0 (eraseWhole name code) := by
  refine readyEnds_inNvm (readyEnds_nvmState (readyEnds_check (isCheck_demandRegs _) fun _ => ?_))
  exact readyEnds_check isCheck_demandKey fun _ => readyEnds_note (readyEnds_exec s0 code)

theorem writePageOp_ends (s0 : State) (region offset : Nat) (data : List Byte) :
    ReadyEnds s0 (writePageOp region offset data) := by
  have o := (runsOn_nvmInert s0).toOver
  refine readyEnds_inNvm (readyEnds_nvmState (readyEnds_check (isCheck_pagedRegion region) ?_))
  rintro ⟨r, page⟩
  refine readyEnds_get fun _ => readyEnds_check (isCheck_checkAligned _ _ _) fun _ => ?_
  refine readyEnds_check (isCheck_checkPageSize _ _ _) fun _ => readyEnds_demand ?_
  refine readyEnds_check (isCheck_demandRegs _) fun _ => readyEnds_check isCheck_demandKey fun _ => ?_
  refine readyEnds_note (readyEnds_atPlace (readyEnds_nvmState ?_))
  refine readyEnds_bind (stPtrOp_notBusy o _ _) fun _ => readyEnds_nvmState ?_
  exact readyEnds_bind (storeChunks_notBusy o _) fun _ => readyEnds_exec s0 _

theorem erasePageOp_ends (s0 : State) (region offset : Nat) : ReadyEnds s0 (erasePageOp region offset) := by
  have o := (runsOn_nvmInert s0).toOver
  refine readyEnds_inNvm (readyEnds_nvmState (readyEnds_check (isCheck_pagedRegion region) ?_))
  rintro ⟨r, page⟩
  refine readyEnds_get fun _ => readyEnds_check (isCheck_checkAligned _ _ _) fun _ => readyEnds_demand ?_
  refine readyEnds_check (isCheck_demandRegs _) fun _ => readyEnds_check isCheck_demandKey fun _ => ?_
  refine readyEnds_note (readyEnds_atPlace (readyEnds_nvmState ?_))
  exact readyEnds_bind (stsOp_notBusy o _ _ _) fun _ => readyEnds_exec s0 _

theorem writeFuseOp_ends (s0 : State) (idx v : Nat) : ReadyEnds s0 (writeFuseOp idx v) := by
  have o := (runsOn_nvmInert s0).toOver
  refine readyEnds_inNvm (readyEnds_nvmState (readyEnds_demand ?_))
  refine readyEnds_check (isCheck_checkFuseIndex idx) fun _ => readyEnds_get fun _ => readyEnds_demand ?_
  refine readyEnds_check (isCheck_demandRegs _) fun _ => readyEnds_check isCheck_demandKey fun _ => ?_
  refine readyEnds_note (readyEnds_atPlace (readyEnds_nvmState ?_))
  refine readyEnds_bind (stsOp_notBusy o _ _ _) fun _ => readyEnds_bind (stsOp_notBusy o _ _ _) fun _ => ?_
  exact readyEnds_bind (stsOp_notBusy o _ _ _) fun _ => readyEnds_exec s0 _

/-- Every command that ends with the ready check (42_nvm.md R226). -/
theorem body_ends (hend : endsReady i = true) (s0 : State) :
    ∃ x : Act Unit, bodyOf i = noData x ∧ ReadyEnds s0 x := by
  cases i with
  | waitNvmReady => exact ⟨_, rfl, waitCommand_ends s0⟩
  | chipErase | eepromErase => exact ⟨_, rfl, eraseWhole_ends s0 _ _⟩
  | writePage region offset data => exact ⟨_, rfl, writePageOp_ends s0 _ _ _⟩
  | writeFuse idx v => exact ⟨_, rfl, writeFuseOp_ends s0 _ _⟩
  | erasePage region offset => exact ⟨_, rfl, erasePageOp_ends s0 _ _⟩
  | _ => cases hend

/-! ### The polling registers after the forced cleanup -/

/-- The registers of the polling loop are as in `n`. -/
structure SamePolls (n : Nvm) (t : State) : Prop where
  deadline : t.nvm.pollDeadline = n.pollDeadline
  status : t.nvm.lastStatus = n.lastStatus
  valid : t.nvm.statusValid = n.statusValid

theorem SamePolls.of_eq (h : SamePolls n s) (ht : t.nvm = s.nvm) : SamePolls n t :=
  ⟨ht ▸ h.deadline, ht ▸ h.status, ht ▸ h.valid⟩

theorem samePolls_inert (n : Nvm) : Inert (SamePolls n) where
  seq := fun _ _ _ h => h.of_eq rfl
  write := fun _ => stays_trWrite (.inl rfl) (fun _ _ h => h.of_eq (by simp)) fun _ h => h.of_eq rfl
  read := fun _ _ => stays_trRead (.inl rfl) (fun _ _ _ h => h.of_eq (by simp)) fun _ _ _ _ h _ => h.of_eq (by simp)
  dl := fun _ _ h => h.of_eq rfl

theorem trClose_samePolls (n : Nvm) : Stays (SamePolls n) LinkCode trClose := fun s h => by
  cases hio : (s.draw .trClose).ioerror with
  | true => exact staysAt_error (trClose_error hio) (h.of_eq (by simp)) (.inl rfl)
  | false => exact staysAt_ok (trClose_ok hio) (h.of_eq (by simp))

/-- The body of `close` stays in what its pieces keep (43_session.md R266). -/
theorem closeBody_stays (x : Exch I) (hclose : Stays I LinkCode trClose) (hrelease : ∀ s, I s → I s.released)
    (r : Bool) : Stays I LinkCode (closeBody r) := by
  have hwrite (a : CsAddr) (v : Byte) : Stays I LinkCode (attempt (csWrite a.toNat v.toNat)) :=
    stays_attempt (x.csWrite (Nat.le_of_lt_succ a.isLt) (Nat.le_of_lt_succ v.isLt))
  have hline : Stays I LinkCode (closeLine r) :=
    stays_get_bind fun _ _ => stays_bind (hwrite _ _) fun _ =>
      stays_ite (fun _ => stays_bind (hwrite _ _) fun _ => hwrite _ _) fun _ => stays_pure _
  have hdone : Stays I LinkCode (modify State.released) := stays_modify hrelease
  have hport := stays_bind (stays_attempt (C := LinkCode) hclose) fun _ => hdone
  refine stays_get_bind fun s _ => stays_ite (fun _ => ?_) fun _ => hdone
  exact stays_ite (fun _ => stays_bind hline fun _ => hport) fun _ => hport

theorem forcedCleanup_samePolls (s : State) : SamePolls s.nvm s.forcedCleanup :=
  ((closeBody_stays (samePolls_inert s.nvm).exch (trClose_samePolls s.nvm)
    (fun _ h => ⟨h.deadline, h.status, h.valid⟩) s.cfg.cleanupReset).effect ⟨rfl, rfl, rfl⟩).of_eq rfl

/-! ### The commands -/

theorem codeByte_eq_busy_iff {c : Code} : codeByte c = 0x05 ↔ c = .nvmBusyTimeout := by
  cases c <;> decide

theorem nvmMode_of_endsReady (h : endsReady i = true) : admOf i = .nvmMode := by
  cases i with
  | waitNvmReady | chipErase | eepromErase | writePage | writeFuse | erasePage => rfl
  | _ => cases h

theorem cleans_of_endsReady (h : endsReady i = true) : (!(isOpen i || isClose i)) = true := by
  cases i with
  | openSession | closeSession => cases h
  | _ => rfl

/-- A command that ends with the ready check has ended as the check did. -/
theorem body_readyEnds (hend : endsReady i = true) (s : State) :
    Leads (bodyOf i) s (fun _ => ReadIdle s) fun e t => e.code = .nvmBusyTimeout → ReadBusy s t := by
  obtain ⟨x, hbody, hx⟩ := body_ends hend s
  rw [hbody]
  exact leads_noData (hx s (.refl s))

/-- `NvmBusyTimeoutError` delivered: the forced cleanup leaves the polling registers alone, and takes time. -/
theorem ReadBusy.delivered (h : ReadBusy s0 u) (e : Err) :
    ReadBusy s0 (u.sequencersIdle.forcedCleanup.respondError e) := by
  obtain ⟨hdeadline, hstatus, hvalid⟩ := forcedCleanup_samePolls u.sequencersIdle
  have hnow : u.now ≤ u.sequencersIdle.forcedCleanup.now := (forcedCleanup_left u.sequencersIdle).now
  exact ⟨(congrArg (nvmIdle s0.cfg) hstatus).trans h.busy, hvalid.trans h.valid, h.waited.trans_eq hdeadline.symm,
    hdeadline.trans_le (h.past.trans hnow)⟩

end Sys2Proof.Machine

namespace Sys2Proof.Proofs

open Sys2Proof.Machine

/-- Settles O29: the commands named end with the ready check, and no other raises `NvmBusyTimeoutError`. -/
theorem readyMeansAnIdleRead : Obligations.ReadyMeansAnIdleRead := by
  intro s t i hinv h
  cases hal : allowed i s.ses.sesState with
  | false =>
    have hrefused := (exec_eq i s).trans (runCommand_refused hinv.notBusy (by rw [admits_admOf]; exact hal))
    cases hrefused.symm.trans h
    exact ⟨fun _ hok => absurd hok (by decide : (0xFF : Byte) ≠ 0x00), fun hbusy =>
      absurd hbusy (by decide : (0xFF : Byte) ≠ 0x05)⟩
  | true =>
    cases hrun : bodyOf i s.accepted with
    | ok data u =>
      cases (exec_of_body_ok hinv.notBusy hal hrun).symm.trans h
      refine ⟨fun hend _ => ?_, fun hbusy => absurd hbusy (by decide : codeByte .ok ≠ 0x05)⟩
      obtain ⟨hidle, hvalid, htraffic⟩ := (body_readyEnds hend s.accepted).1 data u hrun
      exact ⟨hidle, hvalid, fun hsame => htraffic.ne' (congrArg List.length hsame)⟩
    | error e u =>
      cases (exec_of_body_error hinv.notBusy hal hrun).symm.trans h
      rw [deliver_rspStatus]
      refine ⟨fun hend hok => ?_, fun hbusy => ?_⟩
      · exact absurd (codeByte_eq_ok_iff.mp hok) (nvmBody_error_ne_ok hinv (nvmMode_of_endsReady hend) hal hrun)
      · have hcode := codeByte_eq_busy_iff.mp hbusy
        cases hend : endsReady i with
        | false => exact absurd hcode (body_notBusy hinv hal hend hrun)
        | true =>
          have hread := (body_readyEnds hend s.accepted).2 e u hrun hcode
          rw [cleans_of_endsReady hend, deliver_of_needsCleanup (by rw [hcode]; rfl)]
          obtain ⟨hnot, hvalid, hwaited, hpast⟩ := hread.delivered e
          exact ⟨rfl, hnot, hvalid, hwaited, hpast⟩

end Sys2Proof.Proofs
end

section
/-! PROOFS. A page written to the ideal target and read back (42_nvm.md R252): what STINC, LDINC and the command that
writes the page buffer make of T0 (20_memory.md R80, R81, R83, R84). -/

namespace Sys2Proof.Machine

variable {c : Config} {d e : Target} {p : Profile} {mem : Memory} {buf : List Host.Cell} {a k : Nat} {v : Byte}
  {vs data answer : List Byte} {xs ys : List Xfer} {P Q : Target → Prop}

/-! ### Exchanges, by what they make of T0 -/

/-- T0 answers these transfers, whenever they come, and is then as `P` says. -/
def Gives (c : Config) (xs : List Xfer) (d : Target) (P : Target → Prop) : Prop :=
  ∀ now, ∃ d' m, Plays c xs ⟨.ideal d, [], now⟩ ⟨.ideal d', [], m⟩ ∧ P d'

theorem gives_nil (h : P d) : Gives c [] d P := fun now => ⟨d, now, rfl, h⟩

theorem gives_append (hx : Gives c xs d P) (hy : ∀ d', P d' → Gives c ys d' Q) : Gives c (xs ++ ys) d Q := fun now => by
  obtain ⟨d1, m1, hplays1, h1⟩ := hx now
  obtain ⟨d2, m2, hplays2, h2⟩ := hy d1 h1 m1
  exact ⟨d2, m2, plays_append.mpr ⟨_, hplays1, hplays2⟩, h2⟩

/-- A transmission that T0 answers. -/
theorem gives_exchange {bs : List Byte} (ht : 0 < c.tByte) (hsilent : d.owed = [])
    (h : bs.foldl (Target.hear c) d = e) (he : e.owed = answer) (hne : answer ≠ [])
    (hP : ∀ ds j, P (e.spoken.waited ds j)) : Gives c [.tx bs, .rx answer] d P := fun now => by
  obtain ⟨ds, j, m, hplays⟩ := plays_exchange now ht hsilent h he hne
  exact ⟨_, m, hplays, hP ds j⟩

/-- A transmission that T0 does not answer. -/
theorem gives_silent {bs : List Byte} (h : bs.foldl (Target.hear c) d = e) (he : e.owed = []) (hP : P e) :
    Gives c [.tx bs] d P := fun now =>
  ⟨e, now + 1, hearAll_silent h he ▸ plays_tx_ideal c d bs now, hP⟩

/-! ### T0 with its pointer set -/

/-- T0 at rest, with this memory and its pointer put to `a` (20_memory.md R80). -/
structure Points (p : Profile) (mem : Memory) (a : Nat) (d : Target) : Prop where
  rest : d.AtRest p
  mem : d.tmem = mem
  ptr : d.ptr = d.pointerOf a

/-- Its page buffer holds these cells besides. -/
structure Buffers (p : Profile) (mem : Memory) (buf : List Host.Cell) (a : Nat) (d : Target) : Prop
    extends Points p mem a d where
  buf : d.pbuf = buf

theorem Points.waited (h : Points p mem a d) (ds : List (Nat × Nat)) (j : Nat) : Points p mem a (d.waited ds j) :=
  ⟨h.rest.waited ds j, h.mem, h.ptr⟩

theorem Buffers.waited (h : Buffers p mem buf a d) (ds : List (Nat × Nat)) (j : Nat) :
    Buffers p mem buf a (d.waited ds j) :=
  ⟨h.toPoints.waited ds j, h.buf⟩

theorem Points.ptr_eq (h : Points p mem a d) (ha : a < 2 ^ (8 * p.addrBytes)) : d.ptr = a := by
  rw [h.ptr]
  exact if_pos (h.rest.profile ▸ ha)

/-- STPTR (20_memory.md R80). -/
theorem gives_stPtr {n : Nat} (hc : c.codesDistinct = true) (ht : 0 < c.tByte) (hd : d.AtRest p)
    (ha : addrOk a n = true) : Gives c (stPtrXfers c n a) d (Buffers p d.tmem d.pbuf a) := fun now => by
  obtain ⟨ds, j, m, hplays⟩ := plays_stPtr hc ht hd.listening ha now
  exact ⟨_, m, hplays, Buffers.waited ⟨⟨hd.pointing a, rfl, rfl⟩, rfl⟩ ds j⟩

/-! ### REPEAT (20_memory.md R81) -/

/-- T0 with its repeat counter loaded. -/
def Target.armed (d : Target) (k : Nat) : Target := { d with rep := k }

theorem Target.Listening.armed_zero (h : d.Listening) : d.armed 0 = d := by
  rw [← h.rested_eq]
  rfl

theorem gives_repeat (hc : c.codesDistinct = true) (hd : d.Listening) (hk : k < repeatMax) (hP : P (d.armed k)) :
    Gives c (repeatXfers c (k + 1)) d P := by
  unfold repeatXfers
  by_cases h0 : k = 0
  · subst h0
    rw [hd.armed_zero] at hP
    exact gives_nil hP
  · rw [if_neg (by omega)]
    obtain ⟨q, hhear⟩ := Target.hear_instruction (o := .repeatNext) (opc := opRepeat c)
      (xs := [BitVec.ofNat 8 (k + 1 - 1)]) hd.sync (lookupWire_shows hc rfl) rfl
    refine gives_silent (e := d.armed k) (hhear.trans ?_) hd.silent hP
    have hcount : (BitVec.ofNat 8 k).toNat = k := by
      rw [BitVec.toNat_ofNat]
      exact Nat.mod_eq_of_lt hk
    simp only [Target.act, List.headD_cons, Nat.add_sub_cancel, hcount, Target.armed, ← hd.sync]
    rfl

/-! ### STINC: the page buffer (20_memory.md R80, R83) -/

/-- The address lies in a paged region. -/
def InPaged (p : Profile) (a : Nat) : Prop :=
  ∃ r page, regionPage p r = some page ∧ regionBase p r ≤ a ∧ a < regionBase p r + regionSize p r

theorem pagedAt_of_inPaged (h : InPaged d.prof a) : d.pagedAt a ≠ none := by
  obtain ⟨r, page, hpage, hlow, hhigh⟩ := h
  unfold Target.pagedAt
  cases r with
  | flash => rw [if_pos ⟨hlow, hhigh⟩]; exact nofun
  | eeprom =>
    split
    · exact nofun
    · rw [if_pos ⟨hlow, hhigh⟩]; exact nofun
  | fuse | lock | userRow => cases hpage

/-- These addresses lie in a paged region, and the pointer holds them. -/
def Bufferable (p : Profile) (a n : Nat) : Prop := ∀ j < n, InPaged p (a + j) ∧ a + j < 2 ^ (8 * p.addrBytes)

/-- T0 after a byte stored through the pointer into the page buffer. -/
def Target.buffered (d : Target) (v : Byte) : Target :=
  { d with pbuf := d.pbuf ++ [(d.ptr, v)], ptr := d.pointerOf (d.ptr + 1) }

theorem Target.storeInc_paged (c : Config) (v : Byte) (h : d.pagedAt d.ptr ≠ none) :
    d.storeInc c v = { d.buffered v with owed := d.owed ++ [c.ack] } := by
  cases hp : d.pagedAt d.ptr with
  | none => exact absurd hp h
  | some x =>
    simp only [Target.storeInc, Target.memWrite, hp]
    rfl

theorem Buffers.buffered (h : Buffers p mem buf a d) (ha : a < 2 ^ (8 * p.addrBytes)) (v : Byte) :
    Buffers p mem (buf ++ [(a, v)]) (a + 1) (d.buffered v) := by
  have hptr := h.ptr_eq ha
  obtain ⟨hsync, hrep, howed, hlag⟩ := h.rest.listening
  refine ⟨⟨⟨⟨hsync, hrep, howed, hlag⟩, h.rest.profile, h.rest.csSpace, h.rest.memory⟩, h.mem, ?_⟩, ?_⟩
  · simp only [Target.buffered, hptr]
    rfl
  · simp only [Target.buffered, hptr, h.buf]

/-- T0 in a STINC under REPEAT, with `k` bytes to come (20_memory.md R81). -/
def Target.awaiting (d : Target) (k : Nat) : Target :=
  { d with rep := k, phase := if k = 0 then .sync else .stIncMore }

/-- T0 has acknowledged a byte. -/
def Target.acked (c : Config) (d : Target) : Target := { d with owed := d.owed ++ [c.ack] }

theorem Target.Listening.awaiting_zero (h : d.Listening) : d.awaiting 0 = d := by
  rw [← h.rested_eq]
  rfl

theorem Target.Listening.spoken_awaiting (h : d.Listening) (k : Nat) :
    ((d.awaiting k).acked c).spoken = d.awaiting k := by
  rw [← h.rested_eq]
  rfl

/-- The first byte of a STINC. -/
theorem Target.hear_stinc (hc : c.codesDistinct = true) (hd : d.Listening) (k : Nat) (v : Byte)
    (hp : d.pagedAt d.ptr ≠ none) :
    [SYNC, opStInc c, v].foldl (Target.hear c) (d.armed k) = ((d.buffered v).awaiting k).acked c := by
  obtain ⟨q, hhear⟩ := Target.hear_instruction (d := d.armed k) (o := .stinc) (opc := opStInc c) (xs := [v]) hd.sync
    (lookupWire_shows hc rfl) rfl
  refine hhear.trans ?_
  have hp' : ((d.armed k).inPhase q).pagedAt ((d.armed k).inPhase q).ptr ≠ none := hp
  simp only [Target.act, List.headD_cons, Target.storeInc_paged c v hp']
  rfl

/-- A further byte of it. -/
theorem Target.hear_stincMore (k : Nat) (v : Byte) (hp : d.pagedAt d.ptr ≠ none) :
    [v].foldl (Target.hear c) (d.awaiting (k + 1)) = ((d.buffered v).awaiting k).acked c := by
  have hp' : (d.awaiting (k + 1)).pagedAt (d.awaiting (k + 1)).ptr ≠ none := hp
  have hphase : (d.awaiting (k + 1)).phase = .stIncMore := rfl
  simp only [List.foldl_cons, List.foldl_nil, Target.hear, hphase, Target.storeInc_paged c v hp']
  rfl

/-- The cells that these bytes fill, one address after another. -/
def cellsFrom (a : Nat) : List Byte → List Host.Cell
  | [] => []
  | v :: vs => (a, v) :: cellsFrom (a + 1) vs

theorem cellsFrom_append (a : Nat) (vs ws : List Byte) :
    cellsFrom a (vs ++ ws) = cellsFrom a vs ++ cellsFrom (a + vs.length) ws := by
  induction vs generalizing a with
  | nil => rfl
  | cons v vs ih => simp [cellsFrom, ih, Nat.add_assoc, Nat.add_comm 1]

theorem Bufferable.head {n : Nat} (h : Bufferable p a (n + 1)) : InPaged p a ∧ a < 2 ^ (8 * p.addrBytes) :=
  h 0 (Nat.succ_pos n)

theorem Bufferable.take {m n : Nat} (h : Bufferable p a (m + n)) : Bufferable p a m := fun j hj => h j (by omega)

theorem Bufferable.drop {m n : Nat} (h : Bufferable p a (m + n)) : Bufferable p (a + m) n := fun j hj => by
  rw [Nat.add_assoc]
  exact h (m + j) (by omega)

theorem Buffers.paged (h : Buffers p mem buf a d) (ha : InPaged p a ∧ a < 2 ^ (8 * p.addrBytes)) :
    d.pagedAt d.ptr ≠ none := by
  rw [h.ptr_eq ha.2]
  exact pagedAt_of_inPaged (h.rest.profile ▸ ha.1)

/-- The further bytes of a STINC under REPEAT. -/
theorem gives_stIncRest (ht : 0 < c.tByte) : ∀ {buf a d}, Buffers p mem buf a d → Bufferable p a vs.length →
    Gives c (vs.flatMap fun x => [.tx [x], .rx [c.ack]]) (d.awaiting vs.length)
      (Buffers p mem (buf ++ cellsFrom a vs) (a + vs.length)) := by
  induction vs with
  | nil =>
    intro buf a d h _
    rw [List.length_nil, h.rest.listening.awaiting_zero]
    exact gives_nil (by simpa [cellsFrom] using h)
  | cons v vs ih =>
    intro buf a d h hroom
    have hnext := h.buffered hroom.head.2 v
    have hfirst : Gives c [.tx [v], .rx [c.ack]] (d.awaiting (vs.length + 1)) fun d' =>
        ∃ e, d' = e.awaiting vs.length ∧ Buffers p mem (buf ++ [(a, v)]) (a + 1) e := by
      refine gives_exchange ht h.rest.listening.silent (Target.hear_stincMore vs.length v (h.paged hroom.head))
        (by rw [Target.acked]; exact congrArg (· ++ [c.ack]) h.rest.listening.silent) (List.cons_ne_nil _ _)
        fun ds j => ?_
      rw [hnext.rest.listening.spoken_awaiting]
      exact ⟨_, rfl, hnext.waited ds j⟩
    rw [List.flatMap_cons]
    refine gives_append hfirst ?_
    rintro _ ⟨e, rfl, he⟩
    have hrest := ih he (Bufferable.drop (m := 1) (n := vs.length) (by rwa [Nat.add_comm]))
    simpa [cellsFrom, Nat.add_assoc, Nat.add_comm 1] using hrest

/-- A STINC, with the bytes a REPEAT before it announced. -/
theorem gives_stInc (hc : c.codesDistinct = true) (ht : 0 < c.tByte) (h : Buffers p mem buf a d)
    (hroom : Bufferable p a (vs.length + 1)) :
    Gives c (stIncXfers c v vs) (d.armed vs.length)
      (Buffers p mem (buf ++ cellsFrom a (v :: vs)) (a + (vs.length + 1))) := by
  have hnext := h.buffered hroom.head.2 v
  have hfirst : Gives c [.tx [SYNC, opStInc c, v], .rx [c.ack]] (d.armed vs.length) fun d' =>
      ∃ e, d' = e.awaiting vs.length ∧ Buffers p mem (buf ++ [(a, v)]) (a + 1) e := by
    refine gives_exchange ht h.rest.listening.silent
      (Target.hear_stinc hc h.rest.listening vs.length v (h.paged hroom.head))
      (by rw [Target.acked]; exact congrArg (· ++ [c.ack]) h.rest.listening.silent) (List.cons_ne_nil _ _)
      fun ds j => ?_
    rw [hnext.rest.listening.spoken_awaiting]
    exact ⟨_, rfl, hnext.waited ds j⟩
  refine gives_append hfirst ?_
  rintro _ ⟨e, rfl, he⟩
  have hrest := gives_stIncRest ht he (Bufferable.drop (m := 1) (n := vs.length) (by rwa [Nat.add_comm]))
  simpa [cellsFrom, Nat.add_assoc, Nat.add_comm 1] using hrest

/-- A block stored through the pointer, with REPEAT or without (41_datalink.md R192, R200). -/
theorem gives_stPtrInc (hc : c.codesDistinct = true) (ht : 0 < c.tByte) {rep : Bool} (hlen : vs.length ≤ repeatMax) :
    ∀ {buf a d}, Buffers p mem buf a d → Bufferable p a vs.length →
      Gives c (stPtrIncXfers c rep vs) d (Buffers p mem (buf ++ cellsFrom a vs) (a + vs.length)) := by
  cases rep with
  | true =>
    intro buf a d h hroom
    cases vs with
    | nil => exact gives_nil (by simpa [cellsFrom] using h)
    | cons v vs =>
      exact gives_append (P := (· = d.armed vs.length)) (gives_repeat hc h.rest.listening hlen rfl) fun _ hd =>
        hd ▸ gives_stInc hc ht h hroom
  | false =>
    have singles : ∀ {buf a d}, Buffers p mem buf a d → Bufferable p a vs.length →
        Gives c (vs.flatMap fun x => stIncXfers c x []) d (Buffers p mem (buf ++ cellsFrom a vs) (a + vs.length)) := by
      clear hlen
      induction vs with
      | nil =>
        intro buf a d h _
        exact gives_nil (by simpa [cellsFrom] using h)
      | cons v vs ih =>
        intro buf a d h hroom
        have hfirst := gives_stInc (v := v) (vs := []) hc ht h (Bufferable.take (m := 1) (n := vs.length)
          (by rwa [Nat.add_comm]))
        rw [List.length_nil, h.rest.listening.armed_zero] at hfirst
        rw [List.flatMap_cons]
        refine gives_append hfirst fun e he => ?_
        have hrest := ih he (Bufferable.drop (m := 1) (n := vs.length) (by rwa [Nat.add_comm]))
        simpa [cellsFrom, Nat.add_assoc, Nat.add_comm 1] using hrest
    intro buf a d h hroom
    cases vs with
    | nil => exact singles h hroom
    | cons v vs => exact singles h hroom

/-- The chunks of a page (42_nvm.md R232, R234). -/
theorem gives_chunks (hc : c.codesDistinct = true) (ht : 0 < c.tByte) {bs : List (List Byte)}
    (hlen : ∀ b ∈ bs, b.length ≤ repeatMax) :
    ∀ {buf a d}, Buffers p mem buf a d → Bufferable p a bs.flatten.length →
      Gives c (bs.flatMap fun b => stPtrIncXfers c (decide (c.repeatThreshold < b.length)) b) d
        (Buffers p mem (buf ++ cellsFrom a bs.flatten) (a + bs.flatten.length)) := by
  induction bs with
  | nil =>
    intro buf a d h _
    exact gives_nil (by simpa [cellsFrom] using h)
  | cons b bs ih =>
    intro buf a d h hroom
    rw [List.flatten_cons, List.length_append] at hroom
    rw [List.flatMap_cons]
    refine gives_append (gives_stPtrInc hc ht (hlen b (by simp)) h hroom.take) fun e he => ?_
    have hrest := ih (fun x hx => hlen x (by simp [hx])) he hroom.drop
    simpa [cellsFrom_append, Nat.add_assoc] using hrest

theorem gives_page (hc : c.codesDistinct = true) (ht : 0 < c.tByte) (h : Buffers p mem buf a d)
    (hroom : Bufferable p a data.length) :
    Gives c (pageXfers c data) d (Buffers p mem (buf ++ cellsFrom a data) (a + data.length)) := by
  have hchunks := gives_chunks hc ht (chunks_le data) h (by rwa [chunks_flatten])
  rwa [chunks_flatten] at hchunks

/-! ### The command that writes the page buffer, and the status after it (20_memory.md R84, R85) -/

/-- T0 at rest with this memory. -/
structure Holding (p : Profile) (mem : Memory) (d : Target) : Prop where
  rest : d.AtRest p
  mem : d.tmem = mem

theorem Holding.waited (h : Holding p mem d) (ds : List (Nat × Nat)) (j : Nat) : Holding p mem (d.waited ds j) :=
  ⟨h.rest.waited ds j, h.mem⟩

theorem Target.startBusy_eq (d : Target) :
    ∃ left draws drawn, d.startBusy = { d with busyLeft := left, busyDraws := draws, drawn := drawn } := by
  unfold Target.startBusy
  split
  · exact ⟨_, _, _, rfl⟩
  · exact ⟨_, _, _, rfl⟩

theorem Target.pagedAt_of_prof (h : d.prof = e.prof) (a : Nat) : d.pagedAt a = e.pagedAt a := by
  simp only [Target.pagedAt, h]

/-- T0 once its page buffer has been written and emptied. -/
def Target.committed (d : Target) : Target := { d with tmem := memWriteAll d.tmem d.pbuf, pbuf := [] }

theorem Target.memWrite_writePage (h : d.pagedAt (ctrlAddr c d.prof) = none) :
    d.memWrite c (ctrlAddr c d.prof) c.cmdWritePage = d.committed.startBusy := by
  simp only [Target.memWrite, h, if_true, Target.command]
  rfl

/-- `CMD_WRITE_PAGE` stored to the command register (20_memory.md R84). -/
theorem Target.hear_writePage (hphase : d.phase = .stsData (ctrlAddr c d.prof))
    (hctrl : d.pagedAt (ctrlAddr c d.prof) = none) :
    [c.cmdWritePage].foldl (Target.hear c) d = (d.committed.startBusy.acked c).inPhase .sync := by
  simp only [List.foldl_cons, List.foldl_nil, Target.hear, hphase, Target.memWrite_writePage hctrl]
  rfl

theorem gives_commit {n : Nat} (hc : c.codesDistinct = true) (ht : 0 < c.tByte) (h : Buffers p mem buf a d)
    (hctrl : ∀ e : Target, e.prof = p → e.pagedAt (ctrlAddr c p) = none) (hfit : addrOk (ctrlAddr c p) n = true) :
    Gives c (stsXfers c (ctrlAddr c p) c.cmdWritePage n) d (Holding p (memWriteAll mem buf)) := by
  obtain ⟨hn, hlt⟩ := addrOk_iff.mp hfit
  obtain ⟨o, ho, hcount, hact⟩ := lookup_sts hc hn
  obtain ⟨q, hhear⟩ := Target.hear_instruction h.rest.listening.sync ho ((le_length (ctrlAddr c p) n).trans hcount.symm)
  rw [hact, unle_le_of_lt hlt, Target.stsAddress_owing c _ q h.rest.listening.silent] at hhear
  have hfirst : Gives c [.tx ([SYNC, opSts c n] ++ le (ctrlAddr c p) n), .rx [c.ack]] d fun d' =>
      ∃ e, d' = e.inPhase (.stsData (ctrlAddr c p)) ∧ Buffers p mem buf a e := by
    refine gives_exchange ht h.rest.listening.silent hhear rfl (List.cons_ne_nil _ _) fun ds j => ?_
    rw [h.rest.listening.spoken_owing]
    exact ⟨_, rfl, h.waited ds j⟩
  refine gives_append (xs := [_, _]) (ys := [_, _]) hfirst ?_
  rintro _ ⟨e, rfl, he⟩
  obtain ⟨hrest, rfl, -⟩ := he.toPoints
  obtain rfl := he.buf
  obtain ⟨-, hrep, howed, hlag, hlead⟩ := hrest.listening
  obtain rfl := hrest.profile
  have hdata := Target.hear_writePage (c := c) (d := e.inPhase (.stsData (ctrlAddr c e.prof))) rfl (hctrl _ rfl)
  obtain ⟨left, draws, drawn, hbusy⟩ :=
    Target.startBusy_eq (e.inPhase (.stsData (ctrlAddr c e.prof))).committed
  refine gives_exchange ht howed hdata ?_ (List.cons_ne_nil c.ack []) fun ds j => Holding.waited ⟨?_, ?_⟩ ds j
  · rw [hbusy]
    exact congrArg (· ++ [c.ack]) howed
  · rw [hbusy]
    exact ⟨⟨rfl, hrep, rfl, rfl, rfl⟩, rfl, hrest.csSpace, memWriteAll_wf hrest.memory _⟩
  · rw [hbusy]
    rfl

theorem Target.readStatus_eq (c : Config) (d : Target) :
    ∃ left, (d.readStatus c).2 = { d with busyLeft := left } := by
  unfold Target.readStatus
  split
  · exact ⟨d.busyLeft, rfl⟩
  · split
    · exact ⟨d.busyLeft, rfl⟩
    · exact ⟨_, rfl⟩

/-- A status read, whatever it shows (20_memory.md R85). -/
theorem gives_status {n : Nat} (hc : c.codesDistinct = true) (ht : 0 < c.tByte) (h : Holding p mem d)
    (hfit : addrOk (statAddr c p) n = true) :
    ∃ b, Gives c (ldsXfers c (statAddr c p) n b) d (Holding p mem) := by
  obtain ⟨hn, hlt⟩ := addrOk_iff.mp hfit
  obtain ⟨o, ho, hcount, hact⟩ := lookup_lds hc hn
  obtain ⟨q, hhear⟩ := Target.hear_instruction h.rest.listening.sync ho ((le_length (statAddr c p) n).trans hcount.symm)
  rw [hact, unle_le_of_lt hlt] at hhear
  obtain ⟨left, hleft⟩ := Target.readStatus_eq c d
  have hread : d.memRead c (statAddr c p) = d.readStatus c := by
    rw [h.rest.profile, Target.memRead, if_pos rfl]
  have hread' := Target.memRead_inPhase c d (statAddr c p) q
  rw [hread] at hread'
  obtain ⟨-, hrep, howed, hlag, hlead⟩ := h.rest.listening
  refine ⟨(d.readStatus c).1, gives_exchange ht howed hhear ?_ (List.cons_ne_nil _ []) fun ds j =>
    Holding.waited ⟨?_, ?_⟩ ds j⟩
  · simp only [Target.loadDirect, hread', hleft]
    exact congrArg (· ++ [(d.readStatus c).1]) howed
  · simp only [Target.loadDirect, hread', hleft]
    exact ⟨⟨rfl, rfl, rfl, rfl, rfl⟩, h.rest.profile, h.rest.csSpace, h.rest.memory⟩
  · simp only [Target.loadDirect, hread', hleft]
    exact h.mem

/-! ### LDINC: memory read through the pointer (20_memory.md R80, R81) -/

/-- The memory holds these bytes, one address after another. -/
def HoldsFrom (m : Memory) : Nat → List Byte → Prop
  | _, [] => True
  | a, b :: bs => memRead m a = b ∧ HoldsFrom m (a + 1) bs

theorem HoldsFrom.split {m : Memory} {bs : List Byte} (h : HoldsFrom m a (vs ++ bs)) :
    HoldsFrom m a vs ∧ HoldsFrom m (a + vs.length) bs := by
  induction vs generalizing a with
  | nil => exact ⟨trivial, h⟩
  | cons v vs ih =>
    obtain ⟨hhead, htail⟩ := h
    obtain ⟨hvs, hbs⟩ := ih htail
    exact ⟨⟨hhead, hvs⟩, by rwa [List.length_cons, Nat.add_comm vs.length, ← Nat.add_assoc]⟩

/-- The pointer holds these addresses, and none is the status register's. -/
def Loadable (c : Config) (p : Profile) (a n : Nat) : Prop :=
  ∀ j < n, a + j ≠ statAddr c p ∧ a + j < 2 ^ (8 * p.addrBytes)

theorem Loadable.head {n : Nat} (h : Loadable c p a (n + 1)) : a ≠ statAddr c p ∧ a < 2 ^ (8 * p.addrBytes) :=
  h 0 (Nat.succ_pos n)

theorem Loadable.take {m n : Nat} (h : Loadable c p a (m + n)) : Loadable c p a m := fun j hj => h j (by omega)

theorem Loadable.drop {m n : Nat} (h : Loadable c p a (m + n)) : Loadable c p (a + m) n := fun j hj => by
  rw [Nat.add_assoc]
  exact h (m + j) (by omega)

theorem Target.loadInc_eq (hprof : p = d.prof) (hptr : d.ptr = d.pointerOf a) (hroom : Loadable c p a vs.length)
    (hmem : HoldsFrom d.tmem a vs) :
    d.loadInc c vs.length = { d with owed := d.owed ++ vs, ptr := d.pointerOf (a + vs.length) } := by
  induction vs generalizing d a with
  | nil =>
    rw [List.append_nil, List.length_nil, Nat.add_zero, ← hptr]
    rfl
  | cons v vs ih =>
    obtain ⟨hstat, hlt⟩ := hroom.head
    have ha : d.ptr = a := hptr.trans (if_pos (hprof ▸ hlt))
    obtain ⟨hv, hvs⟩ := hmem
    have hread : d.memRead c d.ptr = (v, d) := by
      rw [ha, Target.memRead_of_ne_stat (hprof ▸ hstat), Target.byteAt, hv]
    rw [List.length_cons, Target.loadInc, hread]
    refine (ih (d := Target.bump { d with owed := d.owed ++ [v] }) hprof ?_
      (Loadable.drop (m := 1) (n := vs.length) (by rwa [Nat.add_comm])) hvs).trans ?_
    · simp only [Target.bump, ha]
      rfl
    · simp only [Target.bump, List.append_assoc, List.singleton_append, Nat.add_assoc, Nat.add_comm 1]
      rfl

/-- An LDINC, with the bytes a REPEAT before it announced. -/
theorem gives_ldInc (hc : c.codesDistinct = true) (ht : 0 < c.tByte) (h : Points p mem a d)
    (hroom : Loadable c p a (vs.length + 1)) (hmem : HoldsFrom mem a (v :: vs)) :
    Gives c [.tx [SYNC, opLdInc c], .rx (v :: vs)] (d.armed vs.length) (Points p mem (a + (vs.length + 1))) := by
  obtain ⟨q, hhear⟩ := Target.hear_instruction (d := d.armed vs.length) (o := .ldinc) (opc := opLdInc c) (xs := [])
    h.rest.listening.sync (lookupWire_shows hc rfl) rfl
  obtain ⟨-, -, howed, hlag, hlead⟩ := h.rest.listening
  have hload := Target.loadInc_eq (c := c) (d := (d.armed vs.length).inPhase q) (vs := v :: vs) h.rest.profile h.ptr
    hroom (h.mem ▸ hmem)
  have hact : ((d.armed vs.length).inPhase q).act c (opLdInc c) [] .ldinc =
      { d with
        owed := d.owed ++ v :: vs, ptr := d.pointerOf (a + (vs.length + 1)), rep := 0, phase := .sync } := by
    show ({ Target.loadInc c ((d.armed vs.length).inPhase q) (vs.length + 1) with
      rep := 0, phase := .sync } : Target) = _
    rw [← List.length_cons (a := v), hload]
    rfl
  refine gives_exchange ht howed (hhear.trans hact) ?_ (List.cons_ne_nil v vs) fun ds j =>
    Points.waited ⟨?_, ?_, ?_⟩ ds j
  · exact congrArg (· ++ v :: vs) howed
  · exact ⟨⟨rfl, rfl, rfl, rfl, rfl⟩, h.rest.profile, h.rest.csSpace, h.rest.memory⟩
  · exact h.mem
  · rfl

/-- A block loaded through the pointer, with REPEAT or without (41_datalink.md R196, R200). -/
theorem gives_ldPtrInc (hc : c.codesDistinct = true) (ht : 0 < c.tByte) {rep : Bool} (hlen : vs.length ≤ repeatMax) :
    ∀ {a d}, Points p mem a d → Loadable c p a vs.length → HoldsFrom mem a vs →
      Gives c (ldPtrIncXfers c rep vs) d (Points p mem (a + vs.length)) := by
  have singles : ∀ {a d}, Points p mem a d → Loadable c p a vs.length → HoldsFrom mem a vs →
      Gives c (vs.flatMap fun b => [.tx [SYNC, opLdInc c], .rx [b]]) d (Points p mem (a + vs.length)) := by
    clear hlen
    induction vs with
    | nil => exact fun h _ _ => gives_nil h
    | cons v vs ih =>
      intro a d h hroom ⟨hv, hvs⟩
      have hfirst := gives_ldInc (vs := []) hc ht h (Loadable.take (m := 1) (n := vs.length) (by rwa [Nat.add_comm]))
        ⟨hv, trivial⟩
      rw [List.length_nil, h.rest.listening.armed_zero] at hfirst
      rw [List.flatMap_cons]
      refine gives_append hfirst fun e he => ?_
      have hrest := ih he (Loadable.drop (m := 1) (n := vs.length) (by rwa [Nat.add_comm])) hvs
      simpa [Nat.add_assoc, Nat.add_comm 1] using hrest
  intro a d h hroom hmem
  cases vs with
  | nil => exact gives_nil h
  | cons v vs =>
    cases rep with
    | false => exact singles h hroom hmem
    | true =>
      exact gives_append (P := (· = d.armed vs.length)) (gives_repeat hc h.rest.listening hlen rfl) fun _ hd =>
        hd ▸ gives_ldInc hc ht h hroom hmem

/-- The chunks of a read (42_nvm.md R234, R237). -/
theorem gives_loadChunks (hc : c.codesDistinct = true) (ht : 0 < c.tByte) {bs : List (List Byte)}
    (hlen : ∀ b ∈ bs, b.length ≤ repeatMax) :
    ∀ {a d}, Points p mem a d → Loadable c p a bs.flatten.length → HoldsFrom mem a bs.flatten →
      Gives c (bs.flatMap fun b => ldPtrIncXfers c (decide (c.repeatThreshold < b.length)) b) d
        (Points p mem (a + bs.flatten.length)) := by
  induction bs with
  | nil => exact fun h _ _ => gives_nil h
  | cons b bs ih =>
    intro a d h hroom hmem
    rw [List.flatten_cons] at hmem
    rw [List.flatten_cons, List.length_append] at hroom
    obtain ⟨hb, hbs⟩ := hmem.split
    rw [List.flatMap_cons]
    refine gives_append (gives_ldPtrInc hc ht (hlen b (by simp)) h hroom.take hb) fun e he => ?_
    have hrest := ih (fun x hx => hlen x (by simp [hx])) he hroom.drop hbs
    simpa [Nat.add_assoc] using hrest

theorem gives_load (hc : c.codesDistinct = true) (ht : 0 < c.tByte) (h : Points p mem a d)
    (hroom : Loadable c p a answer.length) (hmem : HoldsFrom mem a answer) :
    Gives c (loadXfers c answer) d (Points p mem (a + answer.length)) := by
  have hchunks := gives_loadChunks hc ht (chunks_le answer) h (by rwa [chunks_flatten]) (by rwa [chunks_flatten])
  rwa [chunks_flatten] at hchunks

/-! ### What was written is held -/

theorem memWriteAll_append (m : Memory) (cells cells' : List Host.Cell) :
    memWriteAll m (cells ++ cells') = memWriteAll (memWriteAll m cells) cells' := List.foldl_append ..

theorem cellsFrom_above {x : Host.Cell} (h : x ∈ cellsFrom a vs) : a ≤ x.1 := by
  induction vs generalizing a with
  | nil => cases h
  | cons v vs ih =>
    rcases List.mem_cons.mp h with rfl | h
    · exact le_rfl
    · exact (Nat.le_succ a).trans (ih h)

theorem holdsFrom_memWriteAll {m : Memory} (hm : Memory.wf m) : HoldsFrom (memWriteAll m (cellsFrom a vs)) a vs := by
  induction vs generalizing m a with
  | nil => trivial
  | cons v vs ih =>
    refine ⟨?_, ih (memWrite_wf hm a v)⟩
    have habove : ∀ x ∈ cellsFrom (a + 1) vs, x.1 ≠ a := fun x hx => by
      have := cellsFrom_above hx
      omega
    exact (memRead_memWriteAll_other habove).trans (memRead_memWrite_same hm a v)

/-! ### `write_page` and `read_bytes` against T0 -/

variable {s t u : State} {x : Ses} {r : Region} {region offset page : Nat}

/-- T0 while and after a page is written: pointer, chunks, command code (42_nvm.md R232). -/
theorem gives_writePage {n : Nat} (hc : c.codesDistinct = true) (ht : 0 < c.tByte) (hd : d.AtRest p)
    (haddr : addrOk a n = true) (hroom : Bufferable p a data.length)
    (hctrl : d.pagedAt (ctrlAddr c d.prof) = none) (hfit : addrOk (ctrlAddr c p) n = true) :
    Gives c (stPtrXfers c n a ++ (pageXfers c data ++ (stsXfers c (ctrlAddr c p) c.cmdWritePage n ++ []))) d
      (Holding p (memWriteAll d.tmem (d.pbuf ++ cellsFrom a data))) := by
  refine gives_append (gives_stPtr hc ht hd haddr) fun d1 h1 => gives_append (gives_page hc ht h1 hroom) fun d2 h2 => ?_
  rw [List.append_nil]
  refine gives_commit hc ht h2 (fun e he => ?_) hfit
  rw [hd.profile, Target.pagedAt_of_prof (he.trans hd.profile)]
  exact hctrl

/-- T0 while and after a block is read (42_nvm.md R237). -/
theorem gives_readBytes {n : Nat} (hc : c.codesDistinct = true) (ht : 0 < c.tByte) (h : Holding p mem d)
    (haddr : addrOk a n = true) (hroom : Loadable c p a answer.length) (hmem : HoldsFrom mem a answer) :
    Gives c (stPtrXfers c n a ++ loadXfers c answer) d (Points p mem (a + answer.length)) :=
  gives_append (gives_stPtr hc ht h.rest haddr) fun _ h1 => gives_load hc ht (h.mem ▸ h1.toPoints) hroom hmem

/-- What the ready check keeps after a command to T0: the engine can begin an exchange, and T0 is at rest with its
memory as it was. -/
structure Polling (s0 : State) (mem : Memory) (x : Ses) (t : State) : Prop where
  live : Live t
  cfg : t.cfg = s0.cfg
  ses : t.ses = x
  dlIdle : t.dl.dlState = .idle
  facing : ∃ d, Faces t d ∧ d.tmem = mem

variable {s0 : State} {m now : Nat}

theorem Polling.setNvm (h : Polling s0 mem x t) (n : Nvm) : Polling s0 mem x (t.setNvm n) := by
  obtain ⟨d, hf, hmem⟩ := h.facing
  exact ⟨h.live.setNvm n, h.cfg, h.ses, h.dlIdle, d, hf.setNvm n, hmem⟩

theorem pollOnce_polling (h : Polling s0 mem x t)
    (hfit : addrOk (statAddr s0.cfg x.profile) x.profile.addrBytes = true) :
    ∃ b u, pollOnce t = .ok b u ∧ Polling s0 mem x u := by
  obtain ⟨hlive, hcfg, hses, -, d, hf, hmem⟩ := h
  obtain ⟨b, hgives⟩ := gives_status hf.codes hf.time ⟨hf.atRest, hmem⟩ (n := t.ses.profile.addrBytes)
    (by rwa [hcfg, hses])
  obtain ⟨d', m, hplays, hrest, hmem'⟩ := hgives t.now
  rw [← hf.world, ← List.append_nil (ldsXfers ..)] at hplays
  obtain ⟨u, hrun, hmoved, hend⟩ := pollOnce_plays rfl hlive (by rwa [hcfg, hses]) hplays
  refine ⟨b, u, hrun, hmoved.live ((hlive.setDl _).setNvm _), hmoved.cfg.trans hcfg, hmoved.ses.trans hses, ?_, d',
    ((hf.setDl _).setNvm _).moved hmoved hend.symm hrest, hmem'⟩
  rw [hmoved.dl]
  rfl

theorem waitFor_polling (h : Polling s0 mem x t) :
    ∃ u, waitFor t.cfg.nvmPollInterval t = .ok () u ∧ Polling s0 mem x u := by
  obtain ⟨hlive, hcfg, hses, hidle, d, hf, hmem⟩ := h
  have hanswer := answer_wait_silent t.cfg t.cfg.nvmPollInterval hf.listening.silent
  obtain ⟨u, hrun, hmoved, hw⟩ := waitFor_plays rfl hlive (by rw [hf.env, hanswer]; rfl)
  have hworld : u.world = ⟨.ideal d, [], t.now + t.cfg.nvmPollInterval⟩ := by
    rw [hw, hf.world]
    simp only [World.pause, hanswer, Nat.add_zero]
  refine ⟨u, hrun, hmoved.live hlive, hmoved.cfg.trans hcfg, hmoved.ses.trans hses, ?_, d,
    hf.moved hmoved hworld hf.atRest, hmem⟩
  rw [hmoved.dl]
  exact hidle

/-- The piece ends as a ready check against T0 does: T0 at rest, or `NvmBusyTimeoutError`. -/
def EndsPolled (s0 : State) (mem : Memory) (x : Ses) (y : Act Unit) (t : State) : Prop :=
  Leads y t (fun _ => Polling s0 mem x) fun e _ => e.code = .nvmBusyTimeout

theorem endsPolled_nvmBusy (b : Byte) (t : State) : EndsPolled s0 mem x (nvmBusy b) t :=
  leads_get_bind (leads_error rfl rfl)

theorem endsPolled_inNvm {name : OpName} {y : Act Unit} (h : EndsPolled s0 mem x y t) :
    EndsPolled s0 mem x (inNvm name y) t := by
  cases hr : y t with
  | ok a u => exact leads_ok (inNvm_ok hr) ((h.1 a u hr).setNvm _)
  | error e u => exact leads_error (inNvm_error hr) (h.2 e u hr)

theorem endsPolled_atPlace {addr region : Nat} {y : Act Unit} (h : EndsPolled s0 mem x y t) :
    EndsPolled s0 mem x (atPlace addr region y) t := by
  cases hr : y t with
  | ok a u => exact leads_ok (atPlace_ok hr) (h.1 a u hr)
  | error e u =>
    have hcode := h.2 e u hr
    refine leads_error (atPlace_error hr) ?_
    rwa [if_pos hcode]

/-- What follows a piece that ended well. -/
theorem endsPolled_bind {α : Type} {y : Act α} {a : α} {k : α → Act Unit} {Q : State → Prop} (h : Reaches y t a Q)
    (hk : ∀ u, Q u → EndsPolled s0 mem x (k a) u) : EndsPolled s0 mem x (y >>= k) t := by
  obtain ⟨u, hy, hQ⟩ := h
  unfold EndsPolled Leads
  rw [Act.bind_ok hy]
  exact hk u hQ

theorem pollLoop_polling (hfit : addrOk (statAddr s0.cfg x.profile) x.profile.addrBytes = true) (fuel : Nat) :
    ∀ {t}, Polling s0 mem x t → EndsPolled s0 mem x (pollLoop fuel) t := by
  induction fuel with
  | zero =>
    intro t h
    obtain ⟨b, u, hrun, hu⟩ := pollOnce_polling h hfit
    refine endsPolled_bind (reaches_run hrun hu) fun u hu => leads_get_bind ?_
    split
    · exact leads_ok rfl hu
    · exact endsPolled_nvmBusy b u
  | succ fuel ih =>
    intro t h
    obtain ⟨b, u, hrun, hu⟩ := pollOnce_polling h hfit
    refine endsPolled_bind (reaches_run hrun hu) fun u hu => leads_get_bind ?_
    split
    · exact leads_ok rfl hu
    · split
      · exact endsPolled_nvmBusy b u
      · obtain ⟨w, hwait, hw⟩ := waitFor_polling (hu.setNvm { u.nvm with nvmState := .pollWait })
        refine endsPolled_bind (Q := (· = u.setNvm { u.nvm with nvmState := .pollWait })) (reaches_run rfl rfl) ?_
        rintro _ rfl
        exact endsPolled_bind (reaches_run hwait hw) fun _ h => ih h

/-- The ready check against T0 (42_nvm.md R225). -/
theorem waitReadyNvm_polling (h : Polling s0 mem x t)
    (hfit : addrOk (statAddr s0.cfg x.profile) x.profile.addrBytes = true) :
    EndsPolled s0 mem x waitReadyNvm t :=
  leads_get_bind (endsPolled_inNvm (endsPolled_bind (reaches_run rfl (h.setNvm _)) fun _ hu =>
    pollLoop_polling hfit _ hu))

/-- A command on its way, all its transfers made and T0 left at rest, is ready to poll. -/
theorem Along.polling {d' : Target} {dl : Dl} {n : Nvm} {mm : Nat}
    (h : Along s0 xs x dl n [] ⟨.ideal d', [], mm⟩ t) (hf : Faces s0 d) (hx : x.profile = s0.ses.profile)
    (hidle : dl.dlState = .idle) (hd : Holding s0.ses.profile mem d') : Polling s0 mem x t := by
  have hworld : t.world = ⟨.ideal d', [], mm⟩ := h.plays.symm
  refine ⟨h.live, h.cfg, h.ses, (congrArg Dl.dlState h.dl).trans hidle, d', ?_, hd.mem⟩
  exact { env := congrArg World.env hworld, listening := hd.rest.listening, nothingUnread := congrArg World.fifo hworld
          profile := by rw [h.ses, hx]; exact hd.rest.profile
          codes := (congrArg Config.codesDistinct h.cfg).trans hf.codes
          csSpace := hd.rest.csSpace, memory := hd.rest.memory, time := by rw [h.cfg]; exact hf.time }

/-- `write_page` after its checks, against T0. -/
theorem pageSteps_polling (hl : Live s0) (hf : Faces s0 d) (haddr : addrOk a s0.ses.profile.addrBytes = true)
    (hregs : allFit s0.ses.profile (codeRegs s0.cfg s0.ses.profile) = true)
    (hroom : Bufferable s0.ses.profile a data.length) (hctrl : d.pagedAt (ctrlAddr s0.cfg d.prof) = none) :
    EndsPolled s0 (memWriteAll d.tmem (d.pbuf ++ cellsFrom a data)) s0.ses.noted
      (pageSteps s0.ses.profile.addrBytes a data) s0.checked := by
  obtain ⟨hctrlFit, hstatFit⟩ := allFit_codeRegs hregs
  obtain ⟨d', mm, hplays, hd'⟩ := gives_writePage hf.codes hf.time hf.atRest haddr hroom hctrl hctrlFit s0.now
  have h := along_checked hl (hf.world.symm ▸ hplays)
  refine endsPolled_bind (h.nvmState _) fun u h => endsPolled_bind (h.stPtr haddr) fun u h => ?_
  refine endsPolled_bind (h.nvmState _) fun u h => endsPolled_bind (h.storeChunks rfl) fun u h => ?_
  refine endsPolled_bind (h.exec (code := (·.cmdWritePage)) hctrlFit) fun u h => ?_
  exact waitReadyNvm_polling (h.polling hf rfl rfl hd') hstatFit

/-! ### A page command that ended `OK` -/

/-- The checks of `write_page` (42_nvm.md R220, R222, R232). -/
structure PageChecks (s : State) (r : Region) (offset : Nat) (data : List Byte) : Prop where
  paged : regionPage s.ses.profile r = some data.length
  aligned : offset % data.length = 0
  inside : offset + data.length ≤ regionSize s.ses.profile r
  last : addrOk (regionBase s.ses.profile r + offset + data.length - 1) s.ses.profile.addrBytes = true
  regs : allFit s.ses.profile (codeRegs s.cfg s.ses.profile) = true
  key : s.nvm.eraseKeySent = true

theorem EndsAtCheck.not_ok {i : Instr} (h : EndsAtCheck i s) (hexec : exec i s = .next t) : t.rsp.rspStatus ≠ 0x00 := by
  rcases h with h | ⟨e, hcode, h⟩
  · cases h.symm.trans hexec
    exact (by decide : (0xFF : Byte) ≠ 0x00)
  · cases h.symm.trans hexec
    show codeByte e.code ≠ 0x00
    rcases hcode with h | h | h | h <;> rw [h] <;> decide

/-- A `write_page` that ended `OK` has passed its checks. -/
theorem pageChecks_of_ok (hb : s.rsp.busy = false) (hidle : SequencersIdle s) (hr : regionOfCode region = some r)
    (hexec : exec (.writePage region offset data) s = .next t) (hok : t.rsp.rspStatus = 0x00) :
    PageChecks s r offset data := by
  cases hpage : regionPage s.ses.profile r with
  | none => exact absurd hok (EndsAtCheck.not_ok (.inl (exec_unpaged hb hidle hr hpage data).1) hexec)
  | some page =>
    by_contra hnot
    have hends : EndsAtCheck (.writePage region offset data) s := by
      refine endsAtCheck_of_stops hb hidle (stops_noData (writePageOp_stops hr hpage (fun _ => .inr (.inl rfl))
        (fun _ _ => .inr (.inr (.inl rfl))) fun ha hlen => ⟨.inl rfl, ?_⟩))
      subst hlen
      exact fun ⟨hin, hlast, hregs, hkey⟩ => hnot ⟨hpage, ha, hin, hlast, hregs, hkey⟩
    exact hends.not_ok hexec hok

/-- The addresses of a block that ends inside the address range. -/
theorem lt_of_last {base len size j : Nat} (h : addrOk (base + len - 1) size = true) (hj : j < len) :
    base + j < 2 ^ (8 * size) := by
  have := (addrOk_iff.mp h).2
  omega

theorem PageChecks.bufferable (h : PageChecks s r offset data) :
    Bufferable s.ses.profile (regionBase s.ses.profile r + offset) data.length := fun j hj =>
  ⟨⟨r, _, h.paged, by omega, by have := h.inside; omega⟩, lt_of_last h.last hj⟩

/-- What a `write_page` to T0 leaves that ended `OK`: a session ready for the next command, T0 at rest holding the page
(42_nvm.md R252). -/
theorem writePage_facing (h : NvmReady s) (hf : Faces s d) (hr : regionOfCode region = some r)
    (hctrl : d.pagedAt (ctrlAddr s.cfg d.prof) = none) (hchecks : PageChecks s r offset data)
    (hexec : exec (.writePage region offset data) s = .next t) (hok : t.rsp.rspStatus = 0x00) :
    NvmReady t ∧ t.cfg = s.cfg ∧ t.ses.profile = s.ses.profile ∧
      ∃ e, Faces t e ∧ HoldsFrom e.tmem (regionBase s.ses.profile r + offset) data := by
  have hpos := regionPage_pos h.profileOk hchecks.paged
  have hpolled := endsPolled_atPlace (addr := regionBase s.ses.profile r + offset) (region := region)
    (pageSteps_polling (s0 := s.accepted) h.live (hf.setRsp _) (addrOk_of_last hpos hchecks.last) hchecks.regs
      hchecks.bufferable hctrl)
  have hal := h.allowed_of_nvmMode (i := .writePage region offset data) rfl
  have hbody := writePageOp_checked (s := s.accepted) h.nvmMode hr hchecks.paged hchecks.aligned rfl hchecks.inside
    hchecks.last hchecks.regs hchecks.key
  cases hrun : atPlace (regionBase s.ses.profile r + offset) region (pageSteps s.ses.profile.addrBytes
      (regionBase s.ses.profile r + offset) data) s.accepted.checked with
  | error e u =>
    cases (exec_of_body_error h.ready.notBusy hal (noData_error (hbody.trans (inNvm_error hrun)))).symm.trans hexec
    rw [deliver_rspStatus, codeByte_eq_ok_iff] at hok
    exact nomatch (hpolled.2 e u hrun).symm.trans hok
  | ok a u =>
    cases (exec_of_body_ok h.ready.notBusy hal (noData_ok (hbody.trans (inNvm_ok hrun)))).symm.trans hexec
    obtain ⟨hlive, hcfg, hses, hidle, e, he, hmem⟩ := hpolled.1 a u hrun
    have hprofile : u.ses.profile = s.ses.profile := by rw [hses]; rfl
    refine ⟨⟨⟨rfl, ?_, hlive.transport, ⟨hlive.phyIdle, hidle, rfl, hlive.noEcho⟩, hlive.quiet⟩, .inr ?_, ?_⟩, hcfg,
      hprofile, e, (he.setNvm _).setRsp _, ?_⟩
    · show u.ses.sesState ≠ .closed
      rw [hses]
      exact nofun
    · exact congrArg Ses.sesState hses
    · show profileValid u.cfg u.ses.profile = true
      rw [hcfg, hprofile]
      exact h.profileOk
    · rw [hmem, memWriteAll_append]
      exact holdsFrom_memWriteAll (memWriteAll_wf hf.memory _)

end Sys2Proof.Machine

namespace Sys2Proof.Proofs

open Sys2Proof.Machine

/-- Settles O58: the write leaves T0 at rest with the page in its memory, and the read finds each byte answered. -/
theorem pageRoundTrip : Obligations.PageRoundTrip := by
  intro s t u d r region offset data h hf hr hctrl hstat hwrite hok hread _
  have hchecks := pageChecks_of_ok h.ready.notBusy h.ready.idle hr hwrite hok
  obtain ⟨ht, hcfg, hprofile, e, he, hmem⟩ := writePage_facing h hf hr hctrl hchecks hwrite hok
  have hpos := regionPage_pos h.profileOk hchecks.paged
  have hlast := hchecks.last
  have hroom : Loadable t.cfg t.ses.profile (regionBase t.ses.profile r + offset) data.length := fun j hj => by
    rw [hcfg, hprofile]
    exact ⟨by rw [hf.profile]; exact hstat j hj, lt_of_last hlast hj⟩
  rw [← hprofile] at hmem hlast
  obtain ⟨e', m, hplays, -⟩ := gives_readBytes he.codes he.time ⟨he.atRest, rfl⟩ (addrOk_of_last hpos hlast) hroom hmem
    t.now
  obtain ⟨-, hblock, -⟩ := nvmReads t _ ht
  obtain ⟨v, hexec, hfinished⟩ := hblock region r offset data hr (List.ne_nil_of_length_pos hpos)
    (by rw [hprofile]; exact hchecks.inside) hlast (by rw [he.world]; exact hplays)
  cases hexec.symm.trans hread
  obtain ⟨-, -, hdata⟩ := hfinished.answered
  exact hdata

end Sys2Proof.Proofs
end

section
/-! PROOFS. What every step keeps between commands (43_session.md R270, 40_phy.md R151, 10_state.md R34): each ending
that `Ended` names leaves a state of `Inv`, and so do idle line, the reset input and a refusal. -/

namespace Sys2Proof.Machine

variable {i : Instr} {k : Scope} {s t u v : State}

/-! ### States of the invariant -/

theorem Inv.setRsp (h : Inv s) {r : Rsp} (hr : r.busy = false) : Inv (s.setRsp r) :=
  { h with notBusy := hr, idle := ⟨h.idle.phyIdle, h.idle.dlIdle, h.idle.nvmIdle, h.idle.noEcho⟩ }

theorem Inv.setInputs (h : Inv s) (xs : List Input) : Inv (s.setInputs xs) :=
  { h with idle := ⟨h.idle.phyIdle, h.idle.dlIdle, h.idle.nvmIdle, h.idle.noEcho⟩ }

/-- PHY's transmit half is at rest (40_phy.md R131, R151). -/
abbrev Undriven (s : State) : Prop := s.phy.line.lineTx = true ∧ s.phy.line.txCnt = 0

theorem Inv.undriven (h : Inv s) : Undriven s := ⟨h.lineHigh, h.noFrameOut⟩

/-- Without a session the invariant asks no more than that nothing is under way. -/
theorem inv_of_closed (hclosed : SessionClosed s) (hidle : SequencersIdle s) (hline : Undriven s)
    (hb : s.rsp.busy = false) : Inv s where
  notBusy := hb
  idle := hidle
  lineHigh := hline.1
  noFrameOut := hline.2
  closedIff := iff_of_true hclosed.mode hclosed.transport
  linkIff := hclosed.link.trans hclosed.transport.symm
  baudSet := fun hopen => absurd (hclosed.transport.symm.trans hopen) Bool.noConfusion
  keyInProgramming := fun hkey => absurd (hclosed.key.symm.trans hkey) Bool.noConfusion
  profileOk := fun hopen => absurd (hclosed.transport.symm.trans hopen) Bool.noConfusion

theorem Inv.no_key (h : Inv s) (hmode : s.ses.sesState ≠ .programming) : s.nvm.eraseKeySent = false := by
  rw [← Bool.not_eq_true]
  exact fun hkey => hmode (h.keyInProgramming hkey)

/-- A session's operation that ends at rest; link initialisation ends with the link up (40_phy.md R140). -/
theorem Inv.inSession (h : Inv s) (hu : InSession k s u) (hidle : SequencersIdle u)
    (hinits : k.inits → s.ses.trOpen = true ∧ u.phy.linkUp = true) : Inv u where
  notBusy := by rw [hu.rsp]; exact h.notBusy
  idle := hidle
  lineHigh := (hu.line h.lineHigh h.noFrameOut).1
  noFrameOut := (hu.line h.lineHigh h.noFrameOut).2
  closedIff := by
    rw [hu.trOpen, ← h.closedIff]
    rcases hu.mode with hmode | ⟨-, hfrom, hto⟩
    · rw [hmode]
    · simp [hfrom, hto]
  linkIff := by
    rw [hu.trOpen]
    rcases hu.linkUp with hlink | hk
    · exact hlink.trans h.linkIff
    · exact (hinits hk).2.trans (hinits hk).1.symm
  baudSet := fun hopen => by
    rw [hu.cfg]
    rcases hu.baud with hbaud | ⟨-, hbaud⟩
    · exact hbaud.trans (h.baudSet (hu.trOpen ▸ hopen))
    · exact hbaud
  keyInProgramming := fun hkey => by
    rcases hu.key with hsame | ⟨-, -, hmode⟩
    · have hfrom := h.keyInProgramming (hsame ▸ hkey)
      rcases hu.mode with hmode | ⟨-, -, hto⟩
      · exact hmode.trans hfrom
      · exact hto
    · exact hmode
  profileOk := fun hopen => by
    rw [hu.cfg, hu.profile]
    exact h.profileOk (hu.trOpen ▸ hopen)

/-- The acceptance of a command is not seen in what its body may change. -/
theorem InSession.unaccepted (h : InSession k s.accepted u) : InSession k s (u.setRsp s.rsp) :=
  { h with rsp := rfl, profile := h.profile, line := h.line }

/-- An operation's end, answered. -/
theorem Inv.answered (h : Inv s) (hu : InSession k s.accepted u) (hidle : SequencersIdle u)
    (hinits : k.inits → s.ses.trOpen = true ∧ u.phy.linkUp = true) {r : Rsp} (hr : r.busy = false) :
    Inv (u.setRsp r) := by
  have hback : SequencersIdle (u.setRsp s.rsp) := ⟨hidle.phyIdle, hidle.dlIdle, hidle.nvmIdle, hidle.noEcho⟩
  exact (h.inSession hu.unaccepted hback hinits).setRsp hr

/-- `close` and the forced cleanup, answered (43_session.md R266, 60_exceptions.md R288). -/
theorem Left.inv (h : Left u v) (hline : Undriven u) {r : Rsp} (hr : r.busy = false) : Inv (v.setRsp r) :=
  inv_of_closed ⟨h.closed.mode, h.closed.transport, h.closed.link, h.closed.key⟩
    ⟨h.idle.phyIdle, h.idle.dlIdle, h.idle.nvmIdle, h.idle.noEcho⟩ (h.line hline.1 hline.2) hr

/-- `enter_programming_mode` ends `OK` (43_session.md R263). -/
theorem Inv.unlocked (h : Inv s) (hmode : s.ses.sesState = .linkEstablished) :
    Inv (s.setSes { s.ses with sesState := .unlocked }) :=
  { h with
    idle := ⟨h.idle.phyIdle, h.idle.dlIdle, h.idle.nvmIdle, h.idle.noEcho⟩
    closedIff := by simpa [hmode] using h.closedIff
    keyInProgramming := fun hkey => absurd (h.keyInProgramming hkey) (by simp [hmode]) }

/-- `open` ends `OK` (43_session.md R260). -/
theorem Opened.inv {p : Profile} (h : Opened p s.accepted u) (hinv : Inv s) {r : Rsp} (hr : r.busy = false) :
    Inv (u.setRsp r) where
  notBusy := hr
  idle := ⟨h.idle.phyIdle, h.idle.dlIdle, h.idle.nvmIdle, h.idle.noEcho⟩
  lineHigh := (h.line hinv.noFrameOut).1
  noFrameOut := (h.line hinv.noFrameOut).2
  closedIff := by simp [h.mode, h.trOpen]
  linkIff := h.linkUp.trans h.trOpen.symm
  baudSet := fun _ => h.baud.trans (congrArg Config.baud h.cfg.symm)
  keyInProgramming := fun hkey => absurd (h.key.symm.trans hkey) Bool.noConfusion
  profileOk := fun _ => by
    show profileValid u.cfg u.ses.profile = true
    rw [h.cfg, h.profile]
    exact h.valid

/-! ### Commands -/

theorem allowed_open {p : Profile} {port : Nat} {m : SesState} (h : allowed (.openSession p port) m = true) :
    m = .closed := by simpa [allowed] using h

theorem allowed_enter {m : SesState} (h : allowed .enterProgrammingMode m = true) : m = .linkEstablished := by
  simpa [allowed] using h

theorem eq_open_of_isOpen (h : isOpen i = true) : ∃ p port, i = .openSession p port := by
  cases i with
  | openSession p port => exact ⟨p, port, rfl⟩
  | _ => cases h

theorem Ended.inv (hinv : Inv s) (hal : allowed i s.ses.sesState = true) (h : Ended i s t) : Inv t := by
  cases h with
  | refused ht => exact ht ▸ hinv.setRsp rfl
  | caller e _ _ ht => exact ht ▸ hinv.setRsp rfl
  | done data u _ _ _ hu hidle hlink ht =>
    refine ht ▸ hinv.answered hu hidle (fun hinits => ?_) rfl
    obtain rfl := eq_initLink_of_inits hinits
    exact ⟨trOpen_of_mode hinv (by simpa [allowed] using hal), hlink rfl⟩
  | failed e u v _ _ _ hu hv ht => exact ht ▸ hv.inv (hu.line hinv.lineHigh hinv.noFrameOut) rfl
  | entered u hi hu hidle ht =>
    have hmode : u.ses.sesState = .linkEstablished := by
      rw [hu.2.2]
      exact allowed_enter (hi ▸ hal)
    exact ht ▸ Inv.unlocked (s := u.respondOk []) (hinv.answered hu.1.session hidle False.elim rfl) hmode
  | locked e u _ _ hu hidle ht => exact ht ▸ hinv.answered hu.1.session hidle False.elim rfl
  | closed u _ hu ht => exact ht ▸ hu.inv hinv.undriven rfl
  | opened p port u _ hu ht => exact ht ▸ hu.inv hinv rfl
  | unopened e u hi _ hu hidle ht =>
    obtain ⟨p, port, rfl⟩ := eq_open_of_isOpen hi
    have hclosed := allowed_open hal
    have hkey := hu.key.trans (hinv.no_key (by simp [hclosed]))
    exact ht ▸ inv_of_closed ⟨hu.mode.trans hclosed, hu.trOpen, hu.linkUp, hkey⟩
      ⟨hidle.phyIdle, hidle.dlIdle, hidle.nvmIdle, hidle.noEcho⟩ (hu.line hinv.lineHigh hinv.noFrameOut) rfl

/-- Target memory keeps its canonical form (20_memory.md R74). -/
theorem Ended.env_wf (h : Ended i s t) (hwf : s.env.wf) : t.env.wf := by
  cases h with
  | refused ht => exact ht ▸ hwf
  | caller e _ _ ht => exact ht ▸ hwf
  | done data u _ _ _ hu _ _ ht => exact ht ▸ hu.env hwf
  | failed e u v _ _ _ hu hv ht => exact ht ▸ hv.env (hu.env hwf)
  | entered u _ hu _ ht => exact ht ▸ hu.1.session.env hwf
  | locked e u _ _ hu _ ht => exact ht ▸ hu.1.session.env hwf
  | closed u _ hu ht => exact ht ▸ hu.env hwf
  | opened p port u _ hu ht => exact ht ▸ hu.env hwf
  | unopened e u _ _ hu _ ht => exact ht ▸ hu.env hwf

/-- `t` is again a state between commands, its target memory in canonical form if that of `s` was. -/
abbrev KeepsInv (s t : State) : Prop := Inv t ∧ (s.env.wf → t.env.wf)

theorem exec_keepsInv (hinv : Inv s) (h : exec i s = .next t) : KeepsInv s t := by
  rcases exec_refused_or_ended hinv h with rfl | ⟨hal, hended⟩
  · exact ⟨hinv.setRsp rfl, id⟩
  · exact ⟨hended.inv hinv hal, hended.env_wf⟩

/-! ### The other inputs -/

/-- Between commands the receive half watches the line and time passes (60_exceptions.md R298). -/
theorem idleLine_run (s : State) : idleLine s = .ok ()
    ((((s.drawn .idle).listen (s.draw .idle).drive).setNow (s.now + (s.draw .idle).dt)).logged .idle .done) := by
  simp only [idleLine, drawFor_bind_run]
  simp

theorem idleLine_keepsInv (hinv : Inv s) : KeepsInv s (effect idleLine s) := by
  rw [effect_ok (idleLine_run s)]
  obtain ⟨hline, hferr, hlistened⟩ := listen_line (s := s.drawn .idle) (s.draw .idle).drive
  generalize hu : State.logged _ _ _ = u
  have hphy : u.phy = { s.phy with line := u.phy.line } := by
    rw [← hu, State.logged_phy, State.setNow_phy, hlistened]
    rfl
  have hsession : InSession plainScope s u := by
    refine (InSession.refl plainScope s).port ?_ ?_ ?_ ?_ ?_ (.inl (by rw [hphy])) (.inl (by rw [hphy]))
      (.inl (by rw [hphy])) (hu ▸ hline) (hu ▸ hferr) ?_ ?htrace fun hwf => ?henv
    case htrace => exact ⟨_, by rw [← hu]; simp; rfl, .inr fun e he => by rw [List.mem_singleton.mp he]; rfl⟩
    case henv => rw [← hu]; simpa using Env.answer_wf hwf _
    all_goals simp [← hu]
  have hidle : SequencersIdle u := by
    refine ⟨by rw [hphy]; exact hinv.idle.phyIdle, ?_, ?_, by rw [hphy]; exact hinv.idle.noEcho⟩ <;> rw [← hu]
    · simpa using hinv.idle.dlIdle
    · simpa using hinv.idle.nvmIdle
  exact ⟨hinv.inSession hsession hidle False.elim, hsession.env⟩

theorem resetEngine_keepsInv (s : State) : KeepsInv s s.resetEngine :=
  ⟨inv_of_closed ⟨rfl, rfl, rfl, rfl⟩ ⟨rfl, rfl, rfl, rfl⟩ ⟨rfl, rfl⟩ rfl, id⟩

theorem runRequest_keepsInv {r : Request} (hinv : Inv s) (h : runRequest r s = .next t) : KeepsInv s t := by
  unfold runRequest at h
  split at h
  · exact exec_keepsInv hinv h
  · rw [hinv.notBusy] at h
    obtain rfl := Host.Outcome.next.inj h
    exact ⟨hinv.setRsp rfl, id⟩
  · cases h

end Sys2Proof.Machine

namespace Sys2Proof.Proofs

open Sys2Proof.Machine

/-- Settles O28: each of the four inputs keeps the invariant. -/
theorem stepKeepsInvariant : Obligations.StepKeepsInvariant := by
  intro s t hinv h
  have hpop : Inv s.popInput := hinv.setInputs _
  unfold step runInput at h
  split at h
  · exact Host.Outcome.next.inj h ▸ idleLine_keepsInv hinv
  · exact Host.Outcome.next.inj h ▸ idleLine_keepsInv hpop
  · exact Host.Outcome.next.inj h ▸ resetEngine_keepsInv s.popInput
  · have hkeeps : KeepsInv s.popInput t := runRequest_keepsInv hpop h
    exact hkeeps

end Sys2Proof.Proofs
end

section
/-! PROOFS. The transition table of the mode register (43_session.md R265, R269). The rows of the table are read off
the endings of `Ended`. That an NVM command notes itself exactly if it sends anything is a fact about its body: the
checks before `NoteNvmOp` send nothing, and what follows it begins with a transmission. -/

namespace Sys2Proof.Machine

variable {α β : Type} {I : State → Prop} {C : Code → Prop} {i : Instr} {s s0 t u : State} {x : Act α} {c : Code}

/-! ### `NoteNvmOp` and what follows it (43_session.md R265) -/

/-- The modes that admit the NVM commands (60_exceptions.md R292). -/
def NvmMode (s : State) : Prop := s.ses.sesState = .unlocked ∨ s.ses.sesState = .programming

/-- Since `s0` nothing was sent and the mode register is as it was. -/
structure Unsent (s0 t : State) : Prop where
  traffic : t.traffic = s0.traffic
  mode : t.ses.sesState = s0.ses.sesState

/-- `NoteNvmOp` has run since `s0` and nothing was sent yet. -/
structure Noted (s0 t : State) : Prop where
  traffic : t.traffic = s0.traffic
  mode : t.ses.sesState = .programming

/-- `NoteNvmOp` has run since `s0` and something was sent. -/
structure Sent (s0 t : State) : Prop where
  traffic : s0.traffic.length < t.traffic.length
  mode : t.ses.sesState = .programming

theorem InSession.mode_eq (h : InSession plainScope s t) : t.ses.sesState = s.ses.sesState :=
  h.mode.resolve_right And.left

theorem stays_of_plain (hI : ∀ s t, I s → InSession plainScope s t → I t)
    (h : ∀ s, Stays (InSession plainScope s) C x) : Stays I C x := fun s hs =>
  ⟨fun _ _ hok => hI _ _ hs ((h s).ok (InSession.refl _ s) hok), fun _ _ he =>
    ((h s).error (InSession.refl _ s) he).imp_left fun hu => hI _ _ hs hu⟩

/-- What a plain operation of a session keeps, DL, PHY and NVM's polling keep. -/
theorem nvmInert_of_plain (hI : ∀ s t, I s → InSession plainScope s t → I t) : NvmInert I where
  toOver := Exch.over <| Inert.exch
    { seq := fun s p n hs => hI _ _ hs ((inSession_inert plainScope s).seq s p n (InSession.refl _ s))
      write := fun bs => stays_of_plain hI fun s => inSession_write plainScope s bs
      read := fun n t => stays_of_plain hI fun s => inSession_read plainScope s n t
      dl := fun s d hs => hI _ _ hs ((inSession_inert plainScope s).dl s d (InSession.refl _ s)) }
  nvm := fun s n d l v hs => hI _ _ hs ((inSession_nvmInert plainScope s).nvm s n d l v (InSession.refl _ s))
  wait := fun d => stays_of_plain hI fun s => inSession_wait plainScope s d

theorem inProgramming_nvmInert : NvmInert fun t => t.ses.sesState = .programming :=
  nvmInert_of_plain fun _ _ hs ht => ht.mode_eq.trans hs

theorem sent_nvmInert (s0 : State) : NvmInert (Sent s0) :=
  nvmInert_of_plain fun _ _ hs ht => ⟨hs.traffic.trans_le ht.runsOn.traffic_length, ht.mode_eq.trans hs.mode⟩

/-- The ready check keeps what DL and NVM's polling keep, whatever it ends in. -/
theorem waitReadyNvm_stays (o : NvmInert I) : Stays I AnyCode waitReadyNvm := by
  have poll : Stays I AnyCode pollOnce :=
    stays_get_bind fun _ _ => stays_bind (o.nvmState _) fun _ =>
      stays_bind ((ldsOp_notBusy o.toOver _ _).mono fun _ _ => trivial) fun _ =>
        stays_bind (stays_modify fun s hs => o.nvm s _ s.nvm.pollDeadline _ _ hs) fun _ => stays_pure _
  have busy : ∀ b, Stays I AnyCode (nvmBusy b) := fun _ => stays_get_bind fun _ _ => stays_raise _ trivial
  have loop : ∀ fuel, Stays I AnyCode (pollLoop fuel) := fun fuel => by
    induction fuel with
    | zero =>
      exact stays_bind poll fun _ => stays_get_bind fun _ _ => stays_ite (fun _ => stays_pure _) fun _ => busy _
    | succ fuel ih =>
      refine stays_bind poll fun _ => stays_get_bind fun _ _ => stays_ite (fun _ => stays_pure _) fun _ => ?_
      refine stays_ite (fun _ => busy _) fun _ => stays_bind (o.nvmState _) fun _ => ?_
      exact stays_bind ((o.wait _).mono fun _ _ => trivial) fun _ => ih
  refine stays_get_bind fun _ _ => o.inNvm ?_
  exact stays_bind (stays_modify fun s hs => o.nvm s s.nvm.nvmState _ s.nvm.lastStatus _ hs) fun _ => loop _

/-! ### Operations that begin with a transmission -/

theorem leads_demand_any {b : Bool} {k : Unit → Act β} {Q : β → State → Prop} (h : Leads (k ()) s Q fun _ _ => True) :
    Leads (demand b >>= k) s Q fun _ _ => True := by
  cases b with
  | true => exact h
  | false => exact leads_error (demand_false_bind_run k s) trivial

theorem leads_setDl_bind {f : State → Dl} {k : Unit → Act β} {Q : β → State → Prop} {E : Err → State → Prop}
    (hs : RunsOn s0 s) (h : ∀ u, RunsOn s0 u → Leads (k ()) u Q E) :
    Leads (modify (fun s => s.setDl (f s)) >>= k) s Q E :=
  h _ (hs.trans (.registers rfl rfl rfl rfl))

theorem sendThen_grown {bs : List Byte} (hbs : bs ≠ []) {k : Unit → Act β} (hs : RunsOn s0 s)
    (hk : Stays (Grown s0) LinkCode (k ())) : Leads (phySend bs >>= k) s (fun _ => Grown s0) fun _ _ => True :=
  leads_bind ((phySend_grown hbs s).mono (Q' := fun _ => Grown s0) (fun _ _ => hs.grown) fun _ _ h => h)
    fun _ _ hu => leads_of_stays hk hu

theorem stsOp_grown (a v n : Nat) (s : State) : Leads (stsOp a v n) s (fun _ => Grown s) fun _ _ => True := by
  have x := (grown_inert s).exch
  refine leads_demand_any (leads_inDl_ok (leads_get_bind ?_) x.dl)
  refine leads_setDl_bind (.refl s) fun _ hs => leads_setDl_bind hs fun _ hs => leads_setDl_bind hs fun _ hs => ?_
  refine leads_setDl_bind hs fun _ hs => leads_setDl_bind hs fun _ hs => sendThen_grown (by simp) hs ?_
  refine stays_bind (x.dlState _) fun _ => stays_bind (x.expectAck _) fun _ => stays_bind (x.dlState _) fun _ => ?_
  exact stays_bind (x.send _) fun _ => stays_bind (x.dlState _) fun _ => x.expectAck _

theorem stPtrOp_grown (w p : Nat) (s : State) : Leads (stPtrOp w p) s (fun _ => Grown s) fun _ _ => True := by
  have x := (grown_inert s).exch
  refine leads_demand_any (leads_inDl_ok (leads_get_bind ?_) x.dl)
  refine leads_setDl_bind (.refl s) fun _ hs => leads_setDl_bind hs fun _ hs => leads_setDl_bind hs fun _ hs => ?_
  exact sendThen_grown (by simp) hs (stays_bind (x.dlState _) fun _ => x.expectAck _)

theorem keyWriteOp_grown (k : List Byte) (s : State) :
    Leads (keyWriteOp k) s (fun _ => Grown s) fun _ _ => True := by
  have x := (grown_inert s).exch
  refine leads_get_bind (leads_demand_any (leads_inDl_ok ?_ x.dl))
  refine leads_setDl_bind (.refl s) fun _ hs => leads_setDl_bind hs fun _ hs => leads_setDl_bind hs fun _ hs => ?_
  exact sendThen_grown (by simp) hs (stays_bind (x.dlState _) fun _ => x.send _)

theorem nvmExec_grown (code : Config → Byte) (s : State) :
    Leads (nvmExec code) s (fun _ => Grown s) fun _ _ => True :=
  leads_get_bind ((stsOp_grown _ _ _ (s.setNvm { s.nvm with nvmState := .cmd })).mono
    (fun _ _ => RunsOn.grown (.registers rfl rfl rfl rfl)) fun _ _ h => h)

/-! ### Pieces after `NoteNvmOp` -/

/-- Begun after `NoteNvmOp`, the piece ends well only after it has sent something. -/
def Sends (x : Act α) : Prop := ∀ s0 s, Noted s0 s → Leads x s (fun _ => Sent s0) fun _ _ => True

theorem sends_of_grown (hgrown : ∀ s, Leads x s (fun _ => Grown s) fun _ _ => True)
    (hstays : ∀ {I}, NvmInert I → Stays I NotBusy x) : Sends x := fun _ s hs =>
  ⟨fun a t hok => ⟨hs.traffic ▸ ((hgrown s).1 a t hok).traffic,
    (hstays inProgramming_nvmInert).ok hs.mode hok⟩, fun _ _ _ => trivial⟩

theorem Sends.andThen {k : α → Act β} (hx : Sends x) (hk : ∀ a s0, Stays (Sent s0) AnyCode (k a)) :
    Sends (x >>= k) := fun s0 s hs => leads_bind (hx s0 s hs) fun a _ hu => leads_of_stays (hk a s0) hu

theorem sends_nvmState {p : NvmState} {k : Unit → Act β} (hk : Sends (k ())) : Sends (setNvmState p >>= k) :=
  fun s0 _ hs => hk s0 _ ⟨hs.traffic, hs.mode⟩

theorem sends_atPlace {addr region : Nat} (hx : Sends x) : Sends (atPlace addr region x) := fun s0 s hs => by
  cases hr : x s with
  | ok a u => exact leads_ok (atPlace_ok hr) ((hx s0 s hs).1 a u hr)
  | error e u => exact leads_error (atPlace_error hr) trivial

theorem sends_stsOp (a v n : Nat) : Sends (stsOp a v n) :=
  sends_of_grown (stsOp_grown a v n) fun o => stsOp_notBusy o.toOver a v n

theorem sends_stPtrOp (w p : Nat) : Sends (stPtrOp w p) :=
  sends_of_grown (stPtrOp_grown w p) fun o => stPtrOp_notBusy o.toOver w p

theorem sends_nvmExec (code : Config → Byte) : Sends (nvmExec code) :=
  sends_of_grown (nvmExec_grown code) fun o => nvmExec_notBusy o code

/-- The ready check reads the status at least once (42_nvm.md R225). -/
theorem sends_waitReadyNvm : Sends waitReadyNvm := fun _ s hs =>
  ⟨fun a t hok => ⟨hs.traffic ▸ ((readyEnds_wait s s (.refl s)).1 a t hok).traffic,
    (waitReadyNvm_stays inProgramming_nvmInert).ok hs.mode hok⟩, fun _ _ _ => trivial⟩

theorem stays_any_of_notBusy (h : Stays I NotBusy x) : Stays I AnyCode x := h.mono fun _ _ => trivial

/-- The command code and the ready check, once something was sent. -/
theorem exec_waitReady_stays (o : NvmInert I) (code : Config → Byte) :
    Stays I AnyCode (nvmExec code >>= fun _ => waitReadyNvm) :=
  stays_bind (stays_any_of_notBusy (nvmExec_notBusy o code)) fun _ => waitReadyNvm_stays o

/-! ### The bodies of the NVM commands -/

/-- In a mode that admits it the piece ends well in one of two ways: nothing was sent and the mode is as it was, or
something was sent and the mode is `Programming`. -/
def Tells (x : Act α) : Prop := ∀ s, NvmMode s → Leads x s (fun _ t => Unsent s t ∨ Sent s t) fun _ _ => True

theorem tells_pure (a : α) : Tells (pure a : Act α) := fun _ _ => leads_ok rfl (.inl ⟨rfl, rfl⟩)

theorem tells_get {k : State → Act β} (hk : ∀ s, Tells (k s)) : Tells (get >>= k) := fun s hs => hk s s hs

theorem tells_check {P : α → State → Prop} {k : α → Act β} (hx : IsCheck x P) (hk : ∀ a, Tells (k a)) :
    Tells (x >>= k) := fun s hs => by
  rcases hx s with ⟨a, hok, -⟩ | ⟨e, herror, -⟩
  · exact leads_bind (leads_ok (Q := fun _ t => t = s) hok rfl) fun a _ ht => ht ▸ hk a s hs
  · exact leads_error (Act.bind_error herror) trivial

theorem tells_demand {b : Bool} {k : Unit → Act β} (hk : Tells (k ())) : Tells (demand b >>= k) := fun s hs =>
  leads_demand_any (hk s hs)

theorem tells_nvmState {p : NvmState} {k : Unit → Act β} (hk : Tells (k ())) : Tells (setNvmState p >>= k) :=
  fun s hs => (hk (s.setNvm { s.nvm with nvmState := p }) hs).mono
    (fun _ _ => Or.imp (fun h => ⟨h.traffic, h.mode⟩) fun h => ⟨h.traffic, h.mode⟩) fun _ _ h => h

theorem tells_note {k : Unit → Act β} (hk : Sends (k ())) : Tells (noteNvmOp >>= k) := fun s hs =>
  leads_bind (leads_ok (Q := fun _ => Noted s) (noteNvmOp_run hs) ⟨rfl, rfl⟩) fun _ u hu =>
    (hk s u hu).mono (fun _ _ => .inr) fun _ _ h => h

theorem tells_inNvm {name : OpName} (hx : Tells x) : Tells (inNvm name x) := fun s hs => by
  cases hr : x s with
  | ok a u =>
    exact leads_ok (inNvm_ok hr) (((hx s hs).1 a u hr).imp (fun h => ⟨h.traffic, h.mode⟩)
      fun h => ⟨h.traffic, h.mode⟩)
  | error e u => exact leads_error (inNvm_error hr) trivial

theorem tells_noData {x : Act Unit} (hx : Tells x) : Tells (noData x) := fun s hs =>
  leads_noData (P := fun t => Unsent s t ∨ Sent s t) (hx s hs)

theorem unlockEraseKey_tells : Tells unlockEraseKey := by
  refine tells_inNvm (tells_nvmState (tells_get fun s => ?_))
  split
  · exact tells_pure ()
  · refine tells_note (Sends.andThen ?_ fun _ s0 => stays_modify fun t ht => ⟨ht.traffic, ht.mode⟩)
    exact sends_of_grown (keyWriteOp_grown _) fun o => keyWriteOp_notBusy o.toOver _

theorem waitCommand_tells : Tells waitCommand :=
  tells_nvmState (tells_check (isCheck_demandRegs _) fun _ => tells_note sends_waitReadyNvm)

theorem eraseWhole_tells (name : OpName) (code : Config → Byte) : Tells (eraseWhole name code) := by
  refine tells_inNvm (tells_nvmState (tells_check (isCheck_demandRegs _) fun _ => ?_))
  refine tells_check isCheck_demandKey fun _ => tells_note ((sends_nvmExec code).andThen fun _ s0 => ?_)
  exact waitReadyNvm_stays (sent_nvmInert s0)

theorem writePageOp_tells (region offset : Nat) (data : List Byte) : Tells (writePageOp region offset data) := by
  refine tells_inNvm (tells_nvmState (tells_check (isCheck_pagedRegion region) ?_))
  rintro ⟨r, page⟩
  refine tells_get fun _ => tells_check (isCheck_checkAligned _ _ _) fun _ => ?_
  refine tells_check (isCheck_checkPageSize _ _ _) fun _ => tells_demand ?_
  refine tells_check (isCheck_demandRegs _) fun _ => tells_check isCheck_demandKey fun _ => ?_
  refine tells_note (sends_atPlace (sends_nvmState ((sends_stPtrOp _ _).andThen fun _ s0 => ?_)))
  have o := sent_nvmInert s0
  refine stays_bind (o.nvmState _) fun _ => ?_
  exact stays_bind (stays_any_of_notBusy (storeChunks_notBusy o.toOver _)) fun _ => exec_waitReady_stays o _

theorem erasePageOp_tells (region offset : Nat) : Tells (erasePageOp region offset) := by
  refine tells_inNvm (tells_nvmState (tells_check (isCheck_pagedRegion region) ?_))
  rintro ⟨r, page⟩
  refine tells_get fun _ => tells_check (isCheck_checkAligned _ _ _) fun _ => tells_demand ?_
  refine tells_check (isCheck_demandRegs _) fun _ => tells_check isCheck_demandKey fun _ => ?_
  refine tells_note (sends_atPlace (sends_nvmState ((sends_stsOp _ _ _).andThen fun _ s0 => ?_)))
  exact exec_waitReady_stays (sent_nvmInert s0) _

theorem readBytesOp_tells (region offset len : Nat) : Tells (readBytesOp region offset len) := by
  refine tells_inNvm (tells_nvmState (tells_get fun _ => ?_))
  cases regionOfCode region with
  | none => exact fun _ _ => leads_error rfl trivial
  | some r =>
    refine tells_demand ?_
    split
    · exact tells_pure []
    · refine tells_note (sends_atPlace (sends_nvmState ((sends_stPtrOp _ _).andThen fun _ s0 => ?_)))
      have o := sent_nvmInert s0
      exact stays_bind (o.nvmState _) fun _ => stays_any_of_notBusy (loadChunks_notBusy o.toOver _)

theorem readFuseOp_tells (idx : Nat) : Tells (readFuseOp idx) := by
  refine tells_inNvm (tells_nvmState (tells_check (isCheck_checkFuseIndex idx) fun _ => tells_get fun _ => ?_))
  refine tells_demand (tells_note (sends_atPlace (sends_nvmState ?_)))
  exact sends_of_grown (ldsOp_grown _ _) fun o => ldsOp_notBusy o.toOver _ _

theorem writeFuseOp_tells (idx v : Nat) : Tells (writeFuseOp idx v) := by
  refine tells_inNvm (tells_nvmState (tells_demand (tells_check (isCheck_checkFuseIndex idx) fun _ => ?_)))
  refine tells_get fun _ => tells_demand (tells_check (isCheck_demandRegs _) fun _ => ?_)
  refine tells_check isCheck_demandKey fun _ => tells_note (sends_atPlace (sends_nvmState ?_))
  refine (sends_stsOp _ _ _).andThen fun _ s0 => ?_
  have o := sent_nvmInert s0
  refine stays_bind (stays_any_of_notBusy (stsOp_notBusy o.toOver _ _ _)) fun _ => ?_
  exact stays_bind (stays_any_of_notBusy (stsOp_notBusy o.toOver _ _ _)) fun _ => exec_waitReady_stays o _

theorem nvmBody_tells (hi : admOf i = .nvmMode) : Tells (bodyOf i) := by
  cases i with
  | unlockChipEraseKey => exact tells_noData unlockEraseKey_tells
  | waitNvmReady => exact tells_noData waitCommand_tells
  | chipErase | eepromErase => exact tells_noData (eraseWhole_tells _ _)
  | writePage r o d => exact tells_noData (writePageOp_tells r o d)
  | readBytes r o n => exact readBytesOp_tells r o n
  | readFuse j => exact readFuseOp_tells j
  | writeFuse j v => exact tells_noData (writeFuseOp_tells j v)
  | erasePage r o => exact tells_noData (erasePageOp_tells r o)
  | _ => cases hi

/-! ### NVM commands that end `OK` -/

theorem isNvmCommand_of_nvmMode (h : admOf i = .nvmMode) : isNvmCommand i = true := by
  cases i with
  | unlockChipEraseKey | waitNvmReady | chipErase | writePage | readBytes | readFuse | writeFuse | erasePage
  | eepromErase => rfl
  | _ => cases h

theorem nvmMode_of_isNvmCommand (h : isNvmCommand i = true) {m : SesState} (hal : allowed i m = true) :
    admOf i = .nvmMode := by
  cases i with
  | unlockChipEraseKey | waitNvmReady | chipErase | writePage | readBytes | readFuse | writeFuse | erasePage
  | eepromErase => rfl
  | crcCheck => cases hal
  | _ => cases h

theorem nvmMode_of_allowed (hadm : admOf i = .nvmMode) (hal : allowed i s.ses.sesState = true) : NvmMode s := by
  rw [← admits_admOf, hadm] at hal
  unfold NvmMode
  cases hmode : s.ses.sesState with
  | unlocked => exact .inl rfl
  | programming => exact .inr rfl
  | _ => rw [hmode] at hal; cases hal

theorem exec_nvm_tells (hinv : Inv s) (hi : isNvmCommand i = true) (h : exec i s = .next t)
    (hok : t.rsp.rspStatus = 0x00) : NvmMode s ∧ (Unsent s t ∨ Sent s t) := by
  rcases exec_refused_or_ended hinv h with rfl | ⟨hal, -⟩
  · cases hok
  have hadm := nvmMode_of_isNvmCommand hi hal
  have hmode := nvmMode_of_allowed hadm hal
  refine ⟨hmode, ?_⟩
  cases hrun : bodyOf i s.accepted with
  | ok data u =>
    obtain rfl := Host.Outcome.next.inj (h.symm.trans (exec_of_body_ok hinv.notBusy hal hrun))
    exact ((nvmBody_tells hadm s.accepted hmode).1 data u hrun).imp (fun hu => ⟨hu.traffic, hu.mode⟩)
      fun hu => ⟨hu.traffic, hu.mode⟩
  | error e u =>
    obtain rfl := Host.Outcome.next.inj (h.symm.trans (exec_of_body_error hinv.notBusy hal hrun))
    rw [deliver_rspStatus, codeByte_eq_ok_iff] at hok
    exact absurd hok (nvmBody_error_ne_ok hinv hadm hal hrun)

/-- An NVM command that ends `OK`, by whether it sent anything. -/
theorem exec_nvm_mode (hinv : Inv s) (hi : isNvmCommand i = true) (h : exec i s = .next t)
    (hok : t.rsp.rspStatus = 0x00) : (t.traffic = s.traffic → t.ses.sesState = s.ses.sesState) ∧
      (t.traffic ≠ s.traffic → t.ses.sesState = .programming) := by
  rcases (exec_nvm_tells hinv hi h hok).2 with hunsent | hsent
  · exact ⟨fun _ => hunsent.mode, fun hne => absurd hunsent.traffic hne⟩
  · exact ⟨fun heq => absurd (congrArg List.length heq) hsent.traffic.ne', fun _ => hsent.mode⟩

/-! ### The table (43_session.md R269) -/

/-- What a command that ends with this code does to the mode register, row by row. -/
inductive ModeRow (i : Instr) (s t : State) : Code → Prop where
  /-- `open` ended `OK` -/
  | opened (hi : isOpen i = true) (hfrom : s.ses.sesState = .closed) (hto : t.ses.sesState = .linkEstablished) :
    ModeRow i s t .ok
  | closed (hi : isClose i = true) (hto : t.ses.sesState = .closed) : ModeRow i s t .ok
  /-- `enter_programming_mode` ended `OK` -/
  | entered (hi : i = .enterProgrammingMode) (hfrom : s.ses.sesState = .linkEstablished)
    (hto : t.ses.sesState = .unlocked) : ModeRow i s t .ok
  /-- any other command ended `OK` -/
  | done (hopen : isOpen i = false) (hclose : isClose i = false) (henter : i ≠ .enterProgrammingMode)
    (hto : isNvmCommand i = false → t.ses.sesState = s.ses.sesState) : ModeRow i s t .ok
  /-- a link or NVM error in a session -/
  | failed (c : Code) (hopen : isOpen i = false) (hc : needsCleanup c = true) (hfrom : s.ses.sesState ≠ .closed)
    (hto : t.ses.sesState = .closed) : ModeRow i s t c
  /-- a refusal, a caller error, `UnlockError`, or a failed `open` -/
  | kept (c : Code) (hok : c ≠ .ok) (hc : isOpen i = false → needsCleanup c = false)
    (hto : t.ses.sesState = s.ses.sesState) : ModeRow i s t c

theorem isNvmCommand_of_notes (h : (scopeOf i).notes) : isNvmCommand i = true := by
  unfold scopeOf at h
  split_ifs at h with hadm
  · exact isNvmCommand_of_nvmMode hadm
  · exact h.elim
  · exact h.elim

/-- Of the commands admitted in `Closed` only `open`, `close` and `get_status` do anything (60_exceptions.md R292). -/
theorem eq_getStatus_of_allowed (hopen : isOpen i = false) (hclose : isClose i = false)
    (h : allowed i .closed = true) : i = .getStatus := by
  cases i with
  | getStatus => rfl
  | openSession => cases hopen
  | closeSession => cases hclose
  | _ => cases h

/-- `get_status` answers `OK`, so a command that failed ran in a session. -/
theorem mode_of_failed (hinv : Inv s) (hal : allowed i s.ses.sesState = true) (hopen : isOpen i = false)
    (hclose : isClose i = false) (h : exec i s = .next t) (hstatus : t.rsp.rspStatus ≠ 0x00) :
    s.ses.sesState ≠ .closed := by
  intro hmode
  obtain rfl := eq_getStatus_of_allowed hopen hclose (hmode ▸ hal)
  obtain rfl := Host.Outcome.next.inj (h.symm.trans (exec_getStatus hinv.notBusy))
  exact hstatus rfl

theorem exec_modeRow (hinv : Inv s) (h : exec i s = .next t) : ∃ c, t.rsp.rspStatus = codeByte c ∧ ModeRow i s t c := by
  rcases exec_refused_or_ended hinv h with rfl | ⟨hal, hended⟩
  · exact ⟨.refused, rfl, .kept _ nofun (fun _ => rfl) rfl⟩
  cases hended with
  | refused ht => exact ⟨.refused, by rw [ht]; rfl, .kept _ nofun (fun _ => rfl) (by rw [ht]; rfl)⟩
  | caller e hc _ ht =>
    refine ⟨e.code, by rw [ht]; rfl, .kept _ ?_ (fun _ => needsCleanup_of_callCode hc) (by rw [ht]; rfl)⟩
    rcases hc with hc | hc | hc | hc <;> exact hc ▸ nofun
  | done data u hopen hclose henter hu _ _ ht =>
    refine ⟨.ok, by rw [ht]; rfl, .done hopen hclose henter fun hnvm => ?_⟩
    rw [ht]
    refine hu.mode.resolve_right fun hnotes => ?_
    exact absurd (hnvm.symm.trans (isNvmCommand_of_notes hnotes.1)) Bool.noConfusion
  | failed e u v hopen hclose he _ hv ht =>
    refine ⟨e.code, by rw [ht]; rfl, .failed _ hopen he (mode_of_failed hinv hal hopen hclose h ?_) ?_⟩
    · rw [ht]
      exact fun hok => by rw [codeByte_eq_ok_iff.mp hok] at he; cases he
    · rw [ht]
      exact hv.closed.mode
  | entered u hi _ _ ht => exact ⟨.ok, by rw [ht]; rfl, .entered hi (allowed_enter (hi ▸ hal)) (by rw [ht]; rfl)⟩
  | locked e u _ hc hu _ ht =>
    refine ⟨e.code, by rw [ht]; rfl, .kept _ (hc ▸ nofun) (fun _ => by rw [hc]; rfl) ?_⟩
    rw [ht]
    exact congrArg Ses.sesState hu.2.2
  | closed u hi hu ht => exact ⟨.ok, by rw [ht]; rfl, .closed hi (by rw [ht]; exact hu.closed.mode)⟩
  | opened p port u hi hu ht =>
    subst hi
    exact ⟨.ok, by rw [ht]; rfl, .opened rfl (allowed_open hal) (by rw [ht]; exact hu.mode)⟩
  | unopened e u hi hc hu _ ht =>
    refine ⟨e.code, by rw [ht]; rfl, .kept _ ?_ (fun hopen => absurd (hi.symm.trans hopen) Bool.noConfusion)
      (by rw [ht]; exact hu.mode)⟩
    rcases hc with hc | hc <;> exact hc ▸ nofun

theorem codeByte_mem_session_errors :
    codeByte c ∈ ([0x01, 0x02, 0x03, 0x04, 0x05] : List Byte) ↔ needsCleanup c = true := by
  cases c <;> decide

theorem not_open_of_close (h : isClose i = true) : isOpen i = false := by
  cases i with
  | closeSession => rfl
  | _ => cases h

/-! The clauses of the table, each from the rows that can give it. -/

theorem ModeRow.of_open_ok (h : ModeRow i s t .ok) (hi : isOpen i = true) :
    s.ses.sesState = .closed ∧ t.ses.sesState = .linkEstablished := by
  cases h with
  | opened _ hfrom hto => exact ⟨hfrom, hto⟩
  | closed hclose => exact absurd (hi.symm.trans (not_open_of_close hclose)) Bool.noConfusion
  | entered henter => subst henter; cases hi
  | done hopen | failed _ hopen => exact absurd (hi.symm.trans hopen) Bool.noConfusion
  | kept _ hok => exact absurd rfl hok

theorem ModeRow.of_open_failed (h : ModeRow i s t c) (hi : isOpen i = true) (hc : c ≠ .ok) :
    t.ses.sesState = s.ses.sesState := by
  cases h with
  | kept _ _ _ hto => exact hto
  | failed _ hopen => exact absurd (hi.symm.trans hopen) Bool.noConfusion
  | _ => exact absurd rfl hc

theorem ModeRow.of_enter_ok (h : ModeRow .enterProgrammingMode s t .ok) :
    s.ses.sesState = .linkEstablished ∧ t.ses.sesState = .unlocked := by
  cases h with
  | entered _ hfrom hto => exact ⟨hfrom, hto⟩
  | opened hi | closed hi => cases hi
  | done _ _ henter => exact absurd rfl henter
  | failed _ _ hc => cases hc
  | kept _ hok => exact absurd rfl hok

theorem ModeRow.of_session_error (h : ModeRow i s t c) (hi : isOpen i = false) (hc : needsCleanup c = true) :
    s.ses.sesState ≠ .closed ∧ t.ses.sesState = .closed := by
  cases h with
  | failed _ _ _ hfrom hto => exact ⟨hfrom, hto⟩
  | kept _ _ hkept => exact absurd (hc.symm.trans (hkept hi)) Bool.noConfusion
  | _ => cases hc

theorem ModeRow.of_other_ok (h : ModeRow i s t .ok) (hopen : isOpen i = false) (hclose : isClose i = false)
    (henter : i ≠ .enterProgrammingMode) (hnvm : isNvmCommand i = false) : t.ses.sesState = s.ses.sesState := by
  cases h with
  | done _ _ _ hto => exact hto hnvm
  | opened hi => exact absurd (hi.symm.trans hopen) Bool.noConfusion
  | closed hi => exact absurd (hi.symm.trans hclose) Bool.noConfusion
  | entered hi => exact absurd hi henter
  | failed _ _ hc => cases hc
  | kept _ _ _ hto => exact hto

theorem ModeRow.of_kept (h : ModeRow i s t c) (hok : c ≠ .ok) (hc : needsCleanup c = false) :
    t.ses.sesState = s.ses.sesState := by
  cases h with
  | kept _ _ _ hto => exact hto
  | failed _ _ hfailed => exact absurd (hfailed.symm.trans hc) Bool.noConfusion
  | _ => exact absurd rfl hok

/-- A refusal, a caller error or `UnlockError` (60_exceptions.md R286). -/
theorem keeps_of_mem (h : codeByte c ∈ ([0x06, 0x07, 0x08, 0x0B, 0xFF] : List Byte)) :
    c ≠ .ok ∧ needsCleanup c = false := by
  revert h
  cases c <;> decide

end Sys2Proof.Machine

namespace Sys2Proof.Proofs

open Sys2Proof.Machine

/-- Settles O22, clause by clause from the table's rows (`exec_modeRow`); the clause on NVM commands is
`exec_nvm_mode`. -/
theorem modeTransitions : Obligations.ModeTransitions := by
  intro s t i hinv h
  obtain ⟨c, hstatus, hrow⟩ := exec_modeRow hinv h
  have hok : t.rsp.rspStatus = 0x00 ↔ c = .ok := by rw [hstatus, codeByte_eq_ok_iff]
  refine ⟨fun hi h0 => ?_, fun hi h0 => hrow.of_open_failed hi (mt hok.mpr h0), fun hi => ?_, ?_, fun hi herror => ?_,
    fun hi h0 => ⟨(exec_nvm_tells hinv hi h h0).1, exec_nvm_mode hinv hi h h0⟩,
    fun hopen hclose henter hnvm h0 => ?_, fun hkept _ => ?_⟩
  · obtain rfl := hok.mp h0
    exact hrow.of_open_ok hi
  · cases i with
    | closeSession r =>
      obtain ⟨u, hleft, hexec⟩ := exec_closeSession r hinv.notBusy
      obtain rfl := Host.Outcome.next.inj (h.symm.trans hexec)
      exact hleft.closed.mode
    | _ => cases hi
  · rintro rfl h0
    obtain rfl := hok.mp h0
    exact hrow.of_enter_ok
  · rw [hstatus, codeByte_mem_session_errors] at herror
    exact hrow.of_session_error hi herror
  · obtain rfl := hok.mp h0
    exact hrow.of_other_ok hopen hclose henter hnvm
  · rw [hstatus] at hkept
    obtain ⟨hne, hc⟩ := keeps_of_mem hkept
    exact hrow.of_kept hne hc

/-- Settles O23: `NoteNvmOp` stands between the checks of an NVM command and its first transmission. -/
theorem noteNvmOpWhenSending : Obligations.NoteNvmOpWhenSending := fun _ _ _ hinv hi h hok =>
  exec_nvm_mode hinv hi h hok

end Sys2Proof.Proofs
end

section
/-! PROOFS. `close` (43_session.md R266), whatever the line does: it ends `OK`, and a second one does nothing. -/

namespace Sys2Proof.Machine

variable {s t u : State}

/-- The register writes of `close` change nothing where no session is left and nothing is under way. -/
theorem released_eq (hclosed : SessionClosed s) (hidle : SequencersIdle s) (hfifo : s.phy.line.rxFifo = []) :
    s.released = s := by
  rw [State.released, sequencersIdle_eq hidle]
  obtain ⟨hmode, htransport, hlink, hkey⟩ := hclosed
  obtain ⟨cfg, ⟨mode, profile, opened⟩, ⟨phase, link, attempt, baud, echo, line⟩, dl,
    ⟨nphase, key, deadline, last, valid⟩, rsp, env, now, inputs, trace⟩ := s
  obtain ⟨tx, txShift, txCnt, rxShift, rxCnt, rxPrev, fifo, frameErr⟩ := line
  simp only at hmode htransport hlink hkey hfifo
  subst hmode htransport hlink hkey hfifo
  rfl

theorem closeBody_of_closed (r : Bool) (hclosed : SessionClosed s) (hidle : SequencersIdle s)
    (hfifo : s.phy.line.rxFifo = []) : closeBody r s = .ok () s := by
  have hskip : closeBody r s = .ok () s.released := by
    rw [closeBody, Act.get_bind_run, if_neg (by rw [hclosed.transport]; exact Bool.false_ne_true)]
    rfl
  rw [hskip, released_eq hclosed hidle hfifo]

theorem breaks_of_trace (h : ∃ ev, t.trace = s.trace ++ ev ∧ ∀ e ∈ ev, e.isBreak = false) : t.breaks = s.breaks := by
  obtain ⟨ev, htrace, hnone⟩ := h
  have hcount : ev.countP Event.isBreak = 0 :=
    List.countP_eq_zero.mpr fun e he => Bool.eq_false_iff.mp (hnone e he)
  rw [State.breaks, htrace, List.countP_append, hcount]
  rfl

/-- A further `close` leaves the state that one has left. -/
theorem exec_close_again (r : Bool) (h : Left s u) :
    exec (.closeSession r) (u.respondOk []) = .next (u.respondOk []) :=
  exec_of_body_ok (u := (u.respondOk []).accepted) rfl rfl (noData_ok (closeBody_of_closed r
    ⟨h.closed.mode, h.closed.transport, h.closed.link, h.closed.key⟩
    ⟨h.idle.phyIdle, h.idle.dlIdle, h.idle.nvmIdle, h.idle.noEcho⟩ h.fifo))

end Sys2Proof.Machine

namespace Sys2Proof.Proofs

open Sys2Proof.Machine

/-- Settles O46: the body of `close` raises nothing (`closeBody_left`), sends only its own CS writes
(`closeBody_makesSome`), and finds nothing to do the second time (`exec_close_again`). -/
theorem closeNeverFails : Obligations.CloseNeverFails := by
  intro s r hb
  obtain ⟨u, hrun, hleft⟩ := closeBody_left r s.accepted
  obtain ⟨zs, hsome, htraffic⟩ := (closeBody_makesSome r s.accepted (E := fun _ _ => True)).1 () u hrun
  exact ⟨u.respondOk [], zs, exec_of_body_ok hb rfl (noData_ok hrun), ⟨rfl, rfl, rfl⟩,
    ⟨hleft.closed.mode, hleft.closed.transport, hleft.closed.link, hleft.closed.key⟩,
    ⟨hleft.idle.phyIdle, hleft.idle.dlIdle, hleft.idle.nvmIdle, hleft.idle.noEcho⟩, hleft.fifo, hsome, htraffic,
    breaks_of_trace hleft.trace, fun r' => exec_close_again r' hleft⟩

end Sys2Proof.Proofs
end

section
/-! PROOFS. `close` on a line that answers (43_session.md R266): its CS writes, the transport closed while the target is
silent, and the registers it leaves. -/

namespace Sys2Proof.Machine

variable {s s0 u : State} {xs rest : List Xfer} {x : Ses} {d : Dl} {n : Nvm} {w m : World} {Q : State → Prop}

/-! ### The pieces -/

/-- `cs_write` along a command (41_datalink.md R178). -/
theorem Along.csWrite {a : CsAddr} {v : Byte}
    (h : Along s0 xs x d n (.tx [SYNC, opStcs s0.cfg a, v] :: rest) w u) :
    Reaches (csWrite a.toNat v.toNat) u () (Along s0 (xs ++ [.tx [SYNC, opStcs s0.cfg a, v]]) x
      { d with opAddr := BitVec.ofNat 24 a.toNat, dlState := .idle } n rest w) := by
  have haddr : BitVec.ofNat 4 a.toNat = a := BitVec.ofNat_toNat ..
  have hvalue : BitVec.ofNat 8 v.toNat = v := BitVec.ofNat_toNat ..
  have hwrite := csWrite_plays (rest := rest) (w' := w) h.cfg h.live (Nat.le_of_lt_succ a.isLt)
    (Nat.le_of_lt_succ v.isLt)
  rw [haddr, hvalue] at hwrite
  obtain ⟨t, hrun, hmoved, hplays⟩ := hwrite h.plays
  rw [h.dl] at hmoved
  exact ⟨t, hrun, h.stepDl hmoved hplays⟩

theorem reaches_attempt {y : Act Unit} (h : Reaches y u () Q) : Reaches (attempt y) u () Q := by
  obtain ⟨t, hrun, ht⟩ := h
  exact reaches_run (attempt_run y u) (effect_ok hrun ▸ ht)

theorem closeLine_reaches (r : Bool) (hl : Live s) (hp : Plays s.cfg (closeXfers s.cfg r) s.world m) :
    Reaches (closeLine r) s () (Along s (closeXfers s.cfg r) s.ses
      { s.dl with
        opAddr := BitVec.ofNat 24 (if r then s.cfg.csResetAddr else s.cfg.csCtrlAddr).toNat, dlState := .idle }
      s.nvm [] m) := by
  refine reaches_after (Act.get_run s) (reaches_bind (reaches_attempt (along_start hl hp).csWrite) fun t ht => ?_)
  cases r with
  | false => exact reaches_run rfl ht
  | true =>
    exact reaches_bind (reaches_attempt ht.csWrite) fun u hu => reaches_attempt hu.csWrite

/-- Closing the transport while the target is silent (40_phy.md R135). -/
theorem trClose_silent (ho : s.ses.trOpen = true) (hq : LineQuiet s.phy.line)
    (h : brings s.cfg.frame (s.draw .trClose) []) :
    ∃ r, trClose s = .ok ()
      (((((s.drawn .trClose).setSes { s.ses with trOpen := false }).setPhy
        { s.phy with
          linkUp := false
          line := { s.phy.line with rxShift := r, lineTx := true, rxCnt := 0, rxPrev := true } }).setNow
        (s.now + (s.draw .trClose).dt)).logged .trClose .done) := by
  obtain ⟨r, hr⟩ := samples_carries hq h.2
  refine ⟨r, ?_⟩
  have hlisten : (s.drawn .trClose).listen (s.draw .trClose).drive =
      (s.drawn .trClose).setLine { s.phy.line with rxShift := r } := by
    rw [State.listen_open _ _ (show (s.drawn _).ses.trOpen = true from ho), State.drawn_cfg, State.drawn_phy,
      listen_eq_samples _ hq.txIdle hq.driverHigh, hr, List.append_nil]
  rw [trClose_ok h.1, hlisten]
  rfl

/-- What `close` leaves of a session at rest whose line answered its writes and then was silent. -/
structure Returned (s : State) (r : Bool) (m : World) (t : State) : Prop where
  traffic : t.traffic = s.traffic ++ closeXfers s.cfg r
  env : t.env = (m.env.answer s.cfg .trClose).2
  cfg : t.cfg = s.cfg
  inputs : t.inputs = s.inputs
  ses : t.ses = { s.ses with sesState := .closed, trOpen := false }
  nvm : t.nvm = { s.nvm with nvmState := .idle, eraseKeySent := false }
  dl : t.dl = { s.dl with
    opAddr := BitVec.ofNat 24 (if r then s.cfg.csResetAddr else s.cfg.csCtrlAddr).toNat, dlState := .idle }
  linkUp : t.phy.linkUp = false
  baudCur : t.phy.baudCur = s.phy.baudCur
  syncAttempt : t.phy.syncAttempt = s.phy.syncAttempt
  frameErr : t.phy.line.frameErr = s.phy.line.frameErr
  lineTx : t.phy.line.lineTx = true
  fifo : t.phy.line.rxFifo = []

theorem closeBody_reaches (r : Bool) (hl : Live s) (hlink : s.phy.linkUp = true)
    (hp : Plays s.cfg (closeXfers s.cfg r) s.world m)
    (hsilent : brings s.cfg.frame (m.env.answer s.cfg .trClose).1 []) :
    Reaches (closeBody r) s () (Returned s r m) := by
  obtain ⟨u, hline, hu⟩ := closeLine_reaches r hl hp
  have hmoved := hu.moved
  have henv : u.env = m.env := congrArg World.env hu.plays.symm
  obtain ⟨shift, hclose⟩ := trClose_silent hu.live.transport hu.live.quiet
    (by rw [State.draw, hu.cfg, henv]; exact hsilent)
  refine reaches_after (Act.get_run s) ?_
  rw [if_pos hl.transport, if_pos hlink]
  refine reaches_after hline (reaches_bind (reaches_attempt (reaches_run hclose rfl)) fun v hv => reaches_run rfl ?_)
  subst hv
  exact
    { traffic := (traffic_logged _ _ _).trans ((List.append_nil _).trans hmoved.traffic)
      env := show (u.env.answer u.cfg .trClose).2 = _ by rw [henv, hu.cfg]
      cfg := hmoved.cfg
      inputs := hmoved.inputs
      ses := show { u.ses with sesState := .closed, trOpen := false } = _ by rw [hu.ses]
      nvm := show { u.nvm with nvmState := .idle, eraseKeySent := false } = _ by rw [hu.nvm]
      dl := show { u.dl with dlState := .idle } = _ by rw [hu.dl]
      linkUp := rfl
      baudCur := hmoved.baudCur
      syncAttempt := hmoved.syncAttempt
      frameErr := hmoved.frameErr
      lineTx := rfl
      fifo := rfl }

end Sys2Proof.Machine

namespace Sys2Proof.Proofs

open Sys2Proof.Machine

/-- Settles O47: the command is `closeBody`, whose way `closeBody_reaches` follows. -/
theorem closeReturnsTheControlRegister : Obligations.CloseReturnsTheControlRegister := by
  intro s r m hready hlink hplays hsilent
  obtain ⟨u, hrun, h⟩ := closeBody_reaches r hready.live.accepted hlink hplays hsilent
  refine ⟨_, exec_of_body_ok hready.notBusy rfl (noData_ok hrun), ⟨rfl, rfl, rfl⟩, h.traffic, h.env, h.cfg, h.inputs,
    h.ses, h.nvm.trans ?_, h.dl.trans (Dl.idled_eq (d := { s.dl with opAddr := _ }) hready.idle.dlIdle), h.linkUp,
    h.baudCur, h.syncAttempt, h.frameErr, h.lineTx, h.fifo⟩
  rw [← hready.idle.nvmIdle]
  rfl

end Sys2Proof.Proofs
end

section
/-! PROOFS. `enter_programming_mode` in a world that answers (43_session.md R263): the key, the status read, and the
test of its programming-mode bit. -/

namespace Sys2Proof.Machine

variable {s s0 u : State} {xs rest : List Xfer} {x : Ses} {d : Dl} {n : Nvm} {w : World} {v : Byte} {Q : State → Prop}

/-- `cs_read` along a command (41_datalink.md R176). -/
theorem Along.csRead {a : CsAddr}
    (h : Along s0 xs x d n (.tx [SYNC, opLdcs s0.cfg a] :: .rx [v] :: rest) w u) :
    Reaches (csRead a.toNat) u v (Along s0 (xs ++ [.tx [SYNC, opLdcs s0.cfg a], .rx [v]]) x
      { d with opAddr := BitVec.ofNat 24 a.toNat, dlState := .idle } n rest w) := by
  have haddr : BitVec.ofNat 4 a.toNat = a := BitVec.ofNat_toNat ..
  have hread := csRead_plays (b := v) (rest := rest) (w' := w) h.cfg h.live (Nat.le_of_lt_succ a.isLt)
  rw [haddr] at hread
  obtain ⟨t, hrun, hmoved, hplays⟩ := hread h.plays
  rw [h.dl] at hmoved
  exact ⟨t, hrun, h.stepDl hmoved hplays⟩

theorem reaches_unlockExchange {y : Act Byte} (h : Reaches y u v Q) : Reaches (unlockExchange y) u v Q := by
  obtain ⟨t, hrun, ht⟩ := h
  exact reaches_run (by rw [unlockExchange, hrun]) ht

/-- The transfers of `enter_programming_mode` whose status read brings `v`. -/
def progModeXfers (c : Config) (k : List Byte) (v : Byte) : List Xfer :=
  keyXfers c k ++ [.tx [SYNC, opLdcs c c.csProgStatusAddr], .rx [v]]

/-- DL's registers after them. -/
def Dl.afterEnter (d : Dl) (c : Config) (k : List Byte) : Dl :=
  { d with
    dataBuf := keyOrd c k, opLen := c.keyLen, opAddr := BitVec.ofNat 24 c.csProgStatusAddr.toNat, dlState := .idle }

/-- `enter_programming_mode` reaches the test of the status byte `v` it has read. -/
theorem enterExchange_reaches (hl : Live s) (hk : s.ses.profile.keyProg.length = s.cfg.keyLen)
    (hp : Plays s.cfg (progModeXfers s.cfg s.ses.profile.keyProg v) s.world w) :
    Reaches (unlockExchange do
        keyWriteOp s.ses.profile.keyProg
        csRead s.cfg.csProgStatusAddr.toNat) s v
      (Along s (progModeXfers s.cfg s.ses.profile.keyProg v) s.ses (s.dl.afterEnter s.cfg s.ses.profile.keyProg) s.nvm
        [] w) :=
  reaches_unlockExchange (reaches_bind ((along_start hl hp).keyWrite hk) fun _ hu => hu.csRead)

/-- The byte read shows programming mode. -/
theorem enterOp_unlocks (hl : Live s) (hk : s.ses.profile.keyProg.length = s.cfg.keyLen)
    (hp : Plays s.cfg (progModeXfers s.cfg s.ses.profile.keyProg v) s.world w) (hshows : showsProgMode s.cfg v = true) :
    Reaches enterOp s () (Along s (progModeXfers s.cfg s.ses.profile.keyProg v) { s.ses with sesState := .unlocked }
      (s.dl.afterEnter s.cfg s.ses.profile.keyProg) s.nvm [] w) := by
  refine reaches_after (Act.get_run s) (reaches_bind (enterExchange_reaches hl hk hp) fun u h => ?_)
  rw [if_pos hshows]
  refine reaches_run (u := u.setSes { u.ses with sesState := .unlocked }) rfl ?_
  rw [h.ses]
  exact h.setSes (by rw [h.ses])

/-- The byte read does not show it (43_session.md R263): `UnlockError` with the byte. -/
theorem enterOp_locked (hl : Live s) (hk : s.ses.profile.keyProg.length = s.cfg.keyLen)
    (hp : Plays s.cfg (progModeXfers s.cfg s.ses.profile.keyProg v) s.world w)
    (hshows : showsProgMode s.cfg v = false) :
    ∃ u, enterOp s = .error { code := .unlock, info := { base :=
        { layer := some .ses, op := [.enterProgrammingMode], status := some v } } } u ∧
      Along s (progModeXfers s.cfg s.ses.profile.keyProg v) s.ses (s.dl.afterEnter s.cfg s.ses.profile.keyProg) s.nvm
        [] w u := by
  obtain ⟨u, hrun, h⟩ := enterExchange_reaches hl hk hp
  refine ⟨u, ?_, h⟩
  rw [enterOp, Act.get_bind_run, Act.bind_ok hrun, if_neg (by rw [hshows]; exact Bool.false_ne_true)]
  rfl

/-- The way of a command that was accepted, seen from the state it was given in. -/
theorem Along.exchanged (h : Along s.accepted xs x d n [] w u) (r : Rsp) : Exchanged s (u.setRsp r) xs w :=
  ⟨h.moved.cfg, h.moved.inputs, h.moved.linkUp, h.moved.syncAttempt, h.moved.baudCur, h.moved.frameErr,
    h.moved.phyIdle, h.moved.noEcho, h.moved.quiet, h.moved.traffic, h.plays.symm⟩

theorem Along.idle (h : Along s0 xs x d n rest w u) (hd : d.dlState = .idle) (hn : n.nvmState = .idle) :
    SequencersIdle u :=
  ⟨h.live.phyIdle, by rw [h.dl]; exact hd, by rw [h.nvm]; exact hn, h.live.noEcho⟩

/-- An error that neither refuses nor closes, taken with nothing under way, only writes the response (60_exceptions.md
R284, R286). -/
theorem deliver_of_keeps {e : Err} (cleans : Bool) (hne : e.code ≠ .refused) (hkeeps : needsCleanup e.code = false)
    (hidle : SequencersIdle u) : u.deliver cleans e = u.respondError e := by
  simp [State.deliver, hne, hkeeps, sequencersIdle_eq hidle]

theorem showsProgMode_eq_true : showsProgMode s.cfg v = true ↔ v &&& s.cfg.progModeMask ≠ 0 := by
  simp [showsProgMode]

theorem showsProgMode_eq_false : showsProgMode s.cfg v = false ↔ v &&& s.cfg.progModeMask = 0 := by
  simp [showsProgMode]

end Sys2Proof.Machine

namespace Sys2Proof.Proofs

open Sys2Proof.Machine

/-- Settles O45: the exchange is one (`enterExchange_reaches`); the byte it read decides which way the command ends. -/
theorem enterProgrammingMode : Obligations.EnterProgrammingMode := by
  intro s v w hready hmode hk xs hplays
  have hl := hready.live.accepted
  have hal : allowed .enterProgrammingMode s.ses.sesState = true := by rw [hmode]; rfl
  refine ⟨fun hset => ?_, fun hclear => ?_⟩
  · obtain ⟨u, hrun, h⟩ := enterOp_unlocks hl hk hplays (showsProgMode_eq_true.mpr hset)
    refine ⟨_, exec_of_body_ok hready.notBusy hal (noData_ok hrun), ⟨rfl, rfl, rfl⟩, h.exchanged _, h.ses, ?_, h.nvm⟩
    exact h.dl.trans (Dl.idled_eq (d := { s.dl with dataBuf := _, opLen := _, opAddr := _ }) hready.idle.dlIdle)
  · obtain ⟨u, hrun, h⟩ := enterOp_locked hl hk hplays (showsProgMode_eq_false.mpr hclear)
    have hexec := exec_of_body_error hready.notBusy hal (noData_error hrun)
    rw [deliver_of_keeps _ Code.noConfusion rfl (h.idle rfl hready.idle.nvmIdle)] at hexec
    exact ⟨_, hexec, rfl, h.ses, h.nvm, h.exchanged _⟩

end Sys2Proof.Proofs
end

section
/-! PROOFS. `open` on a line that answers (43_session.md R260): the transport opened, link initialisation, which hears
nothing malformed, and the CS writes. -/

namespace Sys2Proof.Machine

variable {s s0 t u : State} {xs rest : List Xfer} {x : Ses} {d : Dl} {n : Nvm} {m w : World} {e : Env}
  {fifo : List Byte} {p : Profile} {port : Nat}

/-! ### An attempt of link initialisation hears no malformed frame (40_phy.md R132, R139) -/

/-- On the way of an attempt begun at `s0`: the line is at rest, these bytes stand unread, the environment
is `e`. -/
structure Calm (s0 : State) (e : Env) (fifo : List Byte) (t : State) : Prop where
  cfg : t.cfg = s0.cfg
  env : t.env = e
  transport : t.ses.trOpen = true
  quiet : LineQuiet t.phy.line
  unread : t.phy.line.rxFifo = fifo
  frameErr : t.phy.line.frameErr = s0.phy.line.frameErr

theorem Calm.draw (h : Calm s0 e fifo t) (a : PortAct) : t.draw a = (e.answer s0.cfg a).1 := by
  rw [State.draw, h.env, h.cfg]

theorem Calm.drawn (h : Calm s0 e fifo t) (a : PortAct) : (t.env.answer t.cfg a).2 = (e.answer s0.cfg a).2 := by
  rw [h.env, h.cfg]

theorem Calm.setPhyState (h : Calm s0 e fifo t) (q : PhyState) : Reaches (setPhyState q) t () (Calm s0 e fifo) :=
  reaches_run rfl ⟨h.cfg, h.env, h.transport, h.quiet, h.unread, h.frameErr⟩

theorem Calm.setBaud {b : Nat} (h : Calm s0 e fifo t) (hb : brings s0.cfg.frame (e.answer s0.cfg (.trSetBaud b)).1 []) :
    Reaches (trSetBaud b) t () (Calm s0 (e.answer s0.cfg (.trSetBaud b)).2 fifo) := by
  obtain ⟨r, hrun⟩ := trSetBaud_silent (b := b) h.transport h.quiet (by rw [h.draw, h.cfg]; exact hb)
  exact reaches_run hrun ⟨h.cfg, h.drawn _, h.transport,
    ⟨h.quiet.txIdle, h.quiet.rxIdle, h.quiet.high, h.quiet.driverHigh⟩, h.unread, h.frameErr⟩

theorem Calm.brk {low guardBits : Nat} (h : Calm s0 e fifo t)
    (hio : (e.answer s0.cfg (.trBreak low guardBits)).1.ioerror = false) :
    Reaches (trBreak low guardBits) t () (Calm s0 (e.answer s0.cfg (.trBreak low guardBits)).2 fifo) :=
  reaches_run (trBreak_ok (by rw [h.draw]; exact hio)) ⟨h.cfg, h.drawn _, h.transport,
    ⟨h.quiet.txIdle, h.quiet.rxIdle, rfl, rfl⟩, h.unread, h.frameErr⟩

theorem Calm.write {bs : List Byte} (h : Calm s0 e fifo t) (hecho : Echoes (e.answer s0.cfg (.trWrite bs)).1) :
    Reaches (trWrite bs) t () (Calm s0 (e.answer s0.cfg (.trWrite bs)).2 (fifo ++ bs)) := by
  obtain ⟨sent, heard, hrun⟩ := trWrite_echoes (s := t) (bs := bs) h.quiet (by rw [h.draw]; exact hecho)
  exact reaches_run hrun ⟨h.cfg, h.drawn _, h.transport, ⟨h.quiet.txIdle, h.quiet.rxIdle, h.quiet.high, rfl⟩,
    congrArg (· ++ bs) h.unread, h.frameErr⟩

theorem Calm.read {timeout : Nat} (h : Calm s0 e fifo t)
    (hio : (e.answer s0.cfg (.trRead 0 timeout)).1.ioerror = false) :
    Reaches (trRead fifo.length timeout) t (some fifo) (Calm s0 (e.answer s0.cfg (.trRead 0 timeout)).2 []) := by
  obtain rfl := h.unread
  have hrun := trRead_held (n := t.phy.line.rxFifo.length) (by rw [h.draw]; exact hio) le_rfl
  rw [List.take_length] at hrun
  exact reaches_run hrun ⟨h.cfg, h.drawn _, h.transport,
    ⟨h.quiet.txIdle, h.quiet.rxIdle, h.quiet.high, h.quiet.driverHigh⟩, List.drop_length, h.frameErr⟩

/-- The attempt of 40_phy.md R139 whose SYNC comes back sets no `frame_err`. -/
theorem syncAttempt_calm (ho : s.ses.trOpen = true) (hq : LineQuiet s.phy.line) (h : Synchronises s.cfg s.world m) :
    Reaches syncAttempt s (some [SYNC]) fun t => t.phy.line.frameErr = s.phy.line.frameErr := by
  obtain ⟨hbaud, hbreak, hecho, hread, -⟩ := h
  let begun := s.setPhy { s.phy with syncAttempt := s.phy.syncAttempt + 1 }
  have hbegun : Calm s s.env s.phy.line.rxFifo begun := ⟨rfl, rfl, ho, hq, rfl, rfl⟩
  refine reaches_after (u := begun) rfl (reaches_after (Act.get_run begun) ?_)
  refine reaches_bind (hbegun.setPhyState _) fun _ h => reaches_bind (h.setBaud hbaud) fun _ h => ?_
  refine reaches_bind (h.setPhyState _) fun _ h => reaches_bind (h.brk hbreak) fun t h => ?_
  have hflushed : Calm s _ [] ((t.setLine { t.phy.line with rxFifo := [] }).logged .flush .done) :=
    ⟨h.cfg, h.env, h.transport, ⟨h.quiet.txIdle, h.quiet.rxIdle, h.quiet.high, h.quiet.driverHigh⟩, rfl, h.frameErr⟩
  refine reaches_after rfl (reaches_after rfl (reaches_bind (hflushed.setPhyState _) fun _ h => ?_))
  refine reaches_bind (h.write hecho) fun _ h => reaches_bind (h.setPhyState _) fun _ h => ?_
  obtain ⟨v, hrun, hv⟩ := h.read (timeout := s.cfg.tSync) hread
  exact reaches_run hrun hv.frameErr

theorem phyInit_frameErr (ho : s.ses.trOpen = true) (hq : LineQuiet s.phy.line)
    (h : Synchronises s.cfg s.world m) :
    Reaches phyInit s () fun t => t.phy.line.frameErr = s.phy.line.frameErr := by
  obtain ⟨u, hrun, hu⟩ := syncAttempt_calm (s := s.setPhy { s.phy with syncAttempt := 0 }) ho hq h
  have hloop : ∀ n, syncLoop n (s.setPhy { s.phy with syncAttempt := 0 }) =
      .ok () (u.setPhy { u.phy with linkUp := true }) := fun n => by
    cases n <;> (rw [syncLoop, Act.bind_ok hrun]; rfl)
  exact reaches_run (inPhy_ok (hloop _)) hu

/-- Link initialisation that succeeds at its first attempt, `frame_err` included. -/
theorem phyInit_reaches (hl : Live s) (h : Synchronises s.cfg s.world m) :
    Reaches phyInit s () fun t => InitFrame s t ∧ Linked s t [] m ∧ t.phy.line.frameErr = s.phy.line.frameErr := by
  obtain ⟨t, hrun, hframe, hlinked⟩ := phyInit_synchronises hl.transport hl.quiet hl.noEcho h
  obtain ⟨t', hrun', herr⟩ := phyInit_frameErr hl.transport hl.quiet h
  obtain ⟨-, rfl⟩ := EStateM.Result.ok.inj (hrun.symm.trans hrun')
  exact reaches_run hrun ⟨hframe, hlinked, herr⟩

/-! ### The CS writes (43_session.md R260) -/

/-- The transfers of these CS writes. -/
def writesXfers (c : Config) (ws : List (CsAddr × Byte)) : List Xfer :=
  ws.map fun y => .tx [SYNC, opStcs c y.1, y.2]

theorem openXfers_eq (c : Config) : openXfers c = writesXfers c c.openCsWrites := rfl

/-- DL's address register after these CS writes: the last one's. -/
def Dl.afterWrites (d : Dl) (ws : List (CsAddr × Byte)) : Dl :=
  match ws.getLast? with
  | none => d
  | some y => { d with opAddr := BitVec.ofNat 24 y.1.toNat }

theorem Dl.afterWrites_cons (d : Dl) (y : CsAddr × Byte) (ws : List (CsAddr × Byte)) :
    d.afterWrites (y :: ws) = { d with opAddr := BitVec.ofNat 24 y.1.toNat }.afterWrites ws := by
  rw [Dl.afterWrites, Dl.afterWrites, List.getLast?_cons]
  cases ws.getLast? <;> rfl

theorem Dl.afterOpen_eq (d : Dl) (c : Config) : d.afterOpen c = d.afterWrites c.openCsWrites := rfl

theorem Along.openWrites (ws : List (CsAddr × Byte))
    (h : Along s0 xs x d n (writesXfers s0.cfg ws ++ rest) w u) (hd : d.dlState = .idle) :
    Reaches (openWrites ws) u () (Along s0 (xs ++ writesXfers s0.cfg ws) x (d.afterWrites ws) n rest w) := by
  induction ws generalizing u xs d with
  | nil => exact reaches_run rfl (by rw [writesXfers, List.map_nil, List.append_nil]; exact h)
  | cons y ws ih =>
    refine reaches_bind h.csWrite fun v hv => ?_
    have hidled : { d with opAddr := BitVec.ofNat 24 y.1.toNat, dlState := .idle } =
        { d with opAddr := BitVec.ofNat 24 y.1.toNat } := by rw [← hd]
    rw [hidled] at hv
    rw [Dl.afterWrites_cons, writesXfers, List.map_cons, List.append_cons]
    exact ih hv hd

theorem openWrites_breaks {ws : List (CsAddr × Byte)} (h : openWrites ws s = .ok () t) : t.breaks = s.breaks := by
  have hsession := (openWrites_stays (inSession_inert plainScope s).exch.over ws).ok (InSession.refl _ s) h
  obtain ⟨ev, htrace, hnone⟩ := hsession.trace
  exact breaks_of_trace ⟨ev, htrace, hnone.resolve_left id⟩

/-! ### The session opened -/

/-- The session's transport as `TrOpen` leaves it when the port opens, and the profile latched. -/
def State.opened (s : State) (p : Profile) (port : Nat) : State :=
  (((((s.drawn (.trOpen port s.cfg.baud)).setSes { s.ses with trOpen := true }).setPhy
    { s.phy with
      baudCur := s.cfg.baud
      line := { s.phy.line with
        frameErr := false, rxFifo := [], lineTx := true, rxCnt := 0, rxPrev := true } }).setNow
    (s.now + (s.draw (.trOpen port s.cfg.baud)).dt)).logged (.trOpen port s.cfg.baud) .done).setSes
    { s.ses with trOpen := true, profile := p }

theorem acquire_opens (p : Profile) (hio : (s.draw (.trOpen port s.cfg.baud)).ioerror = false) :
    ∃ v, acquire port s.cfg.baud s = .ok () v ∧ v.setSes { v.ses with profile := p } = s.opened p port :=
  ⟨_, by rw [acquire, trOpen_ok hio], rfl⟩

theorem opened_live (p : Profile) (port : Nat) (hidle : SequencersIdle s) (ht : s.phy.line.txCnt = 0) :
    Live (s.opened p port) :=
  ⟨rfl, ⟨ht, rfl, rfl, rfl⟩, hidle.phyIdle, hidle.noEcho⟩

theorem opened_traffic (s : State) (p : Profile) (port : Nat) : (s.opened p port).traffic = s.traffic :=
  (traffic_logged _ _ _).trans (List.append_nil _)

theorem opened_breaks (s : State) (p : Profile) (port : Nat) : (s.opened p port).breaks = s.breaks :=
  breaks_of_trace ⟨_, rfl, by simp [Event.isBreak]⟩

theorem reaches_establish {y : Act Unit} {Q : State → Prop} (h : Reaches y u () Q) :
    Reaches (establish y) u () Q := by
  obtain ⟨t, hrun, ht⟩ := h
  exact reaches_run (by rw [establish, hrun]) ht

/-- `open` leaves the registers of `Linked`, of the three blocks, and no `frame_err`. -/
structure Established (s : State) (p : Profile) (w : World) (t : State) : Prop where
  linked : Linked s t (openXfers s.cfg) w
  frameErr : t.phy.line.frameErr = false
  ses : t.ses = { s.ses with trOpen := true, profile := p }
  nvm : t.nvm = s.nvm
  dl : t.dl = s.dl.afterOpen s.cfg

/-- Link initialisation and the CS writes, from where the transport is open. -/
theorem establish_reaches (hidle : SequencersIdle s) (htx : s.phy.line.txCnt = 0)
    (hsync : Synchronises s.cfg (s.opened p port).world m)
    (hp : Plays s.cfg (openXfers s.cfg) m w) :
    Reaches (establish do phyInit; openWrites s.cfg.openCsWrites) (s.opened p port) () (Established s p w) := by
  have hl := opened_live p port hidle htx
  refine reaches_establish (reaches_bind (phyInit_reaches hl hsync) fun t ⟨hframe, hlinked, herr⟩ => ?_)
  have ht : Live t := ⟨by rw [hframe.ses]; rfl, hlinked.quiet, hlinked.phyIdle, hlinked.noEcho⟩
  have hcfg : t.cfg = s.cfg := hframe.cfg
  have hdl : t.dl = s.dl := hframe.dl
  have hplays : Plays t.cfg (openXfers s.cfg ++ []) t.world w := by
    rw [List.append_nil, hcfg, hlinked.world]
    exact hp
  have hstart := along_start ht hplays
  rw [openXfers_eq, ← hcfg] at hstart
  obtain ⟨u, hrun, hu⟩ := hstart.openWrites t.cfg.openCsWrites (by rw [hdl]; exact hidle.dlIdle)
  rw [hcfg] at hrun
  have hmoved := hu.moved
  refine reaches_run hrun
    { linked :=
        { cfg := hmoved.cfg.trans hcfg
          inputs := hmoved.inputs.trans hframe.inputs
          linkUp := hmoved.linkUp.trans hlinked.linkUp
          syncAttempt := hmoved.syncAttempt.trans hlinked.syncAttempt
          baudCur := hmoved.baudCur.trans hlinked.baudCur
          phyIdle := hmoved.phyIdle
          noEcho := hmoved.noEcho
          quiet := hmoved.quiet
          traffic := ?_
          breaks := (openWrites_breaks hrun).trans (hlinked.breaks.trans (congrArg (· + 1) (opened_breaks s p port)))
          world := hu.plays.symm }
      frameErr := hmoved.frameErr.trans herr
      ses := hmoved.ses.trans hframe.ses
      nvm := hmoved.nvm.trans hframe.nvm
      dl := ?_ }
  · have htraffic := hmoved.traffic.trans (congrArg (· ++ _) (hlinked.traffic.trans
      (congrArg (· ++ [.tx [SYNC]]) (opened_traffic s p port))))
    rw [hcfg, List.append_assoc] at htraffic
    exact htraffic
  · rw [hu.dl, hdl, hcfg, Dl.afterOpen_eq]

theorem openOp_reaches (hidle : SequencersIdle s) (htx : s.phy.line.txCnt = 0) (hv : profileValid s.cfg p = true)
    (hio : (s.draw (.trOpen port s.cfg.baud)).ioerror = false)
    (hsync : Synchronises s.cfg (s.opened p port).world m) (hp : Plays s.cfg (openXfers s.cfg) m w) :
    Reaches (openOp p port) s () fun t => ∃ u, Established s p w u ∧
      t = (u.setNvm { u.nvm with eraseKeySent := false }).setSes { u.ses with sesState := .linkEstablished } := by
  obtain ⟨v, hacquire, hopened⟩ := acquire_opens p hio
  have hdemand : demand (profileValid s.cfg p) s = .ok () s := by rw [hv]; rfl
  refine reaches_after (Act.get_run s) (reaches_after hdemand ?_)
  refine reaches_after hacquire (reaches_after (Act.modify_run _ v) ?_)
  rw [hopened]
  refine reaches_bind (establish_reaches hidle htx hsync hp) fun u hu => ?_
  exact reaches_after rfl (reaches_run rfl ⟨u, hu, rfl⟩)

end Sys2Proof.Machine

namespace Sys2Proof.Proofs

open Sys2Proof.Machine

/-- Settles O44: the command is `openOp`, whose way `openOp_reaches` follows. -/
theorem openSession : Obligations.OpenSession := by
  intro s p port m w hinv hmode hvalid d hio hsync hplays
  have hal : allowed (.openSession p port) s.ses.sesState = true := by rw [hmode]; rfl
  obtain ⟨t, hrun, u, hu, rfl⟩ := openOp_reaches (s := s.accepted) (accepted_idle hinv.idle) hinv.noFrameOut hvalid hio
    hsync hplays
  have hl := hu.linked
  refine ⟨_, exec_of_body_ok hinv.notBusy hal (noData_ok hrun), ⟨rfl, rfl, rfl⟩,
    ⟨hl.cfg, hl.inputs, hl.linkUp, hl.syncAttempt, hl.baudCur, hl.phyIdle, hl.noEcho, hl.quiet, hl.traffic, hl.breaks,
      hl.world⟩, hu.frameErr, ?_, ?_, hu.dl⟩
  · exact congrArg (fun y : Ses => { y with sesState := .linkEstablished }) hu.ses
  · exact congrArg (fun y : Nvm => { y with eraseKeySent := false }) hu.nvm

end Sys2Proof.Proofs
end

section
/-! PROOFS. What an error does to the mode, class by class (60_exceptions.md R286), and a command given outside the
modes of its row in the table of R292. The classes are read off the endings of `Ended`, each with the code its
response carries. -/

namespace Sys2Proof.Machine

variable {i : Instr} {s t : State} {c : Code}

theorem exec_of_not_allowed (hb : s.rsp.busy = false) (h : allowed i s.ses.sesState = false) :
    exec i s = .next s.refusal := by
  rw [exec_eq]
  exact runCommand_refused hb (by rw [admits_admOf]; exact h)

/-- The row of R286's table a code stands in: what its error leaves of the command given in `s`. The outcomes that
are no errors of the engine are under no row. -/
def ClassEffect (i : Instr) (s t : State) : Code → Prop
  | .transport | .linkInit | .linkTimeout | .protocolAck | .nvmBusyTimeout => SessionClosed t
  | .alignment | .invalidPageSize | .invalidFuseIndex => t = s.setRsp t.rsp
  | .deviceNotResponding => isOpen i = true ∧ s.ses.sesState = .closed ∧ SessionClosed t
  | .unlock => s.ses.sesState = .linkEstablished ∧ t.ses = s.ses
  | .ok | .verification | .parse | .refused => True

theorem classEffect_of_cleanup (hc : needsCleanup c = true) (h : SessionClosed t) : ClassEffect i s t c := by
  cases c with
  | transport | linkInit | linkTimeout | protocolAck | nvmBusyTimeout => exact h
  | _ => cases hc

theorem classEffect_of_caller (hc : CallCode c) (h : t = s.setRsp t.rsp) : ClassEffect i s t c := by
  rcases hc with rfl | rfl | rfl | rfl
  · trivial
  · exact h
  · exact h
  · exact h

/-- A failed `open` leaves the mode it found, and that was Closed (43_session.md R260). -/
theorem Unopened.sessionClosed (h : Unopened s.accepted t) (hinv : Inv s) (hclosed : s.ses.sesState = .closed) :
    SessionClosed t where
  mode := h.mode.trans hclosed
  transport := h.trOpen
  link := h.linkUp
  key := h.key.trans (hinv.no_key (by simp [hclosed]))

theorem SessionClosed.responded (h : SessionClosed t) (r : Rsp) : SessionClosed (t.setRsp r) :=
  ⟨h.mode, h.transport, h.link, h.key⟩

/-- Every ending responds with a code and does what the code's class says. -/
theorem Ended.classEffect (hinv : Inv s) (hal : allowed i s.ses.sesState = true) (h : Ended i s t) :
    ∃ c, t.rsp.rspStatus = codeByte c ∧ ClassEffect i s t c := by
  cases h with
  | refused ht => exact ⟨.refused, ht ▸ rfl, trivial⟩
  | caller e hc _ ht => exact ⟨e.code, ht ▸ rfl, classEffect_of_caller hc (ht ▸ rfl)⟩
  | done data u _ _ _ _ _ _ ht => exact ⟨.ok, ht ▸ rfl, trivial⟩
  | failed e u v _ _ he _ hv ht =>
    exact ⟨e.code, ht ▸ rfl, classEffect_of_cleanup he (ht ▸ hv.closed.responded _)⟩
  | entered u _ _ _ ht => exact ⟨.ok, ht ▸ rfl, trivial⟩
  | locked e u hi hc hu _ ht =>
    subst hi ht
    exact ⟨.unlock, congrArg codeByte hc, allowed_enter hal, hu.2.2⟩
  | closed u _ _ ht => exact ⟨.ok, ht ▸ rfl, trivial⟩
  | opened p port u _ _ ht => exact ⟨.ok, ht ▸ rfl, trivial⟩
  | unopened e u hi hc hu _ ht =>
    obtain ⟨p, port, rfl⟩ := eq_open_of_isOpen hi
    have hwas := allowed_open hal
    have hnow : SessionClosed t := ht ▸ (hu.sessionClosed hinv hwas).responded _
    rcases hc with hc | hc
    · exact ⟨.transport, ht ▸ congrArg codeByte hc, hnow⟩
    · exact ⟨.deviceNotResponding, ht ▸ congrArg codeByte hc, hi, hwas, hnow⟩

theorem exec_classEffect (hinv : Inv s) (h : exec i s = .next t) :
    ∃ c, t.rsp.rspStatus = codeByte c ∧ ClassEffect i s t c := by
  rcases exec_refused_or_ended hinv h with rfl | ⟨hal, hended⟩
  · exact ⟨.refused, rfl, trivial⟩
  · exact hended.classEffect hinv hal

end Sys2Proof.Machine

namespace Sys2Proof.Proofs

open Sys2Proof.Machine

/-- Settles O12: `allowed` is the admission table that the command port looks up. -/
theorem refusedInOtherModes : Obligations.RefusedInOtherModes :=
  fun _ _ hb hal => exec_of_not_allowed hb hal

/-- Settles O19: the response's code picks the row of the table (`exec_classEffect`). -/
theorem errorClasses : Obligations.ErrorClasses := by
  intro s t i hinv h
  obtain ⟨c, hstatus, heffect⟩ := exec_classEffect hinv h
  rw [hstatus]
  refine ⟨fun hlink => ?_, fun hcaller => ?_, fun hdevice => ?_, fun hunlock => ?_⟩
  · cases c with
    | transport | linkInit | linkTimeout | protocolAck | nvmBusyTimeout => exact heffect
    | _ => exact absurd hlink (by decide)
  · cases c with
    | alignment | invalidPageSize | invalidFuseIndex => exact heffect
    | _ => exact absurd hcaller (by decide)
  · cases c with
    | deviceNotResponding => exact heffect
    | _ => exact absurd hdevice (by decide)
  · cases c with
    | unlock => exact heffect
    | _ => exact absurd hunlock (by decide)

end Sys2Proof.Proofs
end

section
/-! PROOFS. Idle line between commands (60_exceptions.md R298): the receive half watches the line (40_phy.md R132) and
time passes, and nothing else of the engine moves. -/

namespace Sys2Proof.Machine

variable {s t : State} {f : FrameFormat}

/-- The receive half only ever adds to `rx_fifo` (40_phy.md R132, R136). -/
theorem sample_rxFifo_prefix (l : Line) (v : Bool) : l.rxFifo <+: (l.sample f v).rxFifo := by
  simp only [Line.sample]
  split
  · split <;> exact List.prefix_rfl
  · split
    · simp only [Line.accept]
      split
      · exact List.prefix_append _ _
      · exact List.prefix_rfl
    · exact List.prefix_rfl

theorem tick_rxFifo_prefix (l : Line) (v : Bool) : l.rxFifo <+: (l.tick f v).rxFifo := by
  have hserialise : l.serialise.rxFifo = l.rxFifo := by
    unfold Line.serialise
    split <;> rfl
  exact hserialise ▸ sample_rxFifo_prefix l.serialise _

theorem line_listen_rxFifo_prefix (l : Line) (drive : List Bool) : l.rxFifo <+: (l.listen f drive).rxFifo := by
  induction drive generalizing l with
  | nil => exact List.prefix_rfl
  | cons v drive ih => exact (tick_rxFifo_prefix l v).trans (ih (l.tick f v))

theorem listen_rxFifo_prefix (s : State) (drive : List Bool) :
    s.phy.line.rxFifo <+: (s.listen drive).phy.line.rxFifo := by
  unfold State.listen
  split
  · exact line_listen_rxFifo_prefix _ _
  · exact List.prefix_rfl

/-- From `s` to `t` the engine has done nothing but listen: PHY's receive half, the clock, the environment and the
trace may have moved. -/
structure OnlyListened (s t : State) : Prop where
  cfg : t.cfg = s.cfg
  ses : t.ses = s.ses
  dl : t.dl = s.dl
  nvm : t.nvm = s.nvm
  rsp : t.rsp = s.rsp
  inputs : t.inputs = s.inputs
  traffic : t.traffic = s.traffic
  breaks : t.breaks = s.breaks
  now : s.now ≤ t.now
  phy : t.phy = { s.phy with line := t.phy.line }
  undriven : Undriven s → Undriven t
  fifo : s.phy.line.rxFifo <+: t.phy.line.rxFifo
  shut : s.ses.trOpen = false → t.phy = s.phy

theorem idleLine_onlyListened (s : State) : OnlyListened s (effect idleLine s) := by
  rw [effect_ok (idleLine_run s)]
  obtain ⟨hline, -, hphy⟩ := listen_line (s := s.drawn .idle) (s.draw .idle).drive
  exact {
    cfg := by simp
    ses := by simp
    dl := by simp
    nvm := by simp
    rsp := by simp
    inputs := by simp
    traffic := by simp [State.traffic, Event.xfer]
    breaks := by simp [State.breaks, Event.isBreak]
    now := by simp
    phy := hphy
    undriven := fun h => hline h.1 h.2
    fifo := listen_rxFifo_prefix (s.drawn .idle) _
    shut := fun h => by simp [State.listen, h] }

/-- Nothing presented, and idle line presented, are the same to the engine (60_exceptions.md R298). -/
theorem step_idle (h : s.inputs = [] ∨ ∃ rest, s.inputs = .idle :: rest) :
    step s = .next (effect idleLine s.popInput) := by
  unfold step runInput
  rcases h with h | ⟨rest, h⟩
  · have hpop : s.popInput = s := by rw [State.popInput, h, List.tail_nil, ← h]; rfl
    rw [h, hpop]
  · rw [h]

end Sys2Proof.Machine

namespace Sys2Proof.Proofs

open Sys2Proof.Machine

/-- Settles O10: the step is `idleLine`, which does nothing but listen. -/
theorem idleLine : Obligations.IdleLine := by
  intro s hinv hidle
  have h := idleLine_onlyListened s.popInput
  obtain ⟨hhigh, hnone⟩ := h.undriven hinv.undriven
  obtain ⟨more, hmore⟩ := h.fifo
  refine ⟨_, step_idle hidle, h.cfg, h.ses, h.dl, h.nvm, h.rsp, h.inputs, h.traffic, h.breaks, h.now, ?_, ?_, ?_,
    ?_, ?_, hhigh, hnone, ⟨more, hmore.symm⟩, h.shut⟩
  all_goals rw [h.phy]; rfl

end Sys2Proof.Proofs
end

section
/-! PROOFS. The error record of PHY and DL (60_exceptions.md R282, R284): whatever state a piece of a command is run
from, an error it raises tells what the raising rule supplies, and each enclosing operation adds its name. -/

namespace Sys2Proof.Machine

variable {α β : Type} {s t u : State} {e : Err} {C C' : Code → Prop} {E E' : Err → State → Prop} {c : Code}

/-! ### Pieces of a command, by the errors they raise -/

/-- Run from any state the piece raises only errors in `E`. -/
def Raises (E : Err → State → Prop) (x : Act α) : Prop := ∀ s, Leads x s (fun _ _ => True) E

section
variable {x : Act α} {k : α → Act β}

theorem raises_pure (a : α) : Raises E (pure a : Act α) := fun _ => leads_ok rfl trivial

theorem raises_modify (f : State → State) : Raises E (modify f : Act Unit) := fun _ => leads_ok rfl trivial

theorem raises_raise {code : Code} {b : ErrBase} (h : ∀ s, E { code := code, info := { base := b } } s) :
    Raises E (raise code b : Act α) := fun s => leads_error rfl (h s)

theorem raises_bind (hx : Raises E x) (hk : ∀ a, Raises E (k a)) : Raises E (x >>= k) := fun s =>
  leads_bind (hx s) fun a t _ => hk a t

theorem raises_get_bind {k : State → Act β} (hk : ∀ s, Raises E (k s)) : Raises E (get >>= k) := fun s => hk s s

theorem raises_modify_bind {f : State → State} {k : Unit → Act β} (hk : Raises E (k ())) :
    Raises E (modify f >>= k) := fun s => hk (f s)

theorem raises_ite {p : Prop} [Decidable p] {x y : Act α} (hx : Raises E x) (hy : Raises E y) :
    Raises E (if p then x else y) := by
  split
  · exact hx
  · exact hy

theorem Raises.mono (h : Raises E x) (hE : ∀ e t, E e t → E' e t) : Raises E' x := fun s =>
  (h s).mono (fun _ _ h => h) hE

theorem Leads.and_error {Q : α → State → Prop} (h : Leads x s Q E) (h' : Leads x s (fun _ _ => True) E') :
    Leads x s Q fun e t => E e t ∧ E' e t :=
  ⟨h.1, fun e t he => ⟨h.2 e t he, h'.2 e t he⟩⟩

theorem raises_of_stays (h : Stays (fun _ => True) C x) : Raises (fun e _ => C e.code) x := fun _ =>
  ⟨fun _ _ _ => trivial, fun _ _ he => (h.error trivial he).2⟩

theorem Raises.noData {x : Act Unit} (h : Raises E x) : Raises E (noData x) := raises_bind h fun _ => raises_pure _

theorem Raises.oneByte {x : Act Byte} (h : Raises E x) : Raises E (oneByte x) := raises_bind h fun _ => raises_pure _

end

/-! ### What a record tells -/

/-- The record tells what the rule that raises the error supplies (60_exceptions.md R282): the layer, no wrapped
error, and the fields of the code as the registers of `t` have them. A refusal writes no record (R283). -/
structure Supplied (e : Err) (t : State) : Prop where
  layer : e.code ≠ .refused → e.info.base.layer ≠ none
  unwrapped : e.info.cause = none
  linkInit : e.code = .linkInit →
    e.info.base.attempts = some t.phy.syncAttempt ∧ e.info.base.got ≠ none
  linkTimeout : e.code = .linkTimeout →
    (e.info.base.phase = some .echo ∨ e.info.base.phase = some .response) ∧ e.info.base.wanted ≠ none
  protocolAck : e.code = .protocolAck →
    (e.info.base.phase = some .address ∨ e.info.base.phase = some .data) ∧
      e.info.base.expected = some t.cfg.ack ∧ e.info.base.got = some (.byte t.dl.ackLast) ∧
      t.dl.ackLast ≠ t.cfg.ack
  nvmBusy : e.code = .nvmBusyTimeout →
    e.info.base.addr = some (statAddr t.cfg t.ses.profile) ∧ e.info.base.status = some t.nvm.lastStatus

/-- An error with one of these codes and what its rule supplies; no operation need have been named yet. -/
def Blames (C : Code → Prop) (e : Err) (t : State) : Prop := C e.code ∧ Supplied e t

/-- As `Blames`, and at least one operation is named. -/
def Recorded (C : Code → Prop) (e : Err) (t : State) : Prop :=
  Blames C e t ∧ (e.code ≠ .refused → e.info.base.op ≠ [])

theorem Blames.mono (h : Blames C e t) (hC : ∀ c, C c → C' c) : Blames C' e t := ⟨hC _ h.1, h.2⟩

theorem Recorded.mono (h : Recorded C e t) (hC : ∀ c, C c → C' c) : Recorded C' e t := ⟨h.1.mono hC, h.2⟩

theorem Raises.widen {x : Act α} (h : Raises (Recorded C) x) (hC : ∀ c, C c → C' c) : Raises (Recorded C') x :=
  h.mono fun _ _ he => he.mono hC

/-- A named error, seen from the operation around. -/
theorem Raises.inside {x : Act α} (h : Raises (Recorded C) x) (hC : ∀ c, C c → C' c) : Raises (Blames C') x :=
  h.mono fun _ _ he => he.1.mono hC

/-- The record speaks of five registers only. -/
theorem Supplied.moved (h : Supplied e s) (hcfg : t.cfg = s.cfg) (hprofile : t.ses.profile = s.ses.profile)
    (hattempt : t.phy.syncAttempt = s.phy.syncAttempt) (hack : t.dl.ackLast = s.dl.ackLast)
    (hstatus : t.nvm.lastStatus = s.nvm.lastStatus) : Supplied e t where
  layer := h.layer
  unwrapped := h.unwrapped
  linkInit := by rw [hattempt]; exact h.linkInit
  linkTimeout := h.linkTimeout
  protocolAck := by rw [hcfg, hack]; exact h.protocolAck
  nvmBusy := by rw [hcfg, hprofile, hstatus]; exact h.nvmBusy

/-- The record of a failed primitive speaks of no register. -/
theorem Supplied.of_transport (h : Supplied e s) (hcode : e.code = .transport) (t : State) : Supplied e t where
  layer := h.layer
  unwrapped := h.unwrapped
  linkInit := fun hc => nomatch hcode.symm.trans hc
  linkTimeout := h.linkTimeout
  protocolAck := fun hc => nomatch hcode.symm.trans hc
  nvmBusy := fun hc => nomatch hcode.symm.trans hc

theorem Supplied.named (h : Supplied e t) (name : OpName) : Supplied (e.named name) t :=
  ⟨h.layer, h.unwrapped, h.linkInit, h.linkTimeout, h.protocolAck, h.nvmBusy⟩

/-- DL's address does not replace that of the ready check, which is no error of DL (41_datalink.md R171). -/
theorem Supplied.placed (h : Supplied e t) (hcode : e.code ≠ .nvmBusyTimeout) (addr : Option Nat) :
    Supplied (e.placed addr) t :=
  ⟨h.layer, h.unwrapped, h.linkInit, h.linkTimeout, h.protocolAck, fun hc => absurd hc hcode⟩

theorem Supplied.located (h : Supplied e t) (addr region : Nat) : Supplied (e.located addr region) t :=
  ⟨h.layer, h.unwrapped, h.linkInit, h.linkTimeout, h.protocolAck, h.nvmBusy⟩

theorem named_op_ne_nil (e : Err) (name : OpName) : (e.named name).info.base.op ≠ [] := by simp [Err.named]

theorem supplied_refused (t : State) : Supplied { code := .refused, info := {} } t :=
  ⟨fun h => absurd rfl h, rfl, nofun, nofun, nofun, nofun⟩

theorem supplied_portError (op : OpName) (t : State) : Supplied (portError op) t :=
  ⟨fun _ => nofun, rfl, nofun, nofun, nofun, nofun⟩

theorem recorded_portError (hC : C .transport) (op : OpName) (t : State) : Recorded C (portError op) t :=
  ⟨⟨hC, supplied_portError op t⟩, fun _ => nofun⟩

theorem demand_raises (hE : ∀ s, E { code := .refused, info := {} } s) (b : Bool) : Raises E (demand b) := fun s => by
  cases b with
  | true => exact leads_ok rfl trivial
  | false => exact leads_error rfl (hE s)

theorem raises_demand {b : Bool} {k : Unit → Act β} (hE : ∀ s, E { code := .refused, info := {} } s)
    (hk : Raises E (k ())) : Raises E (demand b >>= k) := raises_bind (demand_raises hE b) fun _ => hk

theorem blames_refused (hC : C .refused) (t : State) : Blames C { code := .refused, info := {} } t :=
  ⟨hC, supplied_refused t⟩

theorem recorded_refused (hC : C .refused) (t : State) : Recorded C { code := .refused, info := {} } t :=
  ⟨blames_refused hC t, fun h => absurd rfl h⟩

/-! ### Operations around an operation -/

section
variable {x : Act α} {name : OpName}

theorem raises_inPhy (h : Raises (Blames C) x) : Raises (Recorded C) (inPhy name x) := fun s =>
  leads_inPhy (h s) (fun _ _ h => h) fun e _ ⟨hC, hsup⟩ =>
    ⟨⟨hC, (hsup.named name).moved rfl rfl rfl rfl rfl⟩, fun _ => named_op_ne_nil e name⟩

theorem raises_inDl {addr : State → Option Nat} (hbusy : ¬ C .nvmBusyTimeout) (h : Raises (Blames C) x) :
    Raises (Recorded C) (inDl name addr x) := fun s => by
  cases hr : x s with
  | ok a u => exact leads_ok (inDl_ok hr) trivial
  | error e u =>
    obtain ⟨hC, hsup⟩ := (h s).2 e u hr
    have hne : e.code ≠ .nvmBusyTimeout := fun hc => hbusy (hc ▸ hC)
    exact leads_error (inDl_error hr)
      ⟨⟨hC, ((hsup.named name).placed hne _).moved rfl rfl rfl rfl rfl⟩, fun _ => named_op_ne_nil e name⟩

theorem raises_inNvm (h : Raises (Blames C) x) : Raises (Recorded C) (inNvm name x) := fun s => by
  cases hr : x s with
  | ok a u => exact leads_ok (inNvm_ok hr) trivial
  | error e u =>
    obtain ⟨hC, hsup⟩ := (h s).2 e u hr
    exact leads_error (inNvm_error hr)
      ⟨⟨hC, (hsup.named name).moved rfl rfl rfl rfl rfl⟩, fun _ => named_op_ne_nil e name⟩

theorem raises_atPlace {addr region : Nat} (h : Raises (Blames C) x) : Raises (Blames C) (atPlace addr region x) :=
  fun s => by
  cases hr : x s with
  | ok a u => exact leads_ok (atPlace_ok hr) trivial
  | error e u =>
    obtain ⟨hC, hsup⟩ := (h s).2 e u hr
    refine leads_error (atPlace_error hr) ?_
    split
    · exact ⟨hC, hsup⟩
    · exact ⟨hC, hsup.located addr region⟩

end

/-! ### The primitives of the byte port (60_exceptions.md R300) -/

theorem trWrite_raises (hC : C .transport) (bs : List Byte) : Raises (Recorded C) (trWrite bs) := fun s => by
  cases hio : (s.draw (.trWrite bs)).ioerror with
  | true => exact leads_error (trWrite_error hio) (recorded_portError hC _ _)
  | false => exact leads_ok (trWrite_ok hio) trivial

theorem trSetBaud_raises (hC : C .transport) (b : Nat) : Raises (Recorded C) (trSetBaud b) := fun s => by
  cases hio : (s.draw (.trSetBaud b)).ioerror with
  | true => exact leads_error (trSetBaud_error hio) (recorded_portError hC _ _)
  | false => exact leads_ok (trSetBaud_ok hio) trivial

theorem trBreak_raises (hC : C .transport) (low guardBits : Nat) :
    Raises (Recorded C) (trBreak low guardBits) := fun s => by
  cases hio : (s.draw (.trBreak low guardBits)).ioerror with
  | true => exact leads_error (trBreak_error hio) (recorded_portError hC _ _)
  | false => exact leads_ok (trBreak_ok hio) trivial

theorem trRead_raises (hC : C .transport) (n timeout : Nat) : Raises (Recorded C) (trRead n timeout) := fun s => by
  rcases trRead_cases n timeout s with ⟨t, hr⟩ | ⟨t, hr⟩ | ⟨bs, t, -, hr⟩
  · exact leads_error hr (recorded_portError hC _ _)
  · exact leads_ok hr trivial
  · exact leads_ok hr trivial

/-! ### PHY -/

/-- What an exchange without an acknowledge raises, and the refusal of its arguments. -/
def SentCode (c : Code) : Prop := c = .refused ∨ c = .transport ∨ c = .linkTimeout

/-- What an exchange raises, and the refusal of its arguments (41_datalink.md R174, R210). -/
def DlCode (c : Code) : Prop := c = .refused ∨ LinkCode c

theorem SentCode.dl (h : SentCode c) : DlCode c := by
  rcases h with h | h | h
  · exact .inl h
  · exact .inr (.inl h)
  · exact .inr (.inr (.inl h))

theorem SentCode.not_busy : ¬ SentCode .nvmBusyTimeout := by simp [SentCode]

theorem DlCode.not_busy : ¬ DlCode .nvmBusyTimeout := by simp [DlCode, LinkCode]

theorem sentCode_transport : SentCode .transport := .inr (.inl rfl)

/-- `LinkTimeoutError` tells its phase and how many bytes were wanted (40_phy.md R143, R146). -/
theorem raises_linkTimeout {phase : Phase} {n : Nat} (hphase : phase = .echo ∨ phase = .response) :
    Raises (Blames SentCode)
      (raise .linkTimeout { layer := some .phy, phase := some phase, wanted := some n } : Act α) :=
  raises_raise fun _ => ⟨.inr (.inr rfl),
    { layer := fun _ => nofun
      unwrapped := rfl
      linkInit := nofun
      linkTimeout := fun _ => ⟨hphase.imp (congrArg some) (congrArg some), nofun⟩
      protocolAck := nofun
      nvmBusy := nofun }⟩

theorem phySend_raises (bs : List Byte) : Raises (Recorded SentCode) (phySend bs) := by
  refine raises_ite (raises_pure _) (raises_inPhy (raises_modify_bind ?_))
  refine raises_bind ((trWrite_raises sentCode_transport bs).inside fun _ h => h) fun _ => raises_modify_bind ?_
  refine raises_get_bind fun s => raises_bind ((trRead_raises sentCode_transport _ _).inside fun _ h => h) fun r => ?_
  refine raises_modify_bind ?_
  cases r with
  | some _ => exact raises_pure _
  | none => exact raises_linkTimeout (.inl rfl)

theorem phyRecv_raises (n timeout : Nat) : Raises (Recorded SentCode) (phyRecv n timeout) := by
  refine raises_ite (raises_pure _) (raises_inPhy (raises_modify_bind ?_))
  refine raises_bind ((trRead_raises sentCode_transport n timeout).inside fun _ h => h) fun r => ?_
  cases r with
  | some _ => exact raises_pure _
  | none => exact raises_linkTimeout (.inr rfl)

theorem syncAttempt_raises : Raises (Blames InitCode) syncAttempt := by
  have hport {α : Type} {x : Act α} (h : Raises (Recorded InitCode) x) : Raises (Blames InitCode) x :=
    h.inside fun _ hc => hc
  have hC : InitCode .transport := .inl rfl
  refine raises_modify_bind (raises_get_bind fun s => raises_modify_bind ?_)
  refine raises_bind (hport (trSetBaud_raises hC _)) fun _ => raises_modify_bind ?_
  refine raises_bind (hport (trBreak_raises hC _ _)) fun _ => raises_modify_bind (raises_modify_bind ?_)
  refine raises_modify_bind (raises_bind (hport (trWrite_raises hC _)) fun _ => raises_modify_bind ?_)
  exact hport (trRead_raises hC _ _)

/-- `LinkInitError` tells the attempts made and what the last one read (40_phy.md R138). -/
theorem linkFailed_raises (r : Option (List Byte)) : Raises (Blames InitCode) (linkFailed r) := fun _ =>
  leads_error rfl ⟨.inr rfl,
    { layer := fun _ => nofun
      unwrapped := rfl
      linkInit := fun _ => ⟨rfl, nofun⟩
      linkTimeout := nofun
      protocolAck := nofun
      nvmBusy := nofun }⟩

theorem syncLoop_raises (more : Nat) : Raises (Blames InitCode) (syncLoop more) := by
  induction more with
  | zero => exact raises_bind syncAttempt_raises fun r => raises_ite (raises_modify _) (linkFailed_raises r)
  | succ more ih => exact raises_bind syncAttempt_raises fun r => raises_ite (raises_modify _) ih

theorem phyInit_raises : Raises (Recorded InitCode) phyInit :=
  raises_inPhy (raises_modify_bind (raises_get_bind fun _ => syncLoop_raises _))

/-! ### DL -/

theorem phySend_sent (bs : List Byte) : Raises (Blames SentCode) (phySend bs) := (phySend_raises bs).inside fun _ h => h

theorem phySend_dl (bs : List Byte) : Raises (Blames DlCode) (phySend bs) :=
  (phySend_raises bs).inside fun _ => SentCode.dl

theorem phyRecv_dl (n timeout : Nat) : Raises (Blames DlCode) (phyRecv n timeout) :=
  (phyRecv_raises n timeout).inside fun _ => SentCode.dl

theorem recvByte_raises : Raises (Recorded SentCode) recvByte :=
  raises_get_bind fun _ => raises_bind (phyRecv_raises _ _) fun _ => raises_pure _

/-- `ProtocolAckError` tells the acknowledge expected and the byte received (41_datalink.md R173). -/
theorem expectAck_raises {phase : Phase} (hphase : phase = .address ∨ phase = .data) :
    Raises (Blames DlCode) (expectAck phase) := by
  refine raises_bind (recvByte_raises.inside fun _ => SentCode.dl) fun b s => ?_
  refine leads_modify_bind (P := fun t => t.dl.ackLast = b) rfl fun t ht => leads_get_bind ?_
  dsimp only
  split
  · exact leads_ok rfl trivial
  · rename_i hwrong
    refine leads_error rfl ⟨.inr (.inr (.inr rfl)), fun _ => nofun, rfl, nofun, nofun, fun _ => ?_, nofun⟩
    exact ⟨hphase.imp (congrArg some) (congrArg some), rfl, by rw [ht], by rw [ht]; exact hwrong⟩

/-- DL enters a state and sends. -/
theorem sendIn_raises {d : DlState} {bs : List Byte} {k : Unit → Act β} (hk : Raises (Blames DlCode) (k ())) :
    Raises (Blames DlCode) (setDlState d >>= fun _ => phySend bs >>= k) :=
  raises_modify_bind (raises_bind (phySend_dl bs) fun _ => hk)

/-- DL enters a state and waits for the acknowledge. -/
theorem ackIn_raises {d : DlState} {phase : Phase} {k : Unit → Act β} (hphase : phase = .address ∨ phase = .data)
    (hk : Raises (Blames DlCode) (k ())) :
    Raises (Blames DlCode) (setDlState d >>= fun _ => expectAck phase >>= k) :=
  raises_modify_bind (raises_bind (expectAck_raises hphase) fun _ => hk)

theorem csRead_raises (a : Nat) : Raises (Recorded SentCode) (csRead a) := by
  refine raises_demand (recorded_refused (.inl rfl)) (raises_inDl SentCode.not_busy (raises_get_bind fun s => ?_))
  refine raises_modify_bind (raises_modify_bind (raises_bind (phySend_sent _) fun _ => raises_modify_bind ?_))
  exact recvByte_raises.inside fun _ h => h

theorem csWrite_raises (a v : Nat) : Raises (Recorded SentCode) (csWrite a v) := by
  refine raises_demand (recorded_refused (.inl rfl)) (raises_inDl SentCode.not_busy (raises_get_bind fun s => ?_))
  exact raises_modify_bind (raises_modify_bind (phySend_sent _))

theorem keyWriteOp_raises (k : List Byte) : Raises (Recorded SentCode) (keyWriteOp k) := by
  refine raises_get_bind fun s => raises_demand (recorded_refused (.inl rfl)) (raises_inDl SentCode.not_busy ?_)
  refine raises_modify_bind (raises_modify_bind (raises_modify_bind ?_))
  exact raises_bind (phySend_sent _) fun _ => raises_modify_bind (phySend_sent _)

/-- An operation of DL behind the check of its arguments (41_datalink.md R171, R174). -/
theorem raises_dlOp {b : Bool} {name : OpName} {addr : State → Option Nat} {x : Act α}
    (h : Raises (Blames DlCode) x) : Raises (Recorded DlCode) (demand b >>= fun _ => inDl name addr x) :=
  raises_demand (recorded_refused (.inl rfl)) (raises_inDl DlCode.not_busy h)

/-- As `raises_dlOp`, for an operation that first sets three of DL's registers. -/
theorem raises_dlBlockOp {b : Bool} {f g h : State → State} {x : Act α} (hx : Raises (Recorded DlCode) x) :
    Raises (Recorded DlCode)
      (demand b >>= fun _ => modify f >>= fun _ => modify g >>= fun _ => modify h >>= fun _ => x) :=
  raises_demand (recorded_refused (.inl rfl)) (raises_modify_bind (raises_modify_bind (raises_modify_bind hx)))

theorem ldsOp_raises (a n : Nat) : Raises (Recorded DlCode) (ldsOp a n) := by
  refine raises_dlOp (raises_get_bind fun s => raises_modify_bind (raises_modify_bind (raises_modify_bind ?_)))
  refine sendIn_raises (raises_modify_bind (raises_bind (phyRecv_dl _ _) fun r => ?_))
  exact raises_modify_bind (raises_pure _)

theorem stsOp_raises (a v n : Nat) : Raises (Recorded DlCode) (stsOp a v n) := by
  refine raises_dlOp (raises_get_bind fun s => raises_modify_bind (raises_modify_bind (raises_modify_bind ?_)))
  refine raises_modify_bind (sendIn_raises (ackIn_raises (.inl rfl) (sendIn_raises (raises_modify_bind ?_))))
  exact expectAck_raises (.inr rfl)

theorem stPtrOp_raises (w p : Nat) : Raises (Recorded DlCode) (stPtrOp w p) := by
  refine raises_dlOp (raises_get_bind fun s => raises_modify_bind (raises_modify_bind ?_))
  exact sendIn_raises (raises_modify_bind (expectAck_raises (.inl rfl)))

theorem ldPtrOp_raises (w : Nat) : Raises (Recorded DlCode) (ldPtrOp w) := by
  refine raises_inDl DlCode.not_busy (raises_get_bind fun s => raises_modify_bind ?_)
  refine sendIn_raises (raises_modify_bind (raises_bind (phyRecv_dl _ _) fun r => ?_))
  exact raises_modify_bind (raises_pure _)

theorem repeatFor_raises (n : Nat) : Raises (Blames DlCode) (repeatFor n) :=
  raises_ite (raises_get_bind fun _ => raises_modify_bind (phySend_dl _)) (raises_pure _)

theorem stIncFirst_raises (v : Byte) : Raises (Blames DlCode) (stIncFirst v) :=
  raises_get_bind fun _ => sendIn_raises (ackIn_raises (.inr rfl) (raises_modify _))

theorem stIncRest_raises (vs : List Byte) : Raises (Blames DlCode) (stIncRest vs) := by
  induction vs with
  | nil => exact raises_pure _
  | cons v vs ih => exact sendIn_raises (ackIn_raises (.inr rfl) (raises_modify_bind ih))

theorem stIncSingles_raises (vs : List Byte) : Raises (Blames DlCode) (stIncSingles vs) := by
  induction vs with
  | nil => exact raises_pure _
  | cons v vs ih => exact raises_bind (stIncFirst_raises v) fun _ => ih

theorem stPtrIncOp_raises (block : List Byte) (rep : Bool) : Raises (Recorded DlCode) (stPtrIncOp block rep) := by
  refine raises_dlBlockOp ?_
  cases block with
  | nil => exact raises_pure _
  | cons v vs =>
    refine raises_inDl DlCode.not_busy (raises_ite ?_ (stIncSingles_raises _))
    exact raises_bind (repeatFor_raises _) fun _ => raises_bind (stIncFirst_raises v) fun _ => stIncRest_raises vs

theorem ldIncAnswers_raises (n : Nat) : Raises (Blames DlCode) (ldIncAnswers n) := by
  refine raises_get_bind fun s => sendIn_raises (raises_modify_bind ?_)
  exact raises_bind (phyRecv_dl _ _) fun _ => raises_modify _

theorem ldIncSingles_raises (n : Nat) : Raises (Blames DlCode) (ldIncSingles n) := by
  induction n with
  | zero => exact raises_pure _
  | succ n ih => exact raises_bind (ldIncAnswers_raises 1) fun _ => ih

theorem respBuf_raises : Raises E (do pure (← get).dl.respBuf : Act (List Byte)) :=
  raises_get_bind fun _ => raises_pure _

theorem ldPtrIncOp_raises (n : Nat) (rep : Bool) : Raises (Recorded DlCode) (ldPtrIncOp n rep) := by
  refine raises_dlBlockOp (raises_ite (raises_pure _) (raises_inDl DlCode.not_busy (raises_ite ?_ ?_)))
  · exact raises_bind (repeatFor_raises n) fun _ => raises_bind (ldIncAnswers_raises n) fun _ => respBuf_raises
  · exact raises_bind (ldIncSingles_raises n) fun _ => respBuf_raises

theorem stIncWire_raises (v : Byte) (more : List Byte) : Raises (Recorded DlCode) (stIncWire v more) :=
  raises_dlBlockOp (raises_inDl DlCode.not_busy
    (raises_bind (stIncFirst_raises v) fun _ => stIncRest_raises more))

theorem ldIncWire_raises (more : Nat) : Raises (Recorded DlCode) (ldIncWire more) :=
  raises_dlBlockOp (raises_inDl DlCode.not_busy
    (raises_bind (ldIncAnswers_raises _) fun _ => respBuf_raises))

theorem repeatWire_raises (n : Nat) : Raises (Recorded DlCode) (repeatWire n) := raises_dlOp (repeatFor_raises n)

/-- The bodies of PHY's and DL's commands and of the wire instructions, but link initialisation. -/
theorem linkBody_raises {i : Instr} (hi : admOf i = .inSession) (hinit : i ≠ .initLink) :
    Raises (Recorded DlCode) (bodyOf i) := by
  have sent {α : Type} {x : Act α} (h : Raises (Recorded SentCode) x) : Raises (Recorded DlCode) x :=
    h.widen fun _ => SentCode.dl
  cases i with
  | ldcs a => exact (sent (csRead_raises _)).oneByte
  | csRead a => exact (sent (csRead_raises a)).oneByte
  | stcs a v => exact (sent (csWrite_raises _ _)).noData
  | csWrite a v => exact (sent (csWrite_raises a v)).noData
  | lds1 a | lds2 a | lds3 a => exact ldsOp_raises _ _
  | lds a n => exact ldsOp_raises a n
  | sts1 a v | sts2 a v | sts3 a v => exact (stsOp_raises _ _ _).noData
  | sts a v n => exact (stsOp_raises a v n).noData
  | stptr1 p | stptr2 p | stptr3 p => exact (stPtrOp_raises _ _).noData
  | stPtr p => exact raises_get_bind fun _ => (stPtrOp_raises _ p).noData
  | ldptr1 | ldptr2 | ldptr3 => exact ldPtrOp_raises _
  | ldPtr => exact raises_get_bind fun _ => ldPtrOp_raises _
  | stinc v more => exact (stIncWire_raises v more).noData
  | stPtrInc block rep => exact (stPtrIncOp_raises block rep).noData
  | ldinc more => exact ldIncWire_raises more
  | ldPtrInc n rep => exact ldPtrIncOp_raises n rep
  | repeatNext n => exact (repeatWire_raises n).noData
  | key k => exact (sent (keyWriteOp_raises k)).noData
  | keyWrite k => exact (sent (keyWriteOp_raises k)).noData
  | sendBytes bs => exact (sent (phySend_raises bs)).noData
  | receiveBytes n timeout => exact sent (phyRecv_raises n timeout)
  | initLink => exact absurd rfl hinit
  | _ => cases hi

end Sys2Proof.Machine
end

section
/-! PROOFS. The error record of the NVM commands and of SES's two operations (60_exceptions.md R282): the ready check
and the caller errors supply their own fields, `open` and `enter_programming_mode` wrap what failed inside them
(43_session.md R260, R263). -/

namespace Sys2Proof.Machine

variable {α β : Type} {i : Instr} {s t u : State} {e : Err} {c : Config} {C W : Code → Prop}

/-! ### NVM -/

/-- No error that wraps another. -/
def PlainCode (c : Code) : Prop := c ≠ .deviceNotResponding ∧ c ≠ .unlock

theorem DlCode.plain {c : Code} (h : DlCode c) : PlainCode c := by
  rcases h with rfl | rfl | rfl | rfl <;> exact ⟨nofun, nofun⟩

theorem InitCode.plain {c : Code} (h : InitCode c) : PlainCode c := by
  rcases h with rfl | rfl <;> exact ⟨nofun, nofun⟩

/-- An operation of DL inside an NVM command. -/
theorem Raises.inNvmCommand {x : Act α} (h : Raises (Recorded DlCode) x) : Raises (Blames PlainCode) x :=
  h.inside fun _ => DlCode.plain

theorem nvm_refused (t : State) : Blames PlainCode { code := .refused, info := {} } t :=
  blames_refused ⟨nofun, nofun⟩ t

/-- A caller error has no fields that a register could contradict. -/
theorem raises_caller {code : Code} {b : ErrBase} (hcode : CallCode code) (hlayer : b.layer = some .nvm) :
    Raises (Blames PlainCode) (raise code b : Act α) := raises_raise fun _ => by
  have hnone : b.layer ≠ none := by simp [hlayer]
  rcases hcode with rfl | rfl | rfl | rfl <;>
    exact ⟨⟨nofun, nofun⟩, fun _ => hnone, rfl, nofun, nofun, nofun, nofun⟩

theorem demandRegs_raises {E : Err → State → Prop} (hE : ∀ s, E { code := .refused, info := {} } s)
    (regs : Config → Profile → List Nat) : Raises E (demandRegs regs) :=
  raises_get_bind fun _ => demand_raises hE _

theorem demandKey_raises : Raises (Blames PlainCode) demandKey :=
  raises_get_bind fun _ => demand_raises nvm_refused _

theorem pagedRegion_raises (region : Nat) : Raises (Blames PlainCode) (pagedRegion region) := by
  refine raises_get_bind fun s => ?_
  cases regionOfCode region with
  | none => exact raises_raise nvm_refused
  | some r =>
    dsimp only
    cases regionPage s.ses.profile r with
    | none => exact raises_raise nvm_refused
    | some page => exact raises_pure _

theorem checkAligned_raises (region offset page : Nat) : Raises (Blames PlainCode) (checkAligned region offset page) :=
  raises_ite (raises_pure _) (raises_caller (.inr (.inl rfl)) rfl)

theorem checkPageSize_raises (region length page : Nat) :
    Raises (Blames PlainCode) (checkPageSize region length page) :=
  raises_ite (raises_pure _) (raises_caller (.inr (.inr (.inl rfl))) rfl)

theorem checkFuseIndex_raises (index : Nat) : Raises (Blames PlainCode) (checkFuseIndex index) :=
  raises_get_bind fun _ => raises_ite (raises_pure _) (raises_caller (.inr (.inr (.inr rfl))) rfl)

theorem nvmExec_raises (code : Config → Byte) : Raises (Blames PlainCode) (nvmExec code) :=
  raises_get_bind fun _ => raises_modify_bind (stsOp_raises _ _ _).inNvmCommand

/-- A status read leaves what it read in `last_status` (42_nvm.md R225). -/
theorem pollOnce_status (s : State) :
    Leads pollOnce s (fun b t => t.nvm.lastStatus = b) (Blames PlainCode) := by
  have hraises : Raises (Blames PlainCode) pollOnce := by
    refine raises_get_bind fun s => raises_modify_bind (raises_bind (ldsOp_raises _ _).inNvmCommand fun r => ?_)
    exact raises_modify_bind (raises_pure _)
  refine ⟨fun b t hok => ?_, (hraises s).2⟩
  obtain ⟨-, hnvm⟩ := (pollOnce_leads s).1 b t hok
  rw [hnvm]
  rfl

/-- `NvmBusyTimeoutError` tells the status register and what it last read (42_nvm.md R225). -/
theorem nvmBusy_blames {b : Byte} (h : s.nvm.lastStatus = b) :
    Leads (nvmBusy b) s (fun _ _ => True) (Blames PlainCode) :=
  leads_get_bind (leads_error rfl ⟨⟨nofun, nofun⟩,
    { layer := fun _ => nofun
      unwrapped := rfl
      linkInit := nofun
      linkTimeout := nofun
      protocolAck := nofun
      nvmBusy := fun _ => ⟨rfl, congrArg some h.symm⟩ }⟩)

theorem pollLoop_raises (fuel : Nat) : Raises (Blames PlainCode) (pollLoop fuel) := by
  induction fuel with
  | zero =>
    refine fun s => leads_bind (pollOnce_status s) fun b t ht => leads_get_bind ?_
    split
    · exact leads_ok rfl trivial
    · exact nvmBusy_blames ht
  | succ fuel ih =>
    refine fun s => leads_bind (pollOnce_status s) fun b t ht => leads_get_bind ?_
    split
    · exact leads_ok rfl trivial
    · split
      · exact nvmBusy_blames ht
      · exact raises_modify_bind (raises_bind (fun s => leads_ok (waitFor_run _ s) trivial) fun _ => ih) t

theorem waitReadyNvm_raises : Raises (Recorded PlainCode) waitReadyNvm :=
  raises_get_bind fun _ => raises_inNvm (raises_modify_bind (pollLoop_raises _))

/-- The command code and the ready check (42_nvm.md R226, R228). -/
theorem nvmExec_ready_raises (code : Config → Byte) :
    Raises (Blames PlainCode) (nvmExec code >>= fun _ => waitReadyNvm) :=
  raises_bind (nvmExec_raises code) fun _ => waitReadyNvm_raises.inside fun _ h => h

theorem storeChunks_raises (bs : List (List Byte)) : Raises (Blames PlainCode) (storeChunks bs) := by
  induction bs with
  | nil => exact raises_pure _
  | cons b bs ih => exact raises_get_bind fun _ => raises_bind (stPtrIncOp_raises _ _).inNvmCommand fun _ => ih

theorem loadChunks_raises (ks : List Nat) : Raises (Blames PlainCode) (loadChunks ks) := by
  induction ks with
  | nil => exact raises_pure _
  | cons k ks ih =>
    refine raises_get_bind fun _ => raises_bind (ldPtrIncOp_raises _ _).inNvmCommand fun _ => ?_
    exact raises_bind ih fun _ => raises_pure _

/-- `NoteNvmOp` raises nothing (43_session.md R265). -/
theorem note_raises {E : Err → State → Prop} {k : Unit → Act β} (hk : Raises E (k ())) :
    Raises E (noteNvmOp >>= k) := raises_modify_bind hk

theorem unlockEraseKey_raises : Raises (Recorded PlainCode) unlockEraseKey := by
  refine raises_inNvm (raises_modify_bind (raises_get_bind fun s => raises_ite (raises_pure _) (note_raises ?_)))
  exact raises_bind ((keyWriteOp_raises _).inside fun _ h => h.dl.plain) fun _ => raises_modify _

theorem waitCommand_raises : Raises (Recorded PlainCode) waitCommand := by
  refine raises_modify_bind (raises_bind (demandRegs_raises (recorded_refused ⟨nofun, nofun⟩) _) fun _ => ?_)
  exact note_raises waitReadyNvm_raises

theorem eraseWhole_raises (name : OpName) (code : Config → Byte) :
    Raises (Recorded PlainCode) (eraseWhole name code) := by
  refine raises_inNvm (raises_modify_bind (raises_bind (demandRegs_raises nvm_refused _) fun _ => ?_))
  exact raises_bind demandKey_raises fun _ => note_raises (nvmExec_ready_raises code)

theorem writePageOp_raises (region offset : Nat) (data : List Byte) :
    Raises (Recorded PlainCode) (writePageOp region offset data) := by
  refine raises_inNvm (raises_modify_bind (raises_bind (pagedRegion_raises region) ?_))
  rintro ⟨r, page⟩
  refine raises_get_bind fun _ => raises_bind (checkAligned_raises _ _ _) fun _ => ?_
  refine raises_bind (checkPageSize_raises _ _ _) fun _ => raises_demand nvm_refused ?_
  refine raises_bind (demandRegs_raises nvm_refused _) fun _ => raises_bind demandKey_raises fun _ => ?_
  refine note_raises (raises_atPlace (raises_modify_bind ?_))
  refine raises_bind (stPtrOp_raises _ _).inNvmCommand fun _ => raises_modify_bind ?_
  exact raises_bind (storeChunks_raises _) fun _ => nvmExec_ready_raises _

theorem erasePageOp_raises (region offset : Nat) : Raises (Recorded PlainCode) (erasePageOp region offset) := by
  refine raises_inNvm (raises_modify_bind (raises_bind (pagedRegion_raises region) ?_))
  rintro ⟨r, page⟩
  refine raises_get_bind fun _ => raises_bind (checkAligned_raises _ _ _) fun _ => raises_demand nvm_refused ?_
  refine raises_bind (demandRegs_raises nvm_refused _) fun _ => raises_bind demandKey_raises fun _ => ?_
  refine note_raises (raises_atPlace (raises_modify_bind ?_))
  exact raises_bind (stsOp_raises _ _ _).inNvmCommand fun _ => nvmExec_ready_raises _

theorem readBytesOp_raises (region offset n : Nat) : Raises (Recorded PlainCode) (readBytesOp region offset n) := by
  refine raises_inNvm (raises_modify_bind (raises_get_bind fun s => ?_))
  cases regionOfCode region with
  | none => exact raises_raise nvm_refused
  | some r =>
    refine raises_demand nvm_refused (raises_ite (raises_pure _) (note_raises (raises_atPlace ?_)))
    refine raises_modify_bind (raises_bind (stPtrOp_raises _ _).inNvmCommand fun _ => raises_modify_bind ?_)
    exact loadChunks_raises _

theorem readFuseOp_raises (index : Nat) : Raises (Recorded PlainCode) (readFuseOp index) := by
  refine raises_inNvm (raises_modify_bind (raises_bind (checkFuseIndex_raises index) fun _ => ?_))
  refine raises_get_bind fun s => raises_demand nvm_refused (note_raises (raises_atPlace ?_))
  exact raises_modify_bind (ldsOp_raises _ _).inNvmCommand

theorem writeFuseOp_raises (index v : Nat) : Raises (Recorded PlainCode) (writeFuseOp index v) := by
  refine raises_inNvm (raises_modify_bind (raises_demand nvm_refused ?_))
  refine raises_bind (checkFuseIndex_raises index) fun _ => raises_get_bind fun s => raises_demand nvm_refused ?_
  refine raises_bind (demandRegs_raises nvm_refused _) fun _ => raises_bind demandKey_raises fun _ => ?_
  refine note_raises (raises_atPlace (raises_modify_bind ?_))
  refine raises_bind (stsOp_raises _ _ _).inNvmCommand fun _ => ?_
  refine raises_bind (stsOp_raises _ _ _).inNvmCommand fun _ => ?_
  exact raises_bind (stsOp_raises _ _ _).inNvmCommand fun _ => nvmExec_ready_raises _

theorem nvmBody_raises (hi : admOf i = .nvmMode) : Raises (Recorded PlainCode) (bodyOf i) := by
  cases i with
  | unlockChipEraseKey => exact unlockEraseKey_raises.noData
  | waitNvmReady => exact waitCommand_raises.noData
  | chipErase | eepromErase => exact (eraseWhole_raises _ _).noData
  | writePage region offset data => exact (writePageOp_raises region offset data).noData
  | readBytes region offset n => exact readBytesOp_raises region offset n
  | readFuse index => exact readFuseOp_raises index
  | writeFuse index v => exact (writeFuseOp_raises index v).noData
  | erasePage region offset => exact (erasePageOp_raises region offset).noData
  | _ => cases hi

/-! ### SES -/

/-- An error of SES that wraps another one, whose code is in `W` (43_session.md R260, R263). -/
structure Wraps (e : Err) (name : OpName) (W : Code → Prop) : Prop where
  layer : e.info.base.layer = some .ses
  op : e.info.base.op = [name]
  status : e.info.base.status = none
  cause : ∃ code b, e.info.cause = some (code, b) ∧ W code ∧ b.layer ≠ none ∧ b.op ≠ []

theorem wraps_wrapped (h : Recorded C e t) (hne : e.code ≠ .refused) (hW : W e.code) (code : Code) (name : OpName) :
    Wraps (e.wrapped code name) name W where
  layer := rfl
  op := rfl
  status := rfl
  cause := ⟨e.code, e.info.base, rfl, hW, h.1.2.layer hne, h.2 hne⟩

/-- The status byte read after the key shows no programming mode (43_session.md R263). -/
structure ShowsNoProgMode (c : Config) (e : Err) : Prop where
  layer : e.info.base.layer = some .ses
  op : e.info.base.op = [.enterProgrammingMode]
  unwrapped : e.info.cause = none
  status : ∃ v, e.info.base.status = some v ∧ v &&& c.progModeMask = 0

/-- What the record of a command's error tells. -/
inductive Told (c : Config) (e : Err) (t : State) : Prop where
  | plain (h : Recorded PlainCode e t)
  | deviceNotResponding (hcode : e.code = .deviceNotResponding)
      (h : Wraps e .openSession fun d => d = .linkInit ∨ d = .linkTimeout)
  | unlockExchange (hcode : e.code = .unlock) (h : Wraps e .enterProgrammingMode (· = .linkTimeout))
  | unlockStatus (hcode : e.code = .unlock) (h : ShowsNoProgMode c e)

/-- A transport error, named on its way up from an exchange whose transport may be closed since. -/
theorem told_transport (h : Recorded C e s) (hcode : e.code = .transport) (name : OpName) (t : State) :
    Told c (e.named name) t := by
  refine .plain ⟨⟨?_, (h.1.2.named name).of_transport hcode t⟩, fun _ => named_op_ne_nil e name⟩
  show PlainCode e.code
  rw [hcode]
  exact ⟨nofun, nofun⟩

/-- What establishing the link raises inside `open`. -/
def LinkStartCode (c : Code) : Prop := c = .transport ∨ c = .linkInit ∨ c = .linkTimeout

theorem openWrites_raises (ws : List (CsAddr × Byte)) : Raises (Recorded LinkStartCode) (openWrites ws) := by
  have hsent : Raises (Recorded SentCode) (openWrites ws) := by
    induction ws with
    | nil => exact raises_pure _
    | cons w ws ih => exact raises_bind (csWrite_raises _ _) fun _ => ih
  have hlink : Raises (fun e _ => LinkCode e.code) (openWrites ws) :=
    raises_of_stays (openWrites_stays inert_true.exch.over ws)
  refine fun s => ((hsent s).and_error (hlink s)).mono (fun _ _ h => h) ?_
  rintro e t ⟨⟨⟨hcode, hsup⟩, hop⟩, hlink⟩
  refine ⟨⟨?_, hsup⟩, hop⟩
  rcases hcode with hcode | hcode | hcode
  · rw [hcode] at hlink
    simp [LinkCode] at hlink
  · exact .inl hcode
  · exact .inr (.inr hcode)

theorem establish_raises {x : Act Unit} (h : Raises (Recorded LinkStartCode) x) : Raises (Told c) (establish x) :=
  fun s => by
  cases hr : x s with
  | ok a u => exact leads_ok (a := ()) (by simp only [establish, hr]; rfl) trivial
  | error e u =>
    have hrec := (h s).2 e u hr
    rcases hrec.1.1 with hcode | hcode
    · exact leads_error (by simp only [establish, hr, hcode, if_true]; rfl) (told_transport hrec hcode _ _)
    · have hcode' : e.code ≠ .transport ∧ e.code ≠ .refused := by
        rcases hcode with hcode | hcode <;> rw [hcode] <;> exact ⟨nofun, nofun⟩
      exact leads_error (by simp only [establish, hr, hcode'.1, if_false]; rfl)
        (.deviceNotResponding rfl (wraps_wrapped hrec hcode'.2 hcode _ _))

theorem acquire_raises (port baud : Nat) : Raises (Told c) (acquire port baud) := fun s => by
  cases hr : trOpen port baud s with
  | ok a u => exact leads_ok (a := ()) (by simp only [acquire, hr]; rfl) trivial
  | error e u =>
    have hrun : acquire port baud s =
        .error { code := .transport, info := { base := { layer := some .ses, op := [.openSession] } } } u := by
      simp only [acquire, hr]
    refine leads_error hrun (.plain ⟨⟨⟨nofun, nofun⟩, ?_⟩, fun _ => nofun⟩)
    exact ⟨fun _ => nofun, rfl, nofun, nofun, nofun, nofun⟩

theorem openOp_raises (p : Profile) (port : Nat) : Raises (Told c) (openOp p port) := by
  refine raises_get_bind fun s => raises_demand (fun t => .plain (recorded_refused ⟨nofun, nofun⟩ t)) ?_
  refine raises_bind (acquire_raises _ _) fun _ => raises_modify_bind ?_
  refine raises_bind (establish_raises ?_) fun _ => raises_modify_bind (raises_modify _)
  exact raises_bind (phyInit_raises.widen fun _ h => h.imp_right .inl) fun _ => openWrites_raises _

/-- The exchange of `enter_programming_mode`: its arguments are in their domain. -/
theorem enterExchange_told {k : List Byte} {a : CsAddr} (hk : k.length = s.cfg.keyLen) :
    Leads (unlockExchange (keyWriteOp k >>= fun _ => csRead a.toNat)) s (fun _ _ => True) (Told c) := by
  have hlink : Leads (keyWriteOp k >>= fun _ => csRead a.toNat) s (fun _ _ => True) fun e _ => LinkCode e.code :=
    leads_bind (Q := fun _ _ => True)
      ⟨fun _ _ _ => trivial, fun e t he => ((inert_true.exch.keyWriteOp trivial hk).2 e t he).2⟩
      fun _ t _ => raises_of_stays (inert_true.exch.csRead (Nat.le_of_lt_succ a.isLt)) t
  have hsent : Raises (Recorded SentCode) (keyWriteOp k >>= fun _ => csRead a.toNat) :=
    raises_bind (keyWriteOp_raises k) fun _ => csRead_raises _
  cases hr : (keyWriteOp k >>= fun _ => csRead a.toNat) s with
  | ok v u => exact leads_ok (a := v) (by simp only [unlockExchange, hr]; rfl) trivial
  | error e u =>
    have hrec := (hsent s).2 e u hr
    rcases hrec.1.1 with hcode | hcode | hcode
    · have hno : LinkCode e.code := hlink.2 e u hr
      rw [hcode] at hno
      simp [LinkCode] at hno
    · exact leads_error (by simp only [unlockExchange, hr, hcode, if_true]; rfl) (told_transport hrec hcode _ _)
    · exact leads_error (by simp only [unlockExchange, hr, hcode, if_false, reduceCtorEq]; rfl)
        (.unlockExchange rfl (wraps_wrapped hrec (by rw [hcode]; exact nofun) hcode _ _))

theorem enterOp_told (hk : s.ses.profile.keyProg.length = s.cfg.keyLen) :
    Leads enterOp s (fun _ _ => True) (Told s.cfg) := by
  refine leads_get_bind (leads_bind (enterExchange_told hk) fun v t _ => ?_)
  cases hshows : showsProgMode s.cfg v with
  | true => exact leads_ok rfl trivial
  | false =>
    have hmask : v &&& s.cfg.progModeMask = 0 := by simpa [showsProgMode] using hshows
    exact leads_error rfl (.unlockStatus rfl ⟨rfl, rfl, rfl, v, rfl, hmask⟩)

/-! ### Instructions -/

/-- Every error of an admitted instruction's body. -/
theorem body_told (hinv : Inv s) (hal : allowed i s.ses.sesState = true) :
    Leads (bodyOf i) s.accepted (fun _ _ => True) (Told s.cfg) := by
  rcases admOf_cases i with hadm | hadm | rfl | rfl | rfl | ⟨r, rfl⟩ | ⟨p, port, rfl⟩
  · by_cases hinit : i = .initLink
    · subst hinit
      exact (phyInit_raises.widen fun _ => InitCode.plain).noData.mono (fun _ _ => Told.plain) _
    · exact ((linkBody_raises hadm hinit).widen fun _ => DlCode.plain).mono (fun _ _ => Told.plain) _
  · exact (nvmBody_raises hadm).mono (fun _ _ => Told.plain) _
  · exact leads_ok rfl trivial
  · exact leads_ok rfl trivial
  · have hmode := allowed_enter hal
    obtain ⟨-, -, -, -, -, -, hk, -⟩ := profileValid_iff.mp (hinv.profileOk_of_mode (by rw [hmode]; exact nofun))
    exact leads_noData (P := fun _ => True) (enterOp_told (s := s.accepted) hk)
  · obtain ⟨u, hclose, -⟩ := closeBody_left r s.accepted
    exact leads_ok (noData_ok hclose) trivial
  · exact (openOp_raises p port).noData _

/-! ### The record delivered (60_exceptions.md R284, R288) -/

/-- The forced cleanup keeps the registers a record speaks of; DL's it puts back (R290). -/
theorem Supplied.delivered (h : Supplied e u) (hne : e.code ≠ .refused) (cleans : Bool) :
    Supplied e (u.deliver cleans e) := by
  have hidle : Supplied e u.sequencersIdle := h.moved rfl rfl rfl rfl rfl
  unfold State.deliver
  rw [if_neg hne]
  split
  · have hleft := forcedCleanup_left u.sequencersIdle
    have hpolls := forcedCleanup_samePolls u.sequencersIdle
    exact hidle.moved hleft.cfg hleft.profile hleft.syncAttempt rfl hpolls.status
  · exact hidle.moved rfl rfl rfl rfl rfl

theorem Told.delivered (h : Told c e u) (hne : e.code ≠ .refused) (cleans : Bool) :
    Told c e (u.deliver cleans e) := by
  cases h with
  | plain h => exact .plain ⟨⟨h.1.1, h.1.2.delivered hne cleans⟩, h.2⟩
  | deviceNotResponding hcode h => exact .deviceNotResponding hcode h
  | unlockExchange hcode h => exact .unlockExchange hcode h
  | unlockStatus hcode h => exact .unlockStatus hcode h

theorem deliver_rsp (hne : e.code ≠ .refused) (cleans : Bool) : (u.deliver cleans e).rsp =
    { busy := false, rspStatus := codeByte e.code, rspData := [], rspInfo := e.info } := by
  unfold State.deliver
  rw [if_neg hne]
  split <;> rfl

/-- A response that is neither `OK` nor `REFUSED` is that of an error, whose record stands in `rsp_info`. -/
theorem exec_told (hinv : Inv s) (h : exec i s = .next t) (hok : t.rsp.rspStatus ≠ 0x00)
    (hrefused : t.rsp.rspStatus ≠ 0xFF) :
    ∃ e, Failed t (codeByte e.code) e.info ∧ e.code ≠ .refused ∧ Told s.cfg e t := by
  cases hal : allowed i s.ses.sesState with
  | false =>
    cases (exec_of_not_allowed hinv.notBusy hal).symm.trans h
    exact absurd rfl hrefused
  | true =>
    cases hrun : bodyOf i s.accepted with
    | ok data u =>
      cases (exec_of_body_ok hinv.notBusy hal hrun).symm.trans h
      exact absurd rfl hok
    | error e u =>
      cases (exec_of_body_error hinv.notBusy hal hrun).symm.trans h
      have hne : e.code ≠ .refused := fun hcode =>
        hrefused ((deliver_rspStatus _ _ _).trans (congrArg codeByte hcode))
      exact ⟨e, deliver_rsp hne _, hne, ((body_told hinv hal).2 e u hrun).delivered hne _⟩

/-! ### The record read by its code -/

/-- The outcomes in the order of 60_exceptions.md R281. -/
def Code.all : List Code :=
  [.ok, .transport, .linkInit, .linkTimeout, .protocolAck, .nvmBusyTimeout, .alignment, .invalidPageSize,
    .invalidFuseIndex, .verification, .deviceNotResponding, .unlock, .parse, .refused]

theorem find_codeByte (d : Code) : Code.all.find? (codeByte · == codeByte d) = some d := by
  cases d <;> rfl

/-- The code is read back from `rsp_status`. -/
theorem codeByte_injective : Function.Injective codeByte := fun d d' h =>
  Option.some.inj ((find_codeByte d).symm.trans (h ▸ find_codeByte d'))

theorem Told.layer (h : Told c e t) (hne : e.code ≠ .refused) : e.info.base.layer ≠ none := by
  cases h with
  | plain h => exact h.1.2.layer hne
  | deviceNotResponding _ h => simp [h.layer]
  | unlockExchange _ h => simp [h.layer]
  | unlockStatus _ h => simp [h.layer]

theorem Told.op (h : Told c e t) (hne : e.code ≠ .refused) : e.info.base.op ≠ [] := by
  cases h with
  | plain h => exact h.2 hne
  | deviceNotResponding _ h => simp [h.op]
  | unlockExchange _ h => simp [h.op]
  | unlockStatus _ h => simp [h.op]

theorem Told.supplied (h : Told c e t) (hcode : PlainCode e.code) : Supplied e t := by
  cases h with
  | plain h => exact h.1.2
  | deviceNotResponding hdevice _ => exact absurd hdevice hcode.1
  | unlockExchange hunlock _ => exact absurd hunlock hcode.2
  | unlockStatus hunlock _ => exact absurd hunlock hcode.2

theorem Told.wraps_link (h : Told c e t) (hcode : e.code = .deviceNotResponding) :
    Wraps e .openSession fun d => d = .linkInit ∨ d = .linkTimeout := by
  cases h with
  | plain h => exact absurd hcode h.1.1.1
  | deviceNotResponding _ h => exact h
  | unlockExchange hunlock _ => cases hcode.symm.trans hunlock
  | unlockStatus hunlock _ => cases hcode.symm.trans hunlock

theorem Told.unlock (h : Told c e t) (hcode : e.code = .unlock) :
    ShowsNoProgMode c e ∨ Wraps e .enterProgrammingMode (· = .linkTimeout) := by
  cases h with
  | plain h => exact absurd hcode h.1.1.2
  | deviceNotResponding hdevice _ => cases hcode.symm.trans hdevice
  | unlockExchange _ h => exact .inr h
  | unlockStatus _ h => exact .inl h

theorem isOpen_of_endsReady (h : endsReady i = true) : isOpen i = false := by
  cases i with
  | openSession p port => cases h
  | _ => rfl

end Sys2Proof.Machine

namespace Sys2Proof.Proofs

open Sys2Proof.Machine

/-- Settles O20: the record is that of the error the body raised (`exec_told`), read by its code; what it says of
registers, the parameters and the profile is said of `t`, which has kept those of `s`. -/
theorem errorRecord : Obligations.ErrorRecord := by
  intro s t i hinv h hok hrefused
  obtain ⟨e, hrsp, hne, htold⟩ := exec_told hinv h hok hrefused
  obtain ⟨hcfg, -, -, -, hkept, -⟩ := whatNoCommandChanges s t i hinv h
  have hidle : SequencersIdle t := (exec_keepsInv hinv h).1.idle
  have hbusy := (readyMeansAnIdleRead s t i hinv h).2
  rw [Failed] at hrsp
  rw [hrsp] at hbusy ⊢
  have supplied {d : Code} (hd : codeByte e.code = codeByte d) (hplain : PlainCode d) : e.code = d ∧ Supplied e t :=
    have hcode := codeByte_injective hd
    ⟨hcode, htold.supplied (hcode ▸ hplain)⟩
  refine ⟨hidle, rfl, htold.layer hne, htold.op hne, fun hstatus => ?_, fun hstatus => ?_, fun hstatus => ?_,
    fun hstatus => ?_, fun hstatus => ?_, fun hstatus => ?_, fun hdevice hunlock => ?_⟩
  · obtain ⟨hcode, hsup⟩ := supplied (d := .linkInit) hstatus ⟨nofun, nofun⟩
    exact hsup.linkInit hcode
  · obtain ⟨hcode, hsup⟩ := supplied (d := .linkTimeout) hstatus ⟨nofun, nofun⟩
    exact hsup.linkTimeout hcode
  · obtain ⟨hcode, hsup⟩ := supplied (d := .protocolAck) hstatus ⟨nofun, nofun⟩
    exact hcfg ▸ hsup.protocolAck hcode
  · obtain ⟨hcode, hsup⟩ := supplied (d := .nvmBusyTimeout) hstatus ⟨nofun, nofun⟩
    obtain ⟨hprofile, -⟩ := hkept (isOpen_of_endsReady (hbusy hstatus).1)
    exact hcfg ▸ hprofile ▸ hsup.nvmBusy hcode
  · obtain ⟨hlayer, hop, -, hcause⟩ := htold.wraps_link (codeByte_injective (a₂ := .deviceNotResponding) hstatus)
    exact ⟨hlayer, hop, hcause⟩
  · rcases htold.unlock (codeByte_injective (a₂ := .unlock) hstatus) with
      ⟨hlayer, hop, hunwrapped, hread⟩ | ⟨hlayer, hop, hread, d, b, hcause, rfl, hb⟩
    · exact ⟨hlayer, hop, .inl ⟨hunwrapped, hread⟩⟩
    · exact ⟨hlayer, hop, .inr ⟨hread, b, hcause, hb⟩⟩
  · refine (htold.supplied ⟨fun hcode => hdevice ?_, fun hcode => hunlock ?_⟩).unwrapped
    · exact congrArg codeByte hcode
    · exact congrArg codeByte hcode

end Sys2Proof.Proofs
end
